-- ==== Sys2Proof/Word.lean ====
section
/-! DEFINITION. The words that both ports carry, and the tables of fixed size. -/

namespace Sys2Proof

/-- One byte of a message or of a frame. -/
abbrev Byte := BitVec 8

/-- A field of two bytes. -/
abbrev Half := BitVec 16

/-- A field of four bytes: hut times and counter values (00 section 7). -/
abbrev Quad := BitVec 32

/-- Entry `i` of a table. -/
def vget {α : Type} {n : Nat} (v : Vector α n) (i : Fin n) : α := v[i.val]

/-- The table with entry `i` replaced. -/
def vset {α : Type} {n : Nat} (v : Vector α n) (i : Fin n) (x : α) : Vector α n := v.set i.val x

/-- The table with every entry mapped. -/
def vmap {α β : Type} {n : Nat} (f : α → β) (v : Vector α n) : Vector β n :=
  ⟨(v.toList.map f).toArray, by simp⟩

end Sys2Proof
end

