-- ==== Sys2Proof/Config.lean ====
section
/-! DEFINITION. What the spec leaves open: the free values, which nothing can evaluate, and the pin levels chosen for State.reset. -/

namespace Sys2Proof.Config

/-- FREE VALUE (log entry 7, DESIGN CHOICE). The byte that stands for In Service in the point state field of a Read Point
reply: 11 section 11.7 names the field and no table of chapter 11 encodes it. -/
opaque inServiceByte : Byte

/-- FREE VALUE (log entry 8, DESIGN CHOICE). What LSDO shifts out at clock `j` of the `n`-th transaction that a reset
hold cuts, where clock `j` comes after a completion of reset: R159 gives the bits up to the hold and R181 the zeros of the
hold; no rule gives the bits of an abandoned transaction after it. -/
opaque cutTransactionBit : Nat → Nat → Bool

/-- The straps ADDR0 to ADDR7 at State.reset (log entry 10, DESIGN CHOICE: the spec gives the pins no level). -/
def resetStraps : Byte := 1#8

/-- WCAR and ECAR asserted at State.reset (log entry 10, DESIGN CHOICE: the spec gives the pins no level). -/
def resetCarrier : Bool := true

end Sys2Proof.Config
end

