-- ==== Sys2Proof/Syntax.lean ====
section
/-! DEFINITION. The commands of the block: one constructor of `Instr` for each row of spec/opcode_table.json. -/

namespace Sys2Proof

/-- The two halves of the route link (00 section 6). -/
inductive Side where
  | west
  | east
  deriving DecidableEq, Repr

/-- What the header of a request frame says, and the side it arrives on (11 section 11.2). -/
structure RouteHeader where
  side : Side
  destination : Byte
  source : Byte
  hop : BitVec 6
  tag : Byte
  deriving DecidableEq, Repr

/-- The port a request arrives at: the local port, or the route link with the header of the frame that carries it. -/
inductive Origin where
  | localPort
  | route (header : RouteHeader)
  deriving DecidableEq, Repr

/-- One reading of a Reading request: point, fault mark (0 unmarked), value (11 section 11.6). -/
structure RawReading where
  point : Byte
  fault : Byte
  value : Half
  deriving DecidableEq, Repr

/-- The 23 bytes of Define Point, field by field (11 section 11.6). -/
structure RawPoint where
  point : Byte
  source : Byte
  line : Byte
  activeLevel : Byte
  group : Byte
  retirement : Byte
  thresholdsPresent : Byte
  lowThreshold : Half
  highThreshold : Half
  hysteresis : Half
  capacity : Half
  weighting : Byte
  weight : Byte
  severityLow : Byte
  severityHigh : Byte
  severityStale : Byte
  severityFault : Byte
  staleInterval : Half
  deriving DecidableEq, Repr

/-- The seven bytes of Define Group (11 section 11.6). -/
structure RawGroup where
  group : Byte
  depth : Byte
  reopen : Byte
  refillExponent : Byte
  bypass : Byte
  mode : Byte
  stormSeverity : Byte
  deriving DecidableEq, Repr

/-- The two bytes of a key: a point or group number, and the kind (11 section 11.1). In an index-form target or cursor the
first byte is the index and the second is not examined (R184). -/
structure RawKey where
  number : Byte
  kind : Byte
  deriving DecidableEq, Repr

/-- The six bytes of List Walk (11 section 11.6). -/
structure RawWalk where
  list : Byte
  group : Byte
  count : Byte
  cursorForm : Byte
  cursor : RawKey
  deriving DecidableEq, Repr

/-- A decoded request with its body fields as carried; their values are judged by the owner (R184, R187). -/
inductive Request where
  | reading (readings : List RawReading)
  | definePoint (body : RawPoint)
  | withdrawPoint (point : Byte)
  | readPoint (point : Byte)
  | shelvePoint (point : Byte) (minutes : Half)
  | unshelvePoint (point : Byte)
  | defineGroup (body : RawGroup)
  | readGroup (group : Byte)
  | lookUp (key : RawKey)
  | readRecord (index : Byte)
  | listWalk (body : RawWalk)
  | summary
  | acknowledge (form : Byte) (target : RawKey) (tag : Half)
  | acknowledgeGroup (group limit : Byte) (tag : Half)
  | setCounterSelection (group counter : Byte) (eventMask : Half) (severityMask measure : Byte)
  | readCounters (group : Byte)
  | clearCounters (group : Byte)
  | readLinkCounters (clear : Byte)
  | setTime (time : Quad)
  | wakeHut
  | readNotices
  | peekNotices
  | setNoticeEnables (enables : Byte)
  | setHutSettings (noticeLevel wakeLevel : Byte)
  | enterDormant
  | restart
  deriving DecidableEq, Repr

/-- The owners of the countdowns that a second tick lowers (R171). -/
inductive TickOwner where
  | stale
  | shelve
  | refill
  | settle
  deriving DecidableEq, Repr

/-- The levels that the completion of power-on or of the reset pin reads: the straps ADDR0 to ADDR7 (R142) and the carrier
pins, asserted or not (R158). -/
structure ResetPins where
  straps : Byte
  westCarrier : Bool
  eastCarrier : Bool
  deriving DecidableEq, Repr

/-- Where the reset holds lie in a transaction that a hold cuts (log entry 8): the clocks given before the first of them begins
(0 where LSEL_N fell in a hold), and, clock by clock after those, whether the clock falls in a hold. A clock that `held` does
not list falls in none. -/
structure HoldCut where
  before : Nat
  held : List Bool
  deriving DecidableEq, Repr

/-- The commands. A request's row carries the port it arrives at and its body fields (log entry 1). -/
inductive Instr where
  | reading (origin : Origin) (readings : List RawReading)
  | definePoint (origin : Origin) (body : RawPoint)
  | withdrawPoint (origin : Origin) (point : Byte)
  | readPoint (origin : Origin) (point : Byte)
  | shelvePoint (origin : Origin) (point : Byte) (minutes : Half)
  | unshelvePoint (origin : Origin) (point : Byte)
  | defineGroup (origin : Origin) (body : RawGroup)
  | readGroup (origin : Origin) (group : Byte)
  | lookUp (origin : Origin) (key : RawKey)
  | readRecord (origin : Origin) (index : Byte)
  | listWalk (origin : Origin) (body : RawWalk)
  | summary (origin : Origin)
  | acknowledge (origin : Origin) (form : Byte) (target : RawKey) (tag : Half)
  | acknowledgeGroup (origin : Origin) (group limit : Byte) (tag : Half)
  | setCounterSelection (origin : Origin) (group counter : Byte) (eventMask : Half) (severityMask measure : Byte)
  | readCounters (origin : Origin) (group : Byte)
  | clearCounters (origin : Origin) (group : Byte)
  | readLinkCounters (origin : Origin) (clear : Byte)
  | setTime (origin : Origin) (time : Quad)
  | wakeHut (origin : Origin)
  | readNotices (origin : Origin)
  | peekNotices (origin : Origin)
  | setNoticeEnables (origin : Origin) (enables : Byte)
  | setHutSettings (origin : Origin) (noticeLevel wakeLevel : Byte)
  | enterDormant (origin : Origin)
  | restart (origin : Origin)
  /-- The bits clocked in on LSDI between the fall and the rise of LSEL_N (R159). `cut` says where a reset hold began or ended
  in between, if one did (R163, R181). -/
  | localTransaction (lsdi : List Bool) (cut : Option HoldCut)
  /-- Bytes that arrive on a side (R144); the bytes of one frame are one frame arrival (log entry 13). -/
  | frameArrival (side : Side) (bytes : List Byte)
  | transmissionCompletion (side : Side)
  | carrierLoss (side : Side)
  | carrierReturn (side : Side)
  /-- A scan tick, with the levels of CL0 to CL15 at it: bit n is line n, 1 is High (R50). -/
  | scanTick (lines : BitVec 16)
  /-- A second tick; the owners of countdowns act in the order listed, those not listed after them (R171, log entry 4). -/
  | secondTick (order : List TickOwner)
  | staleCountdownExpiry (point : Fin 64)
  | shelveExpiry (point : Fin 64)
  | refill (group : Fin 8)
  | settleExpiry
  | powerOn
  | powerOnCompletion (pins : ResetPins)
  | resetPinAssert
  | resetPinRelease (pins : ResetPins)
  deriving DecidableEq, Repr

end Sys2Proof
end

