-- ==== Sys2Proof/Machine/State.lean ====
section
/-! DEFINITION. The state of the block, block by block as 00 section 3 lists it, and the state after power-on. Plain data. -/

namespace Sys2Proof.Machine

/-- A point number (R23). -/
abbrev PointId := Fin 64

/-- A group number (00 section 6). -/
abbrev GroupId := Fin 8

/-- A record index (R1). -/
abbrev RecordIx := Fin 168

/-- Severities 1 to 4 (00 section 7). -/
inductive Severity where
  | warning
  | minor
  | major
  | critical
  deriving DecidableEq, Repr

/-- A bypass severity or a wake level: a severity, or the value 5, which no severity meets (00 section 7). -/
inductive Bar where
  | atLeast (severity : Severity)
  | never
  deriving DecidableEq, Repr

/-- The four kinds of condition of a point (R36). -/
inductive Kind where
  | low
  | high
  | stale
  | fault
  deriving DecidableEq, Repr

/-- A point key (00 section 7). -/
structure PointKey where
  point : PointId
  kind : Kind
  deriving DecidableEq, Repr

/-- A key: of a point, or the storm key of a group (00 section 7). -/
inductive Key where
  | point (key : PointKey)
  | storm (group : GroupId)
  deriving DecidableEq, Repr

/-- The states of a record (R2). -/
inductive RecordState where
  | free
  | idle
  | standing
  | acknowledged
  | cleared
  deriving DecidableEq, Repr

/-- By whom an acknowledgement was taken (R5). -/
inductive AckBy where
  | localPort
  | routeLink
  deriving DecidableEq, Repr

/-- The acknowledgement of a record (R5). -/
structure Ack where
  taker : AckBy
  tag : Half
  time : Quad
  deriving DecidableEq, Repr

/-- A condition record (R2 to R5). -/
structure Record where
  state : RecordState
  key : Option Key
  severity : Severity
  raiseTime : Quad
  repeats : Byte
  peak : Option Half
  clearTime : Option Quad
  ack : Option Ack
  deriving DecidableEq, Repr

/-- The Record Table (R1, R7 to R10, R20, R74). -/
structure RecordTable where
  records : Vector Record 168
  free : List RecordIx
  standing : List RecordIx
  acknowledged : List RecordIx
  cleared : List RecordIx
  poolWait : List PointKey
  changeCount : Half
  deriving DecidableEq, Repr

/-- The states of a point key (R37). -/
inductive KeyState where
  | quiet
  | raised
  | cleared
  | held
  | waiting
  | folded
  deriving DecidableEq, Repr

/-- The pending value of a key that waits (R36): the severity and, for a Low or High key, the reading. -/
structure Pending where
  severity : Severity
  value : Option Half
  deriving DecidableEq, Repr

/-- A key entry (R36). -/
structure KeyEntry where
  state : KeyState
  link : Option RecordIx
  pending : Option Pending
  deriving DecidableEq, Repr

/-- The four key entries of a point (R36). -/
structure Keys where
  low : KeyEntry
  high : KeyEntry
  stale : KeyEntry
  fault : KeyEntry
  deriving DecidableEq, Repr

/-- Where a point's samples come from (R24). -/
inductive Source where
  | reading
  | contact (line : Fin 16) (activeHigh : Bool)
  | carrier (side : Side)
  deriving DecidableEq, Repr

/-- What a clear event does to a live record (R25). -/
inductive Retirement where
  | selfRetiring
  | latched
  deriving DecidableEq, Repr

/-- The weighting of samples (R27): Count with drain weight D, Magnitude with shift k. -/
inductive Weighting where
  | count (drain : Nat)
  | magnitude (shift : Nat)
  deriving DecidableEq, Repr

/-- The definition of a point (R24 to R29). -/
structure Definition where
  source : Source
  group : GroupId
  retirement : Retirement
  lowThreshold : Option Half
  highThreshold : Option Half
  hysteresis : Nat
  capacity : Nat
  weighting : Weighting
  severityLow : Severity
  severityHigh : Severity
  severityStale : Severity
  severityFault : Severity
  staleInterval : Nat
  deriving DecidableEq, Repr

/-- A point entry (R23). The point is In Service exactly while it has a definition. -/
structure PointEntry where
  defn : Option Definition
  keys : Keys
  lowBucket : Nat
  highBucket : Nat
  stale : Option Nat
  shelve : Nat
  deriving DecidableEq, Repr

/-- What a governor does with an attempt it turns away (R93). -/
inductive GovernorMode where
  | hold
  | fold
  deriving DecidableEq, Repr

/-- The definition of a governor (R93). -/
structure GovernorDef where
  depth : Nat
  reopen : Nat
  refillExponent : Nat
  bypass : Bar
  mode : GovernorMode
  stormSeverity : Severity
  deriving DecidableEq, Repr

/-- Open or Closed (R96). -/
inductive Gate where
  | opened
  | closed
  deriving DecidableEq, Repr

/-- A storm governor (05 section 5.1). The folded count is the number of keys in `folded`. -/
structure Governor where
  defn : GovernorDef
  gate : Gate
  tokens : Nat
  refill : Nat
  held : List PointKey
  folded : List PointKey
  deriving DecidableEq, Repr

/-- What a taken event adds to a counter (R131). -/
inductive Measure where
  | events
  | seconds
  deriving DecidableEq, Repr

/-- A group counter (R131). The masks have the bit order of 11 section 11.1. -/
structure Counter where
  value : Quad
  eventMask : BitVec 9
  severityMask : BitVec 4
  measure : Measure
  deriving DecidableEq, Repr

/-- Whether a frame asks or answers (08 section 8.2). -/
inductive FrameKind where
  | request
  | reply
  deriving DecidableEq, Repr

/-- A frame of the route link (08 section 8.2); its sync, length and check are computed when it is sent. -/
structure Frame where
  destination : Byte
  source : Byte
  kind : FrameKind
  hop : BitVec 6
  tag : Byte
  code : Byte
  body : List Byte
  deriving DecidableEq, Repr

/-- The seven link counters of a side (R156). -/
structure LinkCounters where
  received : Quad
  forwarded : Quad
  taken : Quad
  badCheck : Quad
  hopExpired : Quad
  overflow : Quad
  flushed : Quad
  deriving DecidableEq, Repr

/-- One side of the route link: carrier present or not, transmit queue with its head in transmission, the bytes of the frame
in reception from its sync byte on (none while the receiver hunts), link counters (R144, R151, R153, R156). -/
structure SideState where
  carrier : Bool
  queue : List Frame
  reception : List Byte
  counters : LinkCounters
  deriving DecidableEq, Repr

/-- The Route Relay (08 section 8.1). -/
structure Relay where
  address : Byte
  west : SideState
  east : SideState
  deriving DecidableEq, Repr

/-- The statuses of a reply (11 section 11.8). -/
inductive Status where
  | done
  | notFound
  | pending
  | alreadyAcked
  | cursorLost
  | pointVacant
  | pointInService
  | lineInUse
  | badThresholds
  | groupInUse
  | noticePending
  | badField
  | notPermitted
  | unknownCode
  | badBodyLength
  | malformed
  | asleep
  deriving DecidableEq, Repr

/-- A reply: its status and its body (R161). -/
structure Reply where
  status : Status
  body : List Byte
  deriving DecidableEq, Repr

/-- The Local Port: the reply slot, none for Empty (R161), and the bits that the last transaction shifted out on LSDO (R159). -/
structure LocalPort where
  slot : Option Reply
  lsdo : List Bool
  deriving DecidableEq, Repr

/-- The Notice Unit (09 section 9.3). Flags and enables have the bit order of the flag set of 11 section 11.1. -/
structure NoticeUnit where
  flags : BitVec 8
  enables : BitVec 8
  level : Severity
  deriving DecidableEq, Repr

/-- The operating modes (R174). -/
inductive Mode where
  | watch
  | settling
  | dormant
  | waking
  deriving DecidableEq, Repr

/-- The cause in a wake cause record (R179): Raise with the record, RouteWake with the source hut, Local. -/
inductive WakeCause where
  | raise (record : RecordIx)
  | routeWake (source : Byte)
  | localPort
  deriving DecidableEq, Repr

/-- A wake cause record (R179). -/
structure WakeRecord where
  cause : WakeCause
  time : Quad
  deriving DecidableEq, Repr

/-- Time Base and Mode Control (10 section 10.1). -/
structure TimeBase where
  hutTime : Quad
  mode : Mode
  settle : Option Nat
  wakeLevel : Bar
  wakeRecord : Option WakeRecord
  deriving DecidableEq, Repr

/-- The state of the block. The last two fields are the model's own: the counter of free values drawn (log entry 8), and the
queue of commands that wait, first in, first out. -/
structure State where
  rt : RecordTable
  pt : Vector PointEntry 64
  cs : BitVec 16
  sg : Vector Governor 8
  gc : Vector (Vector Counter 4) 8
  rr : Relay
  lp : LocalPort
  nu : NoticeUnit
  tb : TimeBase
  powerHold : Bool
  resetLow : Bool
  freeDraws : Nat
  pending : List Instr
  deriving DecidableEq, Repr

/-- No command of this block faults: the spec answers with a status or discards, and names no fault (log entry 6). Nobody
raises a fault, so the type has no constructor. -/
inductive Fault where
  deriving DecidableEq, Repr

/-- Why a command has no meaning. -/
inductive Refusal where
  /-- Raised by an arm of `exec` whose command has no meaning yet: safe. No arm of this model raises it. -/
  | notModelled (mnemonic : String)
  deriving DecidableEq, Repr

/-! ## Reset values, block by block -/

/-- A record with no life: R22 for its fields, Free for a pool record and Idle for a storm record. -/
def Record.reset (state : RecordState) : Record :=
  { state, key := none, severity := .warning, raiseTime := 0#32, repeats := 0#8, peak := none, clearTime := none, ack := none }

/-- The Record Table after every reset (R7, R22). -/
def RecordTable.reset : RecordTable :=
  { records := Vector.replicate 160 (Record.reset .free) ++ Vector.replicate 8 (Record.reset .idle)
    free := (List.range 160).map (Fin.ofNat 168)
    standing := []
    acknowledged := []
    cleared := []
    poolWait := []
    changeCount := 0#16 }

/-- A Quiet key (R37). -/
def KeyEntry.quiet : KeyEntry := { state := .quiet, link := none, pending := none }

/-- Four Quiet keys. -/
def Keys.quiet : Keys := { low := .quiet, high := .quiet, stale := .quiet, fault := .quiet }

/-- A Vacant entry (R23). -/
def PointEntry.vacant : PointEntry :=
  { defn := none, keys := .quiet, lowBucket := 0, highBucket := 0, stale := none, shelve := 0 }

/-- The Point Table after power-on and the reset pin (R43). -/
def PointTable.reset : Vector PointEntry 64 := Vector.replicate 64 .vacant

/-- The power-on definition of a governor (R93). -/
def GovernorDef.reset : GovernorDef :=
  { depth := 4, reopen := 2, refillExponent := 2, bypass := .atLeast .critical, mode := .hold, stormSeverity := .minor }

/-- A governor after power-on and the reset pin (R109). -/
def Governor.reset : Governor :=
  { defn := .reset, gate := .opened, tokens := 4, refill := 4, held := [], folded := [] }

/-- A counter after power-on and the reset pin (R131, R141). -/
def Counter.reset : Counter := { value := 0#32, eventMask := 0#9, severityMask := 0#4, measure := .events }

/-- Link counters at 0 (R158). -/
def LinkCounters.zero : LinkCounters :=
  { received := 0#32, forwarded := 0#32, taken := 0#32, badCheck := 0#32, hopExpired := 0#32, overflow := 0#32, flushed := 0#32 }

/-- A side after power-on and the reset pin, its carrier taken from its pin (R158). -/
def SideState.reset (carrier : Bool) : SideState := { carrier, queue := [], reception := [], counters := .zero }

/-- The relay after power-on and the reset pin, for the pins read at the completion (R142, R158). -/
def Relay.reset (pins : ResetPins) : Relay :=
  { address := pins.straps, west := .reset pins.westCarrier, east := .reset pins.eastCarrier }

/-- The Notice Unit after power-on and the reset pin: every enable on, level 1, Ready set (bit 0), Link set (bit 6) when a
carrier is lost (R170). -/
def NoticeUnit.reset (pins : ResetPins) : NoticeUnit :=
  { flags := if pins.westCarrier && pins.eastCarrier then 0x01#8 else 0x41#8, enables := 0xFF#8, level := .warning }

/-- TB after power-on and the reset pin, with the hut time given: Watch, no settle countdown, wake level 3, no wake cause
record (R181). -/
def TimeBase.reset (hutTime : Quad) : TimeBase :=
  { hutTime, mode := .watch, settle := none, wakeLevel := .atLeast .major, wakeRecord := none }

/-- The block right after power-on has completed (R181), with the pins read at the completion. The bits of LSDO and the
counter of free values have the values of log entries 18 and 8. -/
def State.afterPowerOn (pins : ResetPins) : State :=
  { rt := .reset
    pt := PointTable.reset
    cs := 0#16
    sg := Vector.replicate 8 .reset
    gc := Vector.replicate 8 (Vector.replicate 4 .reset)
    rr := .reset pins
    lp := { slot := none, lsdo := [] }
    nu := .reset pins
    tb := .reset 0#32
    powerHold := false
    resetLow := false
    freeDraws := 0
    pending := [] }

/-- The block right after reset; the pins are those of log entry 10. -/
def State.reset : State :=
  State.afterPowerOn { straps := Config.resetStraps, westCarrier := Config.resetCarrier, eastCarrier := Config.resetCarrier }

end Sys2Proof.Machine
end

