-- ==== Sys2Proof/Machine/Flags.lean ====
section
/-! DEFINITION. The notice flags, the notice level and the two output lines ATTN and WAKE. -/

namespace Sys2Proof.Machine

/-- The number of a severity, 1 to 4 (00 section 7). -/
def Severity.level : Severity → Nat
  | .warning => 1
  | .minor => 2
  | .major => 3
  | .critical => 4

/-- Whether the first severity is greater than or equal to the second. -/
def Severity.meets (s level : Severity) : Bool := decide (level.level ≤ s.level)

/-- Whether a severity meets a bypass severity or a wake level: 5 is met by none (00 section 7). -/
def Bar.metBy : Bar → Severity → Bool
  | .atLeast level, s => s.meets level
  | .never, _ => false

/-- The eight notices (09 section 9.3). -/
inductive Notice where
  | ready
  | raised
  | storm
  | reopened
  | poolFull
  | shelveExpired
  | link
  | woken
  deriving DecidableEq, Repr

/-- The bit of a notice in the flag set (11 section 11.1). -/
def Notice.mask : Notice → BitVec 8
  | .ready => 0x01#8
  | .raised => 0x02#8
  | .storm => 0x04#8
  | .reopened => 0x08#8
  | .poolFull => 0x10#8
  | .shelveExpired => 0x20#8
  | .link => 0x40#8
  | .woken => 0x80#8

/-- Whether a notice flag is set. -/
def State.noticeSet (s : State) (n : Notice) : Bool := decide (s.nu.flags &&& n.mask ≠ 0#8)

/-- An event sets its own flag alone, whatever its enable (R164, R165). -/
def setNotice (n : Notice) (s : State) : State := { s with nu := { s.nu with flags := s.nu.flags ||| n.mask } }

/-- Whether either carrier is lost: the condition of Link (R164). -/
def State.carrierLost (s : State) : Bool := !s.rr.west.carrier || !s.rr.east.carrier

/-- The level flags whose condition holds: PoolFull while the pool wait list is not empty, Link while either carrier is lost
(R164). -/
def State.standingConditions (s : State) : BitVec 8 :=
  (if s.rt.poolWait.isEmpty then 0#8 else Notice.poolFull.mask) ||| (if s.carrierLost then Notice.link.mask else 0#8)

/-- What Read Notices leaves of the flags it returned: an edge flag is cleared, a level flag is kept while its condition holds
(R167). -/
def readNotices (s : State) : State := { s with nu := { s.nu with flags := s.nu.flags &&& s.standingConditions } }

/-- Whether a flag is set whose enable is on (R165, R175). -/
def State.enabledNotice (s : State) : Bool := decide (s.nu.flags &&& s.nu.enables ≠ 0#8)

/-- Whether the part is held in reset: through the hold of power-on, and while RST_N is low (R181). -/
def State.inHold (s : State) : Bool := s.powerHold || s.resetLow

/-- The ATTN line: an enabled flag is set; deasserted during a hold (R165, R181). -/
def State.attn (s : State) : Bool := !s.inHold && s.enabledNotice

/-- The WAKE line: asserted in every mode but Dormant, and during a hold (R174, R181). -/
def State.wake (s : State) : Bool := s.inHold || decide (s.tb.mode ≠ .dormant)

end Sys2Proof.Machine
end

