-- ==== Sys2Proof/Machine/Ops.lean ====
section
/-! DEFINITION. Reading and writing the tables, the delivery of table events, wake causes and counters: the operations that the
mechanisms share. -/

namespace Sys2Proof.Machine

/-! ## Names -/

/-- Every point, in ascending order. -/
def allPoints : List PointId := (List.range 64).map (Fin.ofNat 64)

/-- Every group, in ascending order. -/
def allGroups : List GroupId := (List.range 8).map (Fin.ofNat 8)

/-- The kinds in the order Low, High, Stale, Fault (R40). -/
def allKinds : List Kind := [.low, .high, .stale, .fault]

/-- Whether a record is a pool record (R1). -/
def isPool (i : RecordIx) : Bool := decide (i.val < 160)

/-- Storm record 160 + g (R1). -/
def stormIx (g : GroupId) : RecordIx := ⟨160 + g.val, by omega⟩

/-- The record states that are live (R2). -/
def RecordState.live : RecordState → Bool
  | .free => false
  | .idle => false
  | .standing => true
  | .acknowledged => true
  | .cleared => true

/-- The kinds whose keys have a peak and whose attempts carry a reading (R4, R69). -/
def Kind.hasValue : Kind → Bool
  | .low => true
  | .high => true
  | .stale => false
  | .fault => false

/-! ## Access -/

/-- Record `i`. -/
def State.record (s : State) (i : RecordIx) : Record := vget s.rt.records i

/-- The entry of a point. -/
def State.point (s : State) (p : PointId) : PointEntry := vget s.pt p

/-- The governor of a group. -/
def State.governor (s : State) (g : GroupId) : Governor := vget s.sg g

/-- The four counters of a group. -/
def State.counters (s : State) (g : GroupId) : Vector Counter 4 := vget s.gc g

/-- The key entry of a kind. -/
def Keys.get (k : Keys) : Kind → KeyEntry
  | .low => k.low
  | .high => k.high
  | .stale => k.stale
  | .fault => k.fault

/-- The four key entries with one replaced. -/
def Keys.set (k : Keys) (kind : Kind) (e : KeyEntry) : Keys :=
  match kind with
  | .low => { k with low := e }
  | .high => { k with high := e }
  | .stale => { k with stale := e }
  | .fault => { k with fault := e }

/-- The key entry of a point key. -/
def State.key (s : State) (k : PointKey) : KeyEntry := (s.point k.point).keys.get k.kind

/-- Replace a record. -/
def putRecord (i : RecordIx) (r : Record) (s : State) : State :=
  { s with rt := { s.rt with records := vset s.rt.records i r } }

/-- Replace a point entry. -/
def putPoint (p : PointId) (e : PointEntry) (s : State) : State := { s with pt := vset s.pt p e }

/-- Replace a key entry. -/
def putKey (k : PointKey) (e : KeyEntry) (s : State) : State :=
  putPoint k.point { s.point k.point with keys := (s.point k.point).keys.set k.kind e } s

/-- Replace a governor. -/
def putGovernor (g : GroupId) (x : Governor) (s : State) : State := { s with sg := vset s.sg g x }

/-- Advance the change count, which wraps (R20). -/
def advance (n : Nat) (s : State) : State :=
  { s with rt := { s.rt with changeCount := s.rt.changeCount + BitVec.ofNat 16 n } }

/-- The point state In Service (R23). -/
def PointEntry.inService (e : PointEntry) : Bool := e.defn.isSome

/-- Whether a point is shelved (R118). -/
def State.shelved (s : State) (p : PointId) : Bool := decide (0 < (s.point p).shelve)

/-- Whether the point of a key is shelved; a storm key has no point (R78, R79). -/
def State.keyShelved (s : State) : Key → Bool
  | .point k => s.shelved k.point
  | .storm _ => false

/-- The group of a point key: the Group field of its point (R25). A key of a Vacant point never reaches here (R39); log
entry 15 says what an unreachable state gives. -/
def State.groupOf (s : State) (k : PointKey) : GroupId :=
  match (s.point k.point).defn with
  | some d => d.group
  | none => 0

/-- The group of a key (R19). -/
def State.keyGroup (s : State) : Key → GroupId
  | .point k => s.groupOf k
  | .storm g => g

/-- The pending value of a key that waits (R36); log entry 15 says what an unreachable state gives. -/
def State.pendingOf (s : State) (k : PointKey) : Pending :=
  match (s.key k).pending with
  | some v => v
  | none => { severity := .warning, value := none }

/-- The severity that a definition gives for a kind (R28). -/
def Definition.severity (d : Definition) : Kind → Severity
  | .low => d.severityLow
  | .high => d.severityHigh
  | .stale => d.severityStale
  | .fault => d.severityFault

/-- A 32-bit counter that saturates (00 section 7, R136). -/
def satAdd (v : Quad) (n : Nat) : Quad := BitVec.ofNat 32 (min (v.toNat + n) 4294967295)

/-! ## Table events -/

/-- The nine table events (R131). -/
inductive EventKind where
  | raised
  | cleared
  | retired
  | acknowledged
  | held
  | released
  | absorbed
  | folded
  | stormClosed
  deriving DecidableEq, Repr

/-- The bit of an event in an event mask (11 section 11.1). -/
def EventKind.bit : EventKind → Nat
  | .raised => 0
  | .cleared => 1
  | .retired => 2
  | .acknowledged => 3
  | .held => 4
  | .released => 5
  | .absorbed => 6
  | .folded => 7
  | .stormClosed => 8

/-- The cause of a Held event (R19). -/
inductive HeldCause where
  | pool
  | storm
  deriving DecidableEq, Repr

/-- A table event (R19). The key class is that of the key. -/
structure TableEvent where
  kind : EventKind
  group : GroupId
  key : Key
  severity : Option Severity
  record : Option RecordIx
  time : Quad
  duration : Option Nat
  cause : Option HeldCause
  deriving DecidableEq, Repr

/-- The live duration of a record at a hut time: a signed 32-bit difference, a negative one taken as 0 (R3, R135). -/
def Record.duration (r : Record) (now : Quad) : Nat :=
  let d := now - r.raiseTime
  if d.msb then 0 else d.toNat

/-- Whether a severity mask holds a severity: bit 0 is severity 1 (11 section 11.1). -/
def severityInMask (m : BitVec 4) (s : Severity) : Bool := m.getLsbD (s.level - 1)

/-- Whether a counter takes an event: StormClosed passes whatever the severity mask (R133). -/
def Counter.takes (c : Counter) (e : TableEvent) : Bool :=
  c.eventMask.getLsbD e.kind.bit &&
    (match e.kind, e.severity with
      | .stormClosed, _ => true
      | _, some sev => severityInMask c.severityMask sev
      | _, none => false)

/-- What a taken event adds: 1 under Events, the duration under Seconds (R134, R135). -/
def Counter.amount (c : Counter) (e : TableEvent) : Nat :=
  match c.measure with
  | .events => 1
  | .seconds => e.duration.getD 0

/-- A counter after an event of its group (R133 to R136). -/
def Counter.count (c : Counter) (e : TableEvent) : Counter :=
  if c.takes e then { c with value := satAdd c.value (c.amount e) } else c

/-- GC counts an event with the four counters of its group and no other (R132, R137). -/
def countEvent (e : TableEvent) (s : State) : State :=
  { s with gc := vset s.gc e.group (vmap (fun c => c.count e) (s.counters e.group)) }

/-- The rule of the Raised notice for a severity and a shelving (R78, R166). -/
def raisedNotice (sev : Severity) (shelved : Bool) (s : State) : State :=
  if sev.meets s.nu.level && !shelved then setNotice .raised s else s

/-- NU reacts to a table event: Raised by its rule, StormClosed sets Storm, Held of cause Pool sets PoolFull, the others set
nothing (R164). -/
def noticeEvent (e : TableEvent) (s : State) : State :=
  match e.kind with
  | .raised =>
    match e.severity with
    | some sev => raisedNotice sev (s.keyShelved e.key) s
    | none => s
  | .stormClosed => setNotice .storm s
  | .held => if e.cause = some .pool then setNotice .poolFull s else s
  | .cleared | .retired | .acknowledged | .released | .absorbed | .folded => s

/-! ## Wake causes -/

/-- A stale countdown on an entry to Watch: reloaded if it is above 0 (R66). -/
def PointEntry.reloadStale (e : PointEntry) : PointEntry :=
  match e.defn, e.stale with
  | some d, some (_ + 1) => { e with stale := some d.staleInterval }
  | _, _ => e

/-- The entry to Watch, with the reload of the stale countdowns (R66, R176, R177). -/
def enterWatch (s : State) : State :=
  { s with tb := { s.tb with mode := .watch, settle := none }, pt := vmap PointEntry.reloadStale s.pt }

/-- The wake cause record, replaced whole (R179). -/
def writeWakeRecord (c : WakeCause) (s : State) : State :=
  { s with tb := { s.tb with wakeRecord := some { cause := c, time := s.tb.hutTime } } }

/-- A wake cause in Settling or Dormant; in Watch and Waking it has no mode effect (R178). A local transaction in Waking is
not this one: it completes the wake (R162). -/
def wakeCause (c : WakeCause) (s : State) : State :=
  match s.tb.mode with
  | .settling => setNotice .woken (writeWakeRecord c (enterWatch s))
  | .dormant => setNotice .woken (writeWakeRecord c { s with tb := { s.tb with mode := .waking } })
  | .watch => s
  | .waking => s

/-- TB judges a severity against the wake level; a shelved point wakes no one (R178). -/
def judgeWake (i : RecordIx) (sev : Severity) (shelved : Bool) (s : State) : State :=
  if s.tb.wakeLevel.metBy sev && !shelved then wakeCause (.raise i) s else s

/-- TB reacts to a table event: a Raised event alone is judged (R79). -/
def wakeEvent (e : TableEvent) (s : State) : State :=
  match e.kind, e.severity, e.record with
  | .raised, some sev, some i => judgeWake i sev (s.keyShelved e.key) s
  | _, _, _ => s

/-- The delivery of a table event to GC, NU and TB (R19). -/
def issue (e : TableEvent) (s : State) : State := wakeEvent e (noticeEvent e (countEvent e s))

/-- An event about a record, with the record's severity and the present hut time (R19). -/
def recordEvent (kind : EventKind) (k : Key) (i : RecordIx) (sev : Severity) (duration : Option Nat) (s : State) : TableEvent :=
  { kind, group := s.keyGroup k, key := k, severity := some sev, record := some i, time := s.tb.hutTime, duration, cause := none }

/-- An event about a key that has no record, with the severity it carries (R73, R87, R98, R100). -/
def keyEvent (kind : EventKind) (k : PointKey) (sev : Severity) (cause : Option HeldCause) (s : State) : TableEvent :=
  { kind, group := s.groupOf k, key := .point k, severity := some sev, record := none, time := s.tb.hutTime, duration := none, cause }

/-- The unshelve offers of a point: its Standing records in list order, each judged for the Raised notice and for wake as not
shelved; no table event (R121). -/
def unshelveOffers (p : PointId) (s : State) : State :=
  (s.rt.standing.filter fun i =>
      match (s.record i).key with
      | some (.point k) => k.point = p
      | _ => false).foldl
    (fun s i => judgeWake i (s.record i).severity false (raisedNotice (s.record i).severity false s)) s

end Sys2Proof.Machine
end

