-- ==== Sys2Proof/Machine/Operands.lean ====
section
/-! DEFINITION. The judgement of request fields by their owners: from the bytes carried to the things they name (R184), and the
layout of the fields in replies (11 sections 11.1 and 11.7). -/

namespace Sys2Proof.Machine

/-! ## Fields of requests -/

/-- A point number 0 to 63 (R23). -/
def pointNumber (b : Byte) : Option PointId := if h : b.toNat < 64 then some ⟨b.toNat, h⟩ else none

/-- A group number 0 to 7. -/
def groupNumber (b : Byte) : Option GroupId := if h : b.toNat < 8 then some ⟨b.toNat, h⟩ else none

/-- A record index 0 to 167 (R1). -/
def recordNumber (b : Byte) : Option RecordIx := if h : b.toNat < 168 then some ⟨b.toNat, h⟩ else none

/-- A severity 1 to 4. -/
def severityOf (b : Byte) : Option Severity :=
  match b.toNat with
  | 1 => some .warning
  | 2 => some .minor
  | 3 => some .major
  | 4 => some .critical
  | _ => none

/-- A bypass severity or a wake level 1 to 5. -/
def barOf (b : Byte) : Option Bar := if b = 5#8 then some .never else (severityOf b).map .atLeast

/-- A point kind byte: 0 Low, 1 High, 2 Stale, 3 Fault (11 section 11.1). -/
def kindOf (b : Byte) : Option Kind :=
  match b.toNat with
  | 0 => some .low
  | 1 => some .high
  | 2 => some .stale
  | 3 => some .fault
  | _ => none

/-- A key, refused on the grounds of R111: a point number above 63, a group number above 7 in a storm key, a kind byte above 4. -/
def keyOf (k : RawKey) : Option Key :=
  if k.kind = 4#8 then (groupNumber k.number).map .storm
  else do
    let kind ← kindOf k.kind
    let p ← pointNumber k.number
    some (.point { point := p, kind })

/-- A source byte with the line and the active level it needs; those of another source are not examined (R31, R184). -/
def sourceOf (r : RawPoint) : Option Source :=
  match r.source.toNat with
  | 0 => some .reading
  | 1 => if h : r.line.toNat < 16 then some (.contact ⟨r.line.toNat, h⟩ (r.activeLevel != 0#8)) else none
  | 2 => some (.carrier .west)
  | 3 => some (.carrier .east)
  | _ => none

/-- A retirement byte. -/
def retirementOf (b : Byte) : Option Retirement :=
  match b.toNat with
  | 0 => some .selfRetiring
  | 1 => some .latched
  | _ => none

/-- A weighting byte with its drain weight, not 0, or its shift, at most 7 (R31). -/
def weightingOf (r : RawPoint) : Option Weighting :=
  match r.weighting.toNat with
  | 0 => if r.weight = 0#8 then none else some (.count r.weight.toNat)
  | 1 => if r.weight.toNat ≤ 7 then some (.magnitude r.weight.toNat) else none
  | _ => none

/-- The form that a source requires of the rest of the definition: a Contact or Carrier point has no threshold, no stale interval
and no Magnitude weighting (R31). -/
def Definition.formOk (d : Definition) : Bool :=
  match d.source with
  | .reading => true
  | .contact _ _ | .carrier _ =>
    d.lowThreshold.isNone && d.highThreshold.isNone && decide (d.staleInterval = 0) &&
      (match d.weighting with
        | .count _ => true
        | .magnitude _ => false)

/-- The definition that a Define Point carries, or nothing when a field is out of its range or breaks the form of its source
(R31). -/
def definitionOf (r : RawPoint) : Option (PointId × Definition) := do
  let p ← pointNumber r.point
  let source ← sourceOf r
  let group ← groupNumber r.group
  let retirement ← retirementOf r.retirement
  let weighting ← weightingOf r
  let severityLow ← severityOf r.severityLow
  let severityHigh ← severityOf r.severityHigh
  let severityStale ← severityOf r.severityStale
  let severityFault ← severityOf r.severityFault
  if r.hysteresis.toNat ≤ 4095 ∧ 1 ≤ r.capacity.toNat ∧ r.capacity.toNat ≤ 4095 then
    let d : Definition :=
      { source, group, retirement
        lowThreshold := if r.thresholdsPresent.getLsbD 0 then some r.lowThreshold else none
        highThreshold := if r.thresholdsPresent.getLsbD 1 then some r.highThreshold else none
        hysteresis := r.hysteresis.toNat, capacity := r.capacity.toNat, weighting
        severityLow, severityHigh, severityStale, severityFault, staleInterval := r.staleInterval.toNat }
    if d.formOk then some (p, d) else none
  else none

/-- Thresholds that bound a valid pair of bands, each bound computed exactly (R33). -/
def Definition.thresholdsOk (d : Definition) : Bool :=
  (match d.lowThreshold, d.highThreshold with
    | some lo, some hi => decide (lo.toInt < hi.toInt)
    | _, _ => true) &&
  (match d.highThreshold with
    | some hi => decide (-32768 ≤ hi.toInt - d.hysteresis)
    | none => true) &&
  (match d.lowThreshold with
    | some lo => decide (lo.toInt + d.hysteresis ≤ 32767)
    | none => true)

/-- A governor mode byte. -/
def governorModeOf (b : Byte) : Option GovernorMode :=
  match b.toNat with
  | 0 => some .hold
  | 1 => some .fold
  | _ => none

/-- The definition that a Define Group carries, or nothing when a field is out of its range (R94). -/
def governorDefOf (r : RawGroup) : Option (GroupId × GovernorDef) := do
  let g ← groupNumber r.group
  let bypass ← barOf r.bypass
  let mode ← governorModeOf r.mode
  let stormSeverity ← severityOf r.stormSeverity
  if 1 ≤ r.depth.toNat ∧ r.depth.toNat ≤ 15 ∧ 1 ≤ r.reopen.toNat ∧ r.reopen.toNat ≤ r.depth.toNat ∧ r.refillExponent.toNat ≤ 7 then
    some (g, { depth := r.depth.toNat, reopen := r.reopen.toNat, refillExponent := r.refillExponent.toNat, bypass, mode, stormSeverity })
  else none

/-- A measure byte. -/
def measureOf (b : Byte) : Option Measure :=
  match b.toNat with
  | 0 => some .events
  | 1 => some .seconds
  | _ => none

/-- A counter number 0 to 3. -/
def counterNumber (b : Byte) : Option (Fin 4) := if h : b.toNat < 4 then some ⟨b.toNat, h⟩ else none

/-! ## Fields of replies, most significant byte first (00 section 7) -/

/-- The two bytes of a field. -/
def halfBytes (h : Half) : List Byte := [h.extractLsb' 8 8, h.extractLsb' 0 8]

/-- The four bytes of a field. -/
def quadBytes (q : Quad) : List Byte := [q.extractLsb' 24 8, q.extractLsb' 16 8, q.extractLsb' 8 8, q.extractLsb' 0 8]

/-- A number sent in one byte. -/
def natByte (n : Nat) : Byte := BitVec.ofNat 8 n

/-- A number sent in two bytes. -/
def natHalf (n : Nat) : List Byte := halfBytes (BitVec.ofNat 16 n)

/-- A number sent in four bytes. -/
def natQuad (n : Nat) : List Byte := quadBytes (BitVec.ofNat 32 n)

/-- Yes or no sent as 1 or 0. -/
def boolByte (b : Bool) : Byte := if b then 1#8 else 0#8

def Severity.byte (s : Severity) : Byte := natByte s.level

/-- A bypass severity or wake level 1 to 5. -/
def Bar.byte : Bar → Byte
  | .atLeast s => s.byte
  | .never => 5#8

def Kind.byte : Kind → Byte
  | .low => 0#8
  | .high => 1#8
  | .stale => 2#8
  | .fault => 3#8

/-- The two bytes of a key (11 section 11.1). -/
def Key.bytes : Key → List Byte
  | .point k => [natByte k.point.val, k.kind.byte]
  | .storm g => [natByte g.val, 4#8]

/-- The byte of a record index. -/
def indexByte (i : RecordIx) : Byte := natByte i.val

def RecordState.byte : RecordState → Byte
  | .free => 0#8
  | .idle => 1#8
  | .standing => 2#8
  | .acknowledged => 3#8
  | .cleared => 4#8

def KeyState.byte : KeyState → Byte
  | .quiet => 0#8
  | .raised => 1#8
  | .cleared => 2#8
  | .held => 3#8
  | .waiting => 4#8
  | .folded => 5#8

def Mode.byte : Mode → Byte
  | .watch => 0#8
  | .settling => 1#8
  | .dormant => 2#8
  | .waking => 3#8

def AckBy.byte : AckBy → Byte
  | .localPort => 0#8
  | .routeLink => 1#8

def Retirement.byte : Retirement → Byte
  | .selfRetiring => 0#8
  | .latched => 1#8

/-- Weighting and weight (11 section 11.6). -/
def Weighting.bytes : Weighting → List Byte
  | .count drain => [0#8, natByte drain]
  | .magnitude shift => [1#8, natByte shift]

/-- Source, line and active level; the last two are 0 for a source that is not Contact (R184). -/
def Source.bytes : Source → List Byte
  | .reading => [0#8, 0#8, 0#8]
  | .contact line activeHigh => [1#8, natByte line.val, boolByte activeHigh]
  | .carrier .west => [2#8, 0#8, 0#8]
  | .carrier .east => [3#8, 0#8, 0#8]

def GovernorMode.byte : GovernorMode → Byte
  | .hold => 0#8
  | .fold => 1#8

def Gate.byte : Gate → Byte
  | .opened => 0#8
  | .closed => 1#8

def Measure.byte : Measure → Byte
  | .events => 0#8
  | .seconds => 1#8

/-- The status codes (11 section 11.8). -/
def Status.byte : Status → Byte
  | .done => 0#8
  | .notFound => 1#8
  | .pending => 2#8
  | .alreadyAcked => 3#8
  | .cursorLost => 4#8
  | .pointVacant => 5#8
  | .pointInService => 6#8
  | .lineInUse => 7#8
  | .badThresholds => 8#8
  | .groupInUse => 9#8
  | .noticePending => 10#8
  | .badField => 16#8
  | .notPermitted => 17#8
  | .unknownCode => 18#8
  | .badBodyLength => 19#8
  | .malformed => 20#8
  | .asleep => 21#8

/-- The point state In Service in a Read Point reply: the free value of log entry 7. -/
def inServiceByte : Byte := Config.inServiceByte

/-! ## Replies -/

/-- A reply without a body: every status but Done and Pending has an empty body (11 section 11.5). -/
def Reply.bare (status : Status) : Reply := { status, body := [] }

/-- A Done reply. -/
def Reply.done (body : List Byte) : Reply := { status := .done, body }

/-- A Pending reply: the key state, and the pending severity, 0 for a Folded key (11 section 11.5). -/
def pendingReply (e : KeyEntry) : Reply :=
  { status := .pending
    body := [e.state.byte, match e.pending with
      | some v => v.severity.byte
      | none => 0#8] }

end Sys2Proof.Machine
end

