-- ==== Sys2Proof/Machine/Counters.lean ====
section
/-! DEFINITION. The requests of the Group Counters: Set Counter Selection, Read Counters, Clear Counters. -/

namespace Sys2Proof.Machine

/-- A counter replaced. -/
def putCounter (g : GroupId) (j : Fin 4) (c : Counter) (s : State) : State :=
  { s with gc := vset s.gc g (vset (s.counters g) j c) }

/-- A counter of a group. -/
def State.counter (s : State) (g : GroupId) (j : Fin 4) : Counter := vget (s.counters g) j

/-- An event mask with no bit above bit 8 (R138, R184). -/
def eventMaskOf (m : Half) : Option (BitVec 9) := if m.toNat < 512 then some (m.extractLsb' 0 9) else none

/-- A severity mask with no bit above bit 3 (R138, R184). -/
def severityMaskOf (m : Byte) : Option (BitVec 4) := if m.toNat < 16 then some (m.extractLsb' 0 4) else none

/-- Set Counter Selection: the selection replaced whole, the value kept (R138). -/
def serveSetCounterSelection (gb jb : Byte) (em : Half) (sm mb : Byte) (s : State) : State × Reply :=
  match groupNumber gb, counterNumber jb, eventMaskOf em, severityMaskOf sm, measureOf mb with
  | some g, some j, some eventMask, some severityMask, some measure =>
    (putCounter g j { s.counter g j with eventMask, severityMask, measure } s, .done [])
  | _, _, _, _, _ => (s, .bare .badField)

/-- Counter numbers in ascending order. -/
def allCounters : List (Fin 4) := [0, 1, 2, 3]

/-- A counter in a Read Counters reply: event mask, severity mask, measure, value (11 section 11.7). -/
def counterBytes (c : Counter) : List Byte :=
  halfBytes (c.eventMask.setWidth 16) ++ [c.severityMask.setWidth 8, c.measure.byte] ++ quadBytes c.value

/-- Read Counters (R139). -/
def serveReadCounters (gb : Byte) (s : State) : State × Reply :=
  match groupNumber gb with
  | none => (s, .bare .badField)
  | some g => (s, .done ([natByte g.val] ++ allCounters.flatMap fun j => counterBytes (s.counter g j)))

/-- The four values of a group set to 0 together (R140). -/
def clearCounters (g : GroupId) (s : State) : State :=
  { s with gc := vset s.gc g (vmap (fun c => { c with value := 0#32 }) (s.counters g)) }

/-- Clear Counters: the values as they stood, then 0 (R140). -/
def serveClearCounters (gb : Byte) (s : State) : State × Reply :=
  match groupNumber gb with
  | none => (s, .bare .badField)
  | some g => (clearCounters g s, .done ([natByte g.val] ++ allCounters.flatMap fun j => quadBytes (s.counter g j).value))

end Sys2Proof.Machine
end

