-- ==== Sys2Proof/Machine/RecordTable.lean ====
section
/-! DEFINITION. The record transitions of chapter 1 and the pool wait list of chapter 4. -/

namespace Sys2Proof.Machine

/-- A record put at the tail of the Standing list; it is on no other list (R8). -/
def toStanding (i : RecordIx) (s : State) : State :=
  { s with rt := { s.rt with
      standing := s.rt.standing.erase i ++ [i]
      acknowledged := s.rt.acknowledged.erase i
      cleared := s.rt.cleared.erase i } }

/-- A record moved to the tail of the Acknowledged list (R9). -/
def toAcknowledged (i : RecordIx) (s : State) : State :=
  { s with rt := { s.rt with
      standing := s.rt.standing.erase i
      acknowledged := s.rt.acknowledged.erase i ++ [i]
      cleared := s.rt.cleared.erase i } }

/-- A record moved to the tail of the Cleared list (R10). -/
def toCleared (i : RecordIx) (s : State) : State :=
  { s with rt := { s.rt with
      standing := s.rt.standing.erase i
      acknowledged := s.rt.acknowledged.erase i
      cleared := s.rt.cleared.erase i ++ [i] } }

/-- A record taken off its live list (R17). -/
def offLists (i : RecordIx) (s : State) : State :=
  { s with rt := { s.rt with
      standing := s.rt.standing.erase i
      acknowledged := s.rt.acknowledged.erase i
      cleared := s.rt.cleared.erase i } }

/-- A pool record put at the tail of the Free list (R7). -/
def toFree (i : RecordIx) (s : State) : State := { s with rt := { s.rt with free := s.rt.free ++ [i] } }

/-- The record of a new life for a point key (R11). -/
def newRecord (k : PointKey) (v : Pending) (now : Quad) : Record :=
  { state := .standing, key := some (.point k), severity := v.severity, raiseTime := now, repeats := 0#8
    peak := if k.kind.hasValue then v.value else none, clearTime := none, ack := none }

/-- Allocation of record `i` to a key with the value it carries (R11): Standing tail, key Raised and linked, change count, Raised
event. -/
def allocate (i : RecordIx) (k : PointKey) (v : Pending) (s : State) : State :=
  let s1 := putRecord i (newRecord k v s.tb.hutTime) s
  let s2 := putKey k { state := .raised, link := some i, pending := none } (toStanding i s1)
  let s3 := advance 1 s2
  issue (recordEvent .raised (.point k) i v.severity none s3) s3

/-- The place of a key on the pool wait list: behind every key of severity greater than or equal to its own, ahead of every
key of less (R73). -/
def insertBySeverity (severityOf : PointKey → Severity) (k : PointKey) (sev : Severity) : List PointKey → List PointKey
  | [] => [k]
  | x :: rest => if (severityOf x).meets sev then x :: insertBySeverity severityOf k sev rest else k :: x :: rest

/-- A key joins the pool wait list: pending value, Waiting, its place by severity, change count, Held of cause Pool (R73). -/
def joinPoolWait (k : PointKey) (v : Pending) (s : State) : State :=
  let wait := insertBySeverity (fun x => (s.pendingOf x).severity) k v.severity s.rt.poolWait
  let s1 := putKey k { state := .waiting, link := none, pending := some v } { s with rt := { s.rt with poolWait := wait } }
  let s2 := advance 1 s1
  issue (keyEvent .held k v.severity (some .pool) s2) s2

/-- Allocation for an attempt that has been admitted or has bypassed: the head of the Free list, or the pool wait list (R72). -/
def allocateOrWait (k : PointKey) (v : Pending) (s : State) : State :=
  match s.rt.free with
  | i :: rest => allocate i k v { s with rt := { s.rt with free := rest } }
  | [] => joinPoolWait k v s

/-- The hand-over of a retired pool record to the head of the pool wait list: exit, Released, allocation (R17, R76). -/
def handOver (i : RecordIx) (k : PointKey) (rest : List PointKey) (s : State) : State :=
  let v := s.pendingOf k
  let s1 := advance 1 { s with rt := { s.rt with poolWait := rest } }
  allocate i k v (issue (recordEvent .released (.point k) i v.severity none s1) s1)

/-- The fields a record keeps when its life ends: severity, raise time, repeat count (R17). -/
def Record.endLife (r : Record) (state : RecordState) : Record :=
  { r with state, key := none, peak := none, clearTime := none, ack := none }

/-- The key of a retired record becomes Quiet; a storm key has no key entry (R17). -/
def quietKey : Key → State → State
  | .point k, s => putKey k .quiet s
  | .storm _, s => s

/-- Where a pool record goes that has been retired: to the head of the pool wait list, or to the Free tail (R76). -/
def serveFreed (i : RecordIx) (s : State) : State :=
  match s.rt.poolWait with
  | k :: rest => handOver i k rest s
  | [] => toFree i s

/-- Retirement of a live record (R17): off its list, key Quiet, change count, Retired with the live duration, fields removed;
a storm record becomes Idle, a pool record goes to a waiting key or to the Free list. A record that is not live is left (R18). -/
def retire (i : RecordIx) (s : State) : State :=
  let r := s.record i
  match r.state.live, r.key with
  | true, some k =>
    let e := recordEvent .retired k i r.severity (some (r.duration s.tb.hutTime)) s
    let s1 := putRecord i (r.endLife (if isPool i then .free else .idle)) (offLists i s)
    let s2 := issue e (advance 1 (quietKey k s1))
    if isPool i then serveFreed i s2 else s2
  | _, _ => s

/-- The Cleared event of a record, with its live duration (R14, R15). -/
def issueCleared (i : RecordIx) (k : Key) (s : State) : State :=
  let r := s.record i
  issue (recordEvent .cleared k i r.severity (some (r.duration s.tb.hutTime)) s) s

/-- The key entry of a record's key with another state; a storm key has no key entry. -/
def putLinkedState (state : KeyState) : Key → State → State
  | .point k, s => putKey k { s.key k with state } s
  | .storm _, s => s

/-- A clear event on a live record of a Self-retiring point (R14): Cleared, then retirement. -/
def clearSelfRetiring (i : RecordIx) (s : State) : State :=
  match (s.record i).state, (s.record i).key with
  | .standing, some k => retire i (issueCleared i k s)
  | .acknowledged, some k => retire i (issueCleared i k s)
  | _, _ => s

/-- A clear event on a record under Latched policy (R15): a Standing record goes to Cleared, an Acknowledged one is retired;
any other state makes no transition (R18). -/
def clearLatched (i : RecordIx) (s : State) : State :=
  let r := s.record i
  match r.state, r.key with
  | .standing, some k =>
    let s1 := toCleared i (putRecord i { r with state := .cleared, clearTime := some s.tb.hutTime } s)
    issueCleared i k (advance 1 (putLinkedState .cleared k s1))
  | .acknowledged, some k => retire i (issueCleared i k s)
  | _, _ => s

/-- A re-raise of a Cleared record (R16): Standing tail, repeat count up to 255, clear time removed, key Raised, change count,
Raised with the record's own severity. Any other state makes no transition (R18). -/
def reRaise (i : RecordIx) (s : State) : State :=
  let r := s.record i
  match r.state, r.key with
  | .cleared, some k =>
    let r' := { r with state := .standing, clearTime := none, repeats := if r.repeats = 255#8 then 255#8 else r.repeats + 1#8 }
    let s1 := advance 1 (putLinkedState .raised k (toStanding i (putRecord i r' s)))
    issue (recordEvent .raised k i r.severity none s1) s1
  | _, _ => s

/-- A storm raise of an Idle storm record (R12): Standing tail, the group's storm severity, peak the folded count, Raised. -/
def stormRaise (g : GroupId) (s : State) : State :=
  let i := stormIx g
  match (s.record i).state with
  | .idle =>
    let gov := s.governor g
    let r : Record :=
      { state := .standing, key := some (.storm g), severity := gov.defn.stormSeverity, raiseTime := s.tb.hutTime
        repeats := 0#8, peak := some (BitVec.ofNat 16 gov.folded.length), clearTime := none, ack := none }
    let s1 := advance 1 (toStanding i (putRecord i r s))
    issue (recordEvent .raised (.storm g) i r.severity none s1) s1
  | _ => s

/-- Whether an offered value is more extreme than a peak for a key: greater for High, less for Low, greater as a count for
Storm; a Stale or Fault key has no peak (R4). -/
def moreExtreme (k : Key) (offered peak : Half) : Bool :=
  match k with
  | .point { kind := .high, .. } => decide (peak.toInt < offered.toInt)
  | .point { kind := .low, .. } => decide (offered.toInt < peak.toInt)
  | .point { kind := .stale, .. } => false
  | .point { kind := .fault, .. } => false
  | .storm _ => decide (peak.toNat < offered.toNat)

/-- A peak update offered to a record; a record that is not live or has no peak ignores it (R4). -/
def peakUpdate (i : RecordIx) (v : Half) (s : State) : State :=
  let r := s.record i
  match r.state.live, r.key, r.peak with
  | true, some k, some p => if moreExtreme k v p then putRecord i { r with peak := some v } s else s
  | _, _, _ => s

/-- An acknowledgement taken for a record (R13): a Standing record goes to Acknowledged, a Cleared one is acknowledged and
retired; any other state makes no transition. -/
def acknowledgeRecord (i : RecordIx) (who : AckBy) (tag : Half) (s : State) : State :=
  let r := s.record i
  let r' := { r with ack := some { taker := who, tag, time := s.tb.hutTime } }
  match r.state, r.key with
  | .standing, some k =>
    let s1 := advance 1 (toAcknowledged i (putRecord i { r' with state := .acknowledged } s))
    issue (recordEvent .acknowledged k i r.severity none s1) s1
  | .cleared, some k =>
    let s1 := putRecord i r' s
    retire i (issue (recordEvent .acknowledged k i r.severity none s1) s1)
  | _, _ => s

end Sys2Proof.Machine
end

