-- ==== Sys2Proof/Machine/Governors.lean ====
section
/-! DEFINITION. The storm governors of chapter 5: admission, closing, holding, folding, refill, release, the storm record's clear. -/

namespace Sys2Proof.Machine

/-- A key joins the storm-held tail: pending value, Held, change count, Held of cause Storm (R98). -/
def holdKey (k : PointKey) (v : Pending) (s : State) : State :=
  let g := s.groupOf k
  let gov := s.governor g
  let s1 := putKey k { state := .held, link := none, pending := some v } (putGovernor g { gov with held := gov.held ++ [k] } s)
  let s2 := advance 1 s1
  issue (keyEvent .held k v.severity (some .storm) s2) s2

/-- What SG asks of the storm record at a fold: a storm raise of an Idle record (R12), a re-raise of a Cleared one (R16), and in
every state the folded count offered as a peak (R100). -/
def stormFold (g : GroupId) (s : State) : State :=
  let s1 := reRaise (stormIx g) (stormRaise g s)
  peakUpdate (stormIx g) (BitVec.ofNat 16 (s1.governor g).folded.length) s1

/-- A key is folded: into the set, Folded with no pending value, Folded event, then the storm record (R100). -/
def foldKey (k : PointKey) (sev : Severity) (s : State) : State :=
  let g := s.groupOf k
  let gov := s.governor g
  let s1 := putKey k { state := .folded, link := none, pending := none } (putGovernor g { gov with folded := gov.folded ++ [k] } s)
  stormFold g (issue (keyEvent .folded k sev none s1) s1)

/-- A diverted attempt, by the governor's mode (R96 case 4). -/
def divert (k : PointKey) (v : Pending) (s : State) : State :=
  match (s.governor (s.groupOf k)).defn.mode with
  | .hold => holdKey k v s
  | .fold => foldKey k v.severity s

/-- A governor closes: Closed, StormClosed without severity, record or duration (R97). -/
def closeGovernor (g : GroupId) (s : State) : State :=
  let s1 := putGovernor g { s.governor g with gate := .closed } s
  issue { kind := .stormClosed, group := g, key := .storm g, severity := none, record := none, time := s1.tb.hutTime
          duration := none, cause := none } s1

/-- A governed attempt, by the first case that the governor's state meets (R96). -/
def governAttempt (k : PointKey) (v : Pending) (s : State) : State :=
  let g := s.groupOf k
  let gov := s.governor g
  if gov.defn.mode = .hold ∧ gov.held ≠ [] then holdKey k v s
  else
    match gov.gate with
    | .opened =>
      if 0 < gov.tokens then allocateOrWait k v (putGovernor g { gov with tokens := gov.tokens - 1 } s)
      else divert k v (closeGovernor g s)
    | .closed => divert k v s

/-- The storm record's clear when the folded count has fallen to 0 while the governor is Open (R104). -/
def stormClearIfDue (g : GroupId) (s : State) : State :=
  let gov := s.governor g
  if gov.gate = .opened ∧ gov.folded = [] then clearLatched (stormIx g) s else s

/-- One key released from the head of the storm-held list: token, exit, then allocation with Released before Raised, or the
pool wait list (R103). -/
def releaseKey (g : GroupId) (k : PointKey) (rest : List PointKey) (s : State) : State :=
  let gov := s.governor g
  let v := s.pendingOf k
  let s1 := advance 1 (putGovernor g { gov with tokens := gov.tokens - 1, held := rest } s)
  match s1.rt.free with
  | i :: free =>
    let s2 : State := { s1 with rt := { s1.rt with free := free } }
    allocate i k v (issue (recordEvent .released (.point k) i v.severity none s2) s2)
  | [] => joinPoolWait k v s1

/-- The release step with at most `fuel` keys (R103). -/
def releaseLoop (g : GroupId) : Nat → State → State
  | 0, s => s
  | fuel + 1, s =>
    match (s.governor g).held with
    | k :: rest => if 0 < (s.governor g).tokens then releaseLoop g fuel (releaseKey g k rest s) else s
    | [] => s

/-- The release step: while keys are held and tokens are left; each key takes one token, so the tokens bound it (R103). -/
def releaseStep (g : GroupId) (s : State) : State := releaseLoop g (s.governor g).tokens s

/-- The refill period of a governor, in seconds (R93). -/
def GovernorDef.period (d : GovernorDef) : Nat := 2 ^ d.refillExponent

/-- The first two steps of a refill: countdown reloaded, one token if below the depth (R102). -/
def Governor.refilled (x : Governor) : Governor :=
  { x with refill := x.defn.period, tokens := if x.tokens < x.defn.depth then x.tokens + 1 else x.tokens }

/-- The third step of a refill: a Closed governor whose tokens reach the reopen level opens, sets Reopened, and in Fold mode with
folded count 0 asks for the storm record's clear (R102, R104). -/
def reopen (g : GroupId) (s : State) : State :=
  let gov := s.governor g
  if gov.gate = .closed ∧ gov.defn.reopen ≤ gov.tokens then
    let s1 := setNotice .reopened (putGovernor g { gov with gate := .opened } s)
    if gov.defn.mode = .fold ∧ gov.folded = [] then clearLatched (stormIx g) s1 else s1
  else s

/-- The fourth step of a refill: an Open governor in Hold mode runs the release step (R102). -/
def releaseIfOpen (g : GroupId) (s : State) : State :=
  let gov := s.governor g
  if gov.gate = .opened ∧ gov.defn.mode = .hold then releaseStep g s else s

/-- The expiry of a governor's refill countdown, in four steps (R102). -/
def refillGovernor (g : GroupId) (s : State) : State :=
  releaseIfOpen g (reopen g (putGovernor g (s.governor g).refilled s))

/-- A governor as Restart leaves it: definition kept, Open, full, countdown loaded, list and set empty (R110). -/
def Governor.restarted (x : Governor) : Governor :=
  { x with gate := .opened, tokens := x.defn.depth, refill := x.defn.period, held := [], folded := [] }

/-- Whether some In Service point has the group in its Group field (R94). -/
def State.groupInUse (s : State) (g : GroupId) : Bool :=
  allPoints.any fun p =>
    match (s.point p).defn with
    | some d => d.group = g
    | none => false

/-- A Define Group that passes its checks: definition, Open, full, countdown, then the storm record's clear (R95). -/
def defineGovernor (g : GroupId) (d : GovernorDef) (s : State) : State :=
  clearLatched (stormIx g)
    (putGovernor g { s.governor g with defn := d, gate := .opened, tokens := d.depth, refill := d.period } s)

end Sys2Proof.Machine
end

