-- ==== Sys2Proof/Machine/Raising.lean ====
section
/-! DEFINITION. The raise path and the clear events of chapter 4. -/

namespace Sys2Proof.Machine

/-- Whether an attempt bypasses its governor: the point is shelved, or the severity meets the group's bypass severity (R70). -/
def bypasses (k : PointKey) (sev : Severity) (s : State) : Bool :=
  s.shelved k.point || (s.governor (s.groupOf k)).defn.bypass.metBy sev

/-- A raise attempt of a Quiet key, carried whole (R69 to R72): bypass, governor, allocation. -/
def raiseAttempt (k : PointKey) (v : Pending) (s : State) : State :=
  if bypasses k v.severity s then allocateOrWait k v s else governAttempt k v s

/-- What the condition's beginning does to a key by its state: an attempt from Quiet, a re-raise from Cleared, nothing else (R59,
R62, R65). The definition gives the severity; a Low or High attempt carries the value (R69). -/
def beginCondition (k : PointKey) (d : Definition) (value : Option Half) (s : State) : State :=
  let e := s.key k
  match e.state with
  | .quiet => raiseAttempt k { severity := d.severity k.kind, value } s
  | .cleared =>
    match e.link with
    | some i => reRaise i s
    | none => s
  | .raised | .held | .waiting | .folded => s

/-- Absorption of a Held key: off the storm-held list, Quiet, change count, Absorbed with the pending severity (R84, R87). -/
def absorbHeld (k : PointKey) (s : State) : State :=
  let g := s.groupOf k
  let gov := s.governor g
  let e := keyEvent .absorbed k (s.pendingOf k).severity none s
  issue e (advance 1 (putKey k .quiet (putGovernor g { gov with held := gov.held.erase k } s)))

/-- Absorption of a Waiting key: off the pool wait list, Quiet, change count, Absorbed (R85, R87). -/
def absorbWaiting (k : PointKey) (s : State) : State :=
  let e := keyEvent .absorbed k (s.pendingOf k).severity none s
  issue e (advance 1 (putKey k .quiet { s with rt := { s.rt with poolWait := s.rt.poolWait.erase k } }))

/-- Absorption of a Folded key: out of the folded set, Quiet, Absorbed with the point's severity, then the storm record's clear
if it is due (R86, R87). -/
def absorbFolded (k : PointKey) (d : Definition) (s : State) : State :=
  let g := s.groupOf k
  let gov := s.governor g
  let e := keyEvent .absorbed k (d.severity k.kind) none s
  stormClearIfDue g (issue e (putKey k .quiet (putGovernor g { gov with folded := gov.folded.erase k } s)))

/-- A clear event for a key, by its state (R60, R81 to R86); a Quiet key gets none (R83). -/
def clearEvent (k : PointKey) (d : Definition) (s : State) : State :=
  let e := s.key k
  match e.state with
  | .raised =>
    match e.link with
    | some i =>
      match d.retirement with
      | .selfRetiring => clearSelfRetiring i s
      | .latched => clearLatched i s
    | none => s
  | .held => absorbHeld k s
  | .waiting => absorbWaiting k s
  | .folded => absorbFolded k d s
  | .quiet | .cleared => s

end Sys2Proof.Machine
end

