-- ==== Sys2Proof/Machine/Persistence.lean ====
section
/-! DEFINITION. The Persistence Evaluator and the Contact Scanner of chapter 3. -/

namespace Sys2Proof.Machine

/-- The band of a sample (03 section 3.4). -/
inductive Band where
  | violating
  | holding
  | recovered
  deriving DecidableEq, Repr

/-- How a kind is evaluated: threshold, hysteresis, weighting (R55). -/
structure Evaluation where
  threshold : Int
  hysteresis : Nat
  weighting : Weighting
  deriving DecidableEq, Repr

/-- The evaluation of a kind of a point. A Reading point evaluates Low and High where the threshold is present; a Contact or
Carrier point evaluates High with threshold 0, hysteresis 0 and its Count weighting (R30, R55). -/
def Definition.evaluation (d : Definition) (kind : Kind) : Option Evaluation :=
  match d.source, kind with
  | .reading, .low => d.lowThreshold.map fun t => { threshold := t.toInt, hysteresis := d.hysteresis, weighting := d.weighting }
  | .reading, .high => d.highThreshold.map fun t => { threshold := t.toInt, hysteresis := d.hysteresis, weighting := d.weighting }
  | .contact _ _, .high => some { threshold := 0, hysteresis := 0, weighting := d.weighting }
  | .carrier _, .high => some { threshold := 0, hysteresis := 0, weighting := d.weighting }
  | _, _ => none

/-- The band of a value for the High kind (R53). -/
def bandHigh (ev : Evaluation) (v : Int) : Band :=
  if ev.threshold < v then .violating else if v ≤ ev.threshold - ev.hysteresis then .recovered else .holding

/-- The band of a value for the Low kind (R54). -/
def bandLow (ev : Evaluation) (v : Int) : Band :=
  if v < ev.threshold then .violating else if ev.threshold + ev.hysteresis ≤ v then .recovered else .holding

/-- The band of a value for a kind; Stale and Fault are not evaluated. -/
def band (kind : Kind) (ev : Evaluation) (v : Int) : Band :=
  match kind with
  | .high => bandHigh ev v
  | .low => bandLow ev v
  | .stale | .fault => .holding

/-- The distance of a sample beyond the bound of its band: excess or shortfall, computed exactly (R57). -/
def distance (kind : Kind) (ev : Evaluation) (v : Int) : Nat :=
  match kind, band kind ev v with
  | .high, .violating => (v - ev.threshold).toNat
  | .high, .recovered => (ev.threshold - ev.hysteresis - v).toNat
  | .low, .violating => (ev.threshold - v).toNat
  | .low, .recovered => (v - (ev.threshold + ev.hysteresis)).toNat
  | _, _ => 0

/-- The weight under Magnitude: the distance divided by 2^k, from 1 to 255 (R57). -/
def magnitudeWeight (shift : Nat) (distance : Nat) : Nat := min 255 (max 1 (distance / 2 ^ shift))

/-- The fill weight of a violating sample (R56, R57). -/
def fillWeight (kind : Kind) (ev : Evaluation) (v : Int) : Nat :=
  match ev.weighting with
  | .count _ => 1
  | .magnitude k => magnitudeWeight k (distance kind ev v)

/-- The drain weight of a recovered sample (R56, R57). -/
def drainWeight (kind : Kind) (ev : Evaluation) (v : Int) : Nat :=
  match ev.weighting with
  | .count drain => drain
  | .magnitude k => magnitudeWeight k (distance kind ev v)

/-- The bucket level of a kind; Stale and Fault have none. -/
def PointEntry.bucket (e : PointEntry) : Kind → Nat
  | .low => e.lowBucket
  | .high => e.highBucket
  | .stale => 0
  | .fault => 0

/-- A bucket level written. -/
def PointEntry.setBucket (e : PointEntry) (kind : Kind) (level : Nat) : PointEntry :=
  match kind with
  | .low => { e with lowBucket := level }
  | .high => { e with highBucket := level }
  | .stale => e
  | .fault => e

/-- The level after a sample, between 0 and the capacity (R58). -/
def newLevel (kind : Kind) (ev : Evaluation) (capacity level : Nat) (v : Int) : Nat :=
  match band kind ev v with
  | .violating => min capacity (level + fillWeight kind ev v)
  | .recovered => level - drainWeight kind ev v
  | .holding => level

/-- The verdict after the update: a violating sample at capacity begins the condition (R59), a recovered sample at 0 ends it
(R60), any other sample gives none. -/
def verdict (k : PointKey) (d : Definition) (b : Band) (level : Nat) (v : Half) (s : State) : State :=
  match b with
  | .violating => if level = d.capacity then beginCondition k d (some v) s else s
  | .recovered => if level = 0 then clearEvent k d s else s
  | .holding => s

/-- The value offered to the linked record of a key that is Raised or Cleared after the verdict (R61). -/
def offerPeak (k : PointKey) (v : Half) (s : State) : State :=
  let e := s.key k
  match e.state, e.link with
  | .raised, some i => peakUpdate i v s
  | .cleared, some i => peakUpdate i v s
  | _, _ => s

/-- A sample applied to a kind of a point: band, bucket, verdict, peak offer (R53 to R61). A kind that is not evaluated takes no
step (R55). -/
def applySample (k : PointKey) (v : Half) (s : State) : State :=
  let e := s.point k.point
  match e.defn with
  | none => s
  | some d =>
    match d.evaluation k.kind with
    | none => s
    | some ev =>
      let level := newLevel k.kind ev d.capacity (e.bucket k.kind) v.toInt
      let s1 := putPoint k.point (e.setBucket k.kind level) s
      offerPeak k v (verdict k d (band k.kind ev v.toInt) level v s1)

/-! ## Readings -/

/-- The stale step: the countdown reloaded if the point has one, then a clear event on the Stale key (R49, R64, R67). -/
def staleStep (p : PointId) (d : Definition) (s : State) : State :=
  let e := s.point p
  let e' := match e.stale with
    | some _ => { e with stale := some d.staleInterval }
    | none => e
  clearEvent { point := p, kind := .stale } d (putPoint p e' s)

/-- The fault step: a marked reading begins the Fault condition (R62), an unmarked one ends it (R63). -/
def faultStep (p : PointId) (d : Definition) (marked : Bool) (s : State) : State :=
  if marked then beginCondition { point := p, kind := .fault } d none s else clearEvent { point := p, kind := .fault } d s

/-- An applied reading in its four steps; a marked one makes no Low and no High step (R49). -/
def applyReading (p : PointId) (d : Definition) (marked : Bool) (v : Half) (s : State) : State :=
  let s1 := faultStep p d marked (staleStep p d s)
  if marked then s1
  else applySample { point := p, kind := .high } v (applySample { point := p, kind := .low } v s1)

/-- The definition of a point that takes readings: In Service with source Reading (R47). -/
def State.readingDef (s : State) (p : PointId) : Option Definition :=
  match (s.point p).defn with
  | some d => if d.source = .reading then some d else none
  | none => none

/-! ## Stale countdowns -/

/-- The expiry of a point's stale countdown: stopped at 0, then the Stale condition begins (R64, R65). -/
def staleExpire (p : PointId) (s : State) : State :=
  let e := s.point p
  match e.defn, e.stale with
  | some d, some _ => beginCondition { point := p, kind := .stale } d none (putPoint p { e with stale := some 0 } s)
  | _, _ => s

/-- A point's stale countdown at a second tick taken in Watch (R64). -/
def lowerStale (p : PointId) (s : State) : State :=
  let e := s.point p
  match e.stale with
  | some 1 => staleExpire p s
  | some (n + 2) => putPoint p { e with stale := some (n + 1) } s
  | _ => s

/-! ## The scan tick -/

/-- The sample value 1 or 0. -/
def scanValue (violating : Bool) : Half := if violating then 1#16 else 0#16

/-- The carrier state that the Route Relay reports for a side. -/
def State.sideCarrier (s : State) : Side → Bool
  | .west => s.rr.west.carrier
  | .east => s.rr.east.carrier

/-- The sample of a point at a scan tick: a contact at its active level, a carrier that is lost; none for a Reading point and
for a Vacant point (R24, R51). -/
def State.scanSample (s : State) (p : PointId) : Option Half :=
  match (s.point p).defn with
  | none => none
  | some d =>
    match d.source with
    | .reading => none
    | .contact line activeHigh => some (scanValue (s.cs.getLsbD line.val == activeHigh))
    | .carrier side => some (scanValue (!s.sideCarrier side))

/-- The sample of one point handed to PE (R51). -/
def scanPoint (s : State) (p : PointId) : State :=
  match s.scanSample p with
  | some v => applySample { point := p, kind := .high } v s
  | none => s

/-- The scan tick: the lines sampled, then one sample for each point in ascending order (R50, R51). -/
def scan (lines : BitVec 16) (s : State) : State := allPoints.foldl scanPoint { s with cs := lines }

end Sys2Proof.Machine
end

