-- ==== Sys2Proof/Machine/Points.lean ====
section
/-! DEFINITION. The requests of the Point Table, the Persistence Evaluator and the Storm Governors: Reading, Define Point, Withdraw
Point, Read Point, Shelve Point, Unshelve Point, Define Group, Read Group. Each gives the state after and the reply. -/

namespace Sys2Proof.Machine

/-! ## Reading -/

/-- One reading of a request, with the counts of readings applied and rejected so far (R46, R47). -/
def takeReading (acc : State × Nat × Nat) (r : PointId × Bool × Half) : State × Nat × Nat :=
  match acc.1.readingDef r.1 with
  | some d => (applyReading r.1 d r.2.1 r.2.2 acc.1, acc.2.1 + 1, acc.2.2)
  | none => (acc.1, acc.2.1, acc.2.2 + 1)

/-- The points of the readings named, or nothing when one is above 63 (R46). -/
def readingsOf : List RawReading → Option (List (PointId × Bool × Half))
  | [] => some []
  | r :: rest =>
    match pointNumber r.point, readingsOf rest with
    | some p, some l => some ((p, r.fault != 0#8, r.value) :: l)
    | _, _ => none

/-- Reading (R46): 1 to 8 readings applied in order; the reply counts those applied and those rejected. -/
def serveReading (rs : List RawReading) (s : State) : State × Reply :=
  match readingsOf rs with
  | none => (s, .bare .badField)
  | some l =>
    if 1 ≤ l.length ∧ l.length ≤ 8 then
      let r := l.foldl takeReading (s, 0, 0)
      (r.1, .done [natByte r.2.1, natByte r.2.2])
    else (s, .bare .badField)

/-! ## Define Point -/

/-- Whether two sources share a contact line, whatever the active level, or a carrier side (R32). -/
def Source.conflicts : Source → Source → Bool
  | .contact a _, .contact b _ => decide (a = b)
  | .carrier a, .carrier b => decide (a = b)
  | _, _ => false

/-- Whether some In Service point uses the line or side of a source (R32). -/
def State.lineInUse (s : State) (src : Source) : Bool :=
  allPoints.any fun p =>
    match (s.point p).defn with
    | some d => src.conflicts d.source
    | none => false

/-- The entry of a point that has just gone In Service (R34). -/
def PointEntry.defined (d : Definition) : PointEntry :=
  { defn := some d, keys := .quiet, lowBucket := 0, highBucket := 0
    stale := if 0 < d.staleInterval then some d.staleInterval else none, shelve := 0 }

/-- Define Point: four checks in order, then the entry written (R31 to R34). -/
def serveDefinePoint (r : RawPoint) (s : State) : State × Reply :=
  match definitionOf r with
  | none => (s, .bare .badField)
  | some (p, d) =>
    if (s.point p).inService then (s, .bare .pointInService)
    else if s.lineInUse d.source then (s, .bare .lineInUse)
    else if !d.thresholdsOk then (s, .bare .badThresholds)
    else (putPoint p (.defined d) s, .done [])

/-! ## Withdraw Point -/

/-- The first stage for one key: taken off the list or set that holds it, Quiet, with no event; a folded count that falls to 0
while the governor is Open clears the storm record (R40). -/
def dropPending (p : PointId) (s : State) (kind : Kind) : State :=
  let k : PointKey := { point := p, kind }
  let g := s.groupOf k
  let gov := s.governor g
  match (s.key k).state with
  | .held => advance 1 (putKey k .quiet (putGovernor g { gov with held := gov.held.erase k } s))
  | .waiting => advance 1 (putKey k .quiet { s with rt := { s.rt with poolWait := s.rt.poolWait.erase k } })
  | .folded => stormClearIfDue g (putKey k .quiet (putGovernor g { gov with folded := gov.folded.erase k } s))
  | .quiet | .raised | .cleared => s

/-- The second stage for one key: its live record retired, with the number of records retired so far (R41). -/
def retireLinked (p : PointId) (acc : State × Nat) (kind : Kind) : State × Nat :=
  let e := acc.1.key { point := p, kind }
  match e.state, e.link with
  | .raised, some i => (retire i acc.1, acc.2 + 1)
  | .cleared, some i => (retire i acc.1, acc.2 + 1)
  | _, _ => acc

/-- A withdrawal in its three stages, with the number of records retired (R40 to R42). -/
def withdraw (p : PointId) (s : State) : State × Nat :=
  let r := allKinds.foldl (retireLinked p) (allKinds.foldl (dropPending p) s, 0)
  (putPoint p .vacant r.1, r.2)

/-- Withdraw Point (R40). -/
def serveWithdrawPoint (b : Byte) (s : State) : State × Reply :=
  match pointNumber b with
  | none => (s, .bare .badField)
  | some p =>
    if (s.point p).inService then
      let r := withdraw p s
      (r.1, .done [natByte r.2])
    else (s, .bare .pointVacant)

/-! ## Read Point -/

/-- The 23 bytes of a definition as Read Point returns them: absent thresholds as 0, fields not examined as 0 (R30, R184). -/
def definitionBytes (p : PointId) (d : Definition) : List Byte :=
  [natByte p.val] ++ d.source.bytes ++ [natByte d.group.val, d.retirement.byte,
    (if d.lowThreshold.isSome then 1#8 else 0#8) ||| (if d.highThreshold.isSome then 2#8 else 0#8)] ++
  halfBytes (d.lowThreshold.getD 0#16) ++ halfBytes (d.highThreshold.getD 0#16) ++ natHalf d.hysteresis ++ natHalf d.capacity ++
  d.weighting.bytes ++ [d.severityLow.byte, d.severityHigh.byte, d.severityStale.byte, d.severityFault.byte] ++ natHalf d.staleInterval

/-- A key in a Read Point reply: its state, and its record or 255 (R35, 11 section 11.1). -/
def keyEntryBytes (e : KeyEntry) : List Byte :=
  [e.state.byte, match e.link with
    | some i => indexByte i
    | none => 255#8]

/-- The 43 bytes of a Read Point reply (11 section 11.7). -/
def pointBytes (p : PointId) (e : PointEntry) (d : Definition) : List Byte :=
  [inServiceByte] ++ definitionBytes p d ++ keyEntryBytes e.keys.low ++ keyEntryBytes e.keys.high ++ keyEntryBytes e.keys.stale ++
  keyEntryBytes e.keys.fault ++ natHalf e.lowBucket ++ natHalf e.highBucket ++ [boolByte e.stale.isSome] ++ natHalf (e.stale.getD 0) ++
  natQuad e.shelve

/-- Read Point (R35). -/
def serveReadPoint (b : Byte) (s : State) : State × Reply :=
  match pointNumber b with
  | none => (s, .bare .badField)
  | some p =>
    match (s.point p).defn with
    | some d => (s, .done (pointBytes p (s.point p) d))
    | none => (s, .bare .pointVacant)

/-! ## Shelving -/

/-- Shelve Point: the countdown loaded with the minutes times 60 (R118). -/
def serveShelvePoint (b : Byte) (minutes : Half) (s : State) : State × Reply :=
  match pointNumber b with
  | none => (s, .bare .badField)
  | some p =>
    if 1 ≤ minutes.toNat ∧ minutes.toNat ≤ 1440 then
      if (s.point p).inService then (putPoint p { s.point p with shelve := minutes.toNat * 60 } s, .done [])
      else (s, .bare .pointVacant)
    else (s, .bare .badField)

/-- A point leaves shelving: countdown 0, then its offers (R119, R121). -/
def unshelve (p : PointId) (s : State) : State := unshelveOffers p (putPoint p { s.point p with shelve := 0 } s)

/-- Unshelve Point (R119). -/
def serveUnshelvePoint (b : Byte) (s : State) : State × Reply :=
  match pointNumber b with
  | none => (s, .bare .badField)
  | some p =>
    if (s.point p).inService then (if s.shelved p then unshelve p s else s, .done [])
    else (s, .bare .pointVacant)

/-- The expiry of a shelve countdown: the countdown at 0, ShelveExpired, then the offers (R120, R121). -/
def shelveExpire (p : PointId) (s : State) : State :=
  unshelveOffers p (setNotice .shelveExpired (putPoint p { s.point p with shelve := 0 } s))

/-- A point's shelve countdown at a second tick (R120). -/
def lowerShelve (p : PointId) (s : State) : State :=
  match (s.point p).shelve with
  | 0 => s
  | 1 => shelveExpire p s
  | n + 2 => putPoint p { s.point p with shelve := n + 1 } s

/-! ## Governors -/

/-- Define Group: field check, then that no point of the group is In Service (R94, R95). -/
def serveDefineGroup (r : RawGroup) (s : State) : State × Reply :=
  match governorDefOf r with
  | none => (s, .bare .badField)
  | some (g, d) => if s.groupInUse g then (s, .bare .groupInUse) else (defineGovernor g d s, .done [])

/-- The 14 bytes of a Read Group reply (R108, 11 section 11.7). -/
def governorBytes (x : Governor) (storm : RecordState) : List Byte :=
  [natByte x.defn.depth, natByte x.defn.reopen, natByte x.defn.refillExponent, x.defn.bypass.byte, x.defn.mode.byte,
    x.defn.stormSeverity.byte, x.gate.byte, natByte x.tokens, natByte x.refill] ++
  natHalf x.held.length ++ natHalf x.folded.length ++ [storm.byte]

/-- Read Group (R108). -/
def serveReadGroup (b : Byte) (s : State) : State × Reply :=
  match groupNumber b with
  | none => (s, .bare .badField)
  | some g => (s, .done (governorBytes (s.governor g) (s.record (stormIx g)).state))

/-- A governor's refill countdown at a second tick (R102). -/
def lowerRefill (g : GroupId) (s : State) : State :=
  let x := s.governor g
  if x.refill ≤ 1 then refillGovernor g s else putGovernor g { x with refill := x.refill - 1 } s

end Sys2Proof.Machine
end

