-- ==== Sys2Proof/Machine/TimeBase.lean ====
section
/-! DEFINITION. The ticks, the modes and the resets of chapter 10. -/

namespace Sys2Proof.Machine

/-! ## The second tick -/

/-- The hut seconds counter raised by 1; it wraps (R172). -/
def advanceTime (s : State) : State := { s with tb := { s.tb with hutTime := s.tb.hutTime + 1#32 } }

/-- The stale countdowns at a second tick: lowered in Watch alone, in ascending point order (R64, R66). -/
def staleTick (s : State) : State :=
  match s.tb.mode with
  | .watch => allPoints.foldl (fun s p => lowerStale p s) s
  | .settling | .dormant | .waking => s

/-- The shelve countdowns at a second tick, in every mode, in ascending point order (R120). -/
def shelveTick (s : State) : State := allPoints.foldl (fun s p => lowerShelve p s) s

/-- The refill countdowns at a second tick, in every mode, in ascending group order (R102). -/
def refillTick (s : State) : State := allGroups.foldl (fun s g => lowerRefill g s) s

/-- The expiry of the settle countdown: Settling becomes Dormant, the countdown is removed (R176). -/
def settleExpire (s : State) : State :=
  match s.tb.mode with
  | .settling => { s with tb := { s.tb with mode := .dormant, settle := none } }
  | .watch | .dormant | .waking => s

/-- The settle countdown at a second tick (R176). -/
def settleTick (s : State) : State :=
  match s.tb.settle with
  | some (n + 2) => { s with tb := { s.tb with settle := some (n + 1) } }
  | some _ => settleExpire s
  | none => s

/-- What an owner of countdowns does at a second tick (R171). -/
def ownerTick (s : State) : TickOwner → State
  | .stale => staleTick s
  | .shelve => shelveTick s
  | .refill => refillTick s
  | .settle => settleTick s

/-- Every owner, in the order taken when the command says none. -/
def allOwners : List TickOwner := [.stale, .shelve, .refill, .settle]

/-- Each owner once: those listed first, in the order listed, then the others (log entry 4). -/
def tickOrder (order : List TickOwner) : List TickOwner :=
  order.eraseDups ++ allOwners.filter fun o => !order.contains o

/-- The second tick: hut time, then each owner whole, in the order given (R171, R172). During the hold of the reset pin it advances
hut time alone; during the hold of power-on the counter is held at 0 (R181). -/
def second (order : List TickOwner) (s : State) : State :=
  if s.powerHold then s
  else if s.resetLow then advanceTime s
  else (tickOrder order).foldl ownerTick (advanceTime s)

/-! ## Requests of TB -/

/-- Set Time: the counter loaded, the reply carries what it held (R173). -/
def serveSetTime (time : Quad) (s : State) : State × Reply :=
  ({ s with tb := { s.tb with hutTime := time } }, .done (quadBytes s.tb.hutTime))

/-- Wake Hut, taken from the route link: a wake cause of kind RouteWake with the frame's source; answered Done in every mode
(R150, R178). -/
def serveWakeHut (source : Byte) (s : State) : State × Reply := (wakeCause (.routeWake source) s, .done [])

/-- Enter Dormant: refused while an enabled flag is set, else Settling with the countdown at 2 (R175). -/
def serveEnterDormant (s : State) : State × Reply :=
  if s.enabledNotice then (s, .bare .noticePending)
  else ({ s with tb := { s.tb with mode := .settling, settle := some 2 } }, .done [])

/-! ## Resets -/

/-- A point entry as Restart leaves it: definition kept, keys Quiet, buckets 0, stale countdown reloaded, not shelved (R44). A
Vacant entry stays Vacant. -/
def PointEntry.restarted (e : PointEntry) : PointEntry :=
  match e.defn with
  | some d => .defined d
  | none => .vacant

/-- The flags after a reset has completed: Ready, and Link if a carrier is lost (R170). -/
def resetFlags (s : State) : BitVec 8 := if s.carrierLost then Notice.ready.mask ||| Notice.link.mask else Notice.ready.mask

/-- The resets of a Restart, block by block (R182): RT, PT, SG; NU keeps enables and level; GC, CS, RR and TB go on. -/
def restartBlocks (s : State) : State :=
  { s with
    rt := .reset
    pt := vmap PointEntry.restarted s.pt
    sg := vmap Governor.restarted s.sg
    nu := { s.nu with flags := resetFlags s } }

/-- Restart, at the local port: the blocks reset, mode Watch with no settle countdown, Done (R174, R182). -/
def serveRestart (s : State) : State × Reply :=
  let s1 := restartBlocks s
  ({ s1 with tb := { s1.tb with mode := .watch, settle := none } }, .done [])

/-- The completion of power-on or of the reset pin: each block takes its state for the reset, hut time is kept (R181). The bits
of LSDO and the counter of free values are the model's own and stay. -/
def completeReset (pins : ResetPins) (s : State) : State :=
  { s with
    rt := .reset
    pt := PointTable.reset
    cs := 0#16
    sg := Vector.replicate 8 .reset
    gc := Vector.replicate 8 (Vector.replicate 4 .reset)
    rr := .reset pins
    lp := { s.lp with slot := none }
    nu := .reset pins
    tb := .reset s.tb.hutTime }

/-- A reset hold begins: frames in reception are abandoned (R158, R181). What the tables hold during a hold nothing can read
(log entry 12). -/
def beginHold (s : State) : State :=
  { s with rr := { s.rr with west := { s.rr.west with reception := [] }, east := { s.rr.east with reception := [] } } }

end Sys2Proof.Machine
end

