-- ==== Sys2Proof/WellFormed.lean ====
section
/-! DEFINITION. Which terms of `Instr` are commands that a port can carry. -/

namespace Sys2Proof

/-- The request that a command carries, with the port it arrives at; none for the commands that are no request. -/
def Instr.request? : Instr → Option (Origin × Request)
  | .reading o rs => some (o, .reading rs)
  | .definePoint o b => some (o, .definePoint b)
  | .withdrawPoint o p => some (o, .withdrawPoint p)
  | .readPoint o p => some (o, .readPoint p)
  | .shelvePoint o p m => some (o, .shelvePoint p m)
  | .unshelvePoint o p => some (o, .unshelvePoint p)
  | .defineGroup o b => some (o, .defineGroup b)
  | .readGroup o g => some (o, .readGroup g)
  | .lookUp o k => some (o, .lookUp k)
  | .readRecord o i => some (o, .readRecord i)
  | .listWalk o w => some (o, .listWalk w)
  | .summary o => some (o, .summary)
  | .acknowledge o f t tag => some (o, .acknowledge f t tag)
  | .acknowledgeGroup o g m tag => some (o, .acknowledgeGroup g m tag)
  | .setCounterSelection o g j e v m => some (o, .setCounterSelection g j e v m)
  | .readCounters o g => some (o, .readCounters g)
  | .clearCounters o g => some (o, .clearCounters g)
  | .readLinkCounters o c => some (o, .readLinkCounters c)
  | .setTime o t => some (o, .setTime t)
  | .wakeHut o => some (o, .wakeHut)
  | .readNotices o => some (o, .readNotices)
  | .peekNotices o => some (o, .peekNotices)
  | .setNoticeEnables o e => some (o, .setNoticeEnables e)
  | .setHutSettings o n w => some (o, .setHutSettings n w)
  | .enterDormant o => some (o, .enterDormant)
  | .restart o => some (o, .restart)
  | .localTransaction _ _ => none
  | .frameArrival _ _ => none
  | .transmissionCompletion _ => none
  | .carrierLoss _ => none
  | .carrierReturn _ => none
  | .scanTick _ => none
  | .secondTick _ => none
  | .staleCountdownExpiry _ => none
  | .shelveExpiry _ => none
  | .refill _ => none
  | .settleExpiry => none
  | .powerOn => none
  | .powerOnCompletion _ => none
  | .resetPinAssert => none
  | .resetPinRelease _ => none

/-- A request that fits into a message: a body is at most 48 bytes long (11 sections 11.2 and 11.3) and a Reading request
holds 4 bytes for each reading. Every other body has one length. -/
def Request.wf : Request → Bool
  | .reading readings => decide (readings.length ≤ 12)
  | _ => true

/-- A command that the outside can give. Every operand but a list of readings has its range in its type. -/
def Instr.wf (i : Instr) : Bool :=
  match i.request? with
  | some (_, r) => r.wf
  | none => true

end Sys2Proof
end

