-- ==== Sys2Proof/Decode.lean ====
section
/-! DEFINITION. The request codes and bodies of chapter 11: decoding a code and a body into a request, or rejecting them by name,
and the encoder. Then `decodeTableWord`, over the rows of spec/opcode_table.json that give bits: none does. -/

namespace Sys2Proof

/-! ## The table of requests (11 sections 11.5 and 11.6) -/

/-- Why a code and a body are no request (R187, first and second check). -/
inductive DecodeError where
  | unknownCode
  | badBodyLength
  deriving DecidableEq, Repr

/-- The readings of a Reading body: 4 bytes each, nothing when the length is no multiple of 4 (R187). -/
def decodeReadings : List Byte → Option (List RawReading)
  | [] => some []
  | p :: f :: v1 :: v0 :: rest => (decodeReadings rest).map ({ point := p, fault := f, value := v1 ++ v0 } :: ·)
  | _ => none

/-- The body of a request by its code (11 section 11.6); nothing when the length is not the code's. -/
def decodeBody (code : Nat) (body : List Byte) : Option Request :=
  match code, body with
  | 1, b => (decodeReadings b).map .reading
  | 2, [p, src, line, act, g, ret, pres, lo1, lo0, hi1, hi0, y1, y0, c1, c0, w, d, sl, sh, ss, sf, st1, st0] =>
    some (.definePoint
      { point := p, source := src, line, activeLevel := act, group := g, retirement := ret, thresholdsPresent := pres
        lowThreshold := lo1 ++ lo0, highThreshold := hi1 ++ hi0, hysteresis := y1 ++ y0, capacity := c1 ++ c0, weighting := w, weight := d
        severityLow := sl, severityHigh := sh, severityStale := ss, severityFault := sf, staleInterval := st1 ++ st0 })
  | 3, [p] => some (.withdrawPoint p)
  | 4, [p] => some (.readPoint p)
  | 5, [p, m1, m0] => some (.shelvePoint p (m1 ++ m0))
  | 6, [p] => some (.unshelvePoint p)
  | 7, [g, depth, re, ex, by_, mode, sev] =>
    some (.defineGroup { group := g, depth, reopen := re, refillExponent := ex, bypass := by_, mode, stormSeverity := sev })
  | 8, [g] => some (.readGroup g)
  | 9, [n, k] => some (.lookUp { number := n, kind := k })
  | 10, [i] => some (.readRecord i)
  | 11, [l, g, c, f, n, k] => some (.listWalk { list := l, group := g, count := c, cursorForm := f, cursor := { number := n, kind := k } })
  | 12, [] => some .summary
  | 13, [f, n, k, t1, t0] => some (.acknowledge f { number := n, kind := k } (t1 ++ t0))
  | 14, [g, m, t1, t0] => some (.acknowledgeGroup g m (t1 ++ t0))
  | 15, [g, j, e1, e0, v, m] => some (.setCounterSelection g j (e1 ++ e0) v m)
  | 16, [g] => some (.readCounters g)
  | 17, [g] => some (.clearCounters g)
  | 18, [c] => some (.readLinkCounters c)
  | 19, [t3, t2, t1, t0] => some (.setTime (t3 ++ t2 ++ t1 ++ t0))
  | 20, [] => some .wakeHut
  | 21, [] => some .readNotices
  | 22, [] => some .peekNotices
  | 23, [e] => some (.setNoticeEnables e)
  | 24, [n, w] => some (.setHutSettings n w)
  | 25, [] => some .enterDormant
  | 26, [] => some .restart
  | _, _ => none

/-- A code and a body decoded: the code must name a request, 1 to 26, then the body must have the code's length (R187). -/
def decodeRequest (code : Byte) (body : List Byte) : Except DecodeError Request :=
  if 1 ≤ code.toNat ∧ code.toNat ≤ 26 then
    match decodeBody code.toNat body with
    | some r => .ok r
    | none => .error .badBodyLength
  else .error .unknownCode

/-! ## The encoder -/

/-- The request code (11 section 11.5). -/
def Request.code : Request → Byte
  | .reading _ => 1#8
  | .definePoint _ => 2#8
  | .withdrawPoint _ => 3#8
  | .readPoint _ => 4#8
  | .shelvePoint _ _ => 5#8
  | .unshelvePoint _ => 6#8
  | .defineGroup _ => 7#8
  | .readGroup _ => 8#8
  | .lookUp _ => 9#8
  | .readRecord _ => 10#8
  | .listWalk _ => 11#8
  | .summary => 12#8
  | .acknowledge _ _ _ => 13#8
  | .acknowledgeGroup _ _ _ => 14#8
  | .setCounterSelection _ _ _ _ _ => 15#8
  | .readCounters _ => 16#8
  | .clearCounters _ => 17#8
  | .readLinkCounters _ => 18#8
  | .setTime _ => 19#8
  | .wakeHut => 20#8
  | .readNotices => 21#8
  | .peekNotices => 22#8
  | .setNoticeEnables _ => 23#8
  | .setHutSettings _ _ => 24#8
  | .enterDormant => 25#8
  | .restart => 26#8

/-- The most and the least significant byte of a two-byte field (00 section 7). -/
def highByte (h : Half) : Byte := h.extractLsb' 8 8

def lowByte (h : Half) : Byte := h.extractLsb' 0 8

/-- The bytes of a reading (11 section 11.6). -/
def RawReading.bytes (r : RawReading) : List Byte := [r.point, r.fault, highByte r.value, lowByte r.value]

/-- The body of a request (11 section 11.6). -/
def Request.body : Request → List Byte
  | .reading rs => rs.flatMap RawReading.bytes
  | .definePoint b =>
    [b.point, b.source, b.line, b.activeLevel, b.group, b.retirement, b.thresholdsPresent, highByte b.lowThreshold, lowByte b.lowThreshold,
      highByte b.highThreshold, lowByte b.highThreshold, highByte b.hysteresis, lowByte b.hysteresis, highByte b.capacity, lowByte b.capacity, b.weighting, b.weight,
      b.severityLow, b.severityHigh, b.severityStale, b.severityFault, highByte b.staleInterval, lowByte b.staleInterval]
  | .withdrawPoint p => [p]
  | .readPoint p => [p]
  | .shelvePoint p m => [p, highByte m, lowByte m]
  | .unshelvePoint p => [p]
  | .defineGroup b => [b.group, b.depth, b.reopen, b.refillExponent, b.bypass, b.mode, b.stormSeverity]
  | .readGroup g => [g]
  | .lookUp k => [k.number, k.kind]
  | .readRecord i => [i]
  | .listWalk w => [w.list, w.group, w.count, w.cursorForm, w.cursor.number, w.cursor.kind]
  | .summary => []
  | .acknowledge f t tag => [f, t.number, t.kind, highByte tag, lowByte tag]
  | .acknowledgeGroup g m tag => [g, m, highByte tag, lowByte tag]
  | .setCounterSelection g j e v m => [g, j, highByte e, lowByte e, v, m]
  | .readCounters g => [g]
  | .clearCounters g => [g]
  | .readLinkCounters c => [c]
  | .setTime t => [t.extractLsb' 24 8, t.extractLsb' 16 8, t.extractLsb' 8 8, t.extractLsb' 0 8]
  | .wakeHut => []
  | .readNotices => []
  | .peekNotices => []
  | .setNoticeEnables e => [e]
  | .setHutSettings n w => [n, w]
  | .enterDormant => []
  | .restart => []

/-! ## The opcode table -/

/-- No row of spec/opcode_table.json gives bits (98_reader.md: 0 rows with fixed bits, 0 with fields), so no word spells a
command. -/
def decodeTableWord (_nbits _w : Nat) : Option Instr := none

end Sys2Proof
end

