-- ==== Sys2Proof/Machine/Wire.lean ====
section
/-! DEFINITION. The check sequence, the route frame and the local message of chapters 8, 9 and 11. -/

namespace Sys2Proof.Machine

/-! ## The check sequence (R143) -/

/-- One bit of the division by x^16 + x^12 + x^5 + 1. -/
def crcBit (r : Half) : Half := if r.msb then (r <<< 1) ^^^ 0x1021#16 else r <<< 1

/-- One byte, most significant bit first. -/
def crcByte (r : Half) (b : Byte) : Half :=
  crcBit (crcBit (crcBit (crcBit (crcBit (crcBit (crcBit (crcBit (r ^^^ (b ++ 0#8)))))))))

/-- The check of a list of bytes: the register starts at all ones, nothing is reflected or inverted (R143). -/
def crc (bytes : List Byte) : Half := bytes.foldl crcByte 0xFFFF#16

/-- The check as sent, most significant byte first. -/
def checkBytes (bytes : List Byte) : List Byte := halfBytes (crc bytes)

/-! ## The route frame (11 section 11.2) -/

/-- The sync byte. -/
def syncByte : Byte := 195#8

/-- The control byte: kind, bit 6 at 0, hop budget (11 section 11.2, R185). -/
def controlByte (kind : FrameKind) (hop : BitVec 6) : Byte :=
  (match kind with
    | .request => 0#2
    | .reply => 2#2) ++ hop

/-- What the check of a frame covers: length to the last body byte (R143). -/
def Frame.covered (f : Frame) : List Byte :=
  [natByte f.body.length, f.destination, f.source, controlByte f.kind f.hop, f.tag, f.code] ++ f.body

/-- A frame as it is sent (11 section 11.2). -/
def Frame.bytes (f : Frame) : List Byte := syncByte :: f.covered ++ checkBytes f.covered

/-- The frame whose covered bytes these are, or nothing when the control byte is bad (R144, R185). -/
def frameOf : List Byte → Option Frame
  | _ :: destination :: source :: control :: tag :: code :: body =>
    if control.getLsbD 6 then none
    else some { destination, source, kind := if control.getLsbD 7 then .reply else .request, hop := control.extractLsb' 0 6, tag, code, body }
  | _ => none

/-- The good frame in the bytes received after the sync byte, or nothing when the check does not agree or the control byte is
bad (R144). -/
def goodFrame (bytes : List Byte) : Option Frame :=
  let covered := bytes.take (bytes.length - 2)
  if bytes.drop (bytes.length - 2) = checkBytes covered then frameOf covered else none

/-! ## The local message (11 section 11.3) -/

/-- A local message with a code and a body. -/
def localMessage (code : Byte) (body : List Byte) : List Byte :=
  let covered := natByte (body.length + 1) :: code :: body
  covered ++ checkBytes covered

/-- The bytes of the reply slot: Empty is the single byte 0 (R161, R186). -/
def slotBytes : Option Reply → List Byte
  | none => [0#8]
  | some r => localMessage r.status.byte r.body

/-- What the gathered bytes of a transaction are (R160, R186). -/
inductive Inward where
  | empty
  | malformed
  | message (code : Byte) (body : List Byte)
  deriving DecidableEq, Repr

/-- The judgement of the gathered bytes: empty, then bad length, incomplete, bad check; bytes after the message are ignored
(R159, R160, R186). -/
def judgeInward : List Byte → Inward
  | [] => .empty
  | n :: rest =>
    if n = 0#8 then .empty
    else if 49 < n.toNat then .malformed
    else if rest.length < n.toNat + 2 then .malformed
    else if (rest.drop n.toNat).take 2 ≠ checkBytes (n :: rest.take n.toNat) then .malformed
    else
      match rest.take n.toNat with
      | code :: body => .message code body
      | [] => .malformed

/-! ## Bits, most significant first (R159) -/

/-- The bits of a byte in the order sent. -/
def byteBits (b : Byte) : List Bool :=
  [b.getLsbD 7, b.getLsbD 6, b.getLsbD 5, b.getLsbD 4, b.getLsbD 3, b.getLsbD 2, b.getLsbD 1, b.getLsbD 0]

/-- The bits of a list of bytes. -/
def bitsOf (bytes : List Byte) : List Bool := bytes.flatMap byteBits

/-- The byte of eight bits. -/
def byteOf (b7 b6 b5 b4 b3 b2 b1 b0 : Bool) : Byte :=
  BitVec.ofNat 8 (b7.toNat * 128 + b6.toNat * 64 + b5.toNat * 32 + b4.toNat * 16 + b3.toNat * 8 + b2.toNat * 4 + b1.toNat * 2 + b0.toNat)

/-- The whole bytes gathered; fewer than eight bits at the end make no byte (R159, log entry 19). -/
def bytesOf : List Bool → List Byte
  | b7 :: b6 :: b5 :: b4 :: b3 :: b2 :: b1 :: b0 :: rest => byteOf b7 b6 b5 b4 b3 b2 b1 b0 :: bytesOf rest
  | _ => []

/-- What a message shifts out in `n` clocks: its bits, then zeros (R159). -/
def shiftOut (n : Nat) (message : List Byte) : List Bool := (bitsOf message ++ List.replicate n false).take n

end Sys2Proof.Machine
end

