-- ==== Sys2Proof/Machine/Links.lean ====
section
/-! DEFINITION. The sides of the route link: carriers, transmit queues, link counters, Read Link Counters (chapter 8). -/

namespace Sys2Proof.Machine

/-- The side opposite a side. -/
def opposite : Side → Side
  | .west => .east
  | .east => .west

/-- A side of the relay. -/
def State.side (s : State) : Side → SideState
  | .west => s.rr.west
  | .east => s.rr.east

/-- A side replaced. -/
def putSide (d : Side) (x : SideState) (s : State) : State :=
  match d with
  | .west => { s with rr := { s.rr with west := x } }
  | .east => { s with rr := { s.rr with east := x } }

/-- The seven link counters by name (R156). -/
inductive LinkCounter where
  | received
  | forwarded
  | taken
  | badCheck
  | hopExpired
  | overflow
  | flushed
  deriving DecidableEq, Repr

/-- A link counter raised, saturating (R156). -/
def LinkCounters.add (c : LinkCounters) (which : LinkCounter) (n : Nat) : LinkCounters :=
  match which with
  | .received => { c with received := satAdd c.received n }
  | .forwarded => { c with forwarded := satAdd c.forwarded n }
  | .taken => { c with taken := satAdd c.taken n }
  | .badCheck => { c with badCheck := satAdd c.badCheck n }
  | .hopExpired => { c with hopExpired := satAdd c.hopExpired n }
  | .overflow => { c with overflow := satAdd c.overflow n }
  | .flushed => { c with flushed := satAdd c.flushed n }

/-- A link counter of a side raised. -/
def countLink (d : Side) (which : LinkCounter) (n : Nat) (s : State) : State :=
  putSide d { s.side d with counters := (s.side d).counters.add which n } s

/-- The frame that a side is sending: the head of its queue while its carrier is present (R152). -/
def State.transmitting (s : State) (d : Side) : Option Frame :=
  if (s.side d).carrier && !s.inHold then (s.side d).queue.head? else none

/-- Whether a side has room for a frame: its carrier present and fewer than 4 frames on its queue (R151, R153). -/
def State.roomOn (s : State) (d : Side) : Bool := (s.side d).carrier && decide ((s.side d).queue.length < 4)

/-- A frame placed on a side's queue: discarded as Flushed while the carrier is lost, discarded as Overflow when the queue is
full, else at the tail (R151, R153). -/
def place (d : Side) (f : Frame) (s : State) : State :=
  if (s.side d).carrier then
    if (s.side d).queue.length < 4 then putSide d { s.side d with queue := (s.side d).queue ++ [f] } s
    else countLink d .overflow 1 s
  else countLink d .flushed 1 s

/-- A frame bound elsewhere, or a broadcast that goes on, with hop budget above 0: hop budget lowered, placed on the opposite
side; Forwarded counts on the arrival side when it was placed (R147). -/
def forward (d : Side) (f : Frame) (s : State) : State :=
  let placed := place (opposite d) { f with hop := f.hop - 1#6 } s
  if s.roomOn (opposite d) then countLink d .forwarded 1 placed else placed

/-- Whether a destination is the own hut address: a strapped value from 1 to 254 is an address (R142). -/
def State.isOwn (s : State) (destination : Byte) : Bool :=
  decide (s.rr.address ≠ 0#8 ∧ s.rr.address ≠ 255#8 ∧ destination = s.rr.address)

/-- The completion of a transmission: the head leaves the queue (R152). With nothing in transmission it cannot arise (log
entry 6). -/
def completeTransmission (d : Side) (s : State) : State :=
  if (s.side d).carrier then putSide d { s.side d with queue := (s.side d).queue.tail } s else s

/-- A carrier loss: carrier lost, queue flushed and counted, reception abandoned, Link set (R153). The carrier already lost
cannot be lost (R153, log entry 6). -/
def loseCarrier (d : Side) (s : State) : State :=
  let x := s.side d
  if x.carrier then
    setNotice .link (putSide d
      { carrier := false, queue := [], reception := [], counters := x.counters.add .flushed x.queue.length } s)
  else s

/-- A carrier return: carrier present, the receiver hunts, Link set (R154). -/
def returnCarrier (d : Side) (s : State) : State :=
  let x := s.side d
  if x.carrier then s else setNotice .link (putSide d { x with carrier := true, reception := [] } s)

/-! ## Read Link Counters -/

/-- A link counter in three bytes, 16,777,215 when it is above that (R188). -/
def linkCounterBytes (v : Quad) : List Byte :=
  let n := min v.toNat 16777215
  [natByte (n / 65536), natByte (n / 256), natByte n]

/-- The seven counters in the order Received, Forwarded, Taken, BadCheck, HopExpired, Overflow, Flushed (R157). -/
def LinkCounters.bytes (c : LinkCounters) : List Byte :=
  linkCounterBytes c.received ++ linkCounterBytes c.forwarded ++ linkCounterBytes c.taken ++ linkCounterBytes c.badCheck ++
  linkCounterBytes c.hopExpired ++ linkCounterBytes c.overflow ++ linkCounterBytes c.flushed

/-- The link state byte: carriers and queue lengths, West in the high half (R188). -/
def linkStateByte (s : State) : Byte :=
  (if s.rr.west.carrier then 0x80#8 else 0#8) ||| natByte (s.rr.west.queue.length * 16) |||
  (if s.rr.east.carrier then 0x08#8 else 0#8) ||| natByte s.rr.east.queue.length

/-- All fourteen link counters set to 0 (R157). -/
def clearLinks (s : State) : State :=
  { s with rr := { s.rr with west := { s.rr.west with counters := .zero }, east := { s.rr.east with counters := .zero } } }

/-- Read Link Counters: the values as they stand, then 0 when the clear flag is set (R157, R188). -/
def serveReadLinkCounters (clear : Byte) (s : State) : State × Reply :=
  (if clear = 0#8 then s else clearLinks s,
    .done ([s.rr.address, linkStateByte s] ++ s.rr.west.counters.bytes ++ s.rr.east.counters.bytes))

end Sys2Proof.Machine
end

