-- ==== Sys2Proof/Machine/Lookup.lean ====
section
/-! DEFINITION. The requests of the Record Table: Look Up, Read Record, List Walk, Summary, Acknowledge, Acknowledge Group. -/

namespace Sys2Proof.Machine

/-! ## Records in replies -/

/-- A field of four bytes, 0 when absent (R126). -/
def optQuad (q : Option Quad) : List Byte := quadBytes (q.getD 0#32)

/-- The presence bits of a record body (11 section 11.7). -/
def presenceByte (r : Record) : Byte :=
  (if r.key.isSome then 1#8 else 0#8) ||| (if r.peak.isSome then 2#8 else 0#8) ||| (if r.clearTime.isSome then 4#8 else 0#8) |||
    (if r.ack.isSome then 8#8 else 0#8)

/-- The acknowledgement of a record body: by, operator tag, ack time, 0 when absent (R126). -/
def ackBytes : Option Ack → List Byte
  | some a => [a.taker.byte] ++ halfBytes a.tag ++ quadBytes a.time
  | none => [0#8, 0#8, 0#8, 0#8, 0#8, 0#8, 0#8]

/-- The 24 bytes of a record body (11 section 11.7). -/
def recordBytes (i : RecordIx) (r : Record) : List Byte :=
  [indexByte i, r.state.byte, presenceByte r] ++
  (match r.key with
    | some k => k.bytes
    | none => [0#8, 0#8]) ++
  [r.severity.byte] ++ quadBytes r.raiseTime ++ [r.repeats] ++ halfBytes (r.peak.getD 0#16) ++ optQuad r.clearTime ++ ackBytes r.ack

/-! ## Keys -/

/-- Where a key stands: its record, or pending with its entry, or nothing (R113, R125). -/
inductive KeyPlace where
  | record (i : RecordIx)
  | pending (e : KeyEntry)
  | nowhere
  deriving DecidableEq, Repr

/-- Where a key stands. A storm key has its storm record while that is live (R113). -/
def State.placeOf (s : State) : Key → KeyPlace
  | .storm g => if (s.record (stormIx g)).state.live then .record (stormIx g) else .nowhere
  | .point k =>
    let e := s.key k
    match e.state with
    | .raised | .cleared =>
      match e.link with
      | some i => .record i
      | none => .nowhere
    | .held | .waiting | .folded => .pending e
    | .quiet => .nowhere

/-- Look Up (R125). -/
def serveLookUp (k : RawKey) (s : State) : State × Reply :=
  match keyOf k with
  | none => (s, .bare .badField)
  | some key =>
    match s.placeOf key with
    | .record i => (s, .done (recordBytes i (s.record i)))
    | .pending e => (s, pendingReply e)
    | .nowhere => (s, .bare .notFound)

/-- Read Record (R126). -/
def serveReadRecord (b : Byte) (s : State) : State × Reply :=
  match recordNumber b with
  | none => (s, .bare .badField)
  | some i => (s, .done (recordBytes i (s.record i)))

/-! ## List Walk -/

/-- A list that List Walk names: of records or of keys (R127). -/
inductive WalkList where
  | records (entries : List RecordIx)
  | keys (entries : List PointKey)
  deriving DecidableEq, Repr

/-- The list that a list byte and a group byte name; the group byte is examined for StormHeld alone (R127, R184). -/
def State.walkList (s : State) (list group : Byte) : Option WalkList :=
  match list.toNat with
  | 0 => some (.records s.rt.free)
  | 1 => some (.records s.rt.standing)
  | 2 => some (.records s.rt.acknowledged)
  | 3 => some (.records s.rt.cleared)
  | 4 => some (.keys s.rt.poolWait)
  | 5 => (groupNumber group).map fun g => .keys (s.governor g).held
  | _ => none

/-- The entries after a cursor, or nothing when the cursor names no entry of the list (R128). -/
def after {α : Type} [DecidableEq α] (x : α) : List α → Option (List α)
  | [] => none
  | y :: rest => if y = x then some rest else after x rest

/-- A record-list entry: index, key (255, 255 when absent), severity (R128, 11 section 11.7). -/
def recordEntry (s : State) (i : RecordIx) : List Byte :=
  [indexByte i] ++
  (match (s.record i).key with
    | some k => k.bytes
    | none => [255#8, 255#8]) ++
  [(s.record i).severity.byte]

/-- A key-list entry: key and pending severity (R128). -/
def keyListEntry (s : State) (k : PointKey) : List Byte := (Key.point k).bytes ++ [(s.pendingOf k).severity.byte]

/-- The reply of a walk over the entries from its start: up to `count` of them, and More (R128). -/
def walkReply {α : Type} (entry : α → List Byte) (count : Nat) (start : Option (List α)) : Reply :=
  match start with
  | none => .bare .cursorLost
  | some l => .done ([natByte (l.take count).length, boolByte (decide (count < l.length))] ++ (l.take count).flatMap entry)

/-- The start of a walk of a record list: no cursor, or a record index; none for a cursor refused with BadField (R127). -/
def recordWalkStart (w : RawWalk) (l : List RecordIx) : Option (Option (List RecordIx)) :=
  match w.cursorForm.toNat with
  | 0 => some (some l)
  | 1 => (recordNumber w.cursor.number).map fun i => after i l
  | _ => none

/-- The start of a walk of a key list: no cursor, or a key; a storm key is on no key list (R127). -/
def keyWalkStart (w : RawWalk) (l : List PointKey) : Option (Option (List PointKey)) :=
  match w.cursorForm.toNat with
  | 0 => some (some l)
  | 2 =>
    (keyOf w.cursor).map fun key =>
      match key with
      | .point k => after k l
      | .storm _ => none
  | _ => none

/-- List Walk (R127, R128). -/
def serveListWalk (w : RawWalk) (s : State) : State × Reply :=
  if 1 ≤ w.count.toNat ∧ w.count.toNat ≤ 8 then
    match s.walkList w.list w.group with
    | none => (s, .bare .badField)
    | some (.records l) =>
      match recordWalkStart w l with
      | none => (s, .bare .badField)
      | some start => (s, walkReply (recordEntry s) w.count.toNat start)
    | some (.keys l) =>
      match keyWalkStart w l with
      | none => (s, .bare .badField)
      | some start => (s, walkReply (keyListEntry s) w.count.toNat start)
  else (s, .bare .badField)

/-! ## Summary -/

/-- Whether a record counts in Summary: a storm record, or a pool record whose point is not shelved (R129). -/
def State.counted (s : State) (i : RecordIx) : Bool :=
  match (s.record i).key with
  | some k => !s.keyShelved k
  | none => false

/-- The records of a list of a severity that count in Summary (R129). -/
def State.countOf (s : State) (l : List RecordIx) (sev : Severity) : Nat :=
  (l.filter fun i => s.counted i && decide ((s.record i).severity = sev)).length

/-- The three counts of a severity (R129). -/
def severityCounts (s : State) (sev : Severity) : List Byte :=
  [natByte (s.countOf s.rt.standing sev), natByte (s.countOf s.rt.acknowledged sev), natByte (s.countOf s.rt.cleared sev)]

/-- The 21 bytes of a Summary reply (R129, 11 section 11.7). -/
def summaryBytes (s : State) : List Byte :=
  severityCounts s .warning ++ severityCounts s .minor ++ severityCounts s .major ++ severityCounts s .critical ++
  [natByte s.rt.free.length, natByte s.rt.poolWait.length] ++ halfBytes s.rt.changeCount ++ quadBytes s.tb.hutTime ++ [s.tb.mode.byte]

/-- Summary (R129). -/
def serveSummary (s : State) : State × Reply := (s, .done (summaryBytes s))

/-! ## Acknowledgement -/

/-- An acknowledgement of a record with the answer by its state: Done with the index and outcome 0 Acknowledged or 1 Retired,
AlreadyAcked, NotFound (R112). -/
def acknowledgeIndex (i : RecordIx) (who : AckBy) (tag : Half) (s : State) : State × Reply :=
  match (s.record i).state with
  | .standing => (acknowledgeRecord i who tag s, .done [indexByte i, 0#8])
  | .cleared => (acknowledgeRecord i who tag s, .done [indexByte i, 1#8])
  | .acknowledged => (s, .bare .alreadyAcked)
  | .free | .idle => (s, .bare .notFound)

/-- Acknowledge: by index (form byte 0) or by key (R111 to R113). -/
def serveAcknowledge (form : Byte) (target : RawKey) (tag : Half) (who : AckBy) (s : State) : State × Reply :=
  if form = 0#8 then
    match recordNumber target.number with
    | none => (s, .bare .badField)
    | some i => acknowledgeIndex i who tag s
  else
    match keyOf target with
    | none => (s, .bare .badField)
    | some key =>
      match s.placeOf key with
      | .record i => acknowledgeIndex i who tag s
      | .pending e => (s, pendingReply e)
      | .nowhere => (s, .bare .notFound)

/-- Whether a record belongs to a group: by the group of its point, or as its storm record (R117). -/
def State.recordInGroup (s : State) (i : RecordIx) (g : GroupId) : Bool :=
  match (s.record i).key with
  | some k => decide (s.keyGroup k = g)
  | none => false

/-- The records that Acknowledge Group takes, in Standing order: of the group, with severity at most the limit (R117). -/
def State.groupStanding (s : State) (g : GroupId) (limit : Severity) : List RecordIx :=
  s.rt.standing.filter fun i => s.recordInGroup i g && limit.meets (s.record i).severity

/-- Acknowledge Group (R117). -/
def serveAcknowledgeGroup (gb lb : Byte) (tag : Half) (who : AckBy) (s : State) : State × Reply :=
  match groupNumber gb, severityOf lb with
  | some g, some limit =>
    let l := s.groupStanding g limit
    (l.foldl (fun s i => acknowledgeRecord i who tag s) s, .done [natByte l.length])
  | _, _ => (s, .bare .badField)

end Sys2Proof.Machine
end

