-- ==== Sys2Proof/Machine/Notices.lean ====
section
/-! DEFINITION. The requests of the Notice Unit: Read Notices, Peek Notices, Set Notice Enables, Set Hut Settings. -/

namespace Sys2Proof.Machine

/-- The wake cause record in a reply: cause, record or 255, source hut or 0, hut time or 0 (11 section 11.7). -/
def wakeRecordBytes : Option WakeRecord → List Byte
  | none => [0#8, 255#8, 0#8] ++ quadBytes 0#32
  | some { cause := .raise i, time } => [1#8, indexByte i, 0#8] ++ quadBytes time
  | some { cause := .routeWake source, time } => [2#8, 255#8, source] ++ quadBytes time
  | some { cause := .localPort, time } => [3#8, 255#8, 0#8] ++ quadBytes time

/-- The 11 bytes that Read Notices and Peek Notices return (R167). -/
def noticeBytes (s : State) : List Byte :=
  [s.nu.flags, s.nu.enables, s.nu.level.byte, s.tb.wakeLevel.byte] ++ wakeRecordBytes s.tb.wakeRecord

/-- Read Notices: the contents, then the flags returned set are cleared or kept (R167). -/
def serveReadNotices (s : State) : State × Reply := (readNotices s, .done (noticeBytes s))

/-- Peek Notices: the contents alone (R167). -/
def servePeekNotices (s : State) : State × Reply := (s, .done (noticeBytes s))

/-- Set Notice Enables: the eight enables replaced whole (R165). -/
def serveSetNoticeEnables (enables : Byte) (s : State) : State × Reply := ({ s with nu := { s.nu with enables } }, .done [])

/-- Set Hut Settings: notice level 1 to 4 and wake level 1 to 5 (R169). -/
def serveSetHutSettings (notice wake : Byte) (s : State) : State × Reply :=
  match severityOf notice, barOf wake with
  | some level, some wakeLevel => ({ s with nu := { s.nu with level }, tb := { s.tb with wakeLevel } }, .done [])
  | _, _ => (s, .bare .badField)

end Sys2Proof.Machine
end

