-- ==== Sys2Proof/Machine/Serve.lean ====
section
/-! DEFINITION. A request handed to its owner, after the permission of the port (R149, R160, R187). -/

namespace Sys2Proof.Machine

/-- The port that takes a request; by the route link with the source of the frame (R111, R150). -/
inductive Taker where
  | localPort
  | routeLink (source : Byte)
  deriving DecidableEq, Repr

/-- The "by" of an acknowledgement (R111). -/
def Taker.ackBy : Taker → AckBy
  | .localPort => .localPort
  | .routeLink _ => .routeLink

/-- The requests that only the local port serves (R149). -/
def localOnly : Request → Bool
  | .reading _ => true
  | .definePoint _ => true
  | .withdrawPoint _ => true
  | .readPoint _ => false
  | .shelvePoint _ _ => false
  | .unshelvePoint _ => false
  | .defineGroup _ => true
  | .readGroup _ => false
  | .lookUp _ => false
  | .readRecord _ => false
  | .listWalk _ => false
  | .summary => false
  | .acknowledge _ _ _ => false
  | .acknowledgeGroup _ _ _ => false
  | .setCounterSelection _ _ _ _ _ => true
  | .readCounters _ => false
  | .clearCounters _ => false
  | .readLinkCounters _ => false
  | .setTime _ => false
  | .wakeHut => false
  | .readNotices => true
  | .peekNotices => true
  | .setNoticeEnables _ => true
  | .setHutSettings _ _ => true
  | .enterDormant => true
  | .restart => true

/-- Whether a port serves a request: local-only requests are refused from the route link, Wake Hut at the local port (R149,
R160). -/
def permitted (t : Taker) (r : Request) : Bool :=
  match t with
  | .localPort => decide (r ≠ .wakeHut)
  | .routeLink _ => !localOnly r

/-- A request served by its owner. -/
def serveOwner (t : Taker) (r : Request) (s : State) : State × Reply :=
  match r with
  | .reading rs => serveReading rs s
  | .definePoint b => serveDefinePoint b s
  | .withdrawPoint p => serveWithdrawPoint p s
  | .readPoint p => serveReadPoint p s
  | .shelvePoint p m => serveShelvePoint p m s
  | .unshelvePoint p => serveUnshelvePoint p s
  | .defineGroup b => serveDefineGroup b s
  | .readGroup g => serveReadGroup g s
  | .lookUp k => serveLookUp k s
  | .readRecord i => serveReadRecord i s
  | .listWalk w => serveListWalk w s
  | .summary => serveSummary s
  | .acknowledge f k tag => serveAcknowledge f k tag t.ackBy s
  | .acknowledgeGroup g m tag => serveAcknowledgeGroup g m tag t.ackBy s
  | .setCounterSelection g j e v m => serveSetCounterSelection g j e v m s
  | .readCounters g => serveReadCounters g s
  | .clearCounters g => serveClearCounters g s
  | .readLinkCounters c => serveReadLinkCounters c s
  | .setTime time => serveSetTime time s
  | .wakeHut =>
    match t with
    | .routeLink source => serveWakeHut source s
    | .localPort => (s, .bare .notPermitted)
  | .readNotices => serveReadNotices s
  | .peekNotices => servePeekNotices s
  | .setNoticeEnables e => serveSetNoticeEnables e s
  | .setHutSettings n w => serveSetHutSettings n w s
  | .enterDormant => serveEnterDormant s
  | .restart => serveRestart s

/-- A request taken at a port: the permission, then the owner (R187). -/
def serve (t : Taker) (r : Request) (s : State) : State × Reply :=
  if permitted t r then serveOwner t r s else (s, .bare .notPermitted)

/-- The status of a decode failure (R187). -/
def decodeStatus : DecodeError → Status
  | .unknownCode => .unknownCode
  | .badBodyLength => .badBodyLength

/-- A code and a body taken at a port: decoded and served, or answered with the decode status (R187). -/
def serveMessage (t : Taker) (code : Byte) (body : List Byte) (s : State) : State × Reply :=
  match decodeRequest code body with
  | .ok r => serve t r s
  | .error e => (s, .bare (decodeStatus e))

end Sys2Proof.Machine
end

