-- ==== Sys2Proof/Machine/Ports.lean ====
section
/-! DEFINITION. The two ports: transactions of the local port (chapter 9) and arrivals on the route link (chapter 8). -/

namespace Sys2Proof.Machine

/-! ## The local port -/

/-- The reply slot replaced. -/
def putSlot (slot : Option Reply) (s : State) : State := { s with lp := { s.lp with slot } }

/-- What a transaction shifts out on LSDO, in `n` clocks, from the slot as it stands at the fall of LSEL_N (R159). -/
def shiftSlot (n : Nat) (s : State) : State := { s with lp := { s.lp with lsdo := shiftOut n (slotBytes s.lp.slot) } }

/-- What a request in a transaction does in Watch: it is served and its reply goes into the slot (R160, R161). -/
def takeServed (r : State × Reply) : State := putSlot (some r.2) r.1

/-- What the gathered bytes of a transaction do in Watch (R160, R161). -/
def judgeTransaction (inward : Inward) (s : State) : State :=
  match inward with
  | .empty => putSlot none s
  | .malformed => putSlot (some (.bare .malformed)) s
  | .message code body => takeServed (serveMessage .localPort code body s)

/-- A transaction outside a hold, with what its message does in Watch: served in Watch; in Waking after the return to Watch; in
Settling and Dormant a wake cause of kind Local, its message not examined and the slot Asleep (R162). -/
def transact (served : State → State) (s : State) : State :=
  match s.tb.mode with
  | .watch => served s
  | .waking => served (enterWatch s)
  | .settling | .dormant => putSlot (some (.bare .asleep)) (wakeCause .localPort s)

/-- A transaction during a hold is not taken and LSDO shifts out zeros (R181). -/
def heldTransaction (n : Nat) (s : State) : State := { s with lp := { s.lp with lsdo := List.replicate n false } }

/-- LSDO at clock `j` of a transaction that a hold cuts: the slot as it stood at the fall before the hold (R159), zero in the
hold (R181), free after a completion (log entry 8). -/
def cutBit (cut : HoldCut) (slot : List Bool) (free : Nat → Bool) (j : Nat) : Bool :=
  if j < cut.before then slot.getD j false
  else if cut.held[j - cut.before]? = some true then false
  else free j

/-- A transaction of `n` clocks that a hold cuts is abandoned: it is not taken, and the slot is as it was (R163, R181). -/
def cutTransaction (n : Nat) (cut : HoldCut) (s : State) : State :=
  { s with
    lp := { s.lp with
      lsdo := (List.range n).map (cutBit cut (shiftOut n (slotBytes s.lp.slot)) (Config.cutTransactionBit s.freeDraws)) }
    freeDraws := s.freeDraws + 1 }

/-- A local transaction taken whole at its end, from the bits on LSDI (R159 to R162). -/
def localTransaction (lsdi : List Bool) (cut : Option HoldCut) (s : State) : State :=
  match cut with
  | some c => cutTransaction lsdi.length c s
  | none =>
    if s.inHold then heldTransaction lsdi.length s
    else transact (judgeTransaction (judgeInward (bytesOf lsdi))) (shiftSlot lsdi.length s)

/-- The clocks of the transaction that carries a request and nothing after it: length, code, body, check (R186). -/
def requestClocks (r : Request) : Nat := 8 * (r.body.length + 4)

/-- A request at the local port: the transaction that carries it (log entry 1). -/
def takeLocal (r : Request) (s : State) : State :=
  if s.inHold then heldTransaction (requestClocks r) s
  else transact (fun s => takeServed (serve .localPort r s)) (shiftSlot (requestClocks r) s)

/-! ## The route link -/

/-- The reply frame to a request (R148, R185). -/
def replyFrame (f : Frame) (r : Reply) (s : State) : Frame :=
  { destination := f.source, source := s.rr.address, kind := .reply, hop := 63#6, tag := f.tag, code := r.status.byte, body := r.body }

/-- A request addressed to this hut: taken, served, its reply placed on the arrival side's queue (R145, R148). -/
def takeAddressed (d : Side) (f : Frame) (served : State → State × Reply) (s : State) : State :=
  let r := served (countLink d .taken 1 s)
  place d (replyFrame f r.2 r.1) r.1

/-- A broadcast request: taken, its reply discarded, then forwarded if its hop budget is above 0 (R146). -/
def takeBroadcast (d : Side) (f : Frame) (served : State → State × Reply) (s : State) : State :=
  let s1 := (served (countLink d .taken 1 s)).1
  if f.hop = 0#6 then s1 else forward d f s1

/-- A frame bound elsewhere: forwarded, or discarded as HopExpired when its budget is 0 (R147). -/
def passOn (d : Side) (f : Frame) (s : State) : State :=
  if f.hop = 0#6 then countLink d .hopExpired 1 s else forward d f s

/-- A good frame that has arrived on a side: counted as Received, then taken, forwarded or discarded by its destination and kind
(R144 to R147). `served` is what its request does when it is taken. -/
def takeFrame (d : Side) (f : Frame) (served : State → State × Reply) (s : State) : State :=
  let s1 := countLink d .received 1 s
  if s1.isOwn f.destination then
    match f.kind with
    | .request => takeAddressed d f served s1
    | .reply => s1
  else if f.destination = 0#8 then
    match f.kind with
    | .request => takeBroadcast d f served s1
    | .reply => passOn d f s1
  else passOn d f s1

/-- The receiver hunts again. -/
def hunt (d : Side) (s : State) : State := putSide d { s.side d with reception := [] } s

/-- The bytes after the sync byte of a complete frame: a good frame is taken, any other counts as BadCheck (R144). -/
def takeArrival (d : Side) (bytes : List Byte) (s : State) : State :=
  match goodFrame bytes with
  | some f => takeFrame d f (serveMessage (.routeLink f.source) f.code f.body) s
  | none => countLink d .badCheck 1 s

/-- A byte within a frame: the length byte is judged at once, the last byte completes the frame (R144). -/
def receiveInside (d : Side) (b : Byte) (s : State) : State :=
  match (s.side d).reception with
  | [] => s
  | [sync] =>
    if 48 < b.toNat then countLink d .badCheck 1 (hunt d s) else putSide d { s.side d with reception := [sync, b] } s
  | sync :: len :: rest =>
    if rest.length + 1 = len.toNat + 7 then takeArrival d (len :: rest ++ [b]) (hunt d s)
    else putSide d { s.side d with reception := sync :: len :: rest ++ [b] } s

/-- A byte that arrives on a side: nothing while the carrier is lost; a receiver that hunts waits for the sync byte (R144,
R153). -/
def receiveByte (d : Side) (s : State) (b : Byte) : State :=
  if (s.side d).carrier then
    if (s.side d).reception = [] then
      if b = syncByte then putSide d { s.side d with reception := [b] } s else s
    else receiveInside d b s
  else s

/-- Bytes that arrive on a side; during a hold nothing is received (R144, R181). -/
def arrive (d : Side) (bytes : List Byte) (s : State) : State :=
  if s.inHold then s else bytes.foldl (receiveByte d) s

/-- The frame that carries a request by the route link. -/
def requestFrame (h : RouteHeader) (r : Request) : Frame :=
  { destination := h.destination, source := h.source, kind := .request, hop := h.hop, tag := h.tag, code := r.code, body := r.body }

/-- A request by the route link: the arrival of the good frame that carries it (log entries 1 and 13). Nothing arrives during
a hold or while the carrier of the side is lost (R144, R181). -/
def takeRoute (h : RouteHeader) (r : Request) (s : State) : State :=
  if s.inHold then s
  else if (s.side h.side).carrier then
    takeFrame h.side (requestFrame h r) (serve (.routeLink h.source) r) (hunt h.side s)
  else s

/-- A request at the port it arrives at. -/
def takeRequest (o : Origin) (r : Request) (s : State) : State :=
  match o with
  | .localPort => takeLocal r s
  | .route h => takeRoute h r s

end Sys2Proof.Machine
end

