-- ==== Sys2Proof/Machine/Commands.lean ====
section
/-! DEFINITION. The meanings of the commands: one definition for each constructor of `Instr`. Every meaning answers a next state:
the spec names no fault of the part. -/

namespace Sys2Proof.Machine

/-- A command taken: the next state. -/
abbrev Taken := Host.Outcome State Fault Refusal

/-! ## Requests, each at the port it arrives at -/

/-- Reading (R46). -/
def execReading (o : Origin) (rs : List RawReading) (s : State) : Taken := .next (takeRequest o (.reading rs) s)

/-- Define Point (R31 to R34). -/
def execDefinePoint (o : Origin) (b : RawPoint) (s : State) : Taken := .next (takeRequest o (.definePoint b) s)

/-- Withdraw Point (R40 to R42). -/
def execWithdrawPoint (o : Origin) (p : Byte) (s : State) : Taken := .next (takeRequest o (.withdrawPoint p) s)

/-- Read Point (R35). -/
def execReadPoint (o : Origin) (p : Byte) (s : State) : Taken := .next (takeRequest o (.readPoint p) s)

/-- Shelve Point (R118). -/
def execShelvePoint (o : Origin) (p : Byte) (m : Half) (s : State) : Taken := .next (takeRequest o (.shelvePoint p m) s)

/-- Unshelve Point (R119). -/
def execUnshelvePoint (o : Origin) (p : Byte) (s : State) : Taken := .next (takeRequest o (.unshelvePoint p) s)

/-- Define Group (R94, R95). -/
def execDefineGroup (o : Origin) (b : RawGroup) (s : State) : Taken := .next (takeRequest o (.defineGroup b) s)

/-- Read Group (R108). -/
def execReadGroup (o : Origin) (g : Byte) (s : State) : Taken := .next (takeRequest o (.readGroup g) s)

/-- Look Up (R125). -/
def execLookUp (o : Origin) (k : RawKey) (s : State) : Taken := .next (takeRequest o (.lookUp k) s)

/-- Read Record (R126). -/
def execReadRecord (o : Origin) (i : Byte) (s : State) : Taken := .next (takeRequest o (.readRecord i) s)

/-- List Walk (R127, R128). -/
def execListWalk (o : Origin) (w : RawWalk) (s : State) : Taken := .next (takeRequest o (.listWalk w) s)

/-- Summary (R129). -/
def execSummary (o : Origin) (s : State) : Taken := .next (takeRequest o .summary s)

/-- Acknowledge (R111 to R113). -/
def execAcknowledge (o : Origin) (f : Byte) (k : RawKey) (tag : Half) (s : State) : Taken := .next (takeRequest o (.acknowledge f k tag) s)

/-- Acknowledge Group (R117). -/
def execAcknowledgeGroup (o : Origin) (g m : Byte) (tag : Half) (s : State) : Taken := .next (takeRequest o (.acknowledgeGroup g m tag) s)

/-- Set Counter Selection (R138). -/
def execSetCounterSelection (o : Origin) (g j : Byte) (e : Half) (v m : Byte) (s : State) : Taken := .next (takeRequest o (.setCounterSelection g j e v m) s)

/-- Read Counters (R139). -/
def execReadCounters (o : Origin) (g : Byte) (s : State) : Taken := .next (takeRequest o (.readCounters g) s)

/-- Clear Counters (R140). -/
def execClearCounters (o : Origin) (g : Byte) (s : State) : Taken := .next (takeRequest o (.clearCounters g) s)

/-- Read Link Counters (R157, R188). -/
def execReadLinkCounters (o : Origin) (c : Byte) (s : State) : Taken := .next (takeRequest o (.readLinkCounters c) s)

/-- Set Time (R173). -/
def execSetTime (o : Origin) (t : Quad) (s : State) : Taken := .next (takeRequest o (.setTime t) s)

/-- Wake Hut (R150). -/
def execWakeHut (o : Origin) (s : State) : Taken := .next (takeRequest o .wakeHut s)

/-- Read Notices (R167). -/
def execReadNotices (o : Origin) (s : State) : Taken := .next (takeRequest o .readNotices s)

/-- Peek Notices (R167). -/
def execPeekNotices (o : Origin) (s : State) : Taken := .next (takeRequest o .peekNotices s)

/-- Set Notice Enables (R165). -/
def execSetNoticeEnables (o : Origin) (e : Byte) (s : State) : Taken := .next (takeRequest o (.setNoticeEnables e) s)

/-- Set Hut Settings (R169). -/
def execSetHutSettings (o : Origin) (n w : Byte) (s : State) : Taken := .next (takeRequest o (.setHutSettings n w) s)

/-- Enter Dormant (R175). -/
def execEnterDormant (o : Origin) (s : State) : Taken := .next (takeRequest o .enterDormant s)

/-- Restart (R182). -/
def execRestart (o : Origin) (s : State) : Taken := .next (takeRequest o .restart s)

/-! ## Transactions, frames, transmissions and carriers -/

/-- A local transaction (R159 to R162). -/
def execLocalTransaction (lsdi : List Bool) (cut : Option HoldCut) (s : State) : Taken := .next (localTransaction lsdi cut s)

/-- Bytes of a frame arriving on a side (R144 to R149). -/
def execFrameArrival (d : Side) (bytes : List Byte) (s : State) : Taken := .next (arrive d bytes s)

/-- The completion of a transmission (R152); none is in progress during a hold (R181). -/
def execTransmissionCompletion (d : Side) (s : State) : Taken := .next (if s.inHold then s else completeTransmission d s)

/-- A carrier loss (R153); during a hold the pin is read at the completion (R158). -/
def execCarrierLoss (d : Side) (s : State) : Taken := .next (if s.inHold then s else loseCarrier d s)

/-- A carrier return (R154); during a hold the pin is read at the completion (R158). -/
def execCarrierReturn (d : Side) (s : State) : Taken := .next (if s.inHold then s else returnCarrier d s)

/-! ## Ticks and expiries -/

/-- A scan tick (R50, R51); none is delivered during a hold (R181). -/
def execScanTick (lines : BitVec 16) (s : State) : Taken := .next (if s.inHold then s else scan lines s)

/-- A second tick (R171, R172). -/
def execSecondTick (order : List TickOwner) (s : State) : Taken := .next (second order s)

/-- The expiry of a running stale countdown, which is taken in Watch alone (R65, R66, log entry 5). -/
def execStaleCountdownExpiry (p : PointId) (s : State) : Taken :=
  .next (if !s.inHold && decide (s.tb.mode = .watch) && decide (0 < (s.point p).stale.getD 0) then staleExpire p s else s)

/-- The expiry of a running shelve countdown (R120, R121, log entry 5). -/
def execShelveExpiry (p : PointId) (s : State) : Taken := .next (if !s.inHold && s.shelved p then shelveExpire p s else s)

/-- The expiry of a governor's refill countdown (R102, log entry 5). -/
def execRefill (g : GroupId) (s : State) : Taken := .next (if s.inHold then s else refillGovernor g s)

/-- The expiry of the settle countdown (R176, log entry 5). -/
def execSettleExpiry (s : State) : Taken := .next (if s.inHold then s else settleExpire s)

/-! ## Resets -/

/-- Power is applied: the hold of power-on, with hut time at 0 (R181). -/
def execPowerOn (s : State) : Taken :=
  .next (beginHold { s with powerHold := true, tb := { s.tb with hutTime := 0#32 } })

/-- The end of the hold of power-on; with RST_N low the hold of the reset pin goes on (R181, log entry 11). -/
def execPowerOnCompletion (pins : ResetPins) (s : State) : Taken :=
  .next (if s.powerHold then
      if s.resetLow then { s with powerHold := false } else completeReset pins { s with powerHold := false }
    else s)

/-- RST_N falls (R181). -/
def execResetPinAssert (s : State) : Taken := .next (if s.resetLow then s else beginHold { s with resetLow := true })

/-- RST_N rises; the hold of power-on, if it stands, goes on (R181, log entry 11). -/
def execResetPinRelease (pins : ResetPins) (s : State) : Taken :=
  .next (if s.resetLow then
      if s.powerHold then { s with resetLow := false } else completeReset pins { s with resetLow := false }
    else s)

end Sys2Proof.Machine
end

