-- ==== Sys2Proof/Machine/Dispatch.lean ====
section
/-! DEFINITION. One arm for each command. -/

namespace Sys2Proof.Machine

/-- The effect of a command on everything but the queue. -/
def exec (i : Instr) (s : State) : Host.Outcome State Fault Refusal :=
  match i with
  | .reading o rs => Sys2Proof.Machine.execReading o rs s
  | .definePoint o b => Sys2Proof.Machine.execDefinePoint o b s
  | .withdrawPoint o p => Sys2Proof.Machine.execWithdrawPoint o p s
  | .readPoint o p => Sys2Proof.Machine.execReadPoint o p s
  | .shelvePoint o p m => Sys2Proof.Machine.execShelvePoint o p m s
  | .unshelvePoint o p => Sys2Proof.Machine.execUnshelvePoint o p s
  | .defineGroup o b => Sys2Proof.Machine.execDefineGroup o b s
  | .readGroup o g => Sys2Proof.Machine.execReadGroup o g s
  | .lookUp o k => Sys2Proof.Machine.execLookUp o k s
  | .readRecord o n => Sys2Proof.Machine.execReadRecord o n s
  | .listWalk o w => Sys2Proof.Machine.execListWalk o w s
  | .summary o => Sys2Proof.Machine.execSummary o s
  | .acknowledge o f k tag => Sys2Proof.Machine.execAcknowledge o f k tag s
  | .acknowledgeGroup o g m tag => Sys2Proof.Machine.execAcknowledgeGroup o g m tag s
  | .setCounterSelection o g j e v m => Sys2Proof.Machine.execSetCounterSelection o g j e v m s
  | .readCounters o g => Sys2Proof.Machine.execReadCounters o g s
  | .clearCounters o g => Sys2Proof.Machine.execClearCounters o g s
  | .readLinkCounters o c => Sys2Proof.Machine.execReadLinkCounters o c s
  | .setTime o t => Sys2Proof.Machine.execSetTime o t s
  | .wakeHut o => Sys2Proof.Machine.execWakeHut o s
  | .readNotices o => Sys2Proof.Machine.execReadNotices o s
  | .peekNotices o => Sys2Proof.Machine.execPeekNotices o s
  | .setNoticeEnables o e => Sys2Proof.Machine.execSetNoticeEnables o e s
  | .setHutSettings o n w => Sys2Proof.Machine.execSetHutSettings o n w s
  | .enterDormant o => Sys2Proof.Machine.execEnterDormant o s
  | .restart o => Sys2Proof.Machine.execRestart o s
  | .localTransaction lsdi cut => Sys2Proof.Machine.execLocalTransaction lsdi cut s
  | .frameArrival d bytes => Sys2Proof.Machine.execFrameArrival d bytes s
  | .transmissionCompletion d => Sys2Proof.Machine.execTransmissionCompletion d s
  | .carrierLoss d => Sys2Proof.Machine.execCarrierLoss d s
  | .carrierReturn d => Sys2Proof.Machine.execCarrierReturn d s
  | .scanTick lines => Sys2Proof.Machine.execScanTick lines s
  | .secondTick order => Sys2Proof.Machine.execSecondTick order s
  | .staleCountdownExpiry p => Sys2Proof.Machine.execStaleCountdownExpiry p s
  | .shelveExpiry p => Sys2Proof.Machine.execShelveExpiry p s
  | .refill g => Sys2Proof.Machine.execRefill g s
  | .settleExpiry => Sys2Proof.Machine.execSettleExpiry s
  | .powerOn => Sys2Proof.Machine.execPowerOn s
  | .powerOnCompletion pins => Sys2Proof.Machine.execPowerOnCompletion pins s
  | .resetPinAssert => Sys2Proof.Machine.execResetPinAssert s
  | .resetPinRelease pins => Sys2Proof.Machine.execResetPinRelease pins s

end Sys2Proof.Machine
end

