-- ==== Sys2Proof/Safety.lean ====
section
/-! DEFINITION. The laws that the state keeps between commands: the record table, the keys, the waiting keys, the governors, the
points, the route link, the modes, the notices. -/

namespace Sys2Proof.Machine

/-! ## What the mechanisms of the condition table leave alone -/

/-- What the mechanisms of the condition table never write. -/
structure Outside where
  rr : Relay
  lp : LocalPort
  cs : BitVec 16
  powerHold : Bool
  resetLow : Bool
  freeDraws : Nat
  pending : List Instr
  enables : BitVec 8
  level : Severity
  hutTime : Quad
  wakeLevel : Bar

/-- The part of a state that the mechanisms of the condition table never write. -/
def State.outside (s : State) : Outside :=
  { rr := s.rr, lp := s.lp, cs := s.cs, powerHold := s.powerHold, resetLow := s.resetLow, freeDraws := s.freeDraws
    pending := s.pending, enables := s.nu.enables, level := s.nu.level, hutTime := s.tb.hutTime, wakeLevel := s.tb.wakeLevel }

/-! ## The record table (R2, R4, R5, R6, R7 to R10, R21) -/

/-- Which record may carry which key: a pool record a point key, storm record 160 + g the key (g, Storm) (R1, R2). -/
def keyFits (i : RecordIx) : Option Key → Prop
  | none => True
  | some (.point _) => i.val < 160
  | some (.storm g) => i = stormIx g

/-- Whether a record with this key has a peak: a key of kind Low, High or Storm (R4). -/
def keyHasPeak : Option Key → Bool
  | none => false
  | some (.point k) => k.kind.hasValue
  | some (.storm _) => true

/-- A record whose fields agree with its state (R2, R5, and the table of 01 section 1.3). -/
structure RecordLaw (i : RecordIx) (r : Record) : Prop where
  poolNotIdle : i.val < 160 → r.state ≠ .idle
  stormNotFree : 160 ≤ i.val → r.state ≠ .free
  keyWhileLive : r.key.isSome = r.state.live
  keyOfClass : keyFits i r.key
  clearTimeWhileCleared : r.clearTime.isSome = decide (r.state = .cleared)
  ackWhileAcknowledged : r.ack.isSome = decide (r.state = .acknowledged)

/-- Each list holds, once each, exactly the records of its state (R6 to R10, R21). -/
structure ListLaw (s : State) : Prop where
  free : ∀ i, i ∈ s.rt.free ↔ (s.record i).state = .free
  standing : ∀ i, i ∈ s.rt.standing ↔ (s.record i).state = .standing
  acknowledged : ∀ i, i ∈ s.rt.acknowledged ↔ (s.record i).state = .acknowledged
  cleared : ∀ i, i ∈ s.rt.cleared ↔ (s.record i).state = .cleared
  freeOnce : s.rt.free.Nodup
  standingOnce : s.rt.standing.Nodup
  acknowledgedOnce : s.rt.acknowledged.Nodup
  clearedOnce : s.rt.cleared.Nodup

/-- The record table in order (R21). -/
structure TableLaw (s : State) : Prop where
  records : ∀ i, RecordLaw i (s.record i)
  lists : ListLaw s

/-! ## Keys (R36 to R38) -/

/-- The key entries and the records agree; a record has a peak exactly while its key is of kind Low, High or Storm (R4, R36, R37, R38). -/
structure KeyLaw (s : State) : Prop where
  linkedTogether : ∀ k i, (s.key k).link = some i ↔ (s.record i).key = some (.point k)
  linkByState : ∀ k, (s.key k).link.isSome = decide ((s.key k).state = .raised ∨ (s.key k).state = .cleared)
  peakByKind : ∀ i, (s.record i).peak.isSome = keyHasPeak (s.record i).key
  clearedTogether : ∀ k i, (s.key k).link = some i → ((s.key k).state = .cleared ↔ (s.record i).state = .cleared)
  pendingByState : ∀ k, (s.key k).pending.isSome = decide ((s.key k).state = .held ∨ (s.key k).state = .waiting)
  vacantQuiet : ∀ p, (s.point p).defn = none → s.point p = .vacant
  pendingSeverity : ∀ k v d, (s.key k).pending = some v → (s.point k.point).defn = some d →
    v.severity = d.severity k.kind ∧ v.value.isSome = k.kind.hasValue
  recordSeverity : ∀ k i d, (s.key k).link = some i → (s.point k.point).defn = some d → (s.record i).severity = d.severity k.kind
  clearedLatched : ∀ k d, (s.key k).state = .cleared → (s.point k.point).defn = some d → d.retirement = .latched
  unevaluatedQuiet : ∀ k d, (s.point k.point).defn = some d → k.kind.hasValue = true → d.evaluation k.kind = none → (s.key k).state = .quiet
  fullAsksOnce : ∀ k d, (s.point k.point).defn = some d → k.kind.hasValue = true → (s.point k.point).bucket k.kind = d.capacity →
    (s.key k).state ≠ .quiet ∧ (s.key k).state ≠ .cleared

/-! ## Keys that wait (R74, R98, R100) -/

/-- The pool wait list: the Waiting keys once each, by severity, and only while no record is Free (R74). -/
structure WaitLaw (s : State) : Prop where
  waiting : ∀ k, k ∈ s.rt.poolWait ↔ (s.key k).state = .waiting
  once : s.rt.poolWait.Nodup
  bySeverity : s.rt.poolWait.Pairwise fun a b => (s.pendingOf b).severity.level ≤ (s.pendingOf a).severity.level
  noneFree : s.rt.poolWait ≠ [] → s.rt.free = []

/-- The storm-held lists and the folded sets hold the Held and the Folded keys of their groups, once each (R98, R100). -/
structure DivertedLaw (s : State) : Prop where
  held : ∀ g k, k ∈ (s.governor g).held ↔ (s.key k).state = .held ∧ s.groupOf k = g
  heldOnce : ∀ g, (s.governor g).held.Nodup
  folded : ∀ g k, k ∈ (s.governor g).folded ↔ (s.key k).state = .folded ∧ s.groupOf k = g
  foldedOnce : ∀ g, (s.governor g).folded.Nodup

/-! ## Governors (R93, R102, R107) -/

/-- The numbers of a governor: its definition in range, tokens, countdown, and a Closed governor below its reopen level (R93, R102,
first law of R107). -/
structure GovernorNumbers (x : Governor) : Prop where
  depth : 1 ≤ x.defn.depth ∧ x.defn.depth ≤ 15
  reopen : 1 ≤ x.defn.reopen ∧ x.defn.reopen ≤ x.defn.depth
  exponent : x.defn.refillExponent ≤ 7
  tokens : x.tokens ≤ x.defn.depth
  refill : 1 ≤ x.refill ∧ x.refill ≤ x.defn.period
  closedBelow : x.gate = .closed → x.tokens < x.defn.reopen

/-- Every governor's numbers are in order. -/
def GovernorLaw (s : State) : Prop := ∀ g, GovernorNumbers (s.governor g)

/-- The second and the third law of R107, and R104: an Open governor with no folded key, and a governor in Hold mode, has no Standing
and no Acknowledged storm record. -/
structure StormLaw (s : State) : Prop where
  heldOnlyInHold : ∀ g, (s.governor g).held ≠ [] →
    (s.governor g).defn.mode = .hold ∧ ((s.governor g).gate = .closed ∨ (s.governor g).tokens = 0)
  foldedOnlyInFold : ∀ g, (s.governor g).folded ≠ [] →
    (s.governor g).defn.mode = .fold ∧ ((s.record (stormIx g)).state = .standing ∨ (s.record (stormIx g)).state = .acknowledged)
  holdCleared : ∀ g, (s.governor g).defn.mode = .hold → (s.record (stormIx g)).state = .idle ∨ (s.record (stormIx g)).state = .cleared
  openEmptyCleared : ∀ g, (s.governor g).folded = [] → (s.governor g).gate = .opened →
    (s.record (stormIx g)).state = .idle ∨ (s.record (stormIx g)).state = .cleared

/-! ## Points (R23 to R33, R55, R58, R64, R118) -/

/-- A definition that Define Point can have written (R24 to R33). -/
structure DefinitionLaw (d : Definition) : Prop where
  form : d.formOk = true
  thresholds : d.thresholdsOk = true
  hysteresis : d.hysteresis ≤ 4095
  capacity : 1 ≤ d.capacity ∧ d.capacity ≤ 4095
  staleInterval : d.staleInterval ≤ 65535
  weighting : match d.weighting with
    | .count drain => 1 ≤ drain ∧ drain ≤ 255
    | .magnitude shift => shift ≤ 7

/-- The entry of an In Service point (R26, R29, R55, R58, R64, R118). -/
structure EntryLaw (e : PointEntry) (d : Definition) : Prop where
  definition : DefinitionLaw d
  buckets : e.lowBucket ≤ d.capacity ∧ e.highBucket ≤ d.capacity
  unevaluatedEmpty : ∀ kind, d.evaluation kind = none → e.bucket kind = 0
  stalePresent : e.stale.isSome = decide (0 < d.staleInterval)
  staleBound : ∀ n, e.stale = some n → n ≤ d.staleInterval
  shelveBound : e.shelve ≤ 86400

/-- Every entry in order; a Vacant entry counts nothing; no contact line and no carrier side feeds two points (R23, R24, R32). -/
structure PointLaw (s : State) : Prop where
  inService : ∀ p d, (s.point p).defn = some d → EntryLaw (s.point p) d
  vacant : ∀ p, (s.point p).defn = none →
    (s.point p).lowBucket = 0 ∧ (s.point p).highBucket = 0 ∧ (s.point p).stale = none ∧ (s.point p).shelve = 0
  linesApart : ∀ p q a b, p ≠ q → (s.point p).defn = some a → (s.point q).defn = some b → a.source.conflicts b.source = false

/-! ## Route link, local port, modes, notices -/

/-- A side: at most 4 frames, of bodies that fit a frame; nothing queued and nothing in reception while the carrier is lost; bytes
in reception begin with the sync byte and are those of an unfinished frame (R144, R151, R153). -/
structure SideLaw (x : SideState) : Prop where
  room : x.queue.length ≤ 4
  bodies : ∀ f ∈ x.queue, f.body.length ≤ 48
  lost : x.carrier = false → x.queue = [] ∧ x.reception = []
  sync : ∀ b ∈ x.reception.head?, b = syncByte
  unfinished : ∀ a len rest, x.reception = a :: len :: rest → len.toNat ≤ 48 ∧ rest.length < len.toNat + 7

/-- Both sides of the relay, and a reply slot that fits a message (R151, R153, R186). -/
structure LinkLaw (s : State) : Prop where
  sides : ∀ d, SideLaw (s.side d)
  slot : ∀ r, s.lp.slot = some r → r.body.length ≤ 48

/-- The settle countdown is present in Settling alone, at 1 or 2 (R176); hut time stands at 0 through the hold of power-on
(R181). -/
structure TimeLaw (s : State) : Prop where
  settle : match s.tb.settle with
    | none => s.tb.mode ≠ .settling
    | some n => s.tb.mode = .settling ∧ 1 ≤ n ∧ n ≤ 2
  held : s.powerHold = true → s.tb.hutTime = 0#32

/-- A level flag is set while its condition holds (R164). -/
structure NoticeLaw (s : State) : Prop where
  poolFull : s.rt.poolWait ≠ [] → s.noticeSet .poolFull = true
  link : s.carrierLost = true → s.noticeSet .link = true

/-- The commands that wait are commands that the outside can give. -/
def QueueLaw (s : State) : Prop := ∀ c ∈ s.pending, c.wf = true

/-! ## All of them -/

/-- Every law together. -/
structure Inv (s : State) : Prop where
  table : TableLaw s
  keys : KeyLaw s
  waits : WaitLaw s
  diverted : DivertedLaw s
  governors : GovernorLaw s
  storms : StormLaw s
  points : PointLaw s
  links : LinkLaw s
  time : TimeLaw s
  notices : NoticeLaw s
  queue : QueueLaw s

end Sys2Proof.Machine
end

