-- ==== Sys2Proof/Certificates/Slice0/Obligations.lean ====
section
/-! DEFINITION. The statements about this model: first the words they share, then one definition for each statement. -/

namespace Sys2Proof.Machine

/-! ## Words that the statements share -/

/-- Who takes a request: the port, and by the route link the source of the frame. -/
def takerOf : Origin → Taker
  | .localPort => .localPort
  | .route h => .routeLink h.source

/-- A request is served where it arrives: at the local port in Watch, or in Waking after the return to Watch (R160, R162); by the
route link in every mode while the side's carrier is present, when it is addressed to this hut or broadcast (R144 to R146). -/
def served (o : Origin) (s : State) : Prop :=
  match o with
  | .localPort => s.inHold = false ∧ (s.tb.mode = .watch ∨ s.tb.mode = .waking)
  | .route h => s.inHold = false ∧ (s.side h.side).carrier = true ∧ (s.isOwn h.destination = true ∨ h.destination = 0#8)

/-- A side of the relay changed by a function. -/
def onSide (d : Side) (f : SideState → SideState) (s : State) : State :=
  match d with
  | .west => { s with rr := { s.rr with west := f s.rr.west } }
  | .east => { s with rr := { s.rr with east := f s.rr.east } }

/-- Link counters of a side raised by 1. -/
def raised (which : List LinkCounter) (x : SideState) : SideState :=
  { x with counters := which.foldl (fun c w => c.add w 1) x.counters }

/-- The state with the stale countdowns reloaded and the mode Watch: the entry to Watch (R66). -/
def inWatch (s : State) : State :=
  { s with tb := { s.tb with mode := .watch, settle := none }, pt := vmap PointEntry.reloadStale s.pt }

/-- What the transaction of a request shifts out: the slot as it stood, in the clocks of the request's message (R159). -/
def shiftedOut (r : Request) (s : State) : List Bool := shiftOut (8 * (r.body.length + 4)) (slotBytes s.lp.slot)

/-- The state in which the owner of a request finds the part: at the local port the last reply has been shifted out and Waking has
ended; by the route link the frame has been counted as Received and as Taken. -/
def atService (o : Origin) (r : Request) (s : State) : State :=
  match o with
  | .localPort =>
    let t : State := { s with lp := { s.lp with lsdo := shiftedOut r s } }
    if s.tb.mode = .waking then inWatch t else t
  | .route h => onSide h.side (fun x => raised [.received, .taken] { x with reception := [] }) s

/-- The frame that carries a request (R148, 11 section 11.2). -/
def carrying (h : RouteHeader) (r : Request) : Frame :=
  { destination := h.destination, source := h.source, kind := .request, hop := h.hop, tag := h.tag, code := r.code, body := r.body }

/-- A frame put on a side's queue: at the tail, or discarded and counted (R151, R153). -/
def queued (d : Side) (f : Frame) (s : State) : State :=
  if (s.side d).carrier = false then onSide d (raised [.flushed]) s
  else if 4 ≤ (s.side d).queue.length then onSide d (raised [.overflow]) s
  else onSide d (fun x => { x with queue := x.queue ++ [f] }) s

/-- A frame that goes on to the side opposite its arrival (R147). -/
def sentOn (d : Side) (f : Frame) (s : State) : State :=
  let t := queued (opposite d) { f with hop := f.hop - 1#6 } s
  if s.roomOn (opposite d) then onSide d (raised [.forwarded]) t else t

/-- What becomes of the reply: the reply slot; or a reply frame on the arrival side's queue for an addressed request; for a
broadcast it is discarded, and the frame goes on while its hop budget is above 0 (R146, R148, R160). -/
def withReply (o : Origin) (r : Request) (reply : Reply) (s : State) : State :=
  match o with
  | .localPort => { s with lp := { s.lp with slot := some reply } }
  | .route h =>
    if s.isOwn h.destination then
      queued h.side
        { destination := h.source, source := s.rr.address, kind := .reply, hop := 63#6, tag := h.tag, code := reply.status.byte
          body := reply.body } s
    else if h.hop = 0#6 then s
    else sentOn h.side (carrying h r) s

/-- The state after a request that its owner answers by `f`. -/
def answered (o : Origin) (r : Request) (s : State) (f : State → State × Reply) : State :=
  let x := f (atService o r s)
  withReply o r x.2 x.1

/-- An owner that changes nothing and answers with a bare status. -/
def refusing (status : Status) (s : State) : State × Reply := (s, { status, body := [] })

/-- An owner that changes nothing and answers Done with a body. -/
def telling (body : State → List Byte) (s : State) : State × Reply := (s, { status := .done, body := body s })

/-- A number in one, two or four bytes, most significant byte first (00 section 7). -/
def sent1 (n : Nat) : Byte := BitVec.ofNat 8 n

def sent2 (n : Nat) : List Byte := [BitVec.ofNat 8 (n / 256), BitVec.ofNat 8 n]

def sent3 (n : Nat) : List Byte := [BitVec.ofNat 8 (n / 65536), BitVec.ofNat 8 (n / 256), BitVec.ofNat 8 n]

def sent4 (n : Nat) : List Byte := [BitVec.ofNat 8 (n / 16777216), BitVec.ofNat 8 (n / 65536), BitVec.ofNat 8 (n / 256), BitVec.ofNat 8 n]

/-- A counter of one event: raised by 1 under Events, by the duration under Seconds, up to the top, when its masks hold the kind and
the severity, or the kind is StormClosed (R133 to R136). -/
def tally (kind : EventKind) (sev : Option Severity) (duration : Nat) (c : Counter) : Counter :=
  let bySeverity := match sev with
    | some x => c.severityMask.getLsbD (x.level - 1)
    | none => false
  if c.eventMask.getLsbD kind.bit = true ∧ (kind = .stormClosed ∨ bySeverity = true) then
    { c with value := BitVec.ofNat 32 (min 4294967295 (c.value.toNat + (match c.measure with
      | .events => 1
      | .seconds => duration))) }
  else c

/-- Events counted one after the other, each by the four counters of its group and by no other: group, kind, severity, duration (R132,
R137). -/
def counted (events : List (GroupId × EventKind × Option Severity × Nat)) (s t : State) : Prop :=
  ∀ h j, t.counter h j =
    events.foldl (fun c e => if e.1 = h then tally e.2.1 e.2.2.1 e.2.2.2 c else c) (s.counter h j)

/-- Whether a severity meets a wake level (00 section 7, R178). -/
def meetsBar (b : Bar) (sev : Severity) : Bool :=
  match b with
  | .atLeast x => decide (x.level ≤ sev.level)
  | .never => false

/-- Notices and mode after a Raised event, or an offer, of record `i` (R78, R178, R179): Raised is set when the severity meets the
notice level and the point is not shelved; when it meets the wake level and the point is not shelved, Settling goes to Watch and
Dormant to Waking, with Woken set and the wake cause record written. -/
def judged (i : RecordIx) (sev : Severity) (shelved : Bool) (s : State) : NoticeUnit × TimeBase :=
  let flags := if s.nu.level.level ≤ sev.level ∧ shelved = false then s.nu.flags ||| 0x02#8 else s.nu.flags
  let woken : Option WakeRecord := some { cause := .raise i, time := s.tb.hutTime }
  if meetsBar s.tb.wakeLevel sev = true ∧ shelved = false ∧ s.tb.mode = .settling then
    ({ s.nu with flags := flags ||| 0x80#8 }, { s.tb with mode := .watch, settle := none, wakeRecord := woken })
  else if meetsBar s.tb.wakeLevel sev = true ∧ shelved = false ∧ s.tb.mode = .dormant then
    ({ s.nu with flags := flags ||| 0x80#8 }, { s.tb with mode := .waking, wakeRecord := woken })
  else ({ s.nu with flags }, s.tb)

/-- Every point keeps its definition, buckets and shelving; its stale countdown is reloaded on a return from Settling to Watch and else
kept (R66). -/
def pointsKept (s x : State) : Prop :=
  ∀ q, (x.point q).defn = (s.point q).defn ∧ (x.point q).lowBucket = (s.point q).lowBucket ∧
    (x.point q).highBucket = (s.point q).highBucket ∧ (x.point q).shelve = (s.point q).shelve ∧
    (x.point q).stale =
      if s.tb.mode = .settling ∧ x.tb.mode = .watch then (s.point q).reloadStale.stale else (s.point q).stale

/-- The live duration of a record: hut time less raise time as a signed 32-bit difference, a negative one taken as 0 (R3). -/
def liveDuration (r : Record) (s : State) : Nat := (s.tb.hutTime - r.raiseTime).toInt.toNat

/-- A record whose life has ended: key, peak, clear time and acknowledgement removed, the rest kept (R17). -/
def ended (state : RecordState) (r : Record) : Record := { r with state, key := none, peak := none, clearTime := none, ack := none }

/-- The record of a new life (R11, R12). -/
def begun (k : Key) (sev : Severity) (peak : Option Half) (s : State) : Record :=
  { state := .standing, key := some k, severity := sev, raiseTime := s.tb.hutTime, repeats := 0#8, peak, clearTime := none, ack := none }

/-- A record list with a record moved to its tail. -/
def toTail (i : RecordIx) (l : List RecordIx) : List RecordIx := l.erase i ++ [i]

/-! ### Conditions: their beginning, their end, their records -/

/-- The Stale key and the Fault key of a point. -/
def staleKey (p : PointId) : PointKey := { point := p, kind := .stale }

def faultKey (p : PointId) : PointKey := { point := p, kind := .fault }

/-- Nothing outside the table changed, and no key but those listed; every point is as `pointsKept` says. -/
def keepsBut (keys : List PointKey) (s t : State) : Prop :=
  t.outside = s.outside ∧ pointsKept s t ∧ ∀ k, k ∉ keys → t.key k = s.key k

/-- The amount by which a sample moves a bucket (R56, R57): its distance divided by 2^k, between 1 and 255, under Magnitude; a fixed
amount under Count. -/
def weight (w : Weighting) (fixed : Nat → Nat) (distance : Int) : Nat :=
  match w with
  | .count drain => fixed drain
  | .magnitude shift => min 255 (max 1 (distance.toNat / 2 ^ shift))

/-- A bucket after a sample (R58): filled up to the capacity by a sample beyond the threshold by `excess` above 0, drained down to 0
by a sample on or past the recovery bound by `shortfall`, left in the hold band. -/
def bucketAfter (w : Weighting) (capacity level : Nat) (excess shortfall : Int) : Nat :=
  if 0 < excess then min capacity (level + weight w (fun _ => 1) excess)
  else if 0 ≤ shortfall then level - weight w (fun drain => drain) shortfall
  else level

/-- Excess and shortfall of a value for a kind that is evaluated (R30, R53 to R57): of a Reading point Low and High where the threshold
is present, of a Contact or Carrier point High with threshold 0 and hysteresis 0. -/
def reaches (kind : Kind) (d : Definition) (v : Half) : Option (Int × Int) :=
  match d.source, kind with
  | .reading, .low => d.lowThreshold.map fun lo => (lo.toInt - v.toInt, v.toInt - (lo.toInt + d.hysteresis))
  | .reading, .high => d.highThreshold.map fun hi => (v.toInt - hi.toInt, hi.toInt - d.hysteresis - v.toInt)
  | .contact _ _, .high => some (v.toInt, -v.toInt)
  | .carrier _, .high => some (v.toInt, -v.toInt)
  | _, _ => none

/-- The bucket of a Low or a High key. -/
def bucketOf (k : PointKey) (s : State) : Nat :=
  match k.kind with
  | .low => (s.point k.point).lowBucket
  | .high => (s.point k.point).highBucket
  | _ => 0

/-- The state with the bucket of a Low or a High key at a level. -/
def withBucket (k : PointKey) (level : Nat) (s : State) : State :=
  match k.kind with
  | .low => { s with pt := vset s.pt k.point { s.point k.point with lowBucket := level } }
  | .high => { s with pt := vset s.pt k.point { s.point k.point with highBucket := level } }
  | _ => s

/-- A value fills the bucket of a key: it violates, and the level after it is the capacity (R59). -/
def fills (k : PointKey) (d : Definition) (v : Half) (s : State) : Prop :=
  ∃ excess shortfall, reaches k.kind d v = some (excess, shortfall) ∧ 0 < excess ∧
    bucketAfter d.weighting d.capacity (bucketOf k s) excess shortfall = d.capacity

/-- A value empties the bucket of a key: it has recovered, and the level after it is 0 (R60). -/
def empties (k : PointKey) (d : Definition) (v : Half) (s : State) : Prop :=
  ∃ excess shortfall, reaches k.kind d v = some (excess, shortfall) ∧ excess ≤ 0 ∧ 0 ≤ shortfall ∧
    bucketAfter d.weighting d.capacity (bucketOf k s) excess shortfall = 0

/-- The more extreme of a peak and an offered value (R4): greater for High, less for Low, greater as a count for Storm; a Stale or a
Fault key has no peak. -/
def extreme (k : Key) (peak v : Half) : Half :=
  match k with
  | .point { kind := .high, .. } => if peak.toInt < v.toInt then v else peak
  | .point { kind := .low, .. } => if v.toInt < peak.toInt then v else peak
  | .point _ => peak
  | .storm _ => if peak.toNat < v.toNat then v else peak

/-- A record to which a value has been offered (R4): a live record that has a peak keeps the more extreme one. -/
def peakAfter (r : Record) (v : Half) : Record :=
  match r.state.live, r.key with
  | true, some k => { r with peak := r.peak.map fun w => extreme k w v }
  | _, _ => r

/-- The state with the peak of a record replaced. -/
def withPeak (i : RecordIx) (peak : Option Half) (s : State) : State :=
  { s with rt := { s.rt with records := vset s.rt.records i { s.record i with peak } } }

/-- A value offered to the linked record of a key that is Raised or Cleared (R61). -/
def offered (k : PointKey) (v : Half) (s : State) : State :=
  if (s.key k).state = .raised ∨ (s.key k).state = .cleared then
    match (s.key k).link with
    | some i => { s with rt := { s.rt with records := vset s.rt.records i (peakAfter (s.record i) v) } }
    | none => s
  else s

/-- A sample of a kind (R58 to R61): the bucket moved; a violating one at the capacity begins the condition, a recovered one at 0 ends
it; then the value is offered as a peak. A kind that is not evaluated takes no step. -/
def sampled (k : PointKey) (d : Definition) (v : Half) (s : State) : State :=
  match reaches k.kind d v with
  | none => s
  | some (excess, shortfall) =>
    let level := bucketAfter d.weighting d.capacity (bucketOf k s) excess shortfall
    let u := withBucket k level s
    offered k v
      (if 0 < excess ∧ level = d.capacity then beginCondition k d (some v) u
        else if excess ≤ 0 ∧ 0 ≤ shortfall ∧ level = 0 then clearEvent k d u
        else u)

/-- The state in which the steps of a reading of a point find the part: at service, with the stale countdown reloaded (R49). -/
def atReading (p : PointId) (d : Definition) (r : RawReading) (s : State) : State :=
  let u := atService .localPort (.reading [r]) s
  { u with pt := vset u.pt p { u.point p with stale := (u.point p).stale.map fun _ => d.staleInterval } }

/-- The answer to a Reading of one reading that is applied (R46). -/
def oneApplied (r : RawReading) (x : State) : State :=
  withReply .localPort (.reading [r]) { status := .done, body := [1#8, 0#8] } x

/-- A reading of the point of key `k` in which no step but that of `k` finds anything to do: the other kinds are not evaluated, and the
Stale and the Fault key are Quiet and wait nowhere. -/
structure ReadsAlone (k : PointKey) (d : Definition) (r : RawReading) (s : State) : Prop where
  atPort : served .localPort s
  ofPoint : k.point.val = r.point.toNat
  defined : (s.point k.point).defn = some d
  source : d.source = .reading
  noLow : k.kind = .low ∨ d.lowThreshold = none
  noHigh : k.kind = .high ∨ d.highThreshold = none
  noStale : k.kind = .stale ∨ (s.key (staleKey k.point)).state = .quiet
  noFault : k.kind = .fault ∨ ((s.key (faultKey k.point)).state = .quiet ∧ faultKey k.point ∉ s.rt.poolWait)

/-- A stale countdown of an In Service point runs, in Watch, outside a hold: its expiry can be taken (R64, R65). -/
structure Expires (p : PointId) (d : Definition) (s : State) : Prop where
  noHold : s.inHold = false
  watch : s.tb.mode = .watch
  defined : (s.point p).defn = some d
  running : ∃ n, (s.point p).stale = some (n + 1)

/-- The state with the stale countdown of a point stopped at 0 (R65). -/
def stopped (p : PointId) (s : State) : State := { s with pt := vset s.pt p { s.point p with stale := some 0 } }

/-- The beginning of the condition of key `k`, carrying `v`, takes `s` to `t`: the operation of PE does, and so do the commands that
bring about this beginning alone: the expiry of a stale countdown (R65), a marked reading (R62), and a reading that fills the bucket
(R59), which is then offered as a peak (R61). -/
def BeginsTo (k : PointKey) (d : Definition) (v : Option Half) (s t : State) : Prop :=
  beginCondition k d v s = t ∧
  (∀ s0, k.kind = .stale → v = none → Expires k.point d s0 → s = stopped k.point s0 →
    exec (.staleCountdownExpiry k.point) s0 = .next t) ∧
  (∀ r s0, k.kind = .fault → v = none → r.fault ≠ 0#8 → ReadsAlone k d r s0 → s = atReading k.point d r s0 →
    exec (.reading .localPort [r]) s0 = .next (oneApplied r t)) ∧
  ∀ r s0, v = some r.value → r.fault = 0#8 → ReadsAlone k d r s0 → fills k d r.value s0 →
    s = withBucket k d.capacity (atReading k.point d r s0) →
    exec (.reading .localPort [r]) s0 = .next (oneApplied r (offered k r.value t))

/-- A clear event of key `k` takes `s` to `x`: the operation of RT does, and so do the readings that bring about this clear event alone:
an unmarked one for a Stale or a Fault key (R63, R67), and one that empties the bucket for a Low or a High key (R60), which is then
offered as a peak (R61). -/
def ClearsTo (k : PointKey) (d : Definition) (s x : State) : Prop :=
  clearEvent k d s = x ∧
  ∀ r s0, r.fault = 0#8 → ReadsAlone k d r s0 →
    (k.kind = .stale ∨ k.kind = .fault → s = atReading k.point d r s0 →
      exec (.reading .localPort [r]) s0 = .next (oneApplied r x)) ∧
    (empties k d r.value s0 → s = withBucket k 0 (atReading k.point d r s0) →
      exec (.reading .localPort [r]) s0 = .next (oneApplied r (offered k r.value x)))

/-- Record `i` has just been allocated from the Free list to a key (R11, R72): new life, Standing tail, one step of the change count. -/
def takenFromFree (i : RecordIx) (rest : List RecordIx) (k : PointKey) (sev : Severity) (peak : Option Half) (s : State) : RecordTable :=
  { s.rt with
    records := vset s.rt.records i (begun (.point k) sev peak s)
    free := rest
    standing := toTail i s.rt.standing
    acknowledged := s.rt.acknowledged.erase i
    cleared := s.rt.cleared.erase i
    changeCount := s.rt.changeCount + 1#16 }

/-- Key `k` has joined the pool wait list (R73): behind every key of its severity or more and ahead of every key of less, Waiting with
its pending value; Held of cause Pool counted, PoolFull set; the change count advanced by `steps`. -/
def JoinsThePoolWait (steps : BitVec 16) (k : PointKey) (sev : Severity) (v : Option Half) (s t : State) : Prop :=
  (∃ front back, s.rt.poolWait = front ++ back ∧
    t.rt = { s.rt with
      poolWait := front ++ k :: back
      changeCount := s.rt.changeCount + steps } ∧
    (∀ w ∈ front, sev.level ≤ (s.pendingOf w).severity.level) ∧
    ((s.rt.poolWait.Pairwise fun a b => (s.pendingOf b).severity.level ≤ (s.pendingOf a).severity.level) →
      ∀ w ∈ back, (s.pendingOf w).severity.level < sev.level)) ∧
  t.key k = { state := .waiting, link := none, pending := some { severity := sev, value := v } } ∧
  t.nu = { s.nu with flags := s.nu.flags ||| 0x10#8 } ∧ t.tb = s.tb ∧ counted [(s.groupOf k, .held, some sev, 0)] s t

/-- An attempt that is admitted or bypasses (R11, R72, R78): with a record Free it takes the head of the Free list, Raised is counted
and judged for notice and wake; with none it joins the pool wait list. -/
def TakesOrWaits (k : PointKey) (sev : Severity) (v : Option Half) (s t : State) : Prop :=
  (∀ i rest, s.rt.free = i :: rest →
    t.rt = takenFromFree i rest k sev v s ∧ t.key k = { state := .raised, link := some i, pending := none } ∧
    (t.nu, t.tb) = judged i sev (decide (0 < (s.point k.point).shelve)) s ∧ counted [(s.groupOf k, .raised, some sev, 0)] s t) ∧
  (s.rt.free = [] → JoinsThePoolWait 1#16 k sev v s t)

/-- Record `i` of key `k` has been re-raised (R16, R78): to the Standing tail, its clear time removed, its repeat count one higher up to
255; Raised is counted with the record's own severity and judged. -/
def ReRaised (i : RecordIx) (k : PointKey) (s t : State) : Prop :=
  keepsBut [k] s t ∧ t.sg = s.sg ∧ t.key k = { s.key k with state := .raised } ∧
  t.rt = { s.rt with
    records := vset s.rt.records i
      { s.record i with
        state := .standing, clearTime := none
        repeats := if (s.record i).repeats = 255#8 then 255#8 else (s.record i).repeats + 1#8 }
    standing := toTail i s.rt.standing
    acknowledged := s.rt.acknowledged.erase i
    cleared := s.rt.cleared.erase i
    changeCount := s.rt.changeCount + 1#16 } ∧
  (t.nu, t.tb) = judged i (s.record i).severity (decide (0 < (s.point k.point).shelve)) s ∧
  counted [(s.groupOf k, .raised, some (s.record i).severity, 0)] s t

/-- Record `i` of key `k` has been retired, after the events listed (R17, R76): Retired is counted and the key goes Quiet; with no key
waiting the record goes to the Free tail; else it is handed to the head of the pool wait list, whose key becomes Raised with its
pending severity and value, Released and Raised being counted for its group and Raised judged. -/
def Retired (before : List (GroupId × EventKind × Option Severity × Nat)) (i : RecordIx) (k : PointKey) (s x : State) : Prop :=
  let tallies := before ++ [(s.groupOf k, .retired, some (s.record i).severity, liveDuration (s.record i) s)]
  x.outside = s.outside ∧ x.sg = s.sg ∧ pointsKept s x ∧ x.key k = { state := .quiet, link := none, pending := none } ∧
  (s.rt.poolWait = [] →
    x.rt = { s.rt with
      records := vset s.rt.records i (ended .free (s.record i))
      free := s.rt.free ++ [i]
      standing := s.rt.standing.erase i
      acknowledged := s.rt.acknowledged.erase i
      cleared := s.rt.cleared.erase i
      changeCount := s.rt.changeCount + 1#16 } ∧
    (∀ k', k' ≠ k → x.key k' = s.key k') ∧ x.nu = s.nu ∧ x.tb = s.tb ∧ counted tallies s x) ∧
  ∀ w rest v, s.rt.poolWait = w :: rest → (s.key w).pending = some v → v.value.isSome = w.kind.hasValue →
    x.rt = { s.rt with
      records := vset s.rt.records i (begun (.point w) v.severity v.value s)
      standing := toTail i s.rt.standing
      acknowledged := s.rt.acknowledged.erase i
      cleared := s.rt.cleared.erase i
      poolWait := rest
      changeCount := s.rt.changeCount + 3#16 } ∧
    x.key w = { state := .raised, link := some i, pending := none } ∧ (∀ k', k' ≠ k → k' ≠ w → x.key k' = s.key k') ∧
    (x.nu, x.tb) = judged i v.severity (decide (0 < (s.point w.point).shelve)) s ∧
    counted (tallies ++ [(s.groupOf w, .released, some v.severity, 0), (s.groupOf w, .raised, some v.severity, 0)]) s x

/-- The storm record of a group has been asked to clear, after the events listed (R15, R17, R104): a Standing one goes to the Cleared
tail with its clear time and its Cleared event, an Acknowledged one is retired to Idle with Cleared and Retired, an Idle or Cleared
one is left. -/
def StormCleared (before : List (GroupId × EventKind × Option Severity × Nat)) (g : GroupId) (s x : State) : Prop :=
  let i := stormIx g
  let r := s.record i
  x.nu = s.nu ∧ x.tb = s.tb ∧
  (r.state = .idle ∨ r.state = .cleared → x.rt = s.rt ∧ counted before s x) ∧
  (r.state = .standing →
    x.rt = { s.rt with
      records := vset s.rt.records i { r with state := .cleared, clearTime := some s.tb.hutTime }
      standing := s.rt.standing.erase i
      cleared := toTail i s.rt.cleared
      changeCount := s.rt.changeCount + 1#16 } ∧
    counted (before ++ [(g, .cleared, some r.severity, liveDuration r s)]) s x) ∧
  (r.state = .acknowledged →
    x.rt = { s.rt with
      records := vset s.rt.records i (ended .idle r)
      acknowledged := s.rt.acknowledged.erase i
      changeCount := s.rt.changeCount + 1#16 } ∧
    counted (before ++ [(g, .cleared, some r.severity, liveDuration r s), (g, .retired, some r.severity, liveDuration r s)]) s x)

end Sys2Proof.Machine

open Sys2Proof Sys2Proof.Machine

/-! ## The machine -/

/-- A step runs the command at the front of the queue on the state with the queue's rest; on an empty queue nothing happens (the
model's choice, log entry 2). -/
def Obligations.StepRunsTheFrontCommand : Prop :=
  (∀ c rest s, s.pending = c :: rest → step s = exec c { s with pending := rest }) ∧ ∀ s, s.pending = [] → step s = .next s

/-- Every command answers a next state: that none faults and none is refused is the model's choice (log entry 6). None touches the queue
of commands, which no reset clears: the queue is the model's own (log entry 3). -/
def Obligations.EveryCommandAnswersAndKeepsTheQueue : Prop := ∀ i s, ∃ t, exec i s = .next t ∧ t.pending = s.pending

/-- The values after power-on (R7, R22, R43, R50, R93, R109, R141, R158, R161, R170, R181), whatever the pins; and State.reset is that
state for the pins that log entry 10 chooses, with no command waiting. -/
def Obligations.PowerOnLeavesTheStatedValues : Prop :=
  (∀ pins : ResetPins, ∃ s, s = State.afterPowerOn pins ∧
    (∀ i : RecordIx, s.record i =
      { state := if i.val < 160 then .free else .idle, key := none, severity := .warning, raiseTime := 0#32, repeats := 0#8
        peak := none, clearTime := none, ack := none }) ∧
    s.rt.free.map Fin.val = List.range 160 ∧ s.rt.standing = [] ∧ s.rt.acknowledged = [] ∧ s.rt.cleared = [] ∧
    s.rt.poolWait = [] ∧ s.rt.changeCount = 0#16 ∧
    (∀ p : PointId, (s.point p).defn = none ∧ (s.point p).lowBucket = 0 ∧ (s.point p).highBucket = 0 ∧ (s.point p).stale = none ∧
      (s.point p).shelve = 0) ∧
    (∀ k : PointKey, s.key k = { state := .quiet, link := none, pending := none }) ∧
    s.cs = 0#16 ∧
    (∀ g : GroupId, s.governor g =
      { defn := { depth := 4, reopen := 2, refillExponent := 2, bypass := .atLeast .critical, mode := .hold, stormSeverity := .minor }
        gate := .opened, tokens := 4, refill := 4, held := [], folded := [] }) ∧
    (∀ g j, s.counter g j = { value := 0#32, eventMask := 0#9, severityMask := 0#4, measure := .events }) ∧
    s.rr.address = pins.straps ∧
    (∀ d, (s.side d).carrier = (match d with
        | .west => pins.westCarrier
        | .east => pins.eastCarrier) ∧ (s.side d).queue = [] ∧ (s.side d).reception = [] ∧
      (s.side d).counters =
        { received := 0#32, forwarded := 0#32, taken := 0#32, badCheck := 0#32, hopExpired := 0#32, overflow := 0#32, flushed := 0#32 }) ∧
    s.lp.slot = none ∧
    s.nu = { flags := if pins.westCarrier = true ∧ pins.eastCarrier = true then 0x01#8 else 0x41#8, enables := 0xFF#8, level := .warning } ∧
    s.tb = { hutTime := 0#32, mode := .watch, settle := none, wakeLevel := .atLeast .major, wakeRecord := none } ∧
    s.inHold = false) ∧
  ∃ pins, State.reset = State.afterPowerOn pins ∧ State.reset.pending = []

/-- Every law of Safety.lean holds after power-on, whatever the pins, and at State.reset. -/
def Obligations.ResetKeepsEveryLaw : Prop := (∀ pins, Machine.Inv (State.afterPowerOn pins)) ∧ Machine.Inv State.reset

/-! ## The local port -/

/-- A request at the local port, by the mode (R160, R161, R162, R178, R181): served in Watch, served after the return to Watch in
Waking, discarded with Asleep as a wake cause of kind Local in Settling and Dormant; not taken during a hold, with LSDO at 0. Its
reply goes into the slot, and the slot as it stood is shifted out. -/
def Obligations.LocalRequestActsByMode : Prop :=
  ∀ i r s, i.request? = some (.localPort, r) →
    let t : State := { s with lp := { s.lp with lsdo := shiftedOut r s } }
    (s.inHold = false → s.tb.mode = .watch →
      exec i s = .next { (serve .localPort r t).1 with
        lp := { (serve .localPort r t).1.lp with slot := some (serve .localPort r t).2 } }) ∧
    (s.inHold = false → s.tb.mode = .waking →
      exec i s = .next { (serve .localPort r (inWatch t)).1 with
        lp := { (serve .localPort r (inWatch t)).1.lp with slot := some (serve .localPort r (inWatch t)).2 } }) ∧
    (s.inHold = false → s.tb.mode = .settling →
      exec i s = .next { inWatch t with
        lp := { t.lp with slot := some { status := .asleep, body := [] } }
        nu := { s.nu with flags := s.nu.flags ||| 0x80#8 }
        tb := { s.tb with mode := .watch, settle := none, wakeRecord := some { cause := .localPort, time := s.tb.hutTime } } }) ∧
    (s.inHold = false → s.tb.mode = .dormant →
      exec i s = .next { s with
        lp := { t.lp with slot := some { status := .asleep, body := [] } }
        nu := { s.nu with flags := s.nu.flags ||| 0x80#8 }
        tb := { s.tb with mode := .waking, wakeRecord := some { cause := .localPort, time := s.tb.hutTime } } }) ∧
    (s.inHold = true →
      exec i s = .next { s with lp := { s.lp with lsdo := List.replicate (8 * (r.body.length + 4)) false } })

/-- A transaction that no hold cuts, in Watch or in Waking, by the bytes gathered (R159, R160, R186, R187): length 0 or no byte gives
Empty; a length above 49, too few bytes or a check that does not agree gives Malformed; a code that names no request, or a body
whose length is not the code's, gives the decode status. Nothing else changes but the return to Watch. -/
def Obligations.LocalTransactionJudged : Prop :=
  ∀ bits s, s.inHold = false → s.tb.mode = .watch ∨ s.tb.mode = .waking →
    let t : State := { s with lp := { s.lp with lsdo := shiftOut bits.length (slotBytes s.lp.slot) } }
    let t' := if s.tb.mode = .waking then inWatch t else t
    let slot (x : Option Reply) : Host.Outcome State Fault Refusal := .next { t' with lp := { t'.lp with slot := x } }
    (bytesOf bits = [] ∨ (∃ rest, bytesOf bits = 0#8 :: rest) → exec (.localTransaction bits none) s = slot none) ∧
    (∀ n rest, bytesOf bits = n :: rest →
      49 < n.toNat ∨ (n ≠ 0#8 ∧ rest.length < n.toNat + 2) ∨
        (n ≠ 0#8 ∧ n.toNat + 2 ≤ rest.length ∧ (rest.drop n.toNat).take 2 ≠ halfBytes (crc (n :: rest.take n.toNat))) →
      exec (.localTransaction bits none) s = slot (some { status := .malformed, body := [] })) ∧
    ∀ n code rest, bytesOf bits = n :: code :: rest → 1 ≤ n.toNat → n.toNat ≤ 49 → n.toNat + 1 ≤ rest.length →
      (rest.drop (n.toNat - 1)).take 2 = halfBytes (crc (n :: code :: rest.take (n.toNat - 1))) →
      (code = 0#8 ∨ 27 ≤ code.toNat →
        exec (.localTransaction bits none) s = slot (some { status := .unknownCode, body := [] })) ∧
      (1 ≤ code.toNat → code.toNat ≤ 26 →
        (if code = 1#8 then (n.toNat - 1) % 4 ≠ 0
          else [23, 1, 1, 3, 1, 7, 1, 2, 1, 6, 0, 5, 4, 6, 1, 1, 1, 4, 0, 0, 0, 1, 2, 0, 0][code.toNat - 2]? ≠ some (n.toNat - 1)) →
        exec (.localTransaction bits none) s = slot (some { status := .badBodyLength, body := [] }))

/-- A transaction outside Watch and Waking is not examined, and one that a hold holds or cuts is not taken (R162, R163, R181). One
that a hold cuts shifts out the slot as it stood up to the hold and zeros in the hold; its bits after a completion are free (log
entry 8). -/
def Obligations.LocalTransactionNotExamined : Prop :=
  ∀ bits s,
    (s.inHold = false → s.tb.mode = .settling →
      exec (.localTransaction bits none) s = .next { inWatch s with
        lp := { slot := some { status := .asleep, body := [] }, lsdo := shiftOut bits.length (slotBytes s.lp.slot) }
        nu := { s.nu with flags := s.nu.flags ||| 0x80#8 }
        tb := { s.tb with mode := .watch, settle := none, wakeRecord := some { cause := .localPort, time := s.tb.hutTime } } }) ∧
    (s.inHold = false → s.tb.mode = .dormant →
      exec (.localTransaction bits none) s = .next { s with
        lp := { slot := some { status := .asleep, body := [] }, lsdo := shiftOut bits.length (slotBytes s.lp.slot) }
        nu := { s.nu with flags := s.nu.flags ||| 0x80#8 }
        tb := { s.tb with mode := .waking, wakeRecord := some { cause := .localPort, time := s.tb.hutTime } } }) ∧
    (s.inHold = true →
      exec (.localTransaction bits none) s = .next { s with lp := { s.lp with lsdo := List.replicate bits.length false } }) ∧
    ∀ before held, ∃ out : List Bool,
      exec (.localTransaction bits (some { before, held })) s =
        .next { s with lp := { s.lp with lsdo := out }, freeDraws := s.freeDraws + 1 } ∧
      out.length = bits.length ∧ ∀ j, j < bits.length →
        (j < before → out[j]? = (shiftOut bits.length (slotBytes s.lp.slot))[j]?) ∧
        (before ≤ j → held[j - before]? = some true → out[j]? = some false)

/-- A local transaction that carries the message of a request completes, and does what the request's row does. -/
def Obligations.LocalTransactionCarriesItsRequest : Prop :=
  ∀ i r s, i.request? = some (.localPort, r) → i.wf = true →
    ∃ t, exec (.localTransaction (bitsOf (localMessage r.code r.body)) none) s = .next t ∧ exec i s = .next t

/-- Every request is decoded from its code and its body, and a code and a body that decode are those of the request (11 sections 11.5
and 11.6). -/
def Obligations.RequestsDecodeAndEncode : Prop :=
  (∀ r : Request, decodeRequest r.code r.body = .ok r) ∧
  ∀ code body r, decodeRequest code body = .ok r → r.code = code ∧ r.body = body

/-- A local-only request from the route link, and Wake Hut at the local port, are answered NotPermitted and change nothing; every
other request is handed to its owner (R149, R160, R187). -/
def Obligations.PortsPermitTheirRequests : Prop :=
  (∀ s, served .localPort s → exec (.wakeHut .localPort) s = .next (answered .localPort .wakeHut s (refusing .notPermitted))) ∧
  (∀ i r s, i.request? = some (.localPort, r) → r ≠ .wakeHut → served .localPort s →
    exec i s = .next (answered .localPort r s (serveOwner .localPort r))) ∧
  ∀ i h r s, i.request? = some (.route h, r) → served (.route h) s →
    (r.code.toNat ∈ [1, 2, 3, 7, 15, 21, 22, 23, 24, 25, 26] →
      exec i s = .next (answered (.route h) r s (refusing .notPermitted))) ∧
    (r.code.toNat ∉ [1, 2, 3, 7, 15, 21, 22, 23, 24, 25, 26] →
      exec i s = .next (answered (.route h) r s (serveOwner (.routeLink h.source) r)))

/-! ## The route link -/

/-- The arrival of the frame that carries a request, on a side that is not in the middle of a frame, completes, and does what the
request's row by the route link does. -/
def Obligations.FrameArrivalCarriesItsRequest : Prop :=
  ∀ i h r s, i.request? = some (.route h, r) → i.wf = true → (s.side h.side).reception = [] →
    ∃ t, exec (.frameArrival h.side (carrying h r).bytes) s = .next t ∧ exec i s = .next t

/-- A good frame that this hut does not take (R144, R145, R147, R153): a reply addressed to it is counted as Received and discarded; a
frame bound elsewhere is discarded as HopExpired with hop budget 0, and else goes on with its budget lowered by 1, every other part
kept. -/
def Obligations.FramesBoundElsewhere : Prop :=
  ∀ d f s, s.inHold = false → (s.side d).carrier = true → (s.side d).reception = [] → f.body.length ≤ 48 →
    let t := onSide d (raised [.received]) s
    (s.isOwn f.destination = true → f.kind = .reply → exec (.frameArrival d f.bytes) s = .next t) ∧
    (s.isOwn f.destination = false → f.destination ≠ 0#8 ∨ f.kind = .reply →
      (f.hop = 0#6 → exec (.frameArrival d f.bytes) s = .next (onSide d (raised [.received, .hopExpired]) s)) ∧
      (f.hop ≠ 0#6 → exec (.frameArrival d f.bytes) s = .next (sentOn d f t)))

/-- A frame whose check does not agree, or whose control byte has bit 6 set, or whose length is above 48, raises BadCheck of its side
by 1 and does nothing else; bytes before a sync byte, and bytes while the carrier is lost, do nothing (R144, R153, R185). -/
def Obligations.BadFramesAreCountedAlone : Prop :=
  ∀ d s, s.inHold = false → (s.side d).reception = [] →
    ((s.side d).carrier = true →
      (∀ (len : Byte) (rest : List Byte), len.toNat ≤ 48 → rest.length = len.toNat + 7 →
        rest.drop (len.toNat + 5) ≠ halfBytes (crc (len :: rest.take (len.toNat + 5))) ∨ (∃ c, rest[2]? = some c ∧ c.getLsbD 6 = true) →
        exec (.frameArrival d (0xC3#8 :: len :: rest)) s = .next (onSide d (raised [.badCheck]) s)) ∧
      (∀ len : Byte, 48 < len.toNat → exec (.frameArrival d [0xC3#8, len]) s = .next (onSide d (raised [.badCheck]) s)) ∧
      ∀ bytes : List Byte, 0xC3#8 ∉ bytes → exec (.frameArrival d bytes) s = .next s) ∧
    ((s.side d).carrier = false → ∀ bytes, exec (.frameArrival d bytes) s = .next s)

/-- A taken request whose code names no request, or whose body has the wrong length, is answered with the decode status, and no owner
acts (R148, R187). -/
def Obligations.UndecodableFramesAreAnswered : Prop :=
  ∀ h code body s e, served (.route h) s → (s.side h.side).reception = [] → body.length ≤ 48 → decodeRequest code body = .error e →
    let f : Frame := { destination := h.destination, source := h.source, kind := .request, hop := h.hop, tag := h.tag, code, body }
    let status : Status := match e with
      | .unknownCode => .unknownCode
      | .badBodyLength => .badBodyLength
    let t := onSide h.side (raised [.received, .taken]) s
    exec (.frameArrival h.side f.bytes) s = .next (
      if s.isOwn h.destination then
        queued h.side
          { destination := h.source, source := s.rr.address, kind := .reply, hop := 63#6, tag := h.tag, code := status.byte, body := [] } t
      else if h.hop = 0#6 then t else sentOn h.side f t)

/-- The check sequence (R143): it starts at all ones, appending it leaves 0, and any one byte changed changes it. -/
def Obligations.CheckSequenceFindsAChangedByte : Prop :=
  crc [] = 0xFFFF#16 ∧ (∀ m, crc (m ++ halfBytes (crc m)) = 0#16) ∧
  ∀ a b x y, x ≠ y → crc (a ++ x :: b) ≠ crc (a ++ y :: b)

/-- The completion of a transmission: the head leaves the queue of its side, and nothing else changes (R152). A carrier loss flushes
and counts the queue, abandons the frame in reception and sets Link; a carrier return makes the receiver hunt and sets Link (R153,
R154). -/
def Obligations.TransmissionsAndCarriersOfASide : Prop :=
  ∀ d s, s.inHold = false →
    (∀ f rest, (s.side d).carrier = true → (s.side d).queue = f :: rest →
      s.transmitting d = some f ∧
      exec (.transmissionCompletion d) s = .next (onSide d (fun x => { x with queue := rest }) s)) ∧
    ((s.side d).carrier = true →
      exec (.carrierLoss d) s = .next { onSide d (fun x =>
          { carrier := false, queue := [], reception := []
            counters := { x.counters with
              flushed := BitVec.ofNat 32 (min 4294967295 (x.counters.flushed.toNat + x.queue.length)) } }) s with
        nu := { s.nu with flags := s.nu.flags ||| 0x40#8 } }) ∧
    ((s.side d).carrier = false →
      exec (.carrierReturn d) s = .next { onSide d (fun x => { x with carrier := true, reception := [] }) s with
        nu := { s.nu with flags := s.nu.flags ||| 0x40#8 } })

/-- Read Link Counters (R157, R188): address, link state byte, seven counters of West and of East in three bytes each, at most
16,777,215; with the clear flag all fourteen go to 0. -/
def Obligations.ReadLinkCountersReportsAndClears : Prop :=
  ∀ o clear s, served o s →
    let three (v : Quad) : List Byte := sent3 (min v.toNat 16777215)
    let seven (c : LinkCounters) : List Byte :=
      three c.received ++ three c.forwarded ++ three c.taken ++ three c.badCheck ++ three c.hopExpired ++ three c.overflow ++ three c.flushed
    let state (t : State) : Byte :=
      (if t.rr.west.carrier then 0x80#8 else 0#8) ||| sent1 (16 * t.rr.west.queue.length) |||
        (if t.rr.east.carrier then 0x08#8 else 0#8) ||| sent1 t.rr.east.queue.length
    exec (.readLinkCounters o clear) s = .next (answered o (.readLinkCounters clear) s fun t =>
      (if clear = 0#8 then t
        else { t with rr := { t.rr with west := { t.rr.west with counters := .zero }, east := { t.rr.east with counters := .zero } } },
        { status := .done, body := [t.rr.address, state t] ++ seven t.rr.west.counters ++ seven t.rr.east.counters }))

/-! ## Points -/

namespace Sys2Proof.Machine

/-- The number of a weighting byte, with the weight byte that goes with it (11 section 11.6). -/
def weightingWritten (w : Weighting) (r : RawPoint) : Prop :=
  match w with
  | .count drain => r.weighting = 0#8 ∧ r.weight.toNat = drain
  | .magnitude shift => r.weighting = 1#8 ∧ r.weight.toNat = shift

/-- The source that the source, line and active-level bytes give (11 section 11.6, R184). -/
def sourceWritten (src : Source) (r : RawPoint) : Prop :=
  match src with
  | .reading => r.source = 0#8
  | .contact line activeHigh => r.source = 1#8 ∧ r.line.toNat = line.val ∧ (activeHigh = true ↔ r.activeLevel ≠ 0#8)
  | .carrier .west => r.source = 2#8
  | .carrier .east => r.source = 3#8

/-- The definition that a Define Point carries, field by field (R24 to R29, 11 section 11.6). -/
structure Written (r : RawPoint) (d : Definition) : Prop where
  source : sourceWritten d.source r
  group : r.group.toNat = d.group.val
  retirement : r.retirement = (match d.retirement with
    | .selfRetiring => 0#8
    | .latched => 1#8)
  low : d.lowThreshold = if r.thresholdsPresent.getLsbD 0 then some r.lowThreshold else none
  high : d.highThreshold = if r.thresholdsPresent.getLsbD 1 then some r.highThreshold else none
  hysteresis : d.hysteresis = r.hysteresis.toNat
  capacity : d.capacity = r.capacity.toNat
  weighting : weightingWritten d.weighting r
  severityLow : r.severityLow.toNat = d.severityLow.level
  severityHigh : r.severityHigh.toNat = d.severityHigh.level
  severityStale : r.severityStale.toNat = d.severityStale.level
  severityFault : r.severityFault.toNat = d.severityFault.level
  staleInterval : d.staleInterval = r.staleInterval.toNat

/-- The fields of a Define Point are in range and have the form that the source requires (R31). -/
structure FieldsInRange (r : RawPoint) : Prop where
  point : r.point.toNat ≤ 63
  source : r.source.toNat ≤ 3
  line : r.source = 1#8 → r.line.toNat ≤ 15
  group : r.group.toNat ≤ 7
  retirement : r.retirement.toNat ≤ 1
  hysteresis : r.hysteresis.toNat ≤ 4095
  capacity : 1 ≤ r.capacity.toNat ∧ r.capacity.toNat ≤ 4095
  weighting : r.weighting.toNat ≤ 1
  drain : r.weighting = 0#8 → r.weight ≠ 0#8
  shift : r.weighting = 1#8 → r.weight.toNat ≤ 7
  severities : ∀ b ∈ [r.severityLow, r.severityHigh, r.severityStale, r.severityFault], 1 ≤ b.toNat ∧ b.toNat ≤ 4
  form : r.source ≠ 0#8 →
    r.thresholdsPresent.getLsbD 0 = false ∧ r.thresholdsPresent.getLsbD 1 = false ∧ r.staleInterval = 0#16 ∧ r.weighting = 0#8

/-- The line or the side that a source uses is in use by some In Service point; the active level is not compared (R32). -/
def lineTaken (src : Source) (s : State) : Prop :=
  ∃ q d, (s.point q).defn = some d ∧
    ((∃ line a b, src = .contact line a ∧ d.source = .contact line b) ∨ ∃ side, src = .carrier side ∧ d.source = .carrier side)

/-- The thresholds do not bound valid bands (R33). -/
def bandsInvalid (d : Definition) : Prop :=
  (∃ lo hi, d.lowThreshold = some lo ∧ d.highThreshold = some hi ∧ hi.toInt ≤ lo.toInt) ∨
  (∃ hi, d.highThreshold = some hi ∧ hi.toInt - d.hysteresis < -32768) ∨
  ∃ lo, d.lowThreshold = some lo ∧ 32767 < lo.toInt + d.hysteresis

end Sys2Proof.Machine

/-- Define Point: BadField, PointInService, LineInUse, BadThresholds in this order, each changing nothing; else the definition is
written, the keys Quiet, the buckets 0, the stale countdown loaded, the point not shelved (R31 to R34). -/
def Obligations.DefinePointChecksThenWrites : Prop :=
  ∀ r s, served .localPort s →
    let ends (f : State → State × Reply) := exec (.definePoint .localPort r) s = .next (answered .localPort (.definePoint r) s f)
    (¬ FieldsInRange r → ends (refusing .badField)) ∧
    (FieldsInRange r → ∃ d, Written r d ∧ ∀ p : PointId, p.val = r.point.toNat →
      ((s.point p).defn ≠ none → ends (refusing .pointInService)) ∧
      ((s.point p).defn = none → lineTaken d.source s → ends (refusing .lineInUse)) ∧
      ((s.point p).defn = none → ¬ lineTaken d.source s → bandsInvalid d → ends (refusing .badThresholds)) ∧
      ((s.point p).defn = none → ¬ lineTaken d.source s → ¬ bandsInvalid d →
        ends fun t =>
          let e : PointEntry :=
            { defn := some d, keys := { low := .quiet, high := .quiet, stale := .quiet, fault := .quiet }, lowBucket := 0, highBucket := 0
              stale := if d.staleInterval = 0 then none else some d.staleInterval, shelve := 0 }
          ({ t with pt := vset t.pt p e }, { status := .done, body := [] })))

namespace Sys2Proof.Machine

/-- The state with a key Quiet. -/
def quieted (k : PointKey) (s : State) : State :=
  let e := s.point k.point
  { s with pt := vset s.pt k.point { e with keys := e.keys.set k.kind { state := .quiet, link := none, pending := none } } }

/-- The first stage of a withdrawal for one key (R40): a Held or a Waiting key is taken off its list and the change count advances; a
Folded key leaves its set, and when the set is empty while the governor is Open the storm record is asked to clear. No event. -/
def dropped (p : PointId) (u : State) (kind : Kind) : State :=
  let k : PointKey := { point := p, kind }
  let g := u.groupOf k
  let x := u.governor g
  match (u.key k).state with
  | .held =>
    { quieted k u with
      sg := vset u.sg g { x with held := x.held.erase k }, rt := { u.rt with changeCount := u.rt.changeCount + 1#16 } }
  | .waiting =>
    { quieted k u with rt := { u.rt with poolWait := u.rt.poolWait.erase k, changeCount := u.rt.changeCount + 1#16 } }
  | .folded =>
    let y : State := { quieted k u with sg := vset u.sg g { x with folded := x.folded.erase k } }
    if x.gate = .opened ∧ x.folded.erase k = [] then clearLatched (stormIx g) y else y
  | _ => u

/-- The second stage for one key (R41): the live record of a Raised or a Cleared key is retired. -/
def unlinked (p : PointId) (u : State) (kind : Kind) : State :=
  let k : PointKey := { point := p, kind }
  if (u.key k).state = .raised ∨ (u.key k).state = .cleared then
    match (u.key k).link with
    | some i => retire i u
    | none => u
  else u

/-- The live records of a point, in the order of its keys (R41). -/
def linkedOf (p : PointId) (s : State) : List RecordIx :=
  [Kind.low, .high, .stale, .fault].filterMap fun kind => (s.key { point := p, kind }).link

/-- The keys that wait for a record, but those of a point. -/
def waitingBut (p : PointId) (s : State) : List PointKey := s.rt.poolWait.filter fun k => decide (k.point ≠ p)

/-- How many keys of a point are in a state. -/
def keysIn (p : PointId) (state : KeyState) (s : State) : Nat :=
  [Kind.low, .high, .stale, .fault].countP fun kind => decide ((s.key { point := p, kind }).state = state)

end Sys2Proof.Machine

/-- Withdraw Point (R40, R41, R42): refused for a number above 63 and for a Vacant point; else the three stages, each in the order of
the keys Low, High, Stale, Fault: what waits is dropped, live records are retired, the entry is Vacant, and the request is answered
Done. The record of a key that does not itself stand on the pool wait list (no linked key does, by WaitLaw) is retired as R17 and R76
say. In every state that keeps the laws of Safety.lean nothing names a key of the point any more; each record retired goes to the next
waiting key, in the order of the pool wait list, and to the Free tail when none is left, and no other pool record, key or point
changes; no governor but in what it held of the point; the storm record clears when the last Folded key goes while the governor is
Open; the change count advances once for a key dropped, a record retired and a storm record cleared, and twice more for a hand-over;
Cleared and Retired of the storm record, Retired of each record, Released and Raised of each hand-over are counted, and the hand-overs
judged for the Raised notice. The reply counts the records retired. -/
def Obligations.WithdrawPointRemovesEveryTrace : Prop :=
  (∀ b s, served .localPort s →
    let t := atService .localPort (.withdrawPoint b) s
    let ends (x : State) (reply : Reply) :=
      exec (.withdrawPoint .localPort b) s = .next (withReply .localPort (.withdrawPoint b) reply x)
    (63 < b.toNat → ends t { status := .badField, body := [] }) ∧
    ∀ p : PointId, p.val = b.toNat →
      ((s.point p).defn = none → ends t { status := .pointVacant, body := [] }) ∧
      ∀ d, (s.point p).defn = some d →
        let kinds : List Kind := [.low, .high, .stale, .fault]
        let gone := linkedOf p s
        let wait := waitingBut p s
        let storm := stormIx d.group
        let y := kinds.foldl (unlinked p) (kinds.foldl (dropped p) t)
        let vacant : PointEntry :=
          { defn := none, keys := { low := .quiet, high := .quiet, stale := .quiet, fault := .quiet }, lowBucket := 0, highBucket := 0
            stale := none, shelve := 0 }
        let x : State := { y with pt := vset y.pt p vacant }
        let stormEnds := 0 < keysIn p .folded s ∧ (s.governor d.group).gate = .opened ∧
          ∀ k ∈ (s.governor d.group).folded, k.point = p
        ∃ n, ends x { status := .done, body := [sent1 n] } ∧ (Machine.Inv s →
          n = keysIn p .raised s + keysIn p .cleared s ∧ gone.length = keysIn p .raised s + keysIn p .cleared s ∧
          x.outside = t.outside ∧ x.tb = t.tb ∧
          (∀ k : PointKey, k.point = p →
            (∀ i, (x.record i).key ≠ some (.point k)) ∧ k ∉ x.rt.poolWait ∧
              ∀ g, k ∉ (x.governor g).held ∧ k ∉ (x.governor g).folded) ∧
          (∀ q, q ≠ p → (x.point q).defn = (t.point q).defn ∧ (x.point q).lowBucket = (t.point q).lowBucket ∧
            (x.point q).highBucket = (t.point q).highBucket ∧ (x.point q).stale = (t.point q).stale ∧
            (x.point q).shelve = (t.point q).shelve) ∧
          (∀ k : PointKey, k.point ≠ p → k ∉ wait.take gone.length → x.key k = s.key k) ∧
          (∀ (j : Nat) i w v, gone[j]? = some i → wait[j]? = some w → (s.key w).pending = some v →
            x.key w = { state := .raised, link := some i, pending := none } ∧ x.record i = begun (.point w) v.severity v.value t) ∧
          (∀ (j : Nat) i, gone[j]? = some i → wait[j]? = none → x.record i = ended .free (s.record i)) ∧
          (∀ i : RecordIx, i ∉ gone → i ≠ storm ∨ ¬ stormEnds → x.record i = s.record i) ∧
          (stormEnds → x.record storm =
            if (s.record storm).state = .standing then { s.record storm with state := .cleared, clearTime := some t.tb.hutTime }
            else ended .idle (s.record storm)) ∧
          x.rt.poolWait = wait.drop gone.length ∧ x.rt.free = s.rt.free ++ gone.drop wait.length ∧
          (∀ g, x.governor g = { s.governor g with
            held := (s.governor g).held.filter fun k => decide (k.point ≠ p)
            folded := (s.governor g).folded.filter fun k => decide (k.point ≠ p) }) ∧
          x.rt.standing = s.rt.standing.filter (fun i => !gone.contains i && !decide (stormEnds ∧ i = storm)) ++ gone.take wait.length ∧
          x.rt.acknowledged = s.rt.acknowledged.filter (fun i => !gone.contains i && !decide (stormEnds ∧ i = storm)) ∧
          x.rt.cleared = s.rt.cleared.filter (fun i => !gone.contains i) ++
            (if stormEnds ∧ (s.record storm).state = .standing then [storm] else []) ∧
          x.rt.changeCount = s.rt.changeCount + BitVec.ofNat 16
            (keysIn p .held s + keysIn p .waiting s + gone.length + 2 * min gone.length wait.length + if stormEnds then 1 else 0) ∧
          x.nu = (if (wait.take gone.length).any fun w => decide (s.nu.level.level ≤ (s.pendingOf w).severity.level ∧
              (s.point w.point).shelve = 0) then { t.nu with flags := t.nu.flags ||| 0x02#8 } else t.nu) ∧
          counted
            ((if stormEnds then
                (d.group, .cleared, some (s.record storm).severity, liveDuration (s.record storm) t) ::
                  (if (s.record storm).state = .standing then []
                    else [(d.group, .retired, some (s.record storm).severity, liveDuration (s.record storm) t)])
              else []) ++
              gone.zipIdx.flatMap fun c =>
                (d.group, .retired, some (s.record c.1).severity, liveDuration (s.record c.1) t) ::
                  match wait[c.2]? with
                  | some w => [(s.groupOf w, .released, some (s.pendingOf w).severity, 0), (s.groupOf w, .raised, some (s.pendingOf w).severity, 0)]
                  | none => []) t x)) ∧
  ∀ i k s, TableLaw s → (s.record i).state.live = true → (s.record i).key = some (.point k) → k ∉ s.rt.poolWait →
    Retired [] i k s (retire i s)

/-- Read Point (R35, R184, 11 section 11.7): the entry as it stands, in 43 bytes, or BadField or PointVacant; nothing changes. The byte
that stands for In Service is free (log entry 7). -/
def Obligations.ReadPointReturnsTheEntry : Prop :=
  ∀ o b s, served o s →
    let ends (f : State → State × Reply) := exec (.readPoint o b) s = .next (answered o (.readPoint b) s f)
    (63 < b.toNat → ends (refusing .badField)) ∧
    ∀ p : PointId, p.val = b.toNat →
      ((s.point p).defn = none → ends (refusing .pointVacant)) ∧
      ∀ d, (s.point p).defn = some d →
        ∃ inService : Byte, ends (telling fun t =>
          let e := t.point p
          let key (k : KeyEntry) : List Byte :=
            [(match k.state with
              | .quiet => 0#8
              | .raised => 1#8
              | .cleared => 2#8
              | .held => 3#8
              | .waiting => 4#8
              | .folded => 5#8), (match k.link with
              | some i => sent1 i.val
              | none => 255#8)]
          [inService, b] ++
          (match d.source with
            | .reading => [0#8, 0#8, 0#8]
            | .contact line high => [1#8, sent1 line.val, if high then 1#8 else 0#8]
            | .carrier .west => [2#8, 0#8, 0#8]
            | .carrier .east => [3#8, 0#8, 0#8]) ++
          [sent1 d.group.val, (match d.retirement with
              | .selfRetiring => 0#8
              | .latched => 1#8),
            (match d.lowThreshold, d.highThreshold with
              | none, none => 0#8
              | some _, none => 1#8
              | none, some _ => 2#8
              | some _, some _ => 3#8)] ++
          sent2 (d.lowThreshold.getD 0#16).toNat ++ sent2 (d.highThreshold.getD 0#16).toNat ++ sent2 d.hysteresis ++ sent2 d.capacity ++
          (match d.weighting with
            | .count drain => [0#8, sent1 drain]
            | .magnitude shift => [1#8, sent1 shift]) ++
          [sent1 d.severityLow.level, sent1 d.severityHigh.level, sent1 d.severityStale.level, sent1 d.severityFault.level] ++
          sent2 d.staleInterval ++ key e.keys.low ++ key e.keys.high ++ key e.keys.stale ++ key e.keys.fault ++
          sent2 e.lowBucket ++ sent2 e.highBucket ++
          (match e.stale with
            | none => [0#8, 0#8, 0#8]
            | some n => 1#8 :: sent2 n) ++
          sent4 e.shelve)

/-- Shelve Point (R118): refused for a number above 63, for 0 and for more than 1440 minutes, and for a Vacant point; else the shelve
countdown is loaded with 60 seconds a minute, and nothing else changes. -/
def Obligations.ShelvePointLoadsTheCountdown : Prop :=
  ∀ o b m s, served o s →
    let ends (f : State → State × Reply) := exec (.shelvePoint o b m) s = .next (answered o (.shelvePoint b m) s f)
    (63 < b.toNat ∨ m = 0#16 ∨ 1440 < m.toNat → ends (refusing .badField)) ∧
    ∀ p : PointId, p.val = b.toNat → m ≠ 0#16 → m.toNat ≤ 1440 →
      ((s.point p).defn = none → ends (refusing .pointVacant)) ∧
      ((s.point p).defn ≠ none →
        ends fun t => ({ t with pt := vset t.pt p { t.point p with shelve := m.toNat * 60 } }, { status := .done, body := [] }))

namespace Sys2Proof.Machine

/-- The Standing records of a point, in the order of the Standing list (R121). -/
def standingOf (p : PointId) (s : State) : List RecordIx :=
  s.rt.standing.filter fun i =>
    match (s.record i).key with
    | some (.point k) => decide (k.point = p)
    | _ => false

/-- What the unshelve offers of a point do (R121): Raised is set when some Standing record of the point meets the notice level; in
Settling and in Dormant the first one that meets the wake level wakes the part. -/
def afterOffers (p : PointId) (s : State) : State :=
  let flags := if (standingOf p s).any fun i => decide (s.nu.level.level ≤ (s.record i).severity.level) then s.nu.flags ||| 0x02#8
    else s.nu.flags
  match s.tb.mode, (standingOf p s).find? (fun i => meetsBar s.tb.wakeLevel (s.record i).severity) with
  | .settling, some i =>
    { inWatch s with
      nu := { s.nu with flags := flags ||| 0x80#8 }
      tb := { s.tb with mode := .watch, settle := none, wakeRecord := some { cause := .raise i, time := s.tb.hutTime } } }
  | .dormant, some i =>
    { s with
      nu := { s.nu with flags := flags ||| 0x80#8 }
      tb := { s.tb with mode := .waking, wakeRecord := some { cause := .raise i, time := s.tb.hutTime } } }
  | _, _ => { s with nu := { s.nu with flags } }

end Sys2Proof.Machine

/-- Unshelve Point (R119, R121): refused for a number above 63 and for a Vacant point; nothing for a point that is not shelved; else
the countdown goes to 0 and the offers are made. The expiry of a shelve countdown, in every mode (R120, R121), commanded by its own row (the
model's choice, log entry 5): the countdown at 0, ShelveExpired set, then the offers. -/
def Obligations.LeavingShelvingMakesItsOffers : Prop :=
  (∀ o b s, served o s →
    let ends (f : State → State × Reply) := exec (.unshelvePoint o b) s = .next (answered o (.unshelvePoint b) s f)
    (63 < b.toNat → ends (refusing .badField)) ∧
    ∀ p : PointId, p.val = b.toNat →
      ((s.point p).defn = none → ends (refusing .pointVacant)) ∧
      ((s.point p).defn ≠ none → (s.point p).shelve = 0 → ends (refusing .done)) ∧
      ((s.point p).defn ≠ none → 0 < (s.point p).shelve →
        ends fun t => (afterOffers p { t with pt := vset t.pt p { t.point p with shelve := 0 } }, { status := .done, body := [] }))) ∧
  ∀ p s, s.inHold = false → 0 < (s.point p).shelve →
    exec (.shelveExpiry p) s = .next (afterOffers p
      { s with pt := vset s.pt p { s.point p with shelve := 0 }, nu := { s.nu with flags := s.nu.flags ||| 0x20#8 } })

/-! ## Readings and samples -/

namespace Sys2Proof.Machine

/-- A reading that is applied: its point is In Service with source Reading (R47). -/
def taken (s : State) (r : RawReading) : Bool :=
  if h : r.point.toNat < 64 then
    match (s.point ⟨r.point.toNat, h⟩).defn with
    | some d => decide (d.source = .reading)
    | none => false
  else false

end Sys2Proof.Machine

/-- Reading (R46, R47): BadField, with nothing applied, for no reading, for more than eight and for a point above 63; else Done with
the number of readings applied and of readings rejected. The readings act one after another, each as a request of it alone would.
Outside the table nothing changes. -/
def Obligations.ReadingCountsAppliedAndRejected : Prop :=
  ∀ rs s, served .localPort s →
    let t := atService .localPort (.reading rs) s
    (rs = [] ∨ 8 < rs.length ∨ (∃ r ∈ rs, 63 < r.point.toNat) →
      exec (.reading .localPort rs) s = .next (answered .localPort (.reading rs) s (refusing .badField))) ∧
    (rs ≠ [] → rs.length ≤ 8 → (∀ r ∈ rs, r.point.toNat ≤ 63) →
      ∃ x, exec (.reading .localPort rs) s = .next (withReply .localPort (.reading rs)
          { status := .done, body := [sent1 (rs.countP (taken s)), sent1 (rs.countP fun r => !taken s r)] } x) ∧
        x = rs.foldl (fun u r => (serveOwner .localPort (.reading [r]) u).1) t ∧
        x.outside = t.outside ∧ ((∀ r ∈ rs, taken s r = false) → x = t))

/-- An applied reading acts in four steps (R49): its stale countdown is reloaded (R64) and the Stale key gets a clear event (R67); a
marked reading begins the Fault condition (R62) and an unmarked one ends it (R63); an unmarked reading is a sample of the Low and then
of the High kind. The beginning and the end of a condition are those of the statements on raising and clearing below. The buckets of
its point move by the bands and weights of R53 to R58, the Low bucket where a Low threshold is present and the High bucket where a
High threshold is present; a marked reading moves neither. No other bucket, no definition and no shelving changes. -/
def Obligations.ReadingMovesItsBuckets : Prop :=
  ∀ (r : RawReading) (p : PointId) d s, served .localPort s → p.val = r.point.toNat → (s.point p).defn = some d → d.source = .reading →
    let u := clearEvent (staleKey p) d (atReading p d r s)
    (r.fault ≠ 0#8 →
      exec (.reading .localPort [r]) s = .next (oneApplied r (beginCondition (faultKey p) d none u))) ∧
    (r.fault = 0#8 →
      exec (.reading .localPort [r]) s = .next (oneApplied r
        (sampled { point := p, kind := .high } d r.value
          (sampled { point := p, kind := .low } d r.value (clearEvent (faultKey p) d u))))) ∧
    ∃ t, exec (.reading .localPort [r]) s = .next t ∧
      (t.point p).lowBucket = (match d.lowThreshold, r.fault with
        | some lo, 0#8 => bucketAfter d.weighting d.capacity (s.point p).lowBucket (lo.toInt - r.value.toInt)
            (r.value.toInt - (lo.toInt + d.hysteresis))
        | _, _ => (s.point p).lowBucket) ∧
      (t.point p).highBucket = (match d.highThreshold, r.fault with
        | some hi, 0#8 => bucketAfter d.weighting d.capacity (s.point p).highBucket (r.value.toInt - hi.toInt)
            (hi.toInt - d.hysteresis - r.value.toInt)
        | _, _ => (s.point p).highBucket) ∧
      (t.point p).stale = (s.point p).stale.map (fun _ => d.staleInterval) ∧
      (∀ q, (t.point q).defn = (s.point q).defn ∧ (t.point q).shelve = (s.point q).shelve ∧
        (q ≠ p → (t.point q).lowBucket = (s.point q).lowBucket ∧ (t.point q).highBucket = (s.point q).highBucket))

/-- A scan tick, in every mode (R30, R50, R51): the levels are sampled; the High bucket of a Contact point moves by 1 or by its drain
weight as its line stands at its active level, that of a Carrier point as the carrier of its side is lost; no other bucket, no
definition, no shelving and nothing outside the table changes but the sampled levels. Each point in ascending order takes a sample of
1 or 0 for its High key, with its verdict and its peak (R59 to R61): full, the bucket begins the condition with the value 1; at 0 it
ends it. -/
def Obligations.ScanTickSamplesContactsAndCarriers : Prop :=
  ∀ lines s, s.inHold = false →
    let one (u : State) (p : PointId) : State :=
      match (u.point p).defn with
      | none => u
      | some d =>
        match d.source with
        | .reading => u
        | .contact line activeHigh =>
          sampled { point := p, kind := .high } d (if lines.getLsbD line.val = activeHigh then 1#16 else 0#16) u
        | .carrier side => sampled { point := p, kind := .high } d (if (u.side side).carrier then 0#16 else 1#16) u
    exec (.scanTick lines) s = .next ((List.finRange 64).foldl one { s with cs := lines }) ∧
    ∃ t, exec (.scanTick lines) s = .next t ∧ t.cs = lines ∧ { t with cs := s.cs }.outside = s.outside ∧
      ∀ p, (t.point p).defn = (s.point p).defn ∧ (t.point p).shelve = (s.point p).shelve ∧ (t.point p).lowBucket = (s.point p).lowBucket ∧
        (t.point p).highBucket =
          (match (s.point p).defn with
          | none => (s.point p).highBucket
          | some d =>
            let one (violating : Bool) : Nat :=
              bucketAfter d.weighting d.capacity (s.point p).highBucket (if violating then 1 else 0) (if violating then -1 else 0)
            match d.source with
            | .reading => (s.point p).highBucket
            | .contact line activeHigh => one (decide (lines.getLsbD line.val = activeHigh))
            | .carrier side => one (!(s.side side).carrier))

/-! ## Groups -/

namespace Sys2Proof.Machine

/-- The bypass severity or wake level that a byte 1 to 5 gives (00 section 7). -/
def barWritten (b : Bar) (n : Byte) : Prop :=
  match b with
  | .atLeast s => n.toNat = s.level
  | .never => n = 5#8

/-- The number of a bypass severity or a wake level. -/
def barNumber : Bar → Nat
  | .atLeast s => s.level
  | .never => 5

/-- The fields of a Define Group are in range (R94). -/
structure GroupInRange (r : RawGroup) : Prop where
  group : r.group.toNat ≤ 7
  depth : 1 ≤ r.depth.toNat ∧ r.depth.toNat ≤ 15
  reopen : 1 ≤ r.reopen.toNat ∧ r.reopen.toNat ≤ r.depth.toNat
  exponent : r.refillExponent.toNat ≤ 7
  bypass : 1 ≤ r.bypass.toNat ∧ r.bypass.toNat ≤ 5
  mode : r.mode.toNat ≤ 1
  severity : 1 ≤ r.stormSeverity.toNat ∧ r.stormSeverity.toNat ≤ 4

/-- The definition that a Define Group carries (R93, 11 section 11.6). -/
structure GroupWritten (r : RawGroup) (d : GovernorDef) : Prop where
  depth : d.depth = r.depth.toNat
  reopen : d.reopen = r.reopen.toNat
  exponent : d.refillExponent = r.refillExponent.toNat
  bypass : barWritten d.bypass r.bypass
  mode : r.mode = (match d.mode with
    | .hold => 0#8
    | .fold => 1#8)
  severity : r.stormSeverity.toNat = d.stormSeverity.level

end Sys2Proof.Machine

/-- Define Group (R94, R95): BadField, then GroupInUse, each changing nothing; else the governor takes the definition, Open, with its
tokens at the depth and its countdown at 2^p; a Standing storm record goes to the Cleared tail with its clear time and its Cleared
event, an Acknowledged one is retired to Idle with Cleared and Retired, and an Idle or Cleared one is left. -/
def Obligations.DefineGroupOpensAFullGovernor : Prop :=
  ∀ r s, served .localPort s →
    let t := atService .localPort (.defineGroup r) s
    let ends (x : State) (status : Status) :=
      exec (.defineGroup .localPort r) s = .next (withReply .localPort (.defineGroup r) { status, body := [] } x)
    (¬ GroupInRange r → ends t .badField) ∧
    (GroupInRange r → ∃ d, GroupWritten r d ∧ ∀ g : GroupId, g.val = r.group.toNat →
      ((∃ p e, (s.point p).defn = some e ∧ e.group = g) → ends t .groupInUse) ∧
      ((∀ p e, (s.point p).defn = some e → e.group ≠ g) →
        let gov : Governor :=
          { s.governor g with defn := d, gate := .opened, tokens := d.depth, refill := 2 ^ d.refillExponent }
        let u : State := { t with sg := vset t.sg g gov }
        let i := stormIx g
        ((s.record i).state = .idle ∨ (s.record i).state = .cleared → ends u .done) ∧
        ((s.record i).state = .standing → (s.record i).key = some (.storm g) →
          ∃ x, ends x .done ∧ x.outside = u.outside ∧ x.sg = u.sg ∧ x.pt = u.pt ∧ x.nu = u.nu ∧ x.tb = u.tb ∧
            x.rt = { t.rt with
              records := vset t.rt.records i { t.record i with state := .cleared, clearTime := some t.tb.hutTime }
              standing := t.rt.standing.erase i
              acknowledged := t.rt.acknowledged.erase i
              cleared := toTail i t.rt.cleared
              changeCount := t.rt.changeCount + 1#16 } ∧
            counted [(g, .cleared, some (s.record i).severity, liveDuration (s.record i) t)] t x) ∧
        ((s.record i).state = .acknowledged → (s.record i).key = some (.storm g) →
          ∃ x, ends x .done ∧ x.outside = u.outside ∧ x.sg = u.sg ∧ x.pt = u.pt ∧ x.nu = u.nu ∧ x.tb = u.tb ∧
            x.rt = { t.rt with
              records := vset t.rt.records i (ended .idle (t.record i))
              standing := t.rt.standing.erase i
              acknowledged := t.rt.acknowledged.erase i
              cleared := t.rt.cleared.erase i
              changeCount := t.rt.changeCount + 1#16 } ∧
            counted [(g, .cleared, some (s.record i).severity, liveDuration (s.record i) t),
              (g, .retired, some (s.record i).severity, liveDuration (s.record i) t)] t x)))

/-- Read Group (R108, 11 section 11.7): BadField above 7, else 14 bytes; nothing changes. -/
def Obligations.ReadGroupReturnsTheGovernor : Prop :=
  ∀ o b s, served o s →
    let ends (f : State → State × Reply) := exec (.readGroup o b) s = .next (answered o (.readGroup b) s f)
    (7 < b.toNat → ends (refusing .badField)) ∧
    ∀ g : GroupId, g.val = b.toNat → ends (telling fun t =>
      let x := t.governor g
      [sent1 x.defn.depth, sent1 x.defn.reopen, sent1 x.defn.refillExponent, sent1 (barNumber x.defn.bypass),
        (match x.defn.mode with
          | .hold => 0#8
          | .fold => 1#8), sent1 x.defn.stormSeverity.level,
        (match x.gate with
          | .opened => 0#8
          | .closed => 1#8), sent1 x.tokens, sent1 x.refill] ++ sent2 x.held.length ++ sent2 x.folded.length ++
      [(match (t.record (stormIx g)).state with
        | .free => 0#8
        | .idle => 1#8
        | .standing => 2#8
        | .acknowledged => 3#8
        | .cleared => 4#8)])

/-! ## Records -/

namespace Sys2Proof.Machine

/-- The two bytes of a key (11 section 11.1). -/
def keySent : Key → List Byte
  | .point { point, kind := .low } => [sent1 point.val, 0#8]
  | .point { point, kind := .high } => [sent1 point.val, 1#8]
  | .point { point, kind := .stale } => [sent1 point.val, 2#8]
  | .point { point, kind := .fault } => [sent1 point.val, 3#8]
  | .storm g => [sent1 g.val, 4#8]

/-- Two bytes name a key (R111, 11 section 11.1). -/
def Names (raw : RawKey) (k : Key) : Prop := keySent k = [raw.number, raw.kind]

/-- Two bytes name no key (R111): a kind byte above 4, a point above 63, a group above 7 with the kind Storm. -/
def NamesNoKey (raw : RawKey) : Prop :=
  4 < raw.kind.toNat ∨ (raw.kind.toNat < 4 ∧ 63 < raw.number.toNat) ∨ (raw.kind = 4#8 ∧ 7 < raw.number.toNat)

/-- The 24 bytes of a record (11 section 11.7): absent fields sent as 0, the presence bits saying so. -/
def recordSent (i : RecordIx) (r : Record) : List Byte :=
  [sent1 i.val,
    (match r.state with
      | .free => 0#8
      | .idle => 1#8
      | .standing => 2#8
      | .acknowledged => 3#8
      | .cleared => 4#8),
    sent1 ((if r.key.isSome then 1 else 0) + (if r.peak.isSome then 2 else 0) + (if r.clearTime.isSome then 4 else 0) +
      (if r.ack.isSome then 8 else 0))] ++
  (match r.key with
    | some k => keySent k
    | none => [0#8, 0#8]) ++
  [sent1 r.severity.level] ++ sent4 r.raiseTime.toNat ++ [r.repeats] ++
  (match r.peak with
    | some v => sent2 v.toNat
    | none => [0#8, 0#8]) ++
  (match r.clearTime with
    | some v => sent4 v.toNat
    | none => [0#8, 0#8, 0#8, 0#8]) ++
  (match r.ack with
    | some a => [(match a.taker with
        | .localPort => 0#8
        | .routeLink => 1#8)] ++ sent2 a.tag.toNat ++ sent4 a.time.toNat
    | none => [0#8, 0#8, 0#8, 0#8, 0#8, 0#8, 0#8])

/-- The state byte of a key that waits (11 section 11.1). -/
def pendingStateSent : KeyState → Byte
  | .quiet => 0#8
  | .raised => 1#8
  | .cleared => 2#8
  | .held => 3#8
  | .waiting => 4#8
  | .folded => 5#8

/-- The answer for a key that is Held, Waiting or Folded: its state and its pending severity, 0 when it has none (11 section 11.5). -/
def pendingAnswer (e : KeyEntry) : Reply :=
  { status := .pending
    body := [pendingStateSent e.state, (match e.pending with
      | some v => sent1 v.severity.level
      | none => 0#8)] }

end Sys2Proof.Machine

/-- Read Record (R126): BadField above 167, else the record as it stands; nothing changes. -/
def Obligations.ReadRecordReturnsTheRecord : Prop :=
  ∀ o b s, served o s →
    let ends (f : State → State × Reply) := exec (.readRecord o b) s = .next (answered o (.readRecord b) s f)
    (167 < b.toNat → ends (refusing .badField)) ∧
    ∀ i : RecordIx, i.val = b.toNat → ends (telling fun t => recordSent i (t.record i))

/-- Look Up (R125): BadField for a key refused under R111; the linked record of a Raised or Cleared key and of a live storm key;
Pending for a key that waits; NotFound for a Quiet key and for an Idle storm record. Nothing changes. -/
def Obligations.LookUpAnswersByTheKey : Prop :=
  ∀ o raw s, served o s →
    let ends (f : State → State × Reply) := exec (.lookUp o raw) s = .next (answered o (.lookUp raw) s f)
    (NamesNoKey raw → ends (refusing .badField)) ∧
    (∀ k, Names raw (.point k) →
      ((s.key k).state = .quiet → ends (refusing .notFound)) ∧
      ((s.key k).state = .raised ∨ (s.key k).state = .cleared → ∀ i, (s.key k).link = some i →
        ends (telling fun t => recordSent i (t.record i))) ∧
      ((s.key k).state = .held ∨ (s.key k).state = .waiting ∨ (s.key k).state = .folded →
        ends fun t => (t, pendingAnswer (s.key k)))) ∧
    ∀ g, Names raw (.storm g) →
      ((s.record (stormIx g)).state.live = true → ends (telling fun t => recordSent (stormIx g) (t.record (stormIx g)))) ∧
      ((s.record (stormIx g)).state = .idle → ends (refusing .notFound))

namespace Sys2Proof.Machine

/-- A page of a walk (R128): up to `count` entries from its start, their number, and More when some are left. -/
def page {α : Type} (entry : α → List Byte) (count : Nat) (l : List α) : Reply :=
  { status := .done
    body := [sent1 (min count l.length), if count < l.length then 1#8 else 0#8] ++ (l.take count).flatMap entry }

/-- The list that a list byte names (R127). -/
def recordList (b : Byte) (s : State) : Option (List RecordIx) :=
  match b.toNat with
  | 0 => some s.rt.free
  | 1 => some s.rt.standing
  | 2 => some s.rt.acknowledged
  | 3 => some s.rt.cleared
  | _ => none

/-- The key list that a list byte, and for StormHeld a group byte, name (R127). -/
def keyList (b group : Byte) (s : State) : Option (List PointKey) :=
  if b = 4#8 then some s.rt.poolWait
  else if h : b = 5#8 ∧ group.toNat < 8 then some (s.governor ⟨group.toNat, h.2⟩).held
  else none

/-- An entry of a record list: index, key or 255 255, severity (R128). -/
def recordLine (s : State) (i : RecordIx) : List Byte :=
  [sent1 i.val] ++ (match (s.record i).key with
    | some k => keySent k
    | none => [255#8, 255#8]) ++ [sent1 (s.record i).severity.level]

/-- An entry of a key list: key and pending severity (R128). -/
def keyLine (s : State) (k : PointKey) : List Byte :=
  keySent (.point k) ++ [(match (s.key k).pending with
    | some v => sent1 v.severity.level
    | none => 0#8)]

/-- A key list whose keys carry a pending value (R36). -/
def allPending (s : State) (l : List PointKey) : Prop := ∀ k ∈ l, (s.key k).pending.isSome = true

end Sys2Proof.Machine

/-- List Walk (R127, R128, R184): BadField for the list, the group of StormHeld, the count, a cursor of the wrong form or refused;
CursorLost for a cursor that names no entry of the list; else a page from the head or from behind the cursor. Nothing changes. -/
def Obligations.ListWalkReturnsAPage : Prop :=
  ∀ o w s, served o s →
    let ends (f : State → State × Reply) := exec (.listWalk o w) s = .next (answered o (.listWalk w) s f)
    (w.count = 0#8 ∨ 8 < w.count.toNat ∨ (recordList w.list s = none ∧ keyList w.list w.group s = none) ∨
        (w.list.toNat ≤ 3 ∧ (2 ≤ w.cursorForm.toNat ∨ (w.cursorForm = 1#8 ∧ 167 < w.cursor.number.toNat))) ∨
        (4 ≤ w.list.toNat ∧ (w.cursorForm = 1#8 ∨ 3 ≤ w.cursorForm.toNat ∨ (w.cursorForm = 2#8 ∧ NamesNoKey w.cursor))) →
      ends (refusing .badField)) ∧
    (w.count ≠ 0#8 → w.count.toNat ≤ 8 →
      (∀ l, recordList w.list s = some l →
        (w.cursorForm = 0#8 → ends fun t => (t, page (recordLine t) w.count.toNat l)) ∧
        (w.cursorForm = 1#8 → ∀ i : RecordIx, i.val = w.cursor.number.toNat →
          (i ∉ l → ends (refusing .cursorLost)) ∧
          ∀ a b, l = a ++ i :: b → i ∉ a → ends fun t => (t, page (recordLine t) w.count.toNat b))) ∧
      (∀ l, keyList w.list w.group s = some l → allPending s l →
        (w.cursorForm = 0#8 → ends fun t => (t, page (keyLine t) w.count.toNat l)) ∧
        (w.cursorForm = 2#8 →
          (∀ g, Names w.cursor (.storm g) → ends (refusing .cursorLost)) ∧
          ∀ k, Names w.cursor (.point k) →
            (k ∉ l → ends (refusing .cursorLost)) ∧
            ∀ a b, l = a ++ k :: b → k ∉ a → ends fun t => (t, page (keyLine t) w.count.toNat b))))

namespace Sys2Proof.Machine

/-- A record counts in Summary: a storm record, or a pool record whose point is not shelved (R129). -/
def visible (s : State) (i : RecordIx) : Bool :=
  match (s.record i).key with
  | none => false
  | some (.storm _) => true
  | some (.point k) => decide ((s.point k.point).shelve = 0)

/-- How many live records of shelved points the twelve counts of Summary leave out (R129). -/
def hiddenIn (s : State) : Nat := (List.finRange 168).countP fun i => (s.record i).state.live && !visible s i

/-- How many records of a list, of a severity, count in Summary (R129). -/
def visibleOf (s : State) (l : List RecordIx) (sev : Severity) : Nat :=
  l.countP fun i => visible s i && decide ((s.record i).severity = sev)

end Sys2Proof.Machine

/-- Summary (R129, 11 section 11.7): 21 bytes, nothing changes. In every state that keeps the law of the record table the twelve counts,
the Free count and the live records of shelved points make 160 and the number of live storm records. -/
def Obligations.SummaryCountsTheTable : Prop :=
  (∀ o s, served o s → exec (.summary o) s = .next (answered o .summary s (telling fun t =>
    let three (sev : Severity) : List Byte :=
      [sent1 (visibleOf t t.rt.standing sev), sent1 (visibleOf t t.rt.acknowledged sev), sent1 (visibleOf t t.rt.cleared sev)]
    three .warning ++ three .minor ++ three .major ++ three .critical ++ [sent1 t.rt.free.length, sent1 t.rt.poolWait.length] ++
      sent2 t.rt.changeCount.toNat ++ sent4 t.tb.hutTime.toNat ++
      [(match t.tb.mode with
        | .watch => 0#8
        | .settling => 1#8
        | .dormant => 2#8
        | .waking => 3#8)]))) ∧
  ∀ s, TableLaw s →
    ([Severity.warning, .minor, .major, .critical].map fun sev =>
        visibleOf s s.rt.standing sev + visibleOf s s.rt.acknowledged sev + visibleOf s s.rt.cleared sev).sum + s.rt.free.length +
        hiddenIn s =
      160 + ([0, 1, 2, 3, 4, 5, 6, 7] : List GroupId).countP (fun g => (s.record (stormIx g)).state.live) ∧
    ((∀ p, (s.point p).shelve = 0) → hiddenIn s = 0)

/-! ## Acknowledgement -/

namespace Sys2Proof.Machine

/-- By whom an acknowledgement is taken (R111). -/
def byWhom : Origin → AckBy
  | .localPort => .localPort
  | .route _ => .routeLink

/-- A record acknowledged while it stands (R13, R114): its acknowledgement written, to the Acknowledged tail, one Acknowledged event
counted; nothing else. -/
def Acknowledged (i : RecordIx) (who : AckBy) (tag : Half) (s x : State) : Prop :=
  x.rt = { s.rt with
    records := vset s.rt.records i
      { s.record i with state := .acknowledged, ack := some { taker := who, tag, time := s.tb.hutTime } }
    standing := s.rt.standing.erase i
    acknowledged := toTail i s.rt.acknowledged
    cleared := s.rt.cleared.erase i
    changeCount := s.rt.changeCount + 1#16 } ∧
  x.pt = s.pt ∧ x.sg = s.sg ∧ x.nu = s.nu ∧ x.tb = s.tb ∧ x.outside = s.outside ∧
  ∀ k, (s.record i).key = some k → counted [(s.keyGroup k, .acknowledged, some (s.record i).severity, 0)] s x

end Sys2Proof.Machine

/-- Acknowledge by index (R111, R112, R114): BadField above 167; a Standing record is acknowledged, outcome 0; an Acknowledged record
answers AlreadyAcked, a Free or Idle one NotFound, and nothing changes. -/
def Obligations.AcknowledgeByIndex : Prop :=
  ∀ o form target tag s, served o s → form = 0#8 →
    let r : Request := .acknowledge form target tag
    let t := atService o r s
    let ends (x : State) (reply : Reply) := exec (.acknowledge o form target tag) s = .next (withReply o r reply x)
    (167 < target.number.toNat → ends t { status := .badField, body := [] }) ∧
    ∀ i : RecordIx, i.val = target.number.toNat →
      ((s.record i).state = .standing → (s.record i).key ≠ none →
        ∃ x, ends x { status := .done, body := [sent1 i.val, 0#8] } ∧ Acknowledged i (byWhom o) tag t x) ∧
      ((s.record i).state = .acknowledged → ends t { status := .alreadyAcked, body := [] }) ∧
      ((s.record i).state = .free ∨ (s.record i).state = .idle → ends t { status := .notFound, body := [] })

/-- An acknowledgement of a Cleared record retires it, outcome 1 (R13, R17, R76): Acknowledged and Retired are counted, the key goes
Quiet; with no key waiting the record goes to the Free tail, a storm record to Idle; else it is handed to the head of the pool wait
list, whose key becomes Raised with its pending severity and value, Released and Raised being counted for its group and Raised judged
for notice and wake. -/
def Obligations.AcknowledgeOfAClearedRecordRetiresIt : Prop :=
  ∀ o target tag s, served o s → Machine.Inv s →
    let r : Request := .acknowledge 0#8 target tag
    let t := atService o r s
    ∀ i : RecordIx, i.val = target.number.toNat → (s.record i).state = .cleared →
      ∃ x, exec (.acknowledge o 0#8 target tag) s = .next (withReply o r { status := .done, body := [sent1 i.val, 1#8] } x) ∧
        x.outside = t.outside ∧ x.sg = t.sg ∧ pointsKept t x ∧
        let tallies (g : GroupId) : List (GroupId × EventKind × Option Severity × Nat) :=
          [(g, .acknowledged, some (s.record i).severity, 0), (g, .retired, some (s.record i).severity, liveDuration (s.record i) t)]
        (∀ g, (s.record i).key = some (.storm g) →
          x.rt = { t.rt with
            records := vset t.rt.records i (ended .idle (t.record i))
            cleared := t.rt.cleared.erase i
            changeCount := t.rt.changeCount + 1#16 } ∧
          (∀ k, x.key k = s.key k) ∧ x.nu = t.nu ∧ x.tb = t.tb ∧ counted (tallies g) t x) ∧
        ∀ k, (s.record i).key = some (.point k) →
          (x.key k = { state := .quiet, link := none, pending := none }) ∧
          (s.rt.poolWait = [] →
            x.rt = { t.rt with
              records := vset t.rt.records i (ended .free (t.record i))
              free := t.rt.free ++ [i]
              cleared := t.rt.cleared.erase i
              changeCount := t.rt.changeCount + 1#16 } ∧
            (∀ k', k' ≠ k → x.key k' = s.key k') ∧ x.nu = t.nu ∧ x.tb = t.tb ∧ counted (tallies (s.groupOf k)) t x) ∧
          ∀ w rest v, s.rt.poolWait = w :: rest → (s.key w).pending = some v →
            x.rt = { t.rt with
              records := vset t.rt.records i (begun (.point w) v.severity v.value t)
              standing := t.rt.standing ++ [i]
              cleared := t.rt.cleared.erase i
              poolWait := rest
              changeCount := t.rt.changeCount + 3#16 } ∧
            x.key w = { state := .raised, link := some i, pending := none } ∧
            (∀ k', k' ≠ k → k' ≠ w → x.key k' = s.key k') ∧
            (x.nu, x.tb) = judged i v.severity (decide (0 < (s.point w.point).shelve)) t ∧
            counted (tallies (s.groupOf k) ++ [(s.groupOf w, .released, some v.severity, 0), (s.groupOf w, .raised, some v.severity, 0)])
              t x

/-- Acknowledge by key (R113): BadField for a key refused under R111; a Quiet key, and an Idle storm record, answer NotFound; a key
that waits answers Pending; a Raised or Cleared key, and a live storm record, are acknowledged as the index form acknowledges their
record. -/
def Obligations.AcknowledgeByKey : Prop :=
  ∀ o form target tag s, served o s → form ≠ 0#8 →
    let r : Request := .acknowledge form target tag
    let t := atService o r s
    let ends (x : State) (reply : Reply) := exec (.acknowledge o form target tag) s = .next (withReply o r reply x)
    let asIndex (i : RecordIx) : Prop :=
      let r' : Request := .acknowledge 0#8 { number := sent1 i.val, kind := 0#8 } tag
      ∃ x reply, ends x reply ∧ exec (.acknowledge o 0#8 { number := sent1 i.val, kind := 0#8 } tag) s = .next (withReply o r' reply x)
    (NamesNoKey target → ends t { status := .badField, body := [] }) ∧
    (∀ k, Names target (.point k) →
      ((s.key k).state = .quiet → ends t { status := .notFound, body := [] }) ∧
      ((s.key k).state = .held ∨ (s.key k).state = .waiting ∨ (s.key k).state = .folded → ends t (pendingAnswer (s.key k))) ∧
      ((s.key k).state = .raised ∨ (s.key k).state = .cleared → ∀ i, (s.key k).link = some i → asIndex i)) ∧
    ∀ g, Names target (.storm g) →
      ((s.record (stormIx g)).state = .idle → ends t { status := .notFound, body := [] }) ∧
      ((s.record (stormIx g)).state.live = true → asIndex (stormIx g))

namespace Sys2Proof.Machine

/-- The Standing records of a group up to a severity, in Standing order (R117). -/
def takenOfGroup (g : GroupId) (limit : Severity) (s : State) : List RecordIx :=
  s.rt.standing.filter fun i =>
    match (s.record i).key with
    | some k => decide (s.keyGroup k = g ∧ (s.record i).severity.level ≤ limit.level)
    | none => false

end Sys2Proof.Machine

/-- Acknowledge Group (R117): BadField for the group or the limit; else Done with the number of records taken; each record taken goes
from the Standing list to the Acknowledged tail, in Standing order, with its acknowledgement, and its Acknowledged event is counted; the
change count advances by their number; no other record changes, and no key, governor, notice or mode. -/
def Obligations.AcknowledgeGroupTakesTheStandingRecords : Prop :=
  ∀ o gb lb tag s, served o s →
    let r : Request := .acknowledgeGroup gb lb tag
    let t := atService o r s
    let ends (x : State) (reply : Reply) := exec (.acknowledgeGroup o gb lb tag) s = .next (withReply o r reply x)
    (7 < gb.toNat ∨ lb = 0#8 ∨ 4 < lb.toNat → ends t { status := .badField, body := [] }) ∧
    ∀ (g : GroupId) (limit : Severity), g.val = gb.toNat → limit.level = lb.toNat → TableLaw s →
      ∃ x, ends x { status := .done, body := [sent1 (takenOfGroup g limit s).length] } ∧
        x.outside = t.outside ∧ x.sg = t.sg ∧ x.pt = t.pt ∧ x.nu = t.nu ∧ x.tb = t.tb ∧
        x.rt.free = s.rt.free ∧ x.rt.cleared = s.rt.cleared ∧ x.rt.poolWait = s.rt.poolWait ∧
        x.rt.standing = s.rt.standing.filter (fun i => !(takenOfGroup g limit s).contains i) ∧
        x.rt.acknowledged = s.rt.acknowledged ++ takenOfGroup g limit s ∧
        x.rt.changeCount = s.rt.changeCount + BitVec.ofNat 16 (takenOfGroup g limit s).length ∧
        counted ((takenOfGroup g limit s).map fun i => (g, .acknowledged, some (s.record i).severity, 0)) t x ∧
        ∀ i, x.record i =
          if i ∈ takenOfGroup g limit s then
            { s.record i with state := .acknowledged, ack := some { taker := byWhom o, tag, time := s.tb.hutTime } }
          else s.record i

/-! ## Counters -/

/-- Set Counter Selection, Read Counters and Clear Counters (R138, R139, R140): BadField; the selection replaced whole and the value
kept; the four selections and values returned; the four values returned and set to 0 with the selections kept. -/
def Obligations.CounterRequestsSelectReadAndClear : Prop :=
  (∀ gb jb em sm mb s, served .localPort s →
    let ends (f : State → State × Reply) := exec (.setCounterSelection .localPort gb jb em sm mb) s =
      .next (answered .localPort (.setCounterSelection gb jb em sm mb) s f)
    (7 < gb.toNat ∨ 3 < jb.toNat ∨ 512 ≤ em.toNat ∨ 16 ≤ sm.toNat ∨ 1 < mb.toNat → ends (refusing .badField)) ∧
    ∀ (g : GroupId) (j : Fin 4), g.val = gb.toNat → j.val = jb.toNat → em.toNat < 512 → sm.toNat < 16 → mb.toNat ≤ 1 →
      ends fun t =>
        let c : Counter :=
          { value := (t.counter g j).value, eventMask := BitVec.ofNat 9 em.toNat, severityMask := BitVec.ofNat 4 sm.toNat
            measure := if mb = 0#8 then .events else .seconds }
        ({ t with gc := vset t.gc g (vset (t.counters g) j c) }, { status := .done, body := [] })) ∧
  (∀ o gb s, served o s →
    let ends (f : State → State × Reply) := exec (.readCounters o gb) s = .next (answered o (.readCounters gb) s f)
    (7 < gb.toNat → ends (refusing .badField)) ∧
    ∀ g : GroupId, g.val = gb.toNat → ends (telling fun t =>
      [gb] ++ ([0, 1, 2, 3] : List (Fin 4)).flatMap fun j =>
        sent2 (t.counter g j).eventMask.toNat ++
        [sent1 (t.counter g j).severityMask.toNat, (match (t.counter g j).measure with
          | .events => 0#8
          | .seconds => 1#8)] ++ sent4 (t.counter g j).value.toNat)) ∧
  ∀ o gb s, served o s →
    let ends (f : State → State × Reply) := exec (.clearCounters o gb) s = .next (answered o (.clearCounters gb) s f)
    (7 < gb.toNat → ends (refusing .badField)) ∧
    ∀ g : GroupId, g.val = gb.toNat → ends fun t =>
      ({ t with gc := vset t.gc g (vmap (fun c => { c with value := 0#32 }) (t.counters g)) },
        { status := .done
          body := [gb] ++ ([0, 1, 2, 3] : List (Fin 4)).flatMap fun j => sent4 (t.counter g j).value.toNat })

namespace Sys2Proof.Machine

/-- No frame that completes within some bytes that arrive on a side carries code 17, Clear Counters (R144, 11 section 11.5): at each
byte, the bytes in reception after the sync byte, with it, are no good frame of that code. -/
def noClearArrives (d : Side) (bytes : List Byte) (s : State) : Prop :=
  ∀ before b after sync inside f, bytes = before ++ b :: after → ((arrive d before s).side d).reception = sync :: inside →
    goodFrame (inside ++ [b]) = some f → f.code ≠ 17#8

end Sys2Proof.Machine

/-- A group counter value never falls but through Clear Counters, the reset pin and power-on, whatever else is commanded (R136): a
transaction and bytes on a side are shut out only when the message or a frame that they complete carries code 17, Clear Counters. -/
def Obligations.CounterValuesNeverFall : Prop :=
  ∀ i s t g j, exec i s = .next t → (∀ o b, i ≠ .clearCounters o b) →
    (∀ bits body, i = .localTransaction bits none → judgeInward (bytesOf bits) ≠ .message 17#8 body) →
    (∀ d bytes, i = .frameArrival d bytes → noClearArrives d bytes s) →
    (∀ pins, i ≠ .powerOnCompletion pins) → (∀ pins, i ≠ .resetPinRelease pins) →
    (s.counter g j).value.toNat ≤ (t.counter g j).value.toNat

/-! ## Time, notices, modes -/

/-- Set Time (R173): the counter loaded, the reply with what it held; nothing else changes. -/
def Obligations.SetTimeLoadsTheCounter : Prop :=
  ∀ o v s, served o s → exec (.setTime o v) s = .next (answered o (.setTime v) s fun t =>
    ({ t with tb := { t.tb with hutTime := v } }, { status := .done, body := sent4 t.tb.hutTime.toNat }))

/-- Wake Hut from the route link (R150, R178, R179): Done in every mode; in Settling to Watch and in Dormant to Waking, with Woken set
and the wake cause record RouteWake with the frame's source; nothing else in Watch and in Waking. -/
def Obligations.WakeHutActsByMode : Prop :=
  ∀ h s, served (.route h) s → exec (.wakeHut (.route h)) s = .next (answered (.route h) .wakeHut s fun t =>
    let woken : Option WakeRecord := some { cause := .routeWake h.source, time := t.tb.hutTime }
    (match t.tb.mode with
      | .settling =>
        { inWatch t with
          tb := { t.tb with mode := .watch, settle := none, wakeRecord := woken }, nu := { t.nu with flags := t.nu.flags ||| 0x80#8 } }
      | .dormant =>
        { t with tb := { t.tb with mode := .waking, wakeRecord := woken }, nu := { t.nu with flags := t.nu.flags ||| 0x80#8 } }
      | .watch => t
      | .waking => t, { status := .done, body := [] }))

namespace Sys2Proof.Machine

/-- The 11 bytes of Read Notices and Peek Notices (R167, 11 section 11.7). -/
def noticesSent (s : State) : List Byte :=
  [s.nu.flags, s.nu.enables, sent1 s.nu.level.level, sent1 (barNumber s.tb.wakeLevel)] ++
  (match s.tb.wakeRecord with
    | none => [0#8, 255#8, 0#8, 0#8, 0#8, 0#8, 0#8]
    | some { cause := .raise i, time } => [1#8, sent1 i.val, 0#8] ++ sent4 time.toNat
    | some { cause := .routeWake source, time } => [2#8, 255#8, source] ++ sent4 time.toNat
    | some { cause := .localPort, time } => [3#8, 255#8, 0#8] ++ sent4 time.toNat)

end Sys2Proof.Machine

/-- Read Notices (R167): the flags, enables, levels and wake cause record; then every edge flag is clear, PoolFull is kept only while
the pool wait list is not empty, and Link only while a carrier is lost. Peek Notices returns the same and changes nothing. -/
def Obligations.ReadNoticesClearsWhatItReturned : Prop :=
  ∀ s, served .localPort s →
    exec (.readNotices .localPort) s = .next (answered .localPort .readNotices s fun t =>
      let kept : BitVec 8 := (if t.rt.poolWait = [] then 0#8 else 0x10#8) |||
        (if t.rr.west.carrier = true ∧ t.rr.east.carrier = true then 0#8 else 0x40#8)
      ({ t with nu := { t.nu with flags := t.nu.flags &&& kept } }, { status := .done, body := noticesSent t })) ∧
    exec (.peekNotices .localPort) s = .next (answered .localPort .peekNotices s (telling noticesSent))

/-- Set Notice Enables and Set Hut Settings (R165, R169): the eight enables replaced whole; the notice level 1 to 4 and the wake level 1
to 5 written, BadField outside. ATTN is asserted outside a hold while some flag is set whose enable is on. -/
def Obligations.NoticeSettingsAreWrittenWhole : Prop :=
  (∀ e s, served .localPort s →
    exec (.setNoticeEnables .localPort e) s = .next (answered .localPort (.setNoticeEnables e) s fun t =>
      ({ t with nu := { t.nu with enables := e } }, { status := .done, body := [] }))) ∧
  (∀ n w s, served .localPort s →
    let ends (f : State → State × Reply) := exec (.setHutSettings .localPort n w) s = .next (answered .localPort (.setHutSettings n w) s f)
    (n = 0#8 ∨ 4 < n.toNat ∨ w = 0#8 ∨ 5 < w.toNat → ends (refusing .badField)) ∧
    ∀ level bar, n.toNat = level.level → barWritten bar w →
      ends fun t => ({ t with nu := { t.nu with level }, tb := { t.tb with wakeLevel := bar } }, { status := .done, body := [] })) ∧
  ∀ s : State, s.attn = true ↔ s.inHold = false ∧ ∃ n : Fin 8, s.nu.flags.getLsbD n = true ∧ s.nu.enables.getLsbD n = true

/-- Enter Dormant and the settle countdown (R174, R175, R176): NoticePending while a flag is set whose enable is on; else Settling with
the countdown at 2. The expiry, commanded by its own row (the model's choice, log entry 5), takes Settling to Dormant, removes the
countdown and deasserts WAKE. -/
def Obligations.EnterDormantThenSettleExpiry : Prop :=
  (∀ s, served .localPort s →
    let ends (f : State → State × Reply) := exec (.enterDormant .localPort) s = .next (answered .localPort .enterDormant s f)
    (s.nu.flags &&& s.nu.enables ≠ 0#8 → ends (refusing .noticePending)) ∧
    (s.nu.flags &&& s.nu.enables = 0#8 →
      ends fun t => ({ t with tb := { t.tb with mode := .settling, settle := some 2 } }, { status := .done, body := [] }))) ∧
  ∀ s, s.inHold = false → s.tb.mode = .settling →
    exec .settleExpiry s = .next { s with tb := { s.tb with mode := .dormant, settle := none } } ∧
    s.wake = true ∧ ({ s with tb := { s.tb with mode := .dormant, settle := none } } : State).wake = false

/-- Restart (R22, R44, R110, R141, R158, R170, R174, R182): records, lists and change count as after power-on; definitions kept, keys
Quiet, buckets 0, stale countdowns loaded, nothing shelved; governors Open and full; flags Ready, and Link while a carrier is lost;
mode Watch; Done in the slot. Counters, relay, levels, sampled lines, hut time, wake level and wake cause record are kept. -/
def Obligations.RestartResetsAndKeeps : Prop :=
  ∀ s, served .localPort s →
    ∃ x : State, exec (.restart .localPort) s = .next { x with lp := { x.lp with slot := some { status := .done, body := [] } } } ∧
      x.rt = (State.afterPowerOn { straps := 1#8, westCarrier := true, eastCarrier := true }).rt ∧
      (∀ p, x.point p =
        { defn := (s.point p).defn, keys := { low := .quiet, high := .quiet, stale := .quiet, fault := .quiet }, lowBucket := 0
          highBucket := 0, stale := (s.point p).defn.bind (fun d => if d.staleInterval = 0 then none else some d.staleInterval)
          shelve := 0 }) ∧
      (∀ g, x.governor g =
        { defn := (s.governor g).defn, gate := .opened, tokens := (s.governor g).defn.depth
          refill := 2 ^ (s.governor g).defn.refillExponent, held := [], folded := [] }) ∧
      x.gc = s.gc ∧ x.cs = s.cs ∧ x.rr = s.rr ∧ x.powerHold = s.powerHold ∧ x.resetLow = s.resetLow ∧
      x.freeDraws = s.freeDraws ∧ x.pending = s.pending ∧ x.lp.lsdo = shiftedOut .restart s ∧
      x.nu = { s.nu with flags := if s.rr.west.carrier = true ∧ s.rr.east.carrier = true then 0x01#8 else 0x41#8 } ∧
      x.tb = { s.tb with mode := .watch, settle := none }

namespace Sys2Proof.Machine

/-- The state that a command answers. -/
def ran (c : Instr) (s : State) : State :=
  match exec c s with
  | .next t => t
  | _ => s

/-- What an owner does at a second tick outside a hold (R64, R66, R102, R120, R171, R176): it lowers its countdowns in ascending order,
point by point and group by group (log entry 22), and one that comes to 0 expires as its own row says: the stale countdowns in Watch
alone, the shelve countdowns and the refill countdowns in every mode, the settle countdown. -/
def ticked (s : State) : TickOwner → State
  | .stale =>
    if s.tb.mode = .watch then
      (List.finRange 64).foldl (fun u p =>
        match (u.point p).stale with
        | some 1 => ran (.staleCountdownExpiry p) u
        | some (n + 2) => { u with pt := vset u.pt p { u.point p with stale := some (n + 1) } }
        | _ => u) s
    else s
  | .shelve =>
    (List.finRange 64).foldl (fun u p =>
      match (u.point p).shelve with
      | 0 => u
      | 1 => ran (.shelveExpiry p) u
      | n + 2 => { u with pt := vset u.pt p { u.point p with shelve := n + 1 } }) s
  | .refill =>
    (List.finRange 8).foldl (fun u g =>
      if (u.governor g).refill ≤ 1 then ran (.refill g) u
      else { u with sg := vset u.sg g { u.governor g with refill := (u.governor g).refill - 1 } }) s
  | .settle =>
    match s.tb.settle with
    | some (n + 2) => { s with tb := { s.tb with settle := some (n + 1) } }
    | some _ => ran .settleExpiry s
    | none => s

end Sys2Proof.Machine

/-- A second tick, its owners in any order (log entry 4) (R64, R65, R66, R102, R120, R121, R171, R172, R176, R181): hut time rises by 1;
outside a hold each owner acts once, those listed first, and a countdown that comes to 0 does what the row of its expiry does. So every
shelve countdown is lowered, one that ends setting ShelveExpired; every refill countdown is lowered or reloaded at its expiry; the stale
countdowns are lowered in Watch, stand in Dormant and in Waking, and in Settling stand unless the tick brings a wake cause, which
reloads them, and lowers them if their owner acts after it (log entry 14); the settle countdown is lowered from 2 to 1, and at 1 it
ends, unless the tick brings a wake cause that ends Settling. In the hold of the reset pin hut time alone runs on; in that of power-on
nothing does. -/
def Obligations.SecondTickLowersTheCountdowns : Prop :=
  ∀ order s,
    (s.powerHold = true → exec (.secondTick order) s = .next s) ∧
    (s.powerHold = false → s.resetLow = true →
      exec (.secondTick order) s = .next { s with tb := { s.tb with hutTime := s.tb.hutTime + 1#32 } }) ∧
    (s.inHold = false → ∃ owners t, exec (.secondTick order) s = .next t ∧
      t = owners.foldl ticked { s with tb := { s.tb with hutTime := s.tb.hutTime + 1#32 } } ∧
      owners.Nodup ∧ (∀ o, o ∈ owners) ∧ order.eraseDups <+: owners ∧
      t.outside = { s with tb := { s.tb with hutTime := s.tb.hutTime + 1#32 } }.outside ∧
      (∀ p, (t.point p).shelve = (s.point p).shelve - 1 ∧ (t.point p).defn = (s.point p).defn ∧
        (t.point p).lowBucket = (s.point p).lowBucket ∧ (t.point p).highBucket = (s.point p).highBucket) ∧
      (∀ p, (s.point p).shelve = 1 → t.nu.flags &&& 0x20#8 = 0x20#8) ∧
      (∀ g, (t.governor g).defn = (s.governor g).defn ∧ (t.governor g).refill =
        if (s.governor g).refill ≤ 1 then 2 ^ (s.governor g).defn.refillExponent else (s.governor g).refill - 1) ∧
      (s.tb.mode = .watch → ∀ p, (s.point p).defn ≠ none → (t.point p).stale = (s.point p).stale.map (· - 1)) ∧
      (s.tb.mode = .dormant ∨ s.tb.mode = .waking → ∀ p, (t.point p).stale = (s.point p).stale) ∧
      (s.tb.mode = .settling → t.tb.mode ≠ .watch → ∀ p, (t.point p).stale = (s.point p).stale) ∧
      (s.tb.mode = .settling → t.tb.mode = .watch →
        (∀ p, (t.point p).stale = (s.point p).reloadStale.stale) ∨
        ∀ p, (s.point p).defn ≠ none → (t.point p).stale = (s.point p).reloadStale.stale.map (· - 1)) ∧
      (s.tb.mode = .settling → s.tb.settle = some 2 →
        (t.tb.mode = .settling ∧ t.tb.settle = some 1) ∨ (t.tb.mode = .watch ∧ t.tb.settle = none)) ∧
      (s.tb.mode = .settling → s.tb.settle = some 1 → t.tb.mode ≠ .settling ∧ t.tb.settle = none))

/-! ## Resets and holds -/

/-- Power-on and its completion, the fall and the rise of the reset pin (R158, R181): during the hold WAKE is asserted, ATTN deasserted,
nothing is sent and nothing is in reception; power-on sets hut time to 0. The completion leaves the state of State.afterPowerOn for the
pins read, with hut time kept, and with the model's own fields kept: the bits on LSDO (log entry 18), the counter of free values (log
entry 8), the queue of commands. -/
def Obligations.ResetsHoldThenComplete : Prop :=
  ∀ (pins : ResetPins) s,
    (∃ t, exec .powerOn s = .next t ∧ t.powerHold = true ∧ t.tb.hutTime = 0#32 ∧ t.wake = true ∧ t.attn = false ∧
      (∀ d, t.transmitting d = none ∧ (t.side d).reception = []) ∧ t.resetLow = s.resetLow) ∧
    (s.resetLow = false → ∃ t, exec .resetPinAssert s = .next t ∧ t.resetLow = true ∧ t.tb.hutTime = s.tb.hutTime ∧ t.wake = true ∧
      t.attn = false ∧ (∀ d, t.transmitting d = none ∧ (t.side d).reception = []) ∧ t.powerHold = s.powerHold) ∧
    let complete : State :=
      { State.afterPowerOn pins with
        tb := { (State.afterPowerOn pins).tb with hutTime := s.tb.hutTime }, lp := { slot := none, lsdo := s.lp.lsdo }
        freeDraws := s.freeDraws, pending := s.pending }
    (s.powerHold = true → s.resetLow = false → exec (.powerOnCompletion pins) s = .next complete) ∧
    (s.powerHold = false → s.resetLow = true → exec (.resetPinRelease pins) s = .next complete)

/-- During a hold no frame, no transmission, no carrier change, no scan tick, no expiry and no request by the route link does anything,
and a transaction only shifts out zeros (R181). WAKE is asserted and ATTN deasserted. That a carrier change and every other command
that finds nothing to do leaves the state is the model's choice (log entry 6); that the tables keep through a hold what they held is
its inference (log entry 12). -/
def Obligations.HoldsTakeNothing : Prop :=
  ∀ s, s.inHold = true →
    s.wake = true ∧ s.attn = false ∧ (∀ d, s.transmitting d = none) ∧
    (∀ i h r, i.request? = some (.route h, r) → exec i s = .next s) ∧
    (∀ i r, i.request? = some (.localPort, r) → ∃ n, exec i s = .next { s with lp := { s.lp with lsdo := List.replicate n false } }) ∧
    (∀ d bytes, exec (.frameArrival d bytes) s = .next s) ∧
    (∀ d, exec (.transmissionCompletion d) s = .next s ∧ exec (.carrierLoss d) s = .next s ∧ exec (.carrierReturn d) s = .next s) ∧
    (∀ lines, exec (.scanTick lines) s = .next s) ∧
    (∀ p, exec (.staleCountdownExpiry p) s = .next s ∧ exec (.shelveExpiry p) s = .next s) ∧
    (∀ g, exec (.refill g) s = .next s) ∧ exec .settleExpiry s = .next s

/-! ## Raising, holding, folding, clearing

`BeginsTo` and `ClearsTo` say of each beginning and each end of a condition which commands bring it about alone. An expiry is commanded
by its own row; that such a row alone takes the expiry of a running countdown is the model's choice (log entry 5), a second tick does
the same to a countdown that it brings to 0 (SecondTickLowersTheCountdowns), a scan tick samples (ScanTickSamplesContactsAndCarriers),
and the steps of any other reading are those of ReadingMovesItsBuckets. -/

namespace Sys2Proof.Machine

/-- A raise attempt: the condition of a Quiet key begins, a Low or a High key carrying the reading (R69). -/
structure Attempt (k : PointKey) (d : Definition) (v : Option Half) (s : State) : Prop where
  defined : (s.point k.point).defn = some d
  quiet : (s.key k).state = .quiet
  carries : v.isSome = k.kind.hasValue

/-- An attempt that its governor judges: the point is not shelved and the severity does not meet the bypass severity (R70). -/
structure Governed (k : PointKey) (d : Definition) (v : Option Half) (s : State) : Prop extends Attempt k d v s where
  notShelved : (s.point k.point).shelve = 0
  noBypass : meetsBar (s.governor d.group).defn.bypass (d.severity k.kind) = false

end Sys2Proof.Machine

/-- A condition begins for a key that has its place or its record (R16, R59, R62, R65, R80): a Raised, a Held, a Waiting and a Folded
key make no attempt; a Cleared key has its record re-raised, whatever its governor. -/
def Obligations.StaleExpiryOfAKeyInTheTable : Prop :=
  ∀ k d v s,
    let e := (s.key k).state
    (e = .raised ∨ e = .held ∨ e = .waiting ∨ e = .folded → BeginsTo k d v s s) ∧
    ∀ i, e = .cleared → (s.key k).link = some i → (s.record i).state = .cleared → (s.record i).key = some (.point k) →
      ∃ t, BeginsTo k d v s t ∧ ReRaised i k s t

/-- An attempt that bypasses its governor, for shelving or by its severity (R11, R70, R72, R73): with a record Free it takes the head of
the Free list and is Raised; with none it joins the pool wait list behind every key of its severity or more, Held of cause Pool is
counted and PoolFull set. The governor is left as it is. -/
def Obligations.BypassingAttemptTakesARecordOrWaits : Prop :=
  ∀ k d v s, Attempt k d v s →
    0 < (s.point k.point).shelve ∨ meetsBar (s.governor d.group).defn.bypass (d.severity k.kind) = true →
    ∃ t, BeginsTo k d v s t ∧ keepsBut [k] s t ∧ t.sg = s.sg ∧ TakesOrWaits k (d.severity k.kind) v s t

/-- A governed attempt that an Open governor admits (R71, R72, R96 case 2): one token is spent, and the attempt takes the head of the
Free list or, with no record Free, joins the pool wait list. -/
def Obligations.OpenGovernorAdmitsForAToken : Prop :=
  ∀ k d v s, Governed k d v s → (s.governor d.group).gate = .opened → 0 < (s.governor d.group).tokens →
    ((s.governor d.group).defn.mode = .hold → (s.governor d.group).held = []) →
    ∃ t, BeginsTo k d v s t ∧ keepsBut [k] s t ∧
      t.sg = vset s.sg d.group { s.governor d.group with tokens := (s.governor d.group).tokens - 1 } ∧
      TakesOrWaits k (d.severity k.kind) v s t

/-- A governed attempt that a Hold-mode governor turns away (R96 cases 1, 3 and 4, R97, R98): a list that holds keys takes it behind them;
an Open governor without a token closes first, with StormClosed counted and Storm set. The key is Held with its pending severity and
value; Held of cause Storm is counted and sets no notice. -/
def Obligations.HoldGovernorHoldsTheKey : Prop :=
  ∀ k d v s, Governed k d v s → (s.governor d.group).defn.mode = .hold →
    let x := s.governor d.group
    let closes := x.held = [] ∧ x.gate = .opened
    x.held ≠ [] ∨ x.gate = .closed ∨ x.tokens = 0 →
    ∃ t, BeginsTo k d v s t ∧ keepsBut [k] s t ∧ t.tb = s.tb ∧
      (closes → t.sg = vset s.sg d.group { x with gate := .closed, held := [k] }) ∧
      (¬ closes → t.sg = vset s.sg d.group { x with held := x.held ++ [k] }) ∧
      t.rt = { s.rt with changeCount := s.rt.changeCount + 1#16 } ∧
      t.key k = { state := .held, link := none, pending := some { severity := d.severity k.kind, value := v } } ∧
      (closes → t.nu = { s.nu with flags := s.nu.flags ||| 0x04#8 } ∧
        counted [(d.group, .stormClosed, none, 0), (d.group, .held, some (d.severity k.kind), 0)] s t) ∧
      (¬ closes → t.nu = s.nu ∧ counted [(d.group, .held, some (d.severity k.kind), 0)] s t)

/-- A governed attempt that a Fold-mode governor turns away (R12, R16, R96 cases 3 and 4, R97, R100): the key is Folded; an Idle storm
record is raised with the group's storm severity and the folded count as its peak, a Cleared one is re-raised, and in every state the
new folded count is offered as a peak. -/
def Obligations.FoldGovernorFoldsTheKey : Prop :=
  ∀ k d v s, Governed k d v s → (s.governor d.group).defn.mode = .fold → TableLaw s → (s.governor d.group).folded.length < 256 →
    let x := s.governor d.group
    let i := stormIx d.group
    let r := s.record i
    let count := BitVec.ofNat 16 (x.folded.length + 1)
    let peak := r.peak.map fun w => if w.toNat < count.toNat then count else w
    x.gate = .closed ∨ x.tokens = 0 →
    ∃ t, BeginsTo k d v s t ∧ keepsBut [k] s t ∧
      t.sg = vset s.sg d.group { x with gate := .closed, folded := x.folded ++ [k] } ∧
      t.key k = { state := .folded, link := none, pending := none } ∧
      let first : List (GroupId × EventKind × Option Severity × Nat) :=
        (if x.gate = .opened then [(d.group, .stormClosed, none, 0)] else []) ++ [(d.group, .folded, some (d.severity k.kind), 0)]
      let flags := if x.gate = .opened then s.nu.flags ||| 0x04#8 else s.nu.flags
      (r.state = .idle →
        t.rt = { s.rt with
          records := vset s.rt.records i (begun (.storm d.group) x.defn.stormSeverity (some count) s)
          standing := s.rt.standing ++ [i]
          changeCount := s.rt.changeCount + 1#16 } ∧
        (t.nu, t.tb) = judged i x.defn.stormSeverity false { s with nu := { s.nu with flags } } ∧
        counted (first ++ [(d.group, .raised, some x.defn.stormSeverity, 0)]) s t) ∧
      (r.state = .cleared →
        t.rt = { s.rt with
          records := vset s.rt.records i
            { r with
              state := .standing, clearTime := none, peak
              repeats := if r.repeats = 255#8 then 255#8 else r.repeats + 1#8 }
          standing := s.rt.standing ++ [i]
          cleared := s.rt.cleared.erase i
          changeCount := s.rt.changeCount + 1#16 } ∧
        (t.nu, t.tb) = judged i r.severity false { s with nu := { s.nu with flags } } ∧
        counted (first ++ [(d.group, .raised, some r.severity, 0)]) s t) ∧
      (r.state = .standing ∨ r.state = .acknowledged →
        t.rt = { s.rt with records := vset s.rt.records i { r with peak } } ∧ t.nu = { s.nu with flags } ∧ t.tb = s.tb ∧
        counted first s t)

namespace Sys2Proof.Machine

/-- The head of a storm-held list has been released (R103): off the list, a token spent, its pending value carried; with a record Free
it is Raised on the head of the Free list, Released counted before Raised, and judged; with none it joins the pool wait list. -/
def Released (g : GroupId) (k : PointKey) (rest : List PointKey) (v : Pending) (s x : State) : Prop :=
  keepsBut [k] s x ∧
  x.sg = vset s.sg g { s.governor g with tokens := (s.governor g).tokens - 1, held := rest } ∧
  (∀ i free, s.rt.free = i :: free →
    x.rt = { takenFromFree i free k v.severity v.value s with changeCount := s.rt.changeCount + 2#16 } ∧
    x.key k = { state := .raised, link := some i, pending := none } ∧
    (x.nu, x.tb) = judged i v.severity (decide (0 < (s.point k.point).shelve)) s ∧
    counted [(s.groupOf k, .released, some v.severity, 0), (s.groupOf k, .raised, some v.severity, 0)] s x) ∧
  (s.rt.free = [] → JoinsThePoolWait 2#16 k v.severity v.value s x)

end Sys2Proof.Machine

/-- The refill of a governor (R102, R103, R104), commanded by its own row (the model's choice, log entry 5): the countdown reloaded; one
token up to the depth; a Closed governor that reaches its reopen level opens and sets Reopened, and in Fold mode with no key folded
asks its storm record to clear; an Open one in Hold mode releases keys from the head of its list, a token each, while both last, each
ending Raised or Waiting. Other governors are left. -/
def Obligations.RefillReopensAndReleases : Prop :=
  (∀ g s, s.inHold = false →
    let x := s.governor g
    let tokens := if x.tokens < x.defn.depth then x.tokens + 1 else x.tokens
    let opens := x.gate = .closed ∧ x.defn.reopen ≤ tokens
    let gate : Gate := if x.gate = .closed ∧ tokens < x.defn.reopen then .closed else .opened
    let released := if gate = .opened ∧ x.defn.mode = .hold then min tokens x.held.length else 0
    let y : State := { s with
      sg := vset s.sg g { x with refill := 2 ^ x.defn.refillExponent, gate, tokens }
      nu := { s.nu with flags := if opens then s.nu.flags ||| 0x08#8 else s.nu.flags } }
    let z := if opens ∧ x.defn.mode = .fold ∧ x.folded = [] then clearLatched (stormIx g) y else y
    ∃ t, exec (.refill g) s = .next t ∧ t = (if gate = .opened ∧ x.defn.mode = .hold then releaseStep g z else z) ∧
      t.outside = s.outside ∧ (∀ h, h ≠ g → t.governor h = s.governor h) ∧
      t.governor g = { x with
        refill := 2 ^ x.defn.refillExponent, gate, tokens := tokens - released, held := x.held.drop released } ∧
      (opens → t.nu.flags &&& 0x08#8 = 0x08#8) ∧
      (x.held.Nodup → ∀ k ∈ x.held.take released, (t.key k).state = .raised ∨ (t.key k).state = .waiting) ∧
      (¬ opens → released = 0 → { t with sg := s.sg } = s)) ∧
  (∀ g s, TableLaw s →
    let x := clearLatched (stormIx g) s
    x.outside = s.outside ∧ x.pt = s.pt ∧ x.sg = s.sg ∧ StormCleared [] g s x) ∧
  ∀ g s,
    ((s.governor g).held = [] ∨ (s.governor g).tokens = 0 → releaseStep g s = s) ∧
    ∀ k rest v, (s.governor g).held = k :: rest → 0 < (s.governor g).tokens → (s.key k).pending = some v →
      v.value.isSome = k.kind.hasValue → ∃ x, Released g k rest v s x ∧ releaseStep g s = releaseStep g x

/-- A clear event by the state of its key (R14, R15, R60, R63, R67, R81 to R87): a Quiet or a Cleared key is left; a Raised key of a
Latched point has its Standing record moved to the Cleared tail; a Held or a Waiting key is absorbed from its list. -/
def Obligations.ClearEventActsByTheKey : Prop :=
  ∀ k d s, (s.point k.point).defn = some d →
    ((s.key k).state = .quiet ∨ (s.key k).state = .cleared → ClearsTo k d s s) ∧
    (∀ i, (s.key k).state = .raised → d.retirement = .latched → (s.key k).link = some i → (s.record i).key = some (.point k) →
      (s.record i).state = .standing →
      ∃ x, ClearsTo k d s x ∧ keepsBut [k] s x ∧ x.sg = s.sg ∧ x.nu = s.nu ∧ x.tb = s.tb ∧
        x.key k = { s.key k with state := .cleared } ∧
        x.rt = { s.rt with
          records := vset s.rt.records i { s.record i with state := .cleared, clearTime := some s.tb.hutTime }
          standing := s.rt.standing.erase i
          acknowledged := s.rt.acknowledged.erase i
          cleared := toTail i s.rt.cleared
          changeCount := s.rt.changeCount + 1#16 } ∧
        counted [(d.group, .cleared, some (s.record i).severity, liveDuration (s.record i) s)] s x) ∧
    (∀ v, (s.key k).state = .held → (s.key k).pending = some v →
      ∃ x, ClearsTo k d s x ∧ keepsBut [k] s x ∧ x.nu = s.nu ∧ x.tb = s.tb ∧
        x.key k = { state := .quiet, link := none, pending := none } ∧
        x.sg = vset s.sg d.group { s.governor d.group with held := (s.governor d.group).held.erase k } ∧
        x.rt = { s.rt with changeCount := s.rt.changeCount + 1#16 } ∧
        counted [(d.group, .absorbed, some v.severity, 0)] s x) ∧
    ∀ v, (s.key k).state = .waiting → (s.key k).pending = some v →
      ∃ x, ClearsTo k d s x ∧ keepsBut [k] s x ∧ x.sg = s.sg ∧ x.nu = s.nu ∧ x.tb = s.tb ∧
        x.key k = { state := .quiet, link := none, pending := none } ∧
        x.rt = { s.rt with poolWait := s.rt.poolWait.erase k, changeCount := s.rt.changeCount + 1#16 } ∧
        counted [(d.group, .absorbed, some v.severity, 0)] s x

/-- The clear event that retires or absorbs (R14, R15, R17, R76, R81, R86, R104): a Raised key of a Self-retiring point, or of a
Latched point whose record is Acknowledged, and no such key stands on the pool wait list (WaitLaw), has its record retired, with
Cleared and Retired counted, and the record goes to the Free tail or to the head of the pool wait list; a Folded key is absorbed, and
when the folded count reaches 0 while the governor is Open the storm record is asked to clear. -/
def Obligations.ClearEventRetiresOrAbsorbs : Prop :=
  ∀ k d s, (s.point k.point).defn = some d → TableLaw s →
    (∀ i, (s.key k).state = .raised → (s.key k).link = some i → (s.record i).key = some (.point k) → k ∉ s.rt.poolWait →
      (d.retirement = .selfRetiring ∧ (s.record i).state = .standing) ∨ (s.record i).state = .acknowledged →
      ∃ x, ClearsTo k d s x ∧
        Retired [(d.group, .cleared, some (s.record i).severity, liveDuration (s.record i) s)] i k s x) ∧
    ((s.key k).state = .folded →
      let y := s.governor d.group
      let tally : List (GroupId × EventKind × Option Severity × Nat) := [(d.group, .absorbed, some (d.severity k.kind), 0)]
      ∃ x, ClearsTo k d s x ∧ keepsBut [k] s x ∧ x.key k = { state := .quiet, link := none, pending := none } ∧
        x.sg = vset s.sg d.group { y with folded := y.folded.erase k } ∧
        (y.gate = .closed ∨ y.folded.erase k ≠ [] → x.rt = s.rt ∧ x.nu = s.nu ∧ x.tb = s.tb ∧ counted tally s x) ∧
        (y.gate = .opened → y.folded.erase k = [] → StormCleared tally d.group s x))

/-- A reading that fills the bucket of a Low or a High key (R11, R16, R45, R59, R61, R70, R72, R80): a Quiet key makes its attempt, which,
bypassing, takes the head of the Free list with the reading as its peak, and else goes the way of the statements above; a Cleared key
is re-raised and a Raised key keeps its record, the reading being offered as a peak to both; a key that waits keeps its place. No other
kind of the point finds anything to do. -/
def Obligations.FullBucketRaisesTheCondition : Prop :=
  ∀ k d r s0, r.fault = 0#8 → ReadsAlone k d r s0 → fills k d r.value s0 →
    let s := withBucket k d.capacity (atReading k.point d r s0)
    (∀ t, BeginsTo k d (some r.value) s t → exec (.reading .localPort [r]) s0 = .next (oneApplied r (offered k r.value t))) ∧
    ∃ x, exec (.reading .localPort [r]) s0 = .next (oneApplied r x) ∧ x.outside = s.outside ∧
      bucketOf k x = d.capacity ∧
      (∀ i rest, (s.key k).state = .quiet →
        0 < (s.point k.point).shelve ∨ meetsBar (s.governor d.group).defn.bypass (d.severity k.kind) = true → s.rt.free = i :: rest →
        keepsBut [k] s x ∧ x.sg = s.sg ∧ x.rt = takenFromFree i rest k (d.severity k.kind) (some r.value) s ∧
        x.key k = { state := .raised, link := some i, pending := none } ∧
        (x.nu, x.tb) = judged i (d.severity k.kind) (decide (0 < (s.point k.point).shelve)) s ∧
        counted [(d.group, .raised, some (d.severity k.kind), 0)] s x) ∧
      (∀ i, (s.key k).state = .cleared → (s.key k).link = some i → (s.record i).state = .cleared →
        (s.record i).key = some (.point k) →
        ∃ t, ReRaised i k s t ∧ x = withPeak i ((s.record i).peak.map fun w => extreme (.point k) w r.value) t) ∧
      (∀ i, (s.key k).state = .raised → (s.key k).link = some i → (s.record i).state.live = true →
        (s.record i).key = some (.point k) →
        x = withPeak i ((s.record i).peak.map fun w => extreme (.point k) w r.value) s) ∧
      ((s.key k).state = .held ∨ (s.key k).state = .waiting ∨ (s.key k).state = .folded → x = s)

/-! ## Laws that every step keeps -/

/-- Every step keeps the law of the record table: each record on the list of its state and on no other, its fields as its state and
its class require (R2, R4, R5, R6, R21). -/
def Obligations.StepsKeepTheRecordTable : Prop := ∀ s t, TableLaw s → step s = .next t → TableLaw t

/-- Every step keeps the numbers of every governor: tokens within 0 and the depth, a Closed governor below its reopen level, the refill
countdown within 1 and 2^p (R93, R102, R107). -/
def Obligations.StepsKeepTheGovernors : Prop := ∀ s t, GovernorLaw s → step s = .next t → GovernorLaw t

/-- Every step keeps the points in order: definitions in range, buckets within the capacity, countdowns within their loads, no contact
line and no carrier side shared (R23 to R33, R58, R64, R118). -/
def Obligations.StepsKeepThePoints : Prop := ∀ s t, PointLaw s → step s = .next t → PointLaw t

/-- Every step keeps the route link, the slot, the settle countdown and the level flags in order (R144, R151, R153, R164, R176, R181),
while the commands that wait are commands that the outside can give. -/
def Obligations.StepsKeepLinksModesAndNotices : Prop :=
  ∀ s t, QueueLaw s → LinkLaw s → TimeLaw s → NoticeLaw s → step s = .next t → QueueLaw t ∧ LinkLaw t ∧ TimeLaw t ∧ NoticeLaw t

/-- Every step keeps every law of Safety.lean: besides those above, keys and records agree, the pool wait list is in order and holds
keys only while no record is Free, and the storm-held lists, folded sets and storm records agree with the governors (R21, R36 to R38,
R59, R74, R98, R104, R107). -/
def Obligations.StepsKeepEveryLaw : Prop := ∀ s t, Machine.Inv s → step s = .next t → Machine.Inv t
end

