-- ==== Sys2Proof/Laws/Tables.lean ====
section
/-! SUPPORT. The tables of fixed size: reading an entry after a write, a map or a fill; the four keys of a point; the named lists. -/

namespace Sys2Proof

theorem vget_vset {α : Type} {n : Nat} (v : Vector α n) (i j : Fin n) (x : α) :
    vget (vset v i x) j = if i = j then x else vget v j := by
  simp only [vget, vset, Vector.getElem_set, Fin.ext_iff]

@[simp] theorem vget_vset_self {α : Type} {n : Nat} (v : Vector α n) (i : Fin n) (x : α) : vget (vset v i x) i = x := by
  rw [vget_vset, if_pos rfl]

theorem vget_vset_of_ne {α : Type} {n : Nat} (v : Vector α n) {i j : Fin n} (x : α) (h : i ≠ j) :
    vget (vset v i x) j = vget v j := by
  rw [vget_vset, if_neg h]

@[simp] theorem vget_vmap {α β : Type} {n : Nat} (f : α → β) (v : Vector α n) (i : Fin n) : vget (vmap f v) i = f (vget v i) := by
  simp [vget, vmap]

@[simp] theorem vget_replicate {α : Type} (n : Nat) (x : α) (i : Fin n) : vget (Vector.replicate n x) i = x := by
  simp [vget]

theorem vget_append {α : Type} {m n : Nat} (a : Vector α m) (b : Vector α n) (i : Fin (m + n)) :
    vget (a ++ b) i = if h : i.val < m then vget a ⟨i.val, h⟩ else vget b ⟨i.val - m, by omega⟩ := by
  simp only [vget, Vector.getElem_append]

/-- Two tables with the same entries are the same. -/
theorem vector_eq_of_vget {α : Type} {n : Nat} {v w : Vector α n} (h : ∀ i, vget v i = vget w i) : v = w := by
  apply Vector.ext
  intro i hi
  exact h ⟨i, hi⟩

@[simp] theorem vset_vset_self {α : Type} {n : Nat} (v : Vector α n) (i : Fin n) (x y : α) : vset (vset v i x) i y = vset v i y := by
  apply vector_eq_of_vget
  intro j
  rw [vget_vset, vget_vset, vget_vset]
  split <;> rfl

@[simp] theorem vset_vget_self {α : Type} {n : Nat} (v : Vector α n) (i : Fin n) : vset v i (vget v i) = v := by
  apply vector_eq_of_vget
  intro j
  rw [vget_vset]
  split
  · next h => rw [h]
  · rfl

namespace Machine

@[simp] theorem keys_get_set_self (k : Keys) (kind : Kind) (e : KeyEntry) : (k.set kind e).get kind = e := by
  cases kind <;> rfl

theorem keys_get_set_of_ne (k : Keys) {a b : Kind} (e : KeyEntry) (h : a ≠ b) : (k.set a e).get b = k.get b := by
  cases a <;> cases b <;> first | rfl | exact absurd rfl h

theorem keys_get_set (k : Keys) (a b : Kind) (e : KeyEntry) : (k.set a e).get b = if a = b then e else k.get b := by
  cases a <;> cases b <;> rfl

@[simp] theorem keys_quiet_get (kind : Kind) : Keys.quiet.get kind = .quiet := by
  cases kind <;> rfl

theorem mem_allPoints (p : PointId) : p ∈ allPoints := by
  revert p; decide

theorem mem_allGroups (g : GroupId) : g ∈ allGroups := by
  revert g; decide

theorem mem_allKinds (k : Kind) : k ∈ allKinds := by
  cases k <;> decide

theorem allPoints_nodup : allPoints.Nodup := by decide

theorem allGroups_nodup : allGroups.Nodup := by decide

@[simp] theorem stormIx_val (g : GroupId) : (stormIx g).val = 160 + g.val := rfl

theorem stormIx_not_pool (g : GroupId) : isPool (stormIx g) = false := by
  simp [isPool]

theorem stormIx_injective {g h : GroupId} (e : stormIx g = stormIx h) : g = h := by
  have := congrArg Fin.val e
  simp only [stormIx_val] at this
  exact Fin.ext (by omega)

theorem isPool_iff (i : RecordIx) : isPool i = true ↔ i.val < 160 := by
  simp [isPool]

end Machine

end Sys2Proof
end

