-- ==== Sys2Proof/Laws/State.lean ====
section
/-! SUPPORT. For each update of the state, one lemma for each field it leaves, and what it writes. All by rfl, or by rfl on each
side of the relay. -/

namespace Sys2Proof.Machine

/-! ### putRecord -/

@[simp] theorem pt_putRecord (i : RecordIx) (r : Record) (s : State) : (putRecord i r s).pt = s.pt := rfl
@[simp] theorem cs_putRecord (i : RecordIx) (r : Record) (s : State) : (putRecord i r s).cs = s.cs := rfl
@[simp] theorem sg_putRecord (i : RecordIx) (r : Record) (s : State) : (putRecord i r s).sg = s.sg := rfl
@[simp] theorem gc_putRecord (i : RecordIx) (r : Record) (s : State) : (putRecord i r s).gc = s.gc := rfl
@[simp] theorem rr_putRecord (i : RecordIx) (r : Record) (s : State) : (putRecord i r s).rr = s.rr := rfl
@[simp] theorem lp_putRecord (i : RecordIx) (r : Record) (s : State) : (putRecord i r s).lp = s.lp := rfl
@[simp] theorem nu_putRecord (i : RecordIx) (r : Record) (s : State) : (putRecord i r s).nu = s.nu := rfl
@[simp] theorem tb_putRecord (i : RecordIx) (r : Record) (s : State) : (putRecord i r s).tb = s.tb := rfl
@[simp] theorem powerHold_putRecord (i : RecordIx) (r : Record) (s : State) : (putRecord i r s).powerHold = s.powerHold := rfl
@[simp] theorem resetLow_putRecord (i : RecordIx) (r : Record) (s : State) : (putRecord i r s).resetLow = s.resetLow := rfl
@[simp] theorem freeDraws_putRecord (i : RecordIx) (r : Record) (s : State) : (putRecord i r s).freeDraws = s.freeDraws := rfl
@[simp] theorem pending_putRecord (i : RecordIx) (r : Record) (s : State) : (putRecord i r s).pending = s.pending := rfl
@[simp] theorem rt_free_putRecord (i : RecordIx) (r : Record) (s : State) : (putRecord i r s).rt.free = s.rt.free := rfl
@[simp] theorem rt_standing_putRecord (i : RecordIx) (r : Record) (s : State) : (putRecord i r s).rt.standing = s.rt.standing := rfl
@[simp] theorem rt_acknowledged_putRecord (i : RecordIx) (r : Record) (s : State) : (putRecord i r s).rt.acknowledged = s.rt.acknowledged := rfl
@[simp] theorem rt_cleared_putRecord (i : RecordIx) (r : Record) (s : State) : (putRecord i r s).rt.cleared = s.rt.cleared := rfl
@[simp] theorem rt_poolWait_putRecord (i : RecordIx) (r : Record) (s : State) : (putRecord i r s).rt.poolWait = s.rt.poolWait := rfl
@[simp] theorem rt_changeCount_putRecord (i : RecordIx) (r : Record) (s : State) : (putRecord i r s).rt.changeCount = s.rt.changeCount := rfl
@[simp] theorem point_putRecord (i : RecordIx) (r : Record) (s : State) (p' : PointId) : (putRecord i r s).point p' = s.point p' := rfl
@[simp] theorem governor_putRecord (i : RecordIx) (r : Record) (s : State) (g' : GroupId) : (putRecord i r s).governor g' = s.governor g' := rfl
@[simp] theorem counters_putRecord (i : RecordIx) (r : Record) (s : State) (g' : GroupId) : (putRecord i r s).counters g' = s.counters g' := rfl
@[simp] theorem side_putRecord (i : RecordIx) (r : Record) (s : State) (d' : Side) : (putRecord i r s).side d' = s.side d' := rfl
@[simp] theorem key_putRecord (i : RecordIx) (r : Record) (s : State) (k' : PointKey) : (putRecord i r s).key k' = s.key k' := rfl
@[simp] theorem noticeSet_putRecord (i : RecordIx) (r : Record) (s : State) (n' : Notice) : (putRecord i r s).noticeSet n' = s.noticeSet n' := rfl
@[simp] theorem inHold_putRecord (i : RecordIx) (r : Record) (s : State) : (putRecord i r s).inHold = s.inHold := rfl

/-! ### putPoint -/

@[simp] theorem rt_putPoint (p : PointId) (e : PointEntry) (s : State) : (putPoint p e s).rt = s.rt := rfl
@[simp] theorem cs_putPoint (p : PointId) (e : PointEntry) (s : State) : (putPoint p e s).cs = s.cs := rfl
@[simp] theorem sg_putPoint (p : PointId) (e : PointEntry) (s : State) : (putPoint p e s).sg = s.sg := rfl
@[simp] theorem gc_putPoint (p : PointId) (e : PointEntry) (s : State) : (putPoint p e s).gc = s.gc := rfl
@[simp] theorem rr_putPoint (p : PointId) (e : PointEntry) (s : State) : (putPoint p e s).rr = s.rr := rfl
@[simp] theorem lp_putPoint (p : PointId) (e : PointEntry) (s : State) : (putPoint p e s).lp = s.lp := rfl
@[simp] theorem nu_putPoint (p : PointId) (e : PointEntry) (s : State) : (putPoint p e s).nu = s.nu := rfl
@[simp] theorem tb_putPoint (p : PointId) (e : PointEntry) (s : State) : (putPoint p e s).tb = s.tb := rfl
@[simp] theorem powerHold_putPoint (p : PointId) (e : PointEntry) (s : State) : (putPoint p e s).powerHold = s.powerHold := rfl
@[simp] theorem resetLow_putPoint (p : PointId) (e : PointEntry) (s : State) : (putPoint p e s).resetLow = s.resetLow := rfl
@[simp] theorem freeDraws_putPoint (p : PointId) (e : PointEntry) (s : State) : (putPoint p e s).freeDraws = s.freeDraws := rfl
@[simp] theorem pending_putPoint (p : PointId) (e : PointEntry) (s : State) : (putPoint p e s).pending = s.pending := rfl
@[simp] theorem record_putPoint (p : PointId) (e : PointEntry) (s : State) (i' : RecordIx) : (putPoint p e s).record i' = s.record i' := rfl
@[simp] theorem governor_putPoint (p : PointId) (e : PointEntry) (s : State) (g' : GroupId) : (putPoint p e s).governor g' = s.governor g' := rfl
@[simp] theorem counters_putPoint (p : PointId) (e : PointEntry) (s : State) (g' : GroupId) : (putPoint p e s).counters g' = s.counters g' := rfl
@[simp] theorem side_putPoint (p : PointId) (e : PointEntry) (s : State) (d' : Side) : (putPoint p e s).side d' = s.side d' := rfl
@[simp] theorem noticeSet_putPoint (p : PointId) (e : PointEntry) (s : State) (n' : Notice) : (putPoint p e s).noticeSet n' = s.noticeSet n' := rfl
@[simp] theorem inHold_putPoint (p : PointId) (e : PointEntry) (s : State) : (putPoint p e s).inHold = s.inHold := rfl

/-! ### putKey -/

@[simp] theorem rt_putKey (k : PointKey) (e : KeyEntry) (s : State) : (putKey k e s).rt = s.rt := rfl
@[simp] theorem cs_putKey (k : PointKey) (e : KeyEntry) (s : State) : (putKey k e s).cs = s.cs := rfl
@[simp] theorem sg_putKey (k : PointKey) (e : KeyEntry) (s : State) : (putKey k e s).sg = s.sg := rfl
@[simp] theorem gc_putKey (k : PointKey) (e : KeyEntry) (s : State) : (putKey k e s).gc = s.gc := rfl
@[simp] theorem rr_putKey (k : PointKey) (e : KeyEntry) (s : State) : (putKey k e s).rr = s.rr := rfl
@[simp] theorem lp_putKey (k : PointKey) (e : KeyEntry) (s : State) : (putKey k e s).lp = s.lp := rfl
@[simp] theorem nu_putKey (k : PointKey) (e : KeyEntry) (s : State) : (putKey k e s).nu = s.nu := rfl
@[simp] theorem tb_putKey (k : PointKey) (e : KeyEntry) (s : State) : (putKey k e s).tb = s.tb := rfl
@[simp] theorem powerHold_putKey (k : PointKey) (e : KeyEntry) (s : State) : (putKey k e s).powerHold = s.powerHold := rfl
@[simp] theorem resetLow_putKey (k : PointKey) (e : KeyEntry) (s : State) : (putKey k e s).resetLow = s.resetLow := rfl
@[simp] theorem freeDraws_putKey (k : PointKey) (e : KeyEntry) (s : State) : (putKey k e s).freeDraws = s.freeDraws := rfl
@[simp] theorem pending_putKey (k : PointKey) (e : KeyEntry) (s : State) : (putKey k e s).pending = s.pending := rfl
@[simp] theorem record_putKey (k : PointKey) (e : KeyEntry) (s : State) (i' : RecordIx) : (putKey k e s).record i' = s.record i' := rfl
@[simp] theorem governor_putKey (k : PointKey) (e : KeyEntry) (s : State) (g' : GroupId) : (putKey k e s).governor g' = s.governor g' := rfl
@[simp] theorem counters_putKey (k : PointKey) (e : KeyEntry) (s : State) (g' : GroupId) : (putKey k e s).counters g' = s.counters g' := rfl
@[simp] theorem side_putKey (k : PointKey) (e : KeyEntry) (s : State) (d' : Side) : (putKey k e s).side d' = s.side d' := rfl
@[simp] theorem noticeSet_putKey (k : PointKey) (e : KeyEntry) (s : State) (n' : Notice) : (putKey k e s).noticeSet n' = s.noticeSet n' := rfl
@[simp] theorem inHold_putKey (k : PointKey) (e : KeyEntry) (s : State) : (putKey k e s).inHold = s.inHold := rfl

/-! ### putGovernor -/

@[simp] theorem rt_putGovernor (g : GroupId) (x : Governor) (s : State) : (putGovernor g x s).rt = s.rt := rfl
@[simp] theorem pt_putGovernor (g : GroupId) (x : Governor) (s : State) : (putGovernor g x s).pt = s.pt := rfl
@[simp] theorem cs_putGovernor (g : GroupId) (x : Governor) (s : State) : (putGovernor g x s).cs = s.cs := rfl
@[simp] theorem gc_putGovernor (g : GroupId) (x : Governor) (s : State) : (putGovernor g x s).gc = s.gc := rfl
@[simp] theorem rr_putGovernor (g : GroupId) (x : Governor) (s : State) : (putGovernor g x s).rr = s.rr := rfl
@[simp] theorem lp_putGovernor (g : GroupId) (x : Governor) (s : State) : (putGovernor g x s).lp = s.lp := rfl
@[simp] theorem nu_putGovernor (g : GroupId) (x : Governor) (s : State) : (putGovernor g x s).nu = s.nu := rfl
@[simp] theorem tb_putGovernor (g : GroupId) (x : Governor) (s : State) : (putGovernor g x s).tb = s.tb := rfl
@[simp] theorem powerHold_putGovernor (g : GroupId) (x : Governor) (s : State) : (putGovernor g x s).powerHold = s.powerHold := rfl
@[simp] theorem resetLow_putGovernor (g : GroupId) (x : Governor) (s : State) : (putGovernor g x s).resetLow = s.resetLow := rfl
@[simp] theorem freeDraws_putGovernor (g : GroupId) (x : Governor) (s : State) : (putGovernor g x s).freeDraws = s.freeDraws := rfl
@[simp] theorem pending_putGovernor (g : GroupId) (x : Governor) (s : State) : (putGovernor g x s).pending = s.pending := rfl
@[simp] theorem record_putGovernor (g : GroupId) (x : Governor) (s : State) (i' : RecordIx) : (putGovernor g x s).record i' = s.record i' := rfl
@[simp] theorem point_putGovernor (g : GroupId) (x : Governor) (s : State) (p' : PointId) : (putGovernor g x s).point p' = s.point p' := rfl
@[simp] theorem counters_putGovernor (g : GroupId) (x : Governor) (s : State) (g' : GroupId) : (putGovernor g x s).counters g' = s.counters g' := rfl
@[simp] theorem side_putGovernor (g : GroupId) (x : Governor) (s : State) (d' : Side) : (putGovernor g x s).side d' = s.side d' := rfl
@[simp] theorem key_putGovernor (g : GroupId) (x : Governor) (s : State) (k' : PointKey) : (putGovernor g x s).key k' = s.key k' := rfl
@[simp] theorem noticeSet_putGovernor (g : GroupId) (x : Governor) (s : State) (n' : Notice) : (putGovernor g x s).noticeSet n' = s.noticeSet n' := rfl
@[simp] theorem inHold_putGovernor (g : GroupId) (x : Governor) (s : State) : (putGovernor g x s).inHold = s.inHold := rfl

/-! ### advance -/

@[simp] theorem pt_advance (n : Nat) (s : State) : (advance n s).pt = s.pt := rfl
@[simp] theorem cs_advance (n : Nat) (s : State) : (advance n s).cs = s.cs := rfl
@[simp] theorem sg_advance (n : Nat) (s : State) : (advance n s).sg = s.sg := rfl
@[simp] theorem gc_advance (n : Nat) (s : State) : (advance n s).gc = s.gc := rfl
@[simp] theorem rr_advance (n : Nat) (s : State) : (advance n s).rr = s.rr := rfl
@[simp] theorem lp_advance (n : Nat) (s : State) : (advance n s).lp = s.lp := rfl
@[simp] theorem nu_advance (n : Nat) (s : State) : (advance n s).nu = s.nu := rfl
@[simp] theorem tb_advance (n : Nat) (s : State) : (advance n s).tb = s.tb := rfl
@[simp] theorem powerHold_advance (n : Nat) (s : State) : (advance n s).powerHold = s.powerHold := rfl
@[simp] theorem resetLow_advance (n : Nat) (s : State) : (advance n s).resetLow = s.resetLow := rfl
@[simp] theorem freeDraws_advance (n : Nat) (s : State) : (advance n s).freeDraws = s.freeDraws := rfl
@[simp] theorem pending_advance (n : Nat) (s : State) : (advance n s).pending = s.pending := rfl
@[simp] theorem rt_records_advance (n : Nat) (s : State) : (advance n s).rt.records = s.rt.records := rfl
@[simp] theorem rt_free_advance (n : Nat) (s : State) : (advance n s).rt.free = s.rt.free := rfl
@[simp] theorem rt_standing_advance (n : Nat) (s : State) : (advance n s).rt.standing = s.rt.standing := rfl
@[simp] theorem rt_acknowledged_advance (n : Nat) (s : State) : (advance n s).rt.acknowledged = s.rt.acknowledged := rfl
@[simp] theorem rt_cleared_advance (n : Nat) (s : State) : (advance n s).rt.cleared = s.rt.cleared := rfl
@[simp] theorem rt_poolWait_advance (n : Nat) (s : State) : (advance n s).rt.poolWait = s.rt.poolWait := rfl
@[simp] theorem record_advance (n : Nat) (s : State) (i' : RecordIx) : (advance n s).record i' = s.record i' := rfl
@[simp] theorem point_advance (n : Nat) (s : State) (p' : PointId) : (advance n s).point p' = s.point p' := rfl
@[simp] theorem governor_advance (n : Nat) (s : State) (g' : GroupId) : (advance n s).governor g' = s.governor g' := rfl
@[simp] theorem counters_advance (n : Nat) (s : State) (g' : GroupId) : (advance n s).counters g' = s.counters g' := rfl
@[simp] theorem side_advance (n : Nat) (s : State) (d' : Side) : (advance n s).side d' = s.side d' := rfl
@[simp] theorem key_advance (n : Nat) (s : State) (k' : PointKey) : (advance n s).key k' = s.key k' := rfl
@[simp] theorem noticeSet_advance (n : Nat) (s : State) (n' : Notice) : (advance n s).noticeSet n' = s.noticeSet n' := rfl
@[simp] theorem inHold_advance (n : Nat) (s : State) : (advance n s).inHold = s.inHold := rfl

/-! ### setNotice -/

@[simp] theorem rt_setNotice (n : Notice) (s : State) : (setNotice n s).rt = s.rt := rfl
@[simp] theorem pt_setNotice (n : Notice) (s : State) : (setNotice n s).pt = s.pt := rfl
@[simp] theorem cs_setNotice (n : Notice) (s : State) : (setNotice n s).cs = s.cs := rfl
@[simp] theorem sg_setNotice (n : Notice) (s : State) : (setNotice n s).sg = s.sg := rfl
@[simp] theorem gc_setNotice (n : Notice) (s : State) : (setNotice n s).gc = s.gc := rfl
@[simp] theorem rr_setNotice (n : Notice) (s : State) : (setNotice n s).rr = s.rr := rfl
@[simp] theorem lp_setNotice (n : Notice) (s : State) : (setNotice n s).lp = s.lp := rfl
@[simp] theorem tb_setNotice (n : Notice) (s : State) : (setNotice n s).tb = s.tb := rfl
@[simp] theorem powerHold_setNotice (n : Notice) (s : State) : (setNotice n s).powerHold = s.powerHold := rfl
@[simp] theorem resetLow_setNotice (n : Notice) (s : State) : (setNotice n s).resetLow = s.resetLow := rfl
@[simp] theorem freeDraws_setNotice (n : Notice) (s : State) : (setNotice n s).freeDraws = s.freeDraws := rfl
@[simp] theorem pending_setNotice (n : Notice) (s : State) : (setNotice n s).pending = s.pending := rfl
@[simp] theorem nu_enables_setNotice (n : Notice) (s : State) : (setNotice n s).nu.enables = s.nu.enables := rfl
@[simp] theorem nu_level_setNotice (n : Notice) (s : State) : (setNotice n s).nu.level = s.nu.level := rfl
@[simp] theorem record_setNotice (n : Notice) (s : State) (i' : RecordIx) : (setNotice n s).record i' = s.record i' := rfl
@[simp] theorem point_setNotice (n : Notice) (s : State) (p' : PointId) : (setNotice n s).point p' = s.point p' := rfl
@[simp] theorem governor_setNotice (n : Notice) (s : State) (g' : GroupId) : (setNotice n s).governor g' = s.governor g' := rfl
@[simp] theorem counters_setNotice (n : Notice) (s : State) (g' : GroupId) : (setNotice n s).counters g' = s.counters g' := rfl
@[simp] theorem side_setNotice (n : Notice) (s : State) (d' : Side) : (setNotice n s).side d' = s.side d' := rfl
@[simp] theorem key_setNotice (n : Notice) (s : State) (k' : PointKey) : (setNotice n s).key k' = s.key k' := rfl
@[simp] theorem inHold_setNotice (n : Notice) (s : State) : (setNotice n s).inHold = s.inHold := rfl

/-! ### countEvent -/

@[simp] theorem rt_countEvent (e : TableEvent) (s : State) : (countEvent e s).rt = s.rt := rfl
@[simp] theorem pt_countEvent (e : TableEvent) (s : State) : (countEvent e s).pt = s.pt := rfl
@[simp] theorem cs_countEvent (e : TableEvent) (s : State) : (countEvent e s).cs = s.cs := rfl
@[simp] theorem sg_countEvent (e : TableEvent) (s : State) : (countEvent e s).sg = s.sg := rfl
@[simp] theorem rr_countEvent (e : TableEvent) (s : State) : (countEvent e s).rr = s.rr := rfl
@[simp] theorem lp_countEvent (e : TableEvent) (s : State) : (countEvent e s).lp = s.lp := rfl
@[simp] theorem nu_countEvent (e : TableEvent) (s : State) : (countEvent e s).nu = s.nu := rfl
@[simp] theorem tb_countEvent (e : TableEvent) (s : State) : (countEvent e s).tb = s.tb := rfl
@[simp] theorem powerHold_countEvent (e : TableEvent) (s : State) : (countEvent e s).powerHold = s.powerHold := rfl
@[simp] theorem resetLow_countEvent (e : TableEvent) (s : State) : (countEvent e s).resetLow = s.resetLow := rfl
@[simp] theorem freeDraws_countEvent (e : TableEvent) (s : State) : (countEvent e s).freeDraws = s.freeDraws := rfl
@[simp] theorem pending_countEvent (e : TableEvent) (s : State) : (countEvent e s).pending = s.pending := rfl
@[simp] theorem record_countEvent (e : TableEvent) (s : State) (i' : RecordIx) : (countEvent e s).record i' = s.record i' := rfl
@[simp] theorem point_countEvent (e : TableEvent) (s : State) (p' : PointId) : (countEvent e s).point p' = s.point p' := rfl
@[simp] theorem governor_countEvent (e : TableEvent) (s : State) (g' : GroupId) : (countEvent e s).governor g' = s.governor g' := rfl
@[simp] theorem side_countEvent (e : TableEvent) (s : State) (d' : Side) : (countEvent e s).side d' = s.side d' := rfl
@[simp] theorem key_countEvent (e : TableEvent) (s : State) (k' : PointKey) : (countEvent e s).key k' = s.key k' := rfl
@[simp] theorem noticeSet_countEvent (e : TableEvent) (s : State) (n' : Notice) : (countEvent e s).noticeSet n' = s.noticeSet n' := rfl
@[simp] theorem inHold_countEvent (e : TableEvent) (s : State) : (countEvent e s).inHold = s.inHold := rfl

/-! ### writeWakeRecord -/

@[simp] theorem rt_writeWakeRecord (c : WakeCause) (s : State) : (writeWakeRecord c s).rt = s.rt := rfl
@[simp] theorem pt_writeWakeRecord (c : WakeCause) (s : State) : (writeWakeRecord c s).pt = s.pt := rfl
@[simp] theorem cs_writeWakeRecord (c : WakeCause) (s : State) : (writeWakeRecord c s).cs = s.cs := rfl
@[simp] theorem sg_writeWakeRecord (c : WakeCause) (s : State) : (writeWakeRecord c s).sg = s.sg := rfl
@[simp] theorem gc_writeWakeRecord (c : WakeCause) (s : State) : (writeWakeRecord c s).gc = s.gc := rfl
@[simp] theorem rr_writeWakeRecord (c : WakeCause) (s : State) : (writeWakeRecord c s).rr = s.rr := rfl
@[simp] theorem lp_writeWakeRecord (c : WakeCause) (s : State) : (writeWakeRecord c s).lp = s.lp := rfl
@[simp] theorem nu_writeWakeRecord (c : WakeCause) (s : State) : (writeWakeRecord c s).nu = s.nu := rfl
@[simp] theorem powerHold_writeWakeRecord (c : WakeCause) (s : State) : (writeWakeRecord c s).powerHold = s.powerHold := rfl
@[simp] theorem resetLow_writeWakeRecord (c : WakeCause) (s : State) : (writeWakeRecord c s).resetLow = s.resetLow := rfl
@[simp] theorem freeDraws_writeWakeRecord (c : WakeCause) (s : State) : (writeWakeRecord c s).freeDraws = s.freeDraws := rfl
@[simp] theorem pending_writeWakeRecord (c : WakeCause) (s : State) : (writeWakeRecord c s).pending = s.pending := rfl
@[simp] theorem tb_hutTime_writeWakeRecord (c : WakeCause) (s : State) : (writeWakeRecord c s).tb.hutTime = s.tb.hutTime := rfl
@[simp] theorem tb_mode_writeWakeRecord (c : WakeCause) (s : State) : (writeWakeRecord c s).tb.mode = s.tb.mode := rfl
@[simp] theorem tb_settle_writeWakeRecord (c : WakeCause) (s : State) : (writeWakeRecord c s).tb.settle = s.tb.settle := rfl
@[simp] theorem tb_wakeLevel_writeWakeRecord (c : WakeCause) (s : State) : (writeWakeRecord c s).tb.wakeLevel = s.tb.wakeLevel := rfl
@[simp] theorem record_writeWakeRecord (c : WakeCause) (s : State) (i' : RecordIx) : (writeWakeRecord c s).record i' = s.record i' := rfl
@[simp] theorem point_writeWakeRecord (c : WakeCause) (s : State) (p' : PointId) : (writeWakeRecord c s).point p' = s.point p' := rfl
@[simp] theorem governor_writeWakeRecord (c : WakeCause) (s : State) (g' : GroupId) : (writeWakeRecord c s).governor g' = s.governor g' := rfl
@[simp] theorem counters_writeWakeRecord (c : WakeCause) (s : State) (g' : GroupId) : (writeWakeRecord c s).counters g' = s.counters g' := rfl
@[simp] theorem side_writeWakeRecord (c : WakeCause) (s : State) (d' : Side) : (writeWakeRecord c s).side d' = s.side d' := rfl
@[simp] theorem key_writeWakeRecord (c : WakeCause) (s : State) (k' : PointKey) : (writeWakeRecord c s).key k' = s.key k' := rfl
@[simp] theorem noticeSet_writeWakeRecord (c : WakeCause) (s : State) (n' : Notice) : (writeWakeRecord c s).noticeSet n' = s.noticeSet n' := rfl
@[simp] theorem inHold_writeWakeRecord (c : WakeCause) (s : State) : (writeWakeRecord c s).inHold = s.inHold := rfl

/-! ### enterWatch -/

@[simp] theorem rt_enterWatch (s : State) : (enterWatch s).rt = s.rt := rfl
@[simp] theorem cs_enterWatch (s : State) : (enterWatch s).cs = s.cs := rfl
@[simp] theorem sg_enterWatch (s : State) : (enterWatch s).sg = s.sg := rfl
@[simp] theorem gc_enterWatch (s : State) : (enterWatch s).gc = s.gc := rfl
@[simp] theorem rr_enterWatch (s : State) : (enterWatch s).rr = s.rr := rfl
@[simp] theorem lp_enterWatch (s : State) : (enterWatch s).lp = s.lp := rfl
@[simp] theorem nu_enterWatch (s : State) : (enterWatch s).nu = s.nu := rfl
@[simp] theorem powerHold_enterWatch (s : State) : (enterWatch s).powerHold = s.powerHold := rfl
@[simp] theorem resetLow_enterWatch (s : State) : (enterWatch s).resetLow = s.resetLow := rfl
@[simp] theorem freeDraws_enterWatch (s : State) : (enterWatch s).freeDraws = s.freeDraws := rfl
@[simp] theorem pending_enterWatch (s : State) : (enterWatch s).pending = s.pending := rfl
@[simp] theorem tb_hutTime_enterWatch (s : State) : (enterWatch s).tb.hutTime = s.tb.hutTime := rfl
@[simp] theorem tb_wakeLevel_enterWatch (s : State) : (enterWatch s).tb.wakeLevel = s.tb.wakeLevel := rfl
@[simp] theorem tb_wakeRecord_enterWatch (s : State) : (enterWatch s).tb.wakeRecord = s.tb.wakeRecord := rfl
@[simp] theorem record_enterWatch (s : State) (i' : RecordIx) : (enterWatch s).record i' = s.record i' := rfl
@[simp] theorem governor_enterWatch (s : State) (g' : GroupId) : (enterWatch s).governor g' = s.governor g' := rfl
@[simp] theorem counters_enterWatch (s : State) (g' : GroupId) : (enterWatch s).counters g' = s.counters g' := rfl
@[simp] theorem side_enterWatch (s : State) (d' : Side) : (enterWatch s).side d' = s.side d' := rfl
@[simp] theorem noticeSet_enterWatch (s : State) (n' : Notice) : (enterWatch s).noticeSet n' = s.noticeSet n' := rfl
@[simp] theorem inHold_enterWatch (s : State) : (enterWatch s).inHold = s.inHold := rfl

/-! ### toStanding -/

@[simp] theorem pt_toStanding (i : RecordIx) (s : State) : (toStanding i s).pt = s.pt := rfl
@[simp] theorem cs_toStanding (i : RecordIx) (s : State) : (toStanding i s).cs = s.cs := rfl
@[simp] theorem sg_toStanding (i : RecordIx) (s : State) : (toStanding i s).sg = s.sg := rfl
@[simp] theorem gc_toStanding (i : RecordIx) (s : State) : (toStanding i s).gc = s.gc := rfl
@[simp] theorem rr_toStanding (i : RecordIx) (s : State) : (toStanding i s).rr = s.rr := rfl
@[simp] theorem lp_toStanding (i : RecordIx) (s : State) : (toStanding i s).lp = s.lp := rfl
@[simp] theorem nu_toStanding (i : RecordIx) (s : State) : (toStanding i s).nu = s.nu := rfl
@[simp] theorem tb_toStanding (i : RecordIx) (s : State) : (toStanding i s).tb = s.tb := rfl
@[simp] theorem powerHold_toStanding (i : RecordIx) (s : State) : (toStanding i s).powerHold = s.powerHold := rfl
@[simp] theorem resetLow_toStanding (i : RecordIx) (s : State) : (toStanding i s).resetLow = s.resetLow := rfl
@[simp] theorem freeDraws_toStanding (i : RecordIx) (s : State) : (toStanding i s).freeDraws = s.freeDraws := rfl
@[simp] theorem pending_toStanding (i : RecordIx) (s : State) : (toStanding i s).pending = s.pending := rfl
@[simp] theorem rt_records_toStanding (i : RecordIx) (s : State) : (toStanding i s).rt.records = s.rt.records := rfl
@[simp] theorem rt_free_toStanding (i : RecordIx) (s : State) : (toStanding i s).rt.free = s.rt.free := rfl
@[simp] theorem rt_poolWait_toStanding (i : RecordIx) (s : State) : (toStanding i s).rt.poolWait = s.rt.poolWait := rfl
@[simp] theorem rt_changeCount_toStanding (i : RecordIx) (s : State) : (toStanding i s).rt.changeCount = s.rt.changeCount := rfl
@[simp] theorem record_toStanding (i : RecordIx) (s : State) (i' : RecordIx) : (toStanding i s).record i' = s.record i' := rfl
@[simp] theorem point_toStanding (i : RecordIx) (s : State) (p' : PointId) : (toStanding i s).point p' = s.point p' := rfl
@[simp] theorem governor_toStanding (i : RecordIx) (s : State) (g' : GroupId) : (toStanding i s).governor g' = s.governor g' := rfl
@[simp] theorem counters_toStanding (i : RecordIx) (s : State) (g' : GroupId) : (toStanding i s).counters g' = s.counters g' := rfl
@[simp] theorem side_toStanding (i : RecordIx) (s : State) (d' : Side) : (toStanding i s).side d' = s.side d' := rfl
@[simp] theorem key_toStanding (i : RecordIx) (s : State) (k' : PointKey) : (toStanding i s).key k' = s.key k' := rfl
@[simp] theorem noticeSet_toStanding (i : RecordIx) (s : State) (n' : Notice) : (toStanding i s).noticeSet n' = s.noticeSet n' := rfl
@[simp] theorem inHold_toStanding (i : RecordIx) (s : State) : (toStanding i s).inHold = s.inHold := rfl

/-! ### toAcknowledged -/

@[simp] theorem pt_toAcknowledged (i : RecordIx) (s : State) : (toAcknowledged i s).pt = s.pt := rfl
@[simp] theorem cs_toAcknowledged (i : RecordIx) (s : State) : (toAcknowledged i s).cs = s.cs := rfl
@[simp] theorem sg_toAcknowledged (i : RecordIx) (s : State) : (toAcknowledged i s).sg = s.sg := rfl
@[simp] theorem gc_toAcknowledged (i : RecordIx) (s : State) : (toAcknowledged i s).gc = s.gc := rfl
@[simp] theorem rr_toAcknowledged (i : RecordIx) (s : State) : (toAcknowledged i s).rr = s.rr := rfl
@[simp] theorem lp_toAcknowledged (i : RecordIx) (s : State) : (toAcknowledged i s).lp = s.lp := rfl
@[simp] theorem nu_toAcknowledged (i : RecordIx) (s : State) : (toAcknowledged i s).nu = s.nu := rfl
@[simp] theorem tb_toAcknowledged (i : RecordIx) (s : State) : (toAcknowledged i s).tb = s.tb := rfl
@[simp] theorem powerHold_toAcknowledged (i : RecordIx) (s : State) : (toAcknowledged i s).powerHold = s.powerHold := rfl
@[simp] theorem resetLow_toAcknowledged (i : RecordIx) (s : State) : (toAcknowledged i s).resetLow = s.resetLow := rfl
@[simp] theorem freeDraws_toAcknowledged (i : RecordIx) (s : State) : (toAcknowledged i s).freeDraws = s.freeDraws := rfl
@[simp] theorem pending_toAcknowledged (i : RecordIx) (s : State) : (toAcknowledged i s).pending = s.pending := rfl
@[simp] theorem rt_records_toAcknowledged (i : RecordIx) (s : State) : (toAcknowledged i s).rt.records = s.rt.records := rfl
@[simp] theorem rt_free_toAcknowledged (i : RecordIx) (s : State) : (toAcknowledged i s).rt.free = s.rt.free := rfl
@[simp] theorem rt_poolWait_toAcknowledged (i : RecordIx) (s : State) : (toAcknowledged i s).rt.poolWait = s.rt.poolWait := rfl
@[simp] theorem rt_changeCount_toAcknowledged (i : RecordIx) (s : State) : (toAcknowledged i s).rt.changeCount = s.rt.changeCount := rfl
@[simp] theorem record_toAcknowledged (i : RecordIx) (s : State) (i' : RecordIx) : (toAcknowledged i s).record i' = s.record i' := rfl
@[simp] theorem point_toAcknowledged (i : RecordIx) (s : State) (p' : PointId) : (toAcknowledged i s).point p' = s.point p' := rfl
@[simp] theorem governor_toAcknowledged (i : RecordIx) (s : State) (g' : GroupId) : (toAcknowledged i s).governor g' = s.governor g' := rfl
@[simp] theorem counters_toAcknowledged (i : RecordIx) (s : State) (g' : GroupId) : (toAcknowledged i s).counters g' = s.counters g' := rfl
@[simp] theorem side_toAcknowledged (i : RecordIx) (s : State) (d' : Side) : (toAcknowledged i s).side d' = s.side d' := rfl
@[simp] theorem key_toAcknowledged (i : RecordIx) (s : State) (k' : PointKey) : (toAcknowledged i s).key k' = s.key k' := rfl
@[simp] theorem noticeSet_toAcknowledged (i : RecordIx) (s : State) (n' : Notice) : (toAcknowledged i s).noticeSet n' = s.noticeSet n' := rfl
@[simp] theorem inHold_toAcknowledged (i : RecordIx) (s : State) : (toAcknowledged i s).inHold = s.inHold := rfl

/-! ### toCleared -/

@[simp] theorem pt_toCleared (i : RecordIx) (s : State) : (toCleared i s).pt = s.pt := rfl
@[simp] theorem cs_toCleared (i : RecordIx) (s : State) : (toCleared i s).cs = s.cs := rfl
@[simp] theorem sg_toCleared (i : RecordIx) (s : State) : (toCleared i s).sg = s.sg := rfl
@[simp] theorem gc_toCleared (i : RecordIx) (s : State) : (toCleared i s).gc = s.gc := rfl
@[simp] theorem rr_toCleared (i : RecordIx) (s : State) : (toCleared i s).rr = s.rr := rfl
@[simp] theorem lp_toCleared (i : RecordIx) (s : State) : (toCleared i s).lp = s.lp := rfl
@[simp] theorem nu_toCleared (i : RecordIx) (s : State) : (toCleared i s).nu = s.nu := rfl
@[simp] theorem tb_toCleared (i : RecordIx) (s : State) : (toCleared i s).tb = s.tb := rfl
@[simp] theorem powerHold_toCleared (i : RecordIx) (s : State) : (toCleared i s).powerHold = s.powerHold := rfl
@[simp] theorem resetLow_toCleared (i : RecordIx) (s : State) : (toCleared i s).resetLow = s.resetLow := rfl
@[simp] theorem freeDraws_toCleared (i : RecordIx) (s : State) : (toCleared i s).freeDraws = s.freeDraws := rfl
@[simp] theorem pending_toCleared (i : RecordIx) (s : State) : (toCleared i s).pending = s.pending := rfl
@[simp] theorem rt_records_toCleared (i : RecordIx) (s : State) : (toCleared i s).rt.records = s.rt.records := rfl
@[simp] theorem rt_free_toCleared (i : RecordIx) (s : State) : (toCleared i s).rt.free = s.rt.free := rfl
@[simp] theorem rt_poolWait_toCleared (i : RecordIx) (s : State) : (toCleared i s).rt.poolWait = s.rt.poolWait := rfl
@[simp] theorem rt_changeCount_toCleared (i : RecordIx) (s : State) : (toCleared i s).rt.changeCount = s.rt.changeCount := rfl
@[simp] theorem record_toCleared (i : RecordIx) (s : State) (i' : RecordIx) : (toCleared i s).record i' = s.record i' := rfl
@[simp] theorem point_toCleared (i : RecordIx) (s : State) (p' : PointId) : (toCleared i s).point p' = s.point p' := rfl
@[simp] theorem governor_toCleared (i : RecordIx) (s : State) (g' : GroupId) : (toCleared i s).governor g' = s.governor g' := rfl
@[simp] theorem counters_toCleared (i : RecordIx) (s : State) (g' : GroupId) : (toCleared i s).counters g' = s.counters g' := rfl
@[simp] theorem side_toCleared (i : RecordIx) (s : State) (d' : Side) : (toCleared i s).side d' = s.side d' := rfl
@[simp] theorem key_toCleared (i : RecordIx) (s : State) (k' : PointKey) : (toCleared i s).key k' = s.key k' := rfl
@[simp] theorem noticeSet_toCleared (i : RecordIx) (s : State) (n' : Notice) : (toCleared i s).noticeSet n' = s.noticeSet n' := rfl
@[simp] theorem inHold_toCleared (i : RecordIx) (s : State) : (toCleared i s).inHold = s.inHold := rfl

/-! ### offLists -/

@[simp] theorem pt_offLists (i : RecordIx) (s : State) : (offLists i s).pt = s.pt := rfl
@[simp] theorem cs_offLists (i : RecordIx) (s : State) : (offLists i s).cs = s.cs := rfl
@[simp] theorem sg_offLists (i : RecordIx) (s : State) : (offLists i s).sg = s.sg := rfl
@[simp] theorem gc_offLists (i : RecordIx) (s : State) : (offLists i s).gc = s.gc := rfl
@[simp] theorem rr_offLists (i : RecordIx) (s : State) : (offLists i s).rr = s.rr := rfl
@[simp] theorem lp_offLists (i : RecordIx) (s : State) : (offLists i s).lp = s.lp := rfl
@[simp] theorem nu_offLists (i : RecordIx) (s : State) : (offLists i s).nu = s.nu := rfl
@[simp] theorem tb_offLists (i : RecordIx) (s : State) : (offLists i s).tb = s.tb := rfl
@[simp] theorem powerHold_offLists (i : RecordIx) (s : State) : (offLists i s).powerHold = s.powerHold := rfl
@[simp] theorem resetLow_offLists (i : RecordIx) (s : State) : (offLists i s).resetLow = s.resetLow := rfl
@[simp] theorem freeDraws_offLists (i : RecordIx) (s : State) : (offLists i s).freeDraws = s.freeDraws := rfl
@[simp] theorem pending_offLists (i : RecordIx) (s : State) : (offLists i s).pending = s.pending := rfl
@[simp] theorem rt_records_offLists (i : RecordIx) (s : State) : (offLists i s).rt.records = s.rt.records := rfl
@[simp] theorem rt_free_offLists (i : RecordIx) (s : State) : (offLists i s).rt.free = s.rt.free := rfl
@[simp] theorem rt_poolWait_offLists (i : RecordIx) (s : State) : (offLists i s).rt.poolWait = s.rt.poolWait := rfl
@[simp] theorem rt_changeCount_offLists (i : RecordIx) (s : State) : (offLists i s).rt.changeCount = s.rt.changeCount := rfl
@[simp] theorem record_offLists (i : RecordIx) (s : State) (i' : RecordIx) : (offLists i s).record i' = s.record i' := rfl
@[simp] theorem point_offLists (i : RecordIx) (s : State) (p' : PointId) : (offLists i s).point p' = s.point p' := rfl
@[simp] theorem governor_offLists (i : RecordIx) (s : State) (g' : GroupId) : (offLists i s).governor g' = s.governor g' := rfl
@[simp] theorem counters_offLists (i : RecordIx) (s : State) (g' : GroupId) : (offLists i s).counters g' = s.counters g' := rfl
@[simp] theorem side_offLists (i : RecordIx) (s : State) (d' : Side) : (offLists i s).side d' = s.side d' := rfl
@[simp] theorem key_offLists (i : RecordIx) (s : State) (k' : PointKey) : (offLists i s).key k' = s.key k' := rfl
@[simp] theorem noticeSet_offLists (i : RecordIx) (s : State) (n' : Notice) : (offLists i s).noticeSet n' = s.noticeSet n' := rfl
@[simp] theorem inHold_offLists (i : RecordIx) (s : State) : (offLists i s).inHold = s.inHold := rfl

/-! ### toFree -/

@[simp] theorem pt_toFree (i : RecordIx) (s : State) : (toFree i s).pt = s.pt := rfl
@[simp] theorem cs_toFree (i : RecordIx) (s : State) : (toFree i s).cs = s.cs := rfl
@[simp] theorem sg_toFree (i : RecordIx) (s : State) : (toFree i s).sg = s.sg := rfl
@[simp] theorem gc_toFree (i : RecordIx) (s : State) : (toFree i s).gc = s.gc := rfl
@[simp] theorem rr_toFree (i : RecordIx) (s : State) : (toFree i s).rr = s.rr := rfl
@[simp] theorem lp_toFree (i : RecordIx) (s : State) : (toFree i s).lp = s.lp := rfl
@[simp] theorem nu_toFree (i : RecordIx) (s : State) : (toFree i s).nu = s.nu := rfl
@[simp] theorem tb_toFree (i : RecordIx) (s : State) : (toFree i s).tb = s.tb := rfl
@[simp] theorem powerHold_toFree (i : RecordIx) (s : State) : (toFree i s).powerHold = s.powerHold := rfl
@[simp] theorem resetLow_toFree (i : RecordIx) (s : State) : (toFree i s).resetLow = s.resetLow := rfl
@[simp] theorem freeDraws_toFree (i : RecordIx) (s : State) : (toFree i s).freeDraws = s.freeDraws := rfl
@[simp] theorem pending_toFree (i : RecordIx) (s : State) : (toFree i s).pending = s.pending := rfl
@[simp] theorem rt_records_toFree (i : RecordIx) (s : State) : (toFree i s).rt.records = s.rt.records := rfl
@[simp] theorem rt_standing_toFree (i : RecordIx) (s : State) : (toFree i s).rt.standing = s.rt.standing := rfl
@[simp] theorem rt_acknowledged_toFree (i : RecordIx) (s : State) : (toFree i s).rt.acknowledged = s.rt.acknowledged := rfl
@[simp] theorem rt_cleared_toFree (i : RecordIx) (s : State) : (toFree i s).rt.cleared = s.rt.cleared := rfl
@[simp] theorem rt_poolWait_toFree (i : RecordIx) (s : State) : (toFree i s).rt.poolWait = s.rt.poolWait := rfl
@[simp] theorem rt_changeCount_toFree (i : RecordIx) (s : State) : (toFree i s).rt.changeCount = s.rt.changeCount := rfl
@[simp] theorem record_toFree (i : RecordIx) (s : State) (i' : RecordIx) : (toFree i s).record i' = s.record i' := rfl
@[simp] theorem point_toFree (i : RecordIx) (s : State) (p' : PointId) : (toFree i s).point p' = s.point p' := rfl
@[simp] theorem governor_toFree (i : RecordIx) (s : State) (g' : GroupId) : (toFree i s).governor g' = s.governor g' := rfl
@[simp] theorem counters_toFree (i : RecordIx) (s : State) (g' : GroupId) : (toFree i s).counters g' = s.counters g' := rfl
@[simp] theorem side_toFree (i : RecordIx) (s : State) (d' : Side) : (toFree i s).side d' = s.side d' := rfl
@[simp] theorem key_toFree (i : RecordIx) (s : State) (k' : PointKey) : (toFree i s).key k' = s.key k' := rfl
@[simp] theorem noticeSet_toFree (i : RecordIx) (s : State) (n' : Notice) : (toFree i s).noticeSet n' = s.noticeSet n' := rfl
@[simp] theorem inHold_toFree (i : RecordIx) (s : State) : (toFree i s).inHold = s.inHold := rfl

/-! ### putCounter -/

@[simp] theorem rt_putCounter (g : GroupId) (j : Fin 4) (c : Counter) (s : State) : (putCounter g j c s).rt = s.rt := rfl
@[simp] theorem pt_putCounter (g : GroupId) (j : Fin 4) (c : Counter) (s : State) : (putCounter g j c s).pt = s.pt := rfl
@[simp] theorem cs_putCounter (g : GroupId) (j : Fin 4) (c : Counter) (s : State) : (putCounter g j c s).cs = s.cs := rfl
@[simp] theorem sg_putCounter (g : GroupId) (j : Fin 4) (c : Counter) (s : State) : (putCounter g j c s).sg = s.sg := rfl
@[simp] theorem rr_putCounter (g : GroupId) (j : Fin 4) (c : Counter) (s : State) : (putCounter g j c s).rr = s.rr := rfl
@[simp] theorem lp_putCounter (g : GroupId) (j : Fin 4) (c : Counter) (s : State) : (putCounter g j c s).lp = s.lp := rfl
@[simp] theorem nu_putCounter (g : GroupId) (j : Fin 4) (c : Counter) (s : State) : (putCounter g j c s).nu = s.nu := rfl
@[simp] theorem tb_putCounter (g : GroupId) (j : Fin 4) (c : Counter) (s : State) : (putCounter g j c s).tb = s.tb := rfl
@[simp] theorem powerHold_putCounter (g : GroupId) (j : Fin 4) (c : Counter) (s : State) : (putCounter g j c s).powerHold = s.powerHold := rfl
@[simp] theorem resetLow_putCounter (g : GroupId) (j : Fin 4) (c : Counter) (s : State) : (putCounter g j c s).resetLow = s.resetLow := rfl
@[simp] theorem freeDraws_putCounter (g : GroupId) (j : Fin 4) (c : Counter) (s : State) : (putCounter g j c s).freeDraws = s.freeDraws := rfl
@[simp] theorem pending_putCounter (g : GroupId) (j : Fin 4) (c : Counter) (s : State) : (putCounter g j c s).pending = s.pending := rfl
@[simp] theorem record_putCounter (g : GroupId) (j : Fin 4) (c : Counter) (s : State) (i' : RecordIx) : (putCounter g j c s).record i' = s.record i' := rfl
@[simp] theorem point_putCounter (g : GroupId) (j : Fin 4) (c : Counter) (s : State) (p' : PointId) : (putCounter g j c s).point p' = s.point p' := rfl
@[simp] theorem governor_putCounter (g : GroupId) (j : Fin 4) (c : Counter) (s : State) (g' : GroupId) : (putCounter g j c s).governor g' = s.governor g' := rfl
@[simp] theorem side_putCounter (g : GroupId) (j : Fin 4) (c : Counter) (s : State) (d' : Side) : (putCounter g j c s).side d' = s.side d' := rfl
@[simp] theorem key_putCounter (g : GroupId) (j : Fin 4) (c : Counter) (s : State) (k' : PointKey) : (putCounter g j c s).key k' = s.key k' := rfl
@[simp] theorem noticeSet_putCounter (g : GroupId) (j : Fin 4) (c : Counter) (s : State) (n' : Notice) : (putCounter g j c s).noticeSet n' = s.noticeSet n' := rfl
@[simp] theorem inHold_putCounter (g : GroupId) (j : Fin 4) (c : Counter) (s : State) : (putCounter g j c s).inHold = s.inHold := rfl

/-! ### clearCounters -/

@[simp] theorem rt_clearCounters (g : GroupId) (s : State) : (clearCounters g s).rt = s.rt := rfl
@[simp] theorem pt_clearCounters (g : GroupId) (s : State) : (clearCounters g s).pt = s.pt := rfl
@[simp] theorem cs_clearCounters (g : GroupId) (s : State) : (clearCounters g s).cs = s.cs := rfl
@[simp] theorem sg_clearCounters (g : GroupId) (s : State) : (clearCounters g s).sg = s.sg := rfl
@[simp] theorem rr_clearCounters (g : GroupId) (s : State) : (clearCounters g s).rr = s.rr := rfl
@[simp] theorem lp_clearCounters (g : GroupId) (s : State) : (clearCounters g s).lp = s.lp := rfl
@[simp] theorem nu_clearCounters (g : GroupId) (s : State) : (clearCounters g s).nu = s.nu := rfl
@[simp] theorem tb_clearCounters (g : GroupId) (s : State) : (clearCounters g s).tb = s.tb := rfl
@[simp] theorem powerHold_clearCounters (g : GroupId) (s : State) : (clearCounters g s).powerHold = s.powerHold := rfl
@[simp] theorem resetLow_clearCounters (g : GroupId) (s : State) : (clearCounters g s).resetLow = s.resetLow := rfl
@[simp] theorem freeDraws_clearCounters (g : GroupId) (s : State) : (clearCounters g s).freeDraws = s.freeDraws := rfl
@[simp] theorem pending_clearCounters (g : GroupId) (s : State) : (clearCounters g s).pending = s.pending := rfl
@[simp] theorem record_clearCounters (g : GroupId) (s : State) (i' : RecordIx) : (clearCounters g s).record i' = s.record i' := rfl
@[simp] theorem point_clearCounters (g : GroupId) (s : State) (p' : PointId) : (clearCounters g s).point p' = s.point p' := rfl
@[simp] theorem governor_clearCounters (g : GroupId) (s : State) (g' : GroupId) : (clearCounters g s).governor g' = s.governor g' := rfl
@[simp] theorem side_clearCounters (g : GroupId) (s : State) (d' : Side) : (clearCounters g s).side d' = s.side d' := rfl
@[simp] theorem key_clearCounters (g : GroupId) (s : State) (k' : PointKey) : (clearCounters g s).key k' = s.key k' := rfl
@[simp] theorem noticeSet_clearCounters (g : GroupId) (s : State) (n' : Notice) : (clearCounters g s).noticeSet n' = s.noticeSet n' := rfl
@[simp] theorem inHold_clearCounters (g : GroupId) (s : State) : (clearCounters g s).inHold = s.inHold := rfl

/-! ### advanceTime -/

@[simp] theorem rt_advanceTime (s : State) : (advanceTime s).rt = s.rt := rfl
@[simp] theorem pt_advanceTime (s : State) : (advanceTime s).pt = s.pt := rfl
@[simp] theorem cs_advanceTime (s : State) : (advanceTime s).cs = s.cs := rfl
@[simp] theorem sg_advanceTime (s : State) : (advanceTime s).sg = s.sg := rfl
@[simp] theorem gc_advanceTime (s : State) : (advanceTime s).gc = s.gc := rfl
@[simp] theorem rr_advanceTime (s : State) : (advanceTime s).rr = s.rr := rfl
@[simp] theorem lp_advanceTime (s : State) : (advanceTime s).lp = s.lp := rfl
@[simp] theorem nu_advanceTime (s : State) : (advanceTime s).nu = s.nu := rfl
@[simp] theorem powerHold_advanceTime (s : State) : (advanceTime s).powerHold = s.powerHold := rfl
@[simp] theorem resetLow_advanceTime (s : State) : (advanceTime s).resetLow = s.resetLow := rfl
@[simp] theorem freeDraws_advanceTime (s : State) : (advanceTime s).freeDraws = s.freeDraws := rfl
@[simp] theorem pending_advanceTime (s : State) : (advanceTime s).pending = s.pending := rfl
@[simp] theorem tb_mode_advanceTime (s : State) : (advanceTime s).tb.mode = s.tb.mode := rfl
@[simp] theorem tb_settle_advanceTime (s : State) : (advanceTime s).tb.settle = s.tb.settle := rfl
@[simp] theorem tb_wakeLevel_advanceTime (s : State) : (advanceTime s).tb.wakeLevel = s.tb.wakeLevel := rfl
@[simp] theorem tb_wakeRecord_advanceTime (s : State) : (advanceTime s).tb.wakeRecord = s.tb.wakeRecord := rfl
@[simp] theorem record_advanceTime (s : State) (i' : RecordIx) : (advanceTime s).record i' = s.record i' := rfl
@[simp] theorem point_advanceTime (s : State) (p' : PointId) : (advanceTime s).point p' = s.point p' := rfl
@[simp] theorem governor_advanceTime (s : State) (g' : GroupId) : (advanceTime s).governor g' = s.governor g' := rfl
@[simp] theorem counters_advanceTime (s : State) (g' : GroupId) : (advanceTime s).counters g' = s.counters g' := rfl
@[simp] theorem side_advanceTime (s : State) (d' : Side) : (advanceTime s).side d' = s.side d' := rfl
@[simp] theorem key_advanceTime (s : State) (k' : PointKey) : (advanceTime s).key k' = s.key k' := rfl
@[simp] theorem noticeSet_advanceTime (s : State) (n' : Notice) : (advanceTime s).noticeSet n' = s.noticeSet n' := rfl
@[simp] theorem inHold_advanceTime (s : State) : (advanceTime s).inHold = s.inHold := rfl

/-! ### putSide -/

@[simp] theorem rt_putSide (d : Side) (x : SideState) (s : State) : (putSide d x s).rt = s.rt := by cases d <;> rfl
@[simp] theorem pt_putSide (d : Side) (x : SideState) (s : State) : (putSide d x s).pt = s.pt := by cases d <;> rfl
@[simp] theorem cs_putSide (d : Side) (x : SideState) (s : State) : (putSide d x s).cs = s.cs := by cases d <;> rfl
@[simp] theorem sg_putSide (d : Side) (x : SideState) (s : State) : (putSide d x s).sg = s.sg := by cases d <;> rfl
@[simp] theorem gc_putSide (d : Side) (x : SideState) (s : State) : (putSide d x s).gc = s.gc := by cases d <;> rfl
@[simp] theorem lp_putSide (d : Side) (x : SideState) (s : State) : (putSide d x s).lp = s.lp := by cases d <;> rfl
@[simp] theorem nu_putSide (d : Side) (x : SideState) (s : State) : (putSide d x s).nu = s.nu := by cases d <;> rfl
@[simp] theorem tb_putSide (d : Side) (x : SideState) (s : State) : (putSide d x s).tb = s.tb := by cases d <;> rfl
@[simp] theorem powerHold_putSide (d : Side) (x : SideState) (s : State) : (putSide d x s).powerHold = s.powerHold := by cases d <;> rfl
@[simp] theorem resetLow_putSide (d : Side) (x : SideState) (s : State) : (putSide d x s).resetLow = s.resetLow := by cases d <;> rfl
@[simp] theorem freeDraws_putSide (d : Side) (x : SideState) (s : State) : (putSide d x s).freeDraws = s.freeDraws := by cases d <;> rfl
@[simp] theorem pending_putSide (d : Side) (x : SideState) (s : State) : (putSide d x s).pending = s.pending := by cases d <;> rfl
@[simp] theorem rr_address_putSide (d : Side) (x : SideState) (s : State) : (putSide d x s).rr.address = s.rr.address := by cases d <;> rfl
@[simp] theorem record_putSide (d : Side) (x : SideState) (s : State) (i' : RecordIx) : (putSide d x s).record i' = s.record i' := by cases d <;> rfl
@[simp] theorem point_putSide (d : Side) (x : SideState) (s : State) (p' : PointId) : (putSide d x s).point p' = s.point p' := by cases d <;> rfl
@[simp] theorem governor_putSide (d : Side) (x : SideState) (s : State) (g' : GroupId) : (putSide d x s).governor g' = s.governor g' := by cases d <;> rfl
@[simp] theorem counters_putSide (d : Side) (x : SideState) (s : State) (g' : GroupId) : (putSide d x s).counters g' = s.counters g' := by cases d <;> rfl
@[simp] theorem key_putSide (d : Side) (x : SideState) (s : State) (k' : PointKey) : (putSide d x s).key k' = s.key k' := by cases d <;> rfl
@[simp] theorem noticeSet_putSide (d : Side) (x : SideState) (s : State) (n' : Notice) : (putSide d x s).noticeSet n' = s.noticeSet n' := by cases d <;> rfl
@[simp] theorem inHold_putSide (d : Side) (x : SideState) (s : State) : (putSide d x s).inHold = s.inHold := by cases d <;> rfl

/-! ### countLink -/

@[simp] theorem rt_countLink (d : Side) (w : LinkCounter) (n : Nat) (s : State) : (countLink d w n s).rt = s.rt := by cases d <;> rfl
@[simp] theorem pt_countLink (d : Side) (w : LinkCounter) (n : Nat) (s : State) : (countLink d w n s).pt = s.pt := by cases d <;> rfl
@[simp] theorem cs_countLink (d : Side) (w : LinkCounter) (n : Nat) (s : State) : (countLink d w n s).cs = s.cs := by cases d <;> rfl
@[simp] theorem sg_countLink (d : Side) (w : LinkCounter) (n : Nat) (s : State) : (countLink d w n s).sg = s.sg := by cases d <;> rfl
@[simp] theorem gc_countLink (d : Side) (w : LinkCounter) (n : Nat) (s : State) : (countLink d w n s).gc = s.gc := by cases d <;> rfl
@[simp] theorem lp_countLink (d : Side) (w : LinkCounter) (n : Nat) (s : State) : (countLink d w n s).lp = s.lp := by cases d <;> rfl
@[simp] theorem nu_countLink (d : Side) (w : LinkCounter) (n : Nat) (s : State) : (countLink d w n s).nu = s.nu := by cases d <;> rfl
@[simp] theorem tb_countLink (d : Side) (w : LinkCounter) (n : Nat) (s : State) : (countLink d w n s).tb = s.tb := by cases d <;> rfl
@[simp] theorem powerHold_countLink (d : Side) (w : LinkCounter) (n : Nat) (s : State) : (countLink d w n s).powerHold = s.powerHold := by cases d <;> rfl
@[simp] theorem resetLow_countLink (d : Side) (w : LinkCounter) (n : Nat) (s : State) : (countLink d w n s).resetLow = s.resetLow := by cases d <;> rfl
@[simp] theorem freeDraws_countLink (d : Side) (w : LinkCounter) (n : Nat) (s : State) : (countLink d w n s).freeDraws = s.freeDraws := by cases d <;> rfl
@[simp] theorem pending_countLink (d : Side) (w : LinkCounter) (n : Nat) (s : State) : (countLink d w n s).pending = s.pending := by cases d <;> rfl
@[simp] theorem rr_address_countLink (d : Side) (w : LinkCounter) (n : Nat) (s : State) : (countLink d w n s).rr.address = s.rr.address := by cases d <;> rfl
@[simp] theorem record_countLink (d : Side) (w : LinkCounter) (n : Nat) (s : State) (i' : RecordIx) : (countLink d w n s).record i' = s.record i' := by cases d <;> rfl
@[simp] theorem point_countLink (d : Side) (w : LinkCounter) (n : Nat) (s : State) (p' : PointId) : (countLink d w n s).point p' = s.point p' := by cases d <;> rfl
@[simp] theorem governor_countLink (d : Side) (w : LinkCounter) (n : Nat) (s : State) (g' : GroupId) : (countLink d w n s).governor g' = s.governor g' := by cases d <;> rfl
@[simp] theorem counters_countLink (d : Side) (w : LinkCounter) (n : Nat) (s : State) (g' : GroupId) : (countLink d w n s).counters g' = s.counters g' := by cases d <;> rfl
@[simp] theorem key_countLink (d : Side) (w : LinkCounter) (n : Nat) (s : State) (k' : PointKey) : (countLink d w n s).key k' = s.key k' := by cases d <;> rfl
@[simp] theorem noticeSet_countLink (d : Side) (w : LinkCounter) (n : Nat) (s : State) (n' : Notice) : (countLink d w n s).noticeSet n' = s.noticeSet n' := by cases d <;> rfl
@[simp] theorem inHold_countLink (d : Side) (w : LinkCounter) (n : Nat) (s : State) : (countLink d w n s).inHold = s.inHold := by cases d <;> rfl

/-! ### hunt -/

@[simp] theorem rt_hunt (d : Side) (s : State) : (hunt d s).rt = s.rt := by cases d <;> rfl
@[simp] theorem pt_hunt (d : Side) (s : State) : (hunt d s).pt = s.pt := by cases d <;> rfl
@[simp] theorem cs_hunt (d : Side) (s : State) : (hunt d s).cs = s.cs := by cases d <;> rfl
@[simp] theorem sg_hunt (d : Side) (s : State) : (hunt d s).sg = s.sg := by cases d <;> rfl
@[simp] theorem gc_hunt (d : Side) (s : State) : (hunt d s).gc = s.gc := by cases d <;> rfl
@[simp] theorem lp_hunt (d : Side) (s : State) : (hunt d s).lp = s.lp := by cases d <;> rfl
@[simp] theorem nu_hunt (d : Side) (s : State) : (hunt d s).nu = s.nu := by cases d <;> rfl
@[simp] theorem tb_hunt (d : Side) (s : State) : (hunt d s).tb = s.tb := by cases d <;> rfl
@[simp] theorem powerHold_hunt (d : Side) (s : State) : (hunt d s).powerHold = s.powerHold := by cases d <;> rfl
@[simp] theorem resetLow_hunt (d : Side) (s : State) : (hunt d s).resetLow = s.resetLow := by cases d <;> rfl
@[simp] theorem freeDraws_hunt (d : Side) (s : State) : (hunt d s).freeDraws = s.freeDraws := by cases d <;> rfl
@[simp] theorem pending_hunt (d : Side) (s : State) : (hunt d s).pending = s.pending := by cases d <;> rfl
@[simp] theorem rr_address_hunt (d : Side) (s : State) : (hunt d s).rr.address = s.rr.address := by cases d <;> rfl
@[simp] theorem record_hunt (d : Side) (s : State) (i' : RecordIx) : (hunt d s).record i' = s.record i' := by cases d <;> rfl
@[simp] theorem point_hunt (d : Side) (s : State) (p' : PointId) : (hunt d s).point p' = s.point p' := by cases d <;> rfl
@[simp] theorem governor_hunt (d : Side) (s : State) (g' : GroupId) : (hunt d s).governor g' = s.governor g' := by cases d <;> rfl
@[simp] theorem counters_hunt (d : Side) (s : State) (g' : GroupId) : (hunt d s).counters g' = s.counters g' := by cases d <;> rfl
@[simp] theorem key_hunt (d : Side) (s : State) (k' : PointKey) : (hunt d s).key k' = s.key k' := by cases d <;> rfl
@[simp] theorem noticeSet_hunt (d : Side) (s : State) (n' : Notice) : (hunt d s).noticeSet n' = s.noticeSet n' := by cases d <;> rfl
@[simp] theorem inHold_hunt (d : Side) (s : State) : (hunt d s).inHold = s.inHold := by cases d <;> rfl

/-! ### clearLinks -/

@[simp] theorem rt_clearLinks (s : State) : (clearLinks s).rt = s.rt := rfl
@[simp] theorem pt_clearLinks (s : State) : (clearLinks s).pt = s.pt := rfl
@[simp] theorem cs_clearLinks (s : State) : (clearLinks s).cs = s.cs := rfl
@[simp] theorem sg_clearLinks (s : State) : (clearLinks s).sg = s.sg := rfl
@[simp] theorem gc_clearLinks (s : State) : (clearLinks s).gc = s.gc := rfl
@[simp] theorem lp_clearLinks (s : State) : (clearLinks s).lp = s.lp := rfl
@[simp] theorem nu_clearLinks (s : State) : (clearLinks s).nu = s.nu := rfl
@[simp] theorem tb_clearLinks (s : State) : (clearLinks s).tb = s.tb := rfl
@[simp] theorem powerHold_clearLinks (s : State) : (clearLinks s).powerHold = s.powerHold := rfl
@[simp] theorem resetLow_clearLinks (s : State) : (clearLinks s).resetLow = s.resetLow := rfl
@[simp] theorem freeDraws_clearLinks (s : State) : (clearLinks s).freeDraws = s.freeDraws := rfl
@[simp] theorem pending_clearLinks (s : State) : (clearLinks s).pending = s.pending := rfl
@[simp] theorem rr_address_clearLinks (s : State) : (clearLinks s).rr.address = s.rr.address := rfl
@[simp] theorem rr_west_carrier_clearLinks (s : State) : (clearLinks s).rr.west.carrier = s.rr.west.carrier := rfl
@[simp] theorem rr_west_queue_clearLinks (s : State) : (clearLinks s).rr.west.queue = s.rr.west.queue := rfl
@[simp] theorem rr_west_reception_clearLinks (s : State) : (clearLinks s).rr.west.reception = s.rr.west.reception := rfl
@[simp] theorem rr_east_carrier_clearLinks (s : State) : (clearLinks s).rr.east.carrier = s.rr.east.carrier := rfl
@[simp] theorem rr_east_queue_clearLinks (s : State) : (clearLinks s).rr.east.queue = s.rr.east.queue := rfl
@[simp] theorem rr_east_reception_clearLinks (s : State) : (clearLinks s).rr.east.reception = s.rr.east.reception := rfl
@[simp] theorem record_clearLinks (s : State) (i' : RecordIx) : (clearLinks s).record i' = s.record i' := rfl
@[simp] theorem point_clearLinks (s : State) (p' : PointId) : (clearLinks s).point p' = s.point p' := rfl
@[simp] theorem governor_clearLinks (s : State) (g' : GroupId) : (clearLinks s).governor g' = s.governor g' := rfl
@[simp] theorem counters_clearLinks (s : State) (g' : GroupId) : (clearLinks s).counters g' = s.counters g' := rfl
@[simp] theorem key_clearLinks (s : State) (k' : PointKey) : (clearLinks s).key k' = s.key k' := rfl
@[simp] theorem noticeSet_clearLinks (s : State) (n' : Notice) : (clearLinks s).noticeSet n' = s.noticeSet n' := rfl
@[simp] theorem inHold_clearLinks (s : State) : (clearLinks s).inHold = s.inHold := rfl

/-! ### beginHold -/

@[simp] theorem rt_beginHold (s : State) : (beginHold s).rt = s.rt := rfl
@[simp] theorem pt_beginHold (s : State) : (beginHold s).pt = s.pt := rfl
@[simp] theorem cs_beginHold (s : State) : (beginHold s).cs = s.cs := rfl
@[simp] theorem sg_beginHold (s : State) : (beginHold s).sg = s.sg := rfl
@[simp] theorem gc_beginHold (s : State) : (beginHold s).gc = s.gc := rfl
@[simp] theorem lp_beginHold (s : State) : (beginHold s).lp = s.lp := rfl
@[simp] theorem nu_beginHold (s : State) : (beginHold s).nu = s.nu := rfl
@[simp] theorem tb_beginHold (s : State) : (beginHold s).tb = s.tb := rfl
@[simp] theorem powerHold_beginHold (s : State) : (beginHold s).powerHold = s.powerHold := rfl
@[simp] theorem resetLow_beginHold (s : State) : (beginHold s).resetLow = s.resetLow := rfl
@[simp] theorem freeDraws_beginHold (s : State) : (beginHold s).freeDraws = s.freeDraws := rfl
@[simp] theorem pending_beginHold (s : State) : (beginHold s).pending = s.pending := rfl
@[simp] theorem rr_address_beginHold (s : State) : (beginHold s).rr.address = s.rr.address := rfl
@[simp] theorem rr_west_carrier_beginHold (s : State) : (beginHold s).rr.west.carrier = s.rr.west.carrier := rfl
@[simp] theorem rr_west_queue_beginHold (s : State) : (beginHold s).rr.west.queue = s.rr.west.queue := rfl
@[simp] theorem rr_west_counters_beginHold (s : State) : (beginHold s).rr.west.counters = s.rr.west.counters := rfl
@[simp] theorem rr_east_carrier_beginHold (s : State) : (beginHold s).rr.east.carrier = s.rr.east.carrier := rfl
@[simp] theorem rr_east_queue_beginHold (s : State) : (beginHold s).rr.east.queue = s.rr.east.queue := rfl
@[simp] theorem rr_east_counters_beginHold (s : State) : (beginHold s).rr.east.counters = s.rr.east.counters := rfl
@[simp] theorem record_beginHold (s : State) (i' : RecordIx) : (beginHold s).record i' = s.record i' := rfl
@[simp] theorem point_beginHold (s : State) (p' : PointId) : (beginHold s).point p' = s.point p' := rfl
@[simp] theorem governor_beginHold (s : State) (g' : GroupId) : (beginHold s).governor g' = s.governor g' := rfl
@[simp] theorem counters_beginHold (s : State) (g' : GroupId) : (beginHold s).counters g' = s.counters g' := rfl
@[simp] theorem key_beginHold (s : State) (k' : PointKey) : (beginHold s).key k' = s.key k' := rfl
@[simp] theorem noticeSet_beginHold (s : State) (n' : Notice) : (beginHold s).noticeSet n' = s.noticeSet n' := rfl
@[simp] theorem inHold_beginHold (s : State) : (beginHold s).inHold = s.inHold := rfl

/-! ### putSlot -/

@[simp] theorem rt_putSlot (slot : Option Reply) (s : State) : (putSlot slot s).rt = s.rt := rfl
@[simp] theorem pt_putSlot (slot : Option Reply) (s : State) : (putSlot slot s).pt = s.pt := rfl
@[simp] theorem cs_putSlot (slot : Option Reply) (s : State) : (putSlot slot s).cs = s.cs := rfl
@[simp] theorem sg_putSlot (slot : Option Reply) (s : State) : (putSlot slot s).sg = s.sg := rfl
@[simp] theorem gc_putSlot (slot : Option Reply) (s : State) : (putSlot slot s).gc = s.gc := rfl
@[simp] theorem rr_putSlot (slot : Option Reply) (s : State) : (putSlot slot s).rr = s.rr := rfl
@[simp] theorem nu_putSlot (slot : Option Reply) (s : State) : (putSlot slot s).nu = s.nu := rfl
@[simp] theorem tb_putSlot (slot : Option Reply) (s : State) : (putSlot slot s).tb = s.tb := rfl
@[simp] theorem powerHold_putSlot (slot : Option Reply) (s : State) : (putSlot slot s).powerHold = s.powerHold := rfl
@[simp] theorem resetLow_putSlot (slot : Option Reply) (s : State) : (putSlot slot s).resetLow = s.resetLow := rfl
@[simp] theorem freeDraws_putSlot (slot : Option Reply) (s : State) : (putSlot slot s).freeDraws = s.freeDraws := rfl
@[simp] theorem pending_putSlot (slot : Option Reply) (s : State) : (putSlot slot s).pending = s.pending := rfl
@[simp] theorem lp_lsdo_putSlot (slot : Option Reply) (s : State) : (putSlot slot s).lp.lsdo = s.lp.lsdo := rfl
@[simp] theorem record_putSlot (slot : Option Reply) (s : State) (i' : RecordIx) : (putSlot slot s).record i' = s.record i' := rfl
@[simp] theorem point_putSlot (slot : Option Reply) (s : State) (p' : PointId) : (putSlot slot s).point p' = s.point p' := rfl
@[simp] theorem governor_putSlot (slot : Option Reply) (s : State) (g' : GroupId) : (putSlot slot s).governor g' = s.governor g' := rfl
@[simp] theorem counters_putSlot (slot : Option Reply) (s : State) (g' : GroupId) : (putSlot slot s).counters g' = s.counters g' := rfl
@[simp] theorem side_putSlot (slot : Option Reply) (s : State) (d' : Side) : (putSlot slot s).side d' = s.side d' := rfl
@[simp] theorem key_putSlot (slot : Option Reply) (s : State) (k' : PointKey) : (putSlot slot s).key k' = s.key k' := rfl
@[simp] theorem noticeSet_putSlot (slot : Option Reply) (s : State) (n' : Notice) : (putSlot slot s).noticeSet n' = s.noticeSet n' := rfl
@[simp] theorem inHold_putSlot (slot : Option Reply) (s : State) : (putSlot slot s).inHold = s.inHold := rfl

/-! ### shiftSlot -/

@[simp] theorem rt_shiftSlot (n : Nat) (s : State) : (shiftSlot n s).rt = s.rt := rfl
@[simp] theorem pt_shiftSlot (n : Nat) (s : State) : (shiftSlot n s).pt = s.pt := rfl
@[simp] theorem cs_shiftSlot (n : Nat) (s : State) : (shiftSlot n s).cs = s.cs := rfl
@[simp] theorem sg_shiftSlot (n : Nat) (s : State) : (shiftSlot n s).sg = s.sg := rfl
@[simp] theorem gc_shiftSlot (n : Nat) (s : State) : (shiftSlot n s).gc = s.gc := rfl
@[simp] theorem rr_shiftSlot (n : Nat) (s : State) : (shiftSlot n s).rr = s.rr := rfl
@[simp] theorem nu_shiftSlot (n : Nat) (s : State) : (shiftSlot n s).nu = s.nu := rfl
@[simp] theorem tb_shiftSlot (n : Nat) (s : State) : (shiftSlot n s).tb = s.tb := rfl
@[simp] theorem powerHold_shiftSlot (n : Nat) (s : State) : (shiftSlot n s).powerHold = s.powerHold := rfl
@[simp] theorem resetLow_shiftSlot (n : Nat) (s : State) : (shiftSlot n s).resetLow = s.resetLow := rfl
@[simp] theorem freeDraws_shiftSlot (n : Nat) (s : State) : (shiftSlot n s).freeDraws = s.freeDraws := rfl
@[simp] theorem pending_shiftSlot (n : Nat) (s : State) : (shiftSlot n s).pending = s.pending := rfl
@[simp] theorem lp_slot_shiftSlot (n : Nat) (s : State) : (shiftSlot n s).lp.slot = s.lp.slot := rfl
@[simp] theorem record_shiftSlot (n : Nat) (s : State) (i' : RecordIx) : (shiftSlot n s).record i' = s.record i' := rfl
@[simp] theorem point_shiftSlot (n : Nat) (s : State) (p' : PointId) : (shiftSlot n s).point p' = s.point p' := rfl
@[simp] theorem governor_shiftSlot (n : Nat) (s : State) (g' : GroupId) : (shiftSlot n s).governor g' = s.governor g' := rfl
@[simp] theorem counters_shiftSlot (n : Nat) (s : State) (g' : GroupId) : (shiftSlot n s).counters g' = s.counters g' := rfl
@[simp] theorem side_shiftSlot (n : Nat) (s : State) (d' : Side) : (shiftSlot n s).side d' = s.side d' := rfl
@[simp] theorem key_shiftSlot (n : Nat) (s : State) (k' : PointKey) : (shiftSlot n s).key k' = s.key k' := rfl
@[simp] theorem noticeSet_shiftSlot (n : Nat) (s : State) (n' : Notice) : (shiftSlot n s).noticeSet n' = s.noticeSet n' := rfl
@[simp] theorem inHold_shiftSlot (n : Nat) (s : State) : (shiftSlot n s).inHold = s.inHold := rfl

/-! ### readNotices -/

@[simp] theorem rt_readNotices (s : State) : (readNotices s).rt = s.rt := rfl
@[simp] theorem pt_readNotices (s : State) : (readNotices s).pt = s.pt := rfl
@[simp] theorem cs_readNotices (s : State) : (readNotices s).cs = s.cs := rfl
@[simp] theorem sg_readNotices (s : State) : (readNotices s).sg = s.sg := rfl
@[simp] theorem gc_readNotices (s : State) : (readNotices s).gc = s.gc := rfl
@[simp] theorem rr_readNotices (s : State) : (readNotices s).rr = s.rr := rfl
@[simp] theorem lp_readNotices (s : State) : (readNotices s).lp = s.lp := rfl
@[simp] theorem tb_readNotices (s : State) : (readNotices s).tb = s.tb := rfl
@[simp] theorem powerHold_readNotices (s : State) : (readNotices s).powerHold = s.powerHold := rfl
@[simp] theorem resetLow_readNotices (s : State) : (readNotices s).resetLow = s.resetLow := rfl
@[simp] theorem freeDraws_readNotices (s : State) : (readNotices s).freeDraws = s.freeDraws := rfl
@[simp] theorem pending_readNotices (s : State) : (readNotices s).pending = s.pending := rfl
@[simp] theorem nu_enables_readNotices (s : State) : (readNotices s).nu.enables = s.nu.enables := rfl
@[simp] theorem nu_level_readNotices (s : State) : (readNotices s).nu.level = s.nu.level := rfl
@[simp] theorem record_readNotices (s : State) (i' : RecordIx) : (readNotices s).record i' = s.record i' := rfl
@[simp] theorem point_readNotices (s : State) (p' : PointId) : (readNotices s).point p' = s.point p' := rfl
@[simp] theorem governor_readNotices (s : State) (g' : GroupId) : (readNotices s).governor g' = s.governor g' := rfl
@[simp] theorem counters_readNotices (s : State) (g' : GroupId) : (readNotices s).counters g' = s.counters g' := rfl
@[simp] theorem side_readNotices (s : State) (d' : Side) : (readNotices s).side d' = s.side d' := rfl
@[simp] theorem key_readNotices (s : State) (k' : PointKey) : (readNotices s).key k' = s.key k' := rfl
@[simp] theorem inHold_readNotices (s : State) : (readNotices s).inHold = s.inHold := rfl

/-! ### What each update writes -/

@[simp] theorem record_putRecord (i j : RecordIx) (r : Record) (s : State) :
    (putRecord i r s).record j = if i = j then r else s.record j := vget_vset _ _ _ _

@[simp] theorem point_putPoint (p q : PointId) (e : PointEntry) (s : State) :
    (putPoint p e s).point q = if p = q then e else s.point q := vget_vset _ _ _ _

@[simp] theorem governor_putGovernor (g h : GroupId) (x : Governor) (s : State) :
    (putGovernor g x s).governor h = if g = h then x else s.governor h := vget_vset _ _ _ _

theorem point_putKey (k : PointKey) (q : PointId) (e : KeyEntry) (s : State) :
    (putKey k e s).point q =
      if k.point = q then { s.point k.point with keys := (s.point k.point).keys.set k.kind e } else s.point q :=
  vget_vset _ _ _ _

/-- A key write changes that key alone. -/
@[simp] theorem key_putKey (k k' : PointKey) (e : KeyEntry) (s : State) :
    (putKey k e s).key k' = if k = k' then e else s.key k' := by
  obtain ⟨p, kind⟩ := k
  obtain ⟨q, kind'⟩ := k'
  simp only [State.key, point_putKey, PointKey.mk.injEq]
  by_cases h : p = q
  · subst h
    simp only [if_true, true_and, keys_get_set]
  · simp only [h, if_false, false_and]

@[simp] theorem key_putPoint (p : PointId) (e : PointEntry) (s : State) (k : PointKey) :
    (putPoint p e s).key k = if p = k.point then e.keys.get k.kind else s.key k := by
  simp only [State.key, point_putPoint]
  split <;> rfl

/-- A key write leaves the rest of every entry. -/
@[simp] theorem point_putKey_defn (k : PointKey) (e : KeyEntry) (s : State) (q : PointId) :
    ((putKey k e s).point q).defn = (s.point q).defn := by
  rw [point_putKey]; split
  · next h => rw [← h]
  · rfl

@[simp] theorem point_putKey_lowBucket (k : PointKey) (e : KeyEntry) (s : State) (q : PointId) :
    ((putKey k e s).point q).lowBucket = (s.point q).lowBucket := by
  rw [point_putKey]; split
  · next h => rw [← h]
  · rfl

@[simp] theorem point_putKey_highBucket (k : PointKey) (e : KeyEntry) (s : State) (q : PointId) :
    ((putKey k e s).point q).highBucket = (s.point q).highBucket := by
  rw [point_putKey]; split
  · next h => rw [← h]
  · rfl

@[simp] theorem point_putKey_stale (k : PointKey) (e : KeyEntry) (s : State) (q : PointId) :
    ((putKey k e s).point q).stale = (s.point q).stale := by
  rw [point_putKey]; split
  · next h => rw [← h]
  · rfl

@[simp] theorem point_putKey_shelve (k : PointKey) (e : KeyEntry) (s : State) (q : PointId) :
    ((putKey k e s).point q).shelve = (s.point q).shelve := by
  rw [point_putKey]; split
  · next h => rw [← h]
  · rfl

@[simp] theorem groupOf_putKey (k : PointKey) (e : KeyEntry) (s : State) (k' : PointKey) :
    (putKey k e s).groupOf k' = s.groupOf k' := by
  simp only [State.groupOf, point_putKey_defn]

@[simp] theorem shelved_putKey (k : PointKey) (e : KeyEntry) (s : State) (p : PointId) :
    (putKey k e s).shelved p = s.shelved p := by
  simp only [State.shelved, point_putKey_shelve]

@[simp] theorem changeCount_advance (n : Nat) (s : State) :
    (advance n s).rt.changeCount = s.rt.changeCount + BitVec.ofNat 16 n := rfl

@[simp] theorem flags_setNotice (n : Notice) (s : State) : (setNotice n s).nu.flags = s.nu.flags ||| n.mask := rfl

@[simp] theorem side_putSide (d d' : Side) (x : SideState) (s : State) :
    (putSide d x s).side d' = if d = d' then x else s.side d' := by
  cases d <;> cases d' <;> rfl

@[simp] theorem side_countLink (d d' : Side) (w : LinkCounter) (n : Nat) (s : State) :
    (countLink d w n s).side d' = if d = d' then { s.side d with counters := (s.side d).counters.add w n } else s.side d' := by
  cases d <;> cases d' <;> rfl

@[simp] theorem side_hunt (d d' : Side) (s : State) :
    (hunt d s).side d' = if d = d' then { s.side d with reception := [] } else s.side d' := by
  cases d <;> cases d' <;> rfl

@[simp] theorem slot_putSlot (slot : Option Reply) (s : State) : (putSlot slot s).lp.slot = slot := rfl

@[simp] theorem mode_enterWatch (s : State) : (enterWatch s).tb.mode = .watch := rfl

@[simp] theorem settle_enterWatch (s : State) : (enterWatch s).tb.settle = none := rfl

@[simp] theorem point_enterWatch (s : State) (p : PointId) : (enterWatch s).point p = (s.point p).reloadStale :=
  vget_vmap _ _ _

@[simp] theorem wakeRecord_writeWakeRecord (c : WakeCause) (s : State) :
    (writeWakeRecord c s).tb.wakeRecord = some { cause := c, time := s.tb.hutTime } := rfl

@[simp] theorem hutTime_advanceTime (s : State) : (advanceTime s).tb.hutTime = s.tb.hutTime + 1#32 := rfl

/-- A reload of the stale countdowns leaves the rest of an entry. -/
theorem reloadStale_rest (e : PointEntry) :
    e.reloadStale.defn = e.defn ∧ e.reloadStale.keys = e.keys ∧ e.reloadStale.lowBucket = e.lowBucket ∧
      e.reloadStale.highBucket = e.highBucket ∧ e.reloadStale.shelve = e.shelve := by
  unfold PointEntry.reloadStale
  split <;> exact ⟨rfl, rfl, rfl, rfl, rfl⟩

/-- A reload changes a stale countdown above 0 alone, to the interval of the point (R66). -/
theorem reloadStale_stale (e : PointEntry) :
    e.reloadStale.stale =
      match e.defn, e.stale with
      | some d, some (_ + 1) => some d.staleInterval
      | _, _ => e.stale := by
  obtain ⟨defn, keys, lo, hi, stale, shelve⟩ := e
  cases defn <;> cases stale <;> try rfl
  next d n => cases n <;> rfl

end Sys2Proof.Machine
end

