-- ==== Sys2Proof/Laws/Frames.lean ====
section
/-! SUPPORT. What the mechanisms of the condition table leave alone, said once for each operation: relay, local port, sampled
levels, holds, the model's own fields, enables and levels, hut time. -/

namespace Sys2Proof.Machine

theorem rr_of_outside {s t : State} (h : t.outside = s.outside) : t.rr = s.rr := congrArg Outside.rr h

theorem lp_of_outside {s t : State} (h : t.outside = s.outside) : t.lp = s.lp := congrArg Outside.lp h

theorem cs_of_outside {s t : State} (h : t.outside = s.outside) : t.cs = s.cs := congrArg Outside.cs h

theorem powerHold_of_outside {s t : State} (h : t.outside = s.outside) : t.powerHold = s.powerHold := congrArg Outside.powerHold h

theorem resetLow_of_outside {s t : State} (h : t.outside = s.outside) : t.resetLow = s.resetLow := congrArg Outside.resetLow h

theorem freeDraws_of_outside {s t : State} (h : t.outside = s.outside) : t.freeDraws = s.freeDraws := congrArg Outside.freeDraws h

theorem pending_of_outside {s t : State} (h : t.outside = s.outside) : t.pending = s.pending := congrArg Outside.pending h

theorem enables_of_outside {s t : State} (h : t.outside = s.outside) : t.nu.enables = s.nu.enables := congrArg Outside.enables h

theorem level_of_outside {s t : State} (h : t.outside = s.outside) : t.nu.level = s.nu.level := congrArg Outside.level h

theorem hutTime_of_outside {s t : State} (h : t.outside = s.outside) : t.tb.hutTime = s.tb.hutTime := congrArg Outside.hutTime h

theorem wakeLevel_of_outside {s t : State} (h : t.outside = s.outside) : t.tb.wakeLevel = s.tb.wakeLevel :=
  congrArg Outside.wakeLevel h

theorem inHold_of_outside {s t : State} (h : t.outside = s.outside) : t.inHold = s.inHold := by
  simp only [State.inHold, powerHold_of_outside h, resetLow_of_outside h]

theorem side_of_outside {s t : State} (h : t.outside = s.outside) (d : Side) : t.side d = s.side d := by
  cases d <;> simp only [State.side, rr_of_outside h]

theorem carrierLost_of_outside {s t : State} (h : t.outside = s.outside) : t.carrierLost = s.carrierLost := by
  simp only [State.carrierLost, rr_of_outside h]

/-- A fold of operations that each keep what is outside keeps it. -/
theorem outside_foldl {α : Type} (f : State → α → State) (h : ∀ s a, (f s a).outside = s.outside) (l : List α) (s : State) :
    (l.foldl f s).outside = s.outside := by
  induction l generalizing s with
  | nil => rfl
  | cons a l ih => rw [List.foldl_cons, ih, h]

/-! ## Updates -/

@[simp] theorem outside_putRecord (i : RecordIx) (r : Record) (s : State) : (putRecord i r s).outside = s.outside := rfl

@[simp] theorem outside_putPoint (p : PointId) (e : PointEntry) (s : State) : (putPoint p e s).outside = s.outside := rfl

@[simp] theorem outside_putKey (k : PointKey) (e : KeyEntry) (s : State) : (putKey k e s).outside = s.outside := rfl

@[simp] theorem outside_putGovernor (g : GroupId) (x : Governor) (s : State) : (putGovernor g x s).outside = s.outside := rfl

@[simp] theorem outside_advance (n : Nat) (s : State) : (advance n s).outside = s.outside := rfl

@[simp] theorem outside_setNotice (n : Notice) (s : State) : (setNotice n s).outside = s.outside := rfl

@[simp] theorem outside_toStanding (i : RecordIx) (s : State) : (toStanding i s).outside = s.outside := rfl

@[simp] theorem outside_toAcknowledged (i : RecordIx) (s : State) : (toAcknowledged i s).outside = s.outside := rfl

@[simp] theorem outside_toCleared (i : RecordIx) (s : State) : (toCleared i s).outside = s.outside := rfl

@[simp] theorem outside_offLists (i : RecordIx) (s : State) : (offLists i s).outside = s.outside := rfl

@[simp] theorem outside_toFree (i : RecordIx) (s : State) : (toFree i s).outside = s.outside := rfl

@[simp] theorem outside_countEvent (e : TableEvent) (s : State) : (countEvent e s).outside = s.outside := rfl

@[simp] theorem outside_enterWatch (s : State) : (enterWatch s).outside = s.outside := rfl

@[simp] theorem outside_writeWakeRecord (c : WakeCause) (s : State) : (writeWakeRecord c s).outside = s.outside := rfl

@[simp] theorem outside_readNotices (s : State) : (readNotices s).outside = s.outside := rfl

@[simp] theorem outside_clearCounters (g : GroupId) (s : State) : (clearCounters g s).outside = s.outside := rfl

@[simp] theorem outside_putCounter (g : GroupId) (j : Fin 4) (c : Counter) (s : State) : (putCounter g j c s).outside = s.outside := rfl

@[simp] theorem outside_withRt (rt : RecordTable) (s : State) : ({ s with rt } : State).outside = s.outside := rfl

@[simp] theorem outside_withPt (pt : Vector PointEntry 64) (s : State) : ({ s with pt } : State).outside = s.outside := rfl

@[simp] theorem outside_withMode (m : Mode) (s : State) :
    ({ s with tb := { s.tb with mode := m } } : State).outside = s.outside := rfl

@[simp] theorem outside_withModeSettle (m : Mode) (c : Option Nat) (s : State) :
    ({ s with tb := { s.tb with mode := m, settle := c } } : State).outside = s.outside := rfl

@[simp] theorem outside_withSettle (c : Option Nat) (s : State) :
    ({ s with tb := { s.tb with settle := c } } : State).outside = s.outside := rfl

@[simp] theorem outside_quietKey (k : Key) (s : State) : (quietKey k s).outside = s.outside := by
  cases k <;> rfl

@[simp] theorem outside_putLinkedState (x : KeyState) (k : Key) (s : State) : (putLinkedState x k s).outside = s.outside := by
  cases k <;> rfl

/-! ## Table events, wake causes, offers -/

@[simp] theorem outside_wakeCause (c : WakeCause) (s : State) : (wakeCause c s).outside = s.outside := by
  unfold wakeCause
  try dsimp only
  (repeat' split) <;> simp

@[simp] theorem outside_judgeWake (i : RecordIx) (sev : Severity) (b : Bool) (s : State) : (judgeWake i sev b s).outside = s.outside := by
  unfold judgeWake
  try dsimp only
  (repeat' split) <;> simp

@[simp] theorem outside_raisedNotice (sev : Severity) (b : Bool) (s : State) : (raisedNotice sev b s).outside = s.outside := by
  unfold raisedNotice
  try dsimp only
  (repeat' split) <;> simp

@[simp] theorem outside_noticeEvent (e : TableEvent) (s : State) : (noticeEvent e s).outside = s.outside := by
  unfold noticeEvent
  try dsimp only
  (repeat' split) <;> simp

@[simp] theorem outside_wakeEvent (e : TableEvent) (s : State) : (wakeEvent e s).outside = s.outside := by
  unfold wakeEvent
  try dsimp only
  (repeat' split) <;> simp

@[simp] theorem outside_issue (e : TableEvent) (s : State) : (issue e s).outside = s.outside := by
  simp [issue]

@[simp] theorem outside_unshelveOffers (p : PointId) (s : State) : (unshelveOffers p s).outside = s.outside := by
  unfold unshelveOffers
  exact outside_foldl _ (fun _ _ => by simp) _ s

/-! ## Records -/

@[simp] theorem outside_allocate (i : RecordIx) (k : PointKey) (v : Pending) (s : State) : (allocate i k v s).outside = s.outside := by
  simp [allocate]

@[simp] theorem outside_joinPoolWait (k : PointKey) (v : Pending) (s : State) : (joinPoolWait k v s).outside = s.outside := by
  simp [joinPoolWait]

@[simp] theorem outside_allocateOrWait (k : PointKey) (v : Pending) (s : State) : (allocateOrWait k v s).outside = s.outside := by
  unfold allocateOrWait
  try dsimp only
  (repeat' split) <;> simp

@[simp] theorem outside_handOver (i : RecordIx) (k : PointKey) (rest : List PointKey) (s : State) : (handOver i k rest s).outside = s.outside := by
  simp [handOver]

@[simp] theorem outside_serveFreed (i : RecordIx) (s : State) : (serveFreed i s).outside = s.outside := by
  unfold serveFreed
  try dsimp only
  (repeat' split) <;> simp

@[simp] theorem outside_retire (i : RecordIx) (s : State) : (retire i s).outside = s.outside := by
  unfold retire
  try dsimp only
  (repeat' split) <;> simp

@[simp] theorem outside_issueCleared (i : RecordIx) (k : Key) (s : State) : (issueCleared i k s).outside = s.outside := by
  simp [issueCleared]

@[simp] theorem outside_clearSelfRetiring (i : RecordIx) (s : State) : (clearSelfRetiring i s).outside = s.outside := by
  unfold clearSelfRetiring
  try dsimp only
  (repeat' split) <;> simp

@[simp] theorem outside_clearLatched (i : RecordIx) (s : State) : (clearLatched i s).outside = s.outside := by
  unfold clearLatched
  try dsimp only
  (repeat' split) <;> simp

@[simp] theorem outside_reRaise (i : RecordIx) (s : State) : (reRaise i s).outside = s.outside := by
  unfold reRaise
  try dsimp only
  (repeat' split) <;> simp

@[simp] theorem outside_stormRaise (g : GroupId) (s : State) : (stormRaise g s).outside = s.outside := by
  unfold stormRaise
  try dsimp only
  (repeat' split) <;> simp

@[simp] theorem outside_peakUpdate (i : RecordIx) (v : Half) (s : State) : (peakUpdate i v s).outside = s.outside := by
  unfold peakUpdate
  try dsimp only
  (repeat' split) <;> simp

@[simp] theorem outside_acknowledgeRecord (i : RecordIx) (who : AckBy) (tag : Half) (s : State) : (acknowledgeRecord i who tag s).outside = s.outside := by
  unfold acknowledgeRecord
  try dsimp only
  (repeat' split) <;> simp

/-! ## Governors -/

@[simp] theorem outside_holdKey (k : PointKey) (v : Pending) (s : State) : (holdKey k v s).outside = s.outside := by
  simp [holdKey]

@[simp] theorem outside_stormFold (g : GroupId) (s : State) : (stormFold g s).outside = s.outside := by
  simp [stormFold]

@[simp] theorem outside_foldKey (k : PointKey) (sev : Severity) (s : State) : (foldKey k sev s).outside = s.outside := by
  simp [foldKey]

@[simp] theorem outside_divert (k : PointKey) (v : Pending) (s : State) : (divert k v s).outside = s.outside := by
  unfold divert
  try dsimp only
  (repeat' split) <;> simp

@[simp] theorem outside_closeGovernor (g : GroupId) (s : State) : (closeGovernor g s).outside = s.outside := by
  simp [closeGovernor]

@[simp] theorem outside_governAttempt (k : PointKey) (v : Pending) (s : State) : (governAttempt k v s).outside = s.outside := by
  unfold governAttempt
  try dsimp only
  (repeat' split) <;> simp

@[simp] theorem outside_stormClearIfDue (g : GroupId) (s : State) : (stormClearIfDue g s).outside = s.outside := by
  unfold stormClearIfDue
  try dsimp only
  (repeat' split) <;> simp

@[simp] theorem outside_releaseKey (g : GroupId) (k : PointKey) (rest : List PointKey) (s : State) : (releaseKey g k rest s).outside = s.outside := by
  unfold releaseKey
  try dsimp only
  (repeat' split) <;> (simp; try rfl)

@[simp] theorem outside_releaseLoop (g : GroupId) (n : Nat) (s : State) : (releaseLoop g n s).outside = s.outside := by
  induction n generalizing s with
  | zero => rfl
  | succ n ih =>
    unfold releaseLoop
    (repeat' split) <;> simp [ih]

@[simp] theorem outside_releaseStep (g : GroupId) (s : State) : (releaseStep g s).outside = s.outside := by
  simp [releaseStep]

@[simp] theorem outside_reopen (g : GroupId) (s : State) : (reopen g s).outside = s.outside := by
  unfold reopen
  try dsimp only
  (repeat' split) <;> simp

@[simp] theorem outside_releaseIfOpen (g : GroupId) (s : State) : (releaseIfOpen g s).outside = s.outside := by
  unfold releaseIfOpen
  try dsimp only
  (repeat' split) <;> simp

@[simp] theorem outside_refillGovernor (g : GroupId) (s : State) : (refillGovernor g s).outside = s.outside := by
  simp [refillGovernor]

@[simp] theorem outside_defineGovernor (g : GroupId) (d : GovernorDef) (s : State) : (defineGovernor g d s).outside = s.outside := by
  simp [defineGovernor]

/-! ## Raising, clearing, samples -/

@[simp] theorem outside_raiseAttempt (k : PointKey) (v : Pending) (s : State) : (raiseAttempt k v s).outside = s.outside := by
  unfold raiseAttempt
  try dsimp only
  (repeat' split) <;> simp

@[simp] theorem outside_beginCondition (k : PointKey) (d : Definition) (v : Option Half) (s : State) : (beginCondition k d v s).outside = s.outside := by
  unfold beginCondition
  try dsimp only
  (repeat' split) <;> simp

@[simp] theorem outside_absorbHeld (k : PointKey) (s : State) : (absorbHeld k s).outside = s.outside := by
  simp [absorbHeld]

@[simp] theorem outside_absorbWaiting (k : PointKey) (s : State) : (absorbWaiting k s).outside = s.outside := by
  simp [absorbWaiting]

@[simp] theorem outside_absorbFolded (k : PointKey) (d : Definition) (s : State) : (absorbFolded k d s).outside = s.outside := by
  simp [absorbFolded]

@[simp] theorem outside_clearEvent (k : PointKey) (d : Definition) (s : State) : (clearEvent k d s).outside = s.outside := by
  unfold clearEvent
  try dsimp only
  (repeat' split) <;> simp

@[simp] theorem outside_offerPeak (k : PointKey) (v : Half) (s : State) : (offerPeak k v s).outside = s.outside := by
  unfold offerPeak
  try dsimp only
  (repeat' split) <;> simp

@[simp] theorem outside_verdict (k : PointKey) (d : Definition) (b : Band) (n : Nat) (v : Half) (s : State) : (verdict k d b n v s).outside = s.outside := by
  unfold verdict
  try dsimp only
  (repeat' split) <;> simp

@[simp] theorem outside_applySample (k : PointKey) (v : Half) (s : State) : (applySample k v s).outside = s.outside := by
  unfold applySample
  try dsimp only
  (repeat' split) <;> simp

@[simp] theorem outside_staleStep (p : PointId) (d : Definition) (s : State) : (staleStep p d s).outside = s.outside := by
  simp [staleStep]

@[simp] theorem outside_faultStep (p : PointId) (d : Definition) (m : Bool) (s : State) : (faultStep p d m s).outside = s.outside := by
  unfold faultStep
  try dsimp only
  (repeat' split) <;> simp

@[simp] theorem outside_applyReading (p : PointId) (d : Definition) (m : Bool) (v : Half) (s : State) : (applyReading p d m v s).outside = s.outside := by
  unfold applyReading
  try dsimp only
  (repeat' split) <;> simp

@[simp] theorem outside_staleExpire (p : PointId) (s : State) : (staleExpire p s).outside = s.outside := by
  unfold staleExpire
  try dsimp only
  (repeat' split) <;> simp

@[simp] theorem outside_lowerStale (p : PointId) (s : State) : (lowerStale p s).outside = s.outside := by
  unfold lowerStale
  try dsimp only
  (repeat' split) <;> simp

@[simp] theorem outside_scanPoint (s : State) (p : PointId) : (scanPoint s p).outside = s.outside := by
  unfold scanPoint
  split <;> simp

/-! ## Points and ticks -/

@[simp] theorem outside_takeReading (acc : State × Nat × Nat) (r : PointId × Bool × Half) :
    (takeReading acc r).1.outside = acc.1.outside := by
  unfold takeReading
  split <;> simp

theorem outside_takeReadings (l : List (PointId × Bool × Half)) (acc : State × Nat × Nat) :
    (l.foldl takeReading acc).1.outside = acc.1.outside := by
  induction l generalizing acc with
  | nil => rfl
  | cons a l ih => rw [List.foldl_cons, ih, outside_takeReading]

@[simp] theorem outside_dropPending (p : PointId) (s : State) (kind : Kind) : (dropPending p s kind).outside = s.outside := by
  unfold dropPending
  dsimp only
  split <;> simp

@[simp] theorem outside_retireLinked (p : PointId) (acc : State × Nat) (kind : Kind) :
    (retireLinked p acc kind).1.outside = acc.1.outside := by
  unfold retireLinked
  dsimp only
  split <;> simp

@[simp] theorem outside_withdraw (p : PointId) (s : State) : (withdraw p s).1.outside = s.outside := by
  simp [withdraw, allKinds]

@[simp] theorem outside_unshelve (p : PointId) (s : State) : (unshelve p s).outside = s.outside := by
  simp [unshelve]

@[simp] theorem outside_shelveExpire (p : PointId) (s : State) : (shelveExpire p s).outside = s.outside := by
  simp [shelveExpire]

@[simp] theorem outside_lowerShelve (p : PointId) (s : State) : (lowerShelve p s).outside = s.outside := by
  unfold lowerShelve
  try dsimp only
  (repeat' split) <;> simp

@[simp] theorem outside_lowerRefill (g : GroupId) (s : State) : (lowerRefill g s).outside = s.outside := by
  unfold lowerRefill
  try dsimp only
  (repeat' split) <;> simp

@[simp] theorem outside_settleExpire (s : State) : (settleExpire s).outside = s.outside := by
  unfold settleExpire
  try dsimp only
  (repeat' split) <;> simp

@[simp] theorem outside_settleTick (s : State) : (settleTick s).outside = s.outside := by
  unfold settleTick
  try dsimp only
  (repeat' split) <;> simp

@[simp] theorem outside_shelveTick (s : State) : (shelveTick s).outside = s.outside := by
  unfold shelveTick
  exact outside_foldl _ (fun _ _ => by simp) _ s

@[simp] theorem outside_refillTick (s : State) : (refillTick s).outside = s.outside := by
  unfold refillTick
  exact outside_foldl _ (fun _ _ => by simp) _ s

@[simp] theorem outside_staleTick (s : State) : (staleTick s).outside = s.outside := by
  unfold staleTick
  split
  · exact outside_foldl _ (fun _ _ => by simp) _ s
  all_goals rfl

@[simp] theorem outside_ownerTick (s : State) (o : TickOwner) : (ownerTick s o).outside = s.outside := by
  cases o <;> simp [ownerTick]

end Sys2Proof.Machine
end

