-- ==== Sys2Proof/Laws/Events.lean ====
section
/-! SUPPORT. What a table event, a wake cause and an unshelve offer can change: counters, notice flags, mode, wake cause record, stale
countdowns; and nothing else. Then what each operation on records and keys writes, said once. -/

namespace Sys2Proof.Machine

/-! ## The core: what an event never touches -/

/-- The part of the state that events, wake causes and offers never touch, beside what is outside the table. -/
structure Core where
  rt : RecordTable
  sg : Vector Governor 8
  defns : PointId → Option Definition
  keys : PointId → Keys
  lowBuckets : PointId → Nat
  highBuckets : PointId → Nat
  shelves : PointId → Nat

/-- Records, lists, governors, and of each point the definition, keys, buckets and shelving. -/
def State.core (s : State) : Core :=
  { rt := s.rt, sg := s.sg, defns := fun p => (s.point p).defn, keys := fun p => (s.point p).keys
    lowBuckets := fun p => (s.point p).lowBucket, highBuckets := fun p => (s.point p).highBucket
    shelves := fun p => (s.point p).shelve }

theorem rt_of_core {s t : State} (h : t.core = s.core) : t.rt = s.rt := congrArg Core.rt h

theorem sg_of_core {s t : State} (h : t.core = s.core) : t.sg = s.sg := congrArg Core.sg h

theorem defn_of_core {s t : State} (h : t.core = s.core) (p : PointId) : (t.point p).defn = (s.point p).defn :=
  congrFun (congrArg Core.defns h) p

theorem keys_of_core {s t : State} (h : t.core = s.core) (p : PointId) : (t.point p).keys = (s.point p).keys :=
  congrFun (congrArg Core.keys h) p

theorem lowBucket_of_core {s t : State} (h : t.core = s.core) (p : PointId) : (t.point p).lowBucket = (s.point p).lowBucket :=
  congrFun (congrArg Core.lowBuckets h) p

theorem highBucket_of_core {s t : State} (h : t.core = s.core) (p : PointId) : (t.point p).highBucket = (s.point p).highBucket :=
  congrFun (congrArg Core.highBuckets h) p

theorem shelve_of_core {s t : State} (h : t.core = s.core) (p : PointId) : (t.point p).shelve = (s.point p).shelve :=
  congrFun (congrArg Core.shelves h) p

theorem record_of_core {s t : State} (h : t.core = s.core) (i : RecordIx) : t.record i = s.record i := by
  simp only [State.record, rt_of_core h]

theorem governor_of_core {s t : State} (h : t.core = s.core) (g : GroupId) : t.governor g = s.governor g := by
  simp only [State.governor, sg_of_core h]

theorem key_of_core {s t : State} (h : t.core = s.core) (k : PointKey) : t.key k = s.key k := by
  simp only [State.key, keys_of_core h]

theorem groupOf_of_core {s t : State} (h : t.core = s.core) (k : PointKey) : t.groupOf k = s.groupOf k := by
  simp only [State.groupOf, defn_of_core h]

theorem pendingOf_of_core {s t : State} (h : t.core = s.core) (k : PointKey) : t.pendingOf k = s.pendingOf k := by
  simp only [State.pendingOf, key_of_core h]

theorem shelved_of_core {s t : State} (h : t.core = s.core) (p : PointId) : t.shelved p = s.shelved p := by
  simp only [State.shelved, shelve_of_core h]

theorem bucket_of_core {s t : State} (h : t.core = s.core) (p : PointId) (kind : Kind) :
    (t.point p).bucket kind = (s.point p).bucket kind := by
  cases kind <;> simp only [PointEntry.bucket, lowBucket_of_core h, highBucket_of_core h]

@[simp] theorem core_setNotice (n : Notice) (s : State) : (setNotice n s).core = s.core := rfl

@[simp] theorem core_countEvent (e : TableEvent) (s : State) : (countEvent e s).core = s.core := rfl

@[simp] theorem core_writeWakeRecord (c : WakeCause) (s : State) : (writeWakeRecord c s).core = s.core := rfl

@[simp] theorem core_withMode (m : Mode) (s : State) : ({ s with tb := { s.tb with mode := m } } : State).core = s.core := rfl

@[simp] theorem core_enterWatch (s : State) : (enterWatch s).core = s.core := by
  simp only [State.core, point_enterWatch, (reloadStale_rest _).1, (reloadStale_rest _).2.1, (reloadStale_rest _).2.2.1,
    (reloadStale_rest _).2.2.2.1, (reloadStale_rest _).2.2.2.2]
  rfl

@[simp] theorem core_wakeCause (c : WakeCause) (s : State) : (wakeCause c s).core = s.core := by
  unfold wakeCause
  split <;> simp

@[simp] theorem core_judgeWake (i : RecordIx) (sev : Severity) (b : Bool) (s : State) : (judgeWake i sev b s).core = s.core := by
  unfold judgeWake
  split <;> simp

@[simp] theorem core_raisedNotice (sev : Severity) (b : Bool) (s : State) : (raisedNotice sev b s).core = s.core := by
  unfold raisedNotice
  split <;> simp

@[simp] theorem core_noticeEvent (e : TableEvent) (s : State) : (noticeEvent e s).core = s.core := by
  unfold noticeEvent
  (repeat' split) <;> simp

@[simp] theorem core_wakeEvent (e : TableEvent) (s : State) : (wakeEvent e s).core = s.core := by
  unfold wakeEvent
  split <;> simp

@[simp] theorem core_issue (e : TableEvent) (s : State) : (issue e s).core = s.core := by
  simp [issue]

theorem core_foldl {α : Type} (f : State → α → State) (h : ∀ s a, (f s a).core = s.core) (l : List α) (s : State) :
    (l.foldl f s).core = s.core := by
  induction l generalizing s with
  | nil => rfl
  | cons a l ih => rw [List.foldl_cons, ih, h]

@[simp] theorem core_unshelveOffers (p : PointId) (s : State) : (unshelveOffers p s).core = s.core := by
  unfold unshelveOffers
  exact core_foldl _ (fun _ _ => by simp) _ s

@[simp] theorem rt_issue (e : TableEvent) (s : State) : (issue e s).rt = s.rt := rt_of_core (core_issue e s)

@[simp] theorem sg_issue (e : TableEvent) (s : State) : (issue e s).sg = s.sg := sg_of_core (core_issue e s)

@[simp] theorem record_issue (e : TableEvent) (s : State) (i : RecordIx) : (issue e s).record i = s.record i :=
  record_of_core (core_issue e s) i

@[simp] theorem governor_issue (e : TableEvent) (s : State) (g : GroupId) : (issue e s).governor g = s.governor g :=
  governor_of_core (core_issue e s) g

@[simp] theorem key_issue (e : TableEvent) (s : State) (k : PointKey) : (issue e s).key k = s.key k :=
  key_of_core (core_issue e s) k

@[simp] theorem groupOf_issue (e : TableEvent) (s : State) (k : PointKey) : (issue e s).groupOf k = s.groupOf k :=
  groupOf_of_core (core_issue e s) k

@[simp] theorem pendingOf_issue (e : TableEvent) (s : State) (k : PointKey) : (issue e s).pendingOf k = s.pendingOf k :=
  pendingOf_of_core (core_issue e s) k

@[simp] theorem shelved_issue (e : TableEvent) (s : State) (p : PointId) : (issue e s).shelved p = s.shelved p :=
  shelved_of_core (core_issue e s) p

@[simp] theorem defn_issue (e : TableEvent) (s : State) (p : PointId) : ((issue e s).point p).defn = (s.point p).defn :=
  defn_of_core (core_issue e s) p

/-! ## Counters -/

@[simp] theorem gc_wakeCause (c : WakeCause) (s : State) : (wakeCause c s).gc = s.gc := by
  unfold wakeCause
  split <;> rfl

@[simp] theorem gc_judgeWake (i : RecordIx) (sev : Severity) (b : Bool) (s : State) : (judgeWake i sev b s).gc = s.gc := by
  unfold judgeWake
  split <;> simp

@[simp] theorem gc_raisedNotice (sev : Severity) (b : Bool) (s : State) : (raisedNotice sev b s).gc = s.gc := by
  unfold raisedNotice
  split <;> rfl

@[simp] theorem gc_noticeEvent (e : TableEvent) (s : State) : (noticeEvent e s).gc = s.gc := by
  unfold noticeEvent
  (repeat' split) <;> simp

@[simp] theorem gc_wakeEvent (e : TableEvent) (s : State) : (wakeEvent e s).gc = s.gc := by
  unfold wakeEvent
  split <;> simp

/-- An event is counted by the four counters of its group, by each on its own selection (R131 to R137). -/
theorem counter_issue (e : TableEvent) (s : State) (g : GroupId) (j : Fin 4) :
    (issue e s).counter g j = if e.group = g then (s.counter g j).count e else s.counter g j := by
  have h : (issue e s).gc = (countEvent e s).gc := by simp [issue]
  simp only [State.counter, State.counters, h, countEvent, vget_vset]
  split
  · next hg => subst hg; simp
  · rfl

/-! ## Records and keys -/

/-- Allocation: the record written, Standing at the tail, the change count; no governor. -/
theorem rt_allocate (i : RecordIx) (k : PointKey) (v : Pending) (s : State) :
    (allocate i k v s).rt =
      { s.rt with
        records := vset s.rt.records i (newRecord k v s.tb.hutTime)
        standing := s.rt.standing.erase i ++ [i]
        acknowledged := s.rt.acknowledged.erase i
        cleared := s.rt.cleared.erase i
        changeCount := s.rt.changeCount + 1#16 } := by
  simp [allocate]
  rfl

@[simp] theorem sg_allocate (i : RecordIx) (k : PointKey) (v : Pending) (s : State) : (allocate i k v s).sg = s.sg := by
  simp [allocate]

@[simp] theorem record_allocate (i : RecordIx) (k : PointKey) (v : Pending) (s : State) (j : RecordIx) :
    (allocate i k v s).record j = if i = j then newRecord k v s.tb.hutTime else s.record j := by
  simp only [State.record, rt_allocate, vget_vset]

@[simp] theorem key_allocate (i : RecordIx) (k : PointKey) (v : Pending) (s : State) (k' : PointKey) :
    (allocate i k v s).key k' = if k = k' then { state := .raised, link := some i, pending := none } else s.key k' := by
  simp [allocate]

@[simp] theorem defn_allocate (i : RecordIx) (k : PointKey) (v : Pending) (s : State) (p : PointId) :
    ((allocate i k v s).point p).defn = (s.point p).defn := by
  simp [allocate]

/-- A join of the pool wait list: the place by severity, the change count; no record, no governor. -/
theorem rt_joinPoolWait (k : PointKey) (v : Pending) (s : State) :
    (joinPoolWait k v s).rt =
      { s.rt with
        poolWait := insertBySeverity (fun x => (s.pendingOf x).severity) k v.severity s.rt.poolWait
        changeCount := s.rt.changeCount + 1#16 } := by
  simp [joinPoolWait]
  rfl

@[simp] theorem sg_joinPoolWait (k : PointKey) (v : Pending) (s : State) : (joinPoolWait k v s).sg = s.sg := by
  simp [joinPoolWait]

@[simp] theorem record_joinPoolWait (k : PointKey) (v : Pending) (s : State) (i : RecordIx) :
    (joinPoolWait k v s).record i = s.record i := by
  simp only [State.record, rt_joinPoolWait]

theorem key_joinPoolWait (k : PointKey) (v : Pending) (s : State) (k' : PointKey) :
    (joinPoolWait k v s).key k' = if k = k' then { state := .waiting, link := none, pending := some v } else s.key k' := by
  simp [joinPoolWait]
  rfl

@[simp] theorem defn_joinPoolWait (k : PointKey) (v : Pending) (s : State) (p : PointId) :
    ((joinPoolWait k v s).point p).defn = (s.point p).defn := by
  simp [joinPoolWait]
  rfl

/-- A hold: the storm-held tail, the key, the change count; no record. -/
theorem rt_holdKey (k : PointKey) (v : Pending) (s : State) :
    (holdKey k v s).rt = { s.rt with changeCount := s.rt.changeCount + 1#16 } := by
  simp [holdKey]
  rfl

theorem governor_holdKey (k : PointKey) (v : Pending) (s : State) (g : GroupId) :
    (holdKey k v s).governor g =
      if s.groupOf k = g then { s.governor g with held := (s.governor g).held ++ [k] } else s.governor g := by
  simp only [holdKey, governor_issue, governor_advance, governor_putKey, governor_putGovernor]
  split
  · next h => subst h; rfl
  · rfl

@[simp] theorem key_holdKey (k : PointKey) (v : Pending) (s : State) (k' : PointKey) :
    (holdKey k v s).key k' = if k = k' then { state := .held, link := none, pending := some v } else s.key k' := by
  simp [holdKey]

/-- A place on the pool wait list is taken once, and the others keep theirs in order (R73, R74). -/
theorem insertBySeverity_split (f : PointKey → Severity) (k : PointKey) (sev : Severity) (l : List PointKey) :
    ∃ a b, l = a ++ b ∧ insertBySeverity f k sev l = a ++ k :: b := by
  induction l with
  | nil => exact ⟨[], [], rfl, rfl⟩
  | cons x rest ih =>
    unfold insertBySeverity
    split
    · obtain ⟨a, b, h1, h2⟩ := ih
      exact ⟨x :: a, b, by rw [h1]; rfl, by rw [h2]; rfl⟩
    · exact ⟨[], x :: rest, rfl, rfl⟩

theorem mem_insertBySeverity (f : PointKey → Severity) (k : PointKey) (sev : Severity) (l : List PointKey) (x : PointKey) :
    x ∈ insertBySeverity f k sev l ↔ x = k ∨ x ∈ l := by
  obtain ⟨a, b, h1, h2⟩ := insertBySeverity_split f k sev l
  rw [h2, h1]
  simp only [List.mem_append, List.mem_cons]
  tauto

/-- The part of a retirement before the record is served: off its list, key Quiet, change count, Retired (R17). -/
theorem retire_of_live (i : RecordIx) (s : State) (k : Key) (hl : (s.record i).state.live = true) (hk : (s.record i).key = some k) :
    retire i s =
      (let t := issue (recordEvent .retired k i (s.record i).severity (some ((s.record i).duration s.tb.hutTime)) s)
          (advance 1 (quietKey k (putRecord i ((s.record i).endLife (if isPool i then .free else .idle)) (offLists i s))))
       if isPool i then serveFreed i t else t) := by
  simp only [retire, hl, hk]

/-- A record that is not live is not retired (R18). -/
theorem retire_of_dead (i : RecordIx) (s : State) (h : (s.record i).state.live = false) : retire i s = s := by
  simp only [retire, h]

/-- A clear event that reaches a Cleared record, or one that is not live, makes no change (R18). -/
theorem clearLatched_of_other (i : RecordIx) (s : State) (h1 : (s.record i).state ≠ .standing) (h2 : (s.record i).state ≠ .acknowledged) :
    clearLatched i s = s := by
  unfold clearLatched
  dsimp only
  split
  · next h _ => exact absurd h h1
  · next h _ => exact absurd h h2
  · rfl

/-- A re-raise of a record that is not Cleared makes no change (R18). -/
theorem reRaise_of_other (i : RecordIx) (s : State) (h : (s.record i).state ≠ .cleared) : reRaise i s = s := by
  unfold reRaise
  dsimp only
  split
  · next h' _ => exact absurd h' h
  · rfl

end Sys2Proof.Machine
end

