-- ==== Sys2Proof/Laws/Wire.lean ====
section
/-! SUPPORT. Bytes, bits and multi-byte fields: what is sent is what is gathered. -/

namespace Sys2Proof.Machine

/-- A byte is gathered from the bits it is sent as (R159). -/
theorem byteOf_bits : ∀ b : Byte,
    byteOf (b.getLsbD 7) (b.getLsbD 6) (b.getLsbD 5) (b.getLsbD 4) (b.getLsbD 3) (b.getLsbD 2) (b.getLsbD 1) (b.getLsbD 0) = b := by
  decide +kernel

theorem bitsOf_cons (b : Byte) (l : List Byte) : bitsOf (b :: l) = byteBits b ++ bitsOf l := rfl

@[simp] theorem bytesOf_bitsOf (l : List Byte) : bytesOf (bitsOf l) = l := by
  induction l with
  | nil => rfl
  | cons b l ih =>
    rw [bitsOf_cons]
    simp only [byteBits, List.cons_append, List.nil_append, bytesOf, byteOf_bits, ih]

@[simp] theorem length_bitsOf (l : List Byte) : (bitsOf l).length = 8 * l.length := by
  induction l with
  | nil => rfl
  | cons b l ih =>
    rw [bitsOf_cons, List.length_append, ih]
    simp only [byteBits, List.length_cons, List.length_nil]
    omega

@[simp] theorem length_shiftOut (n : Nat) (m : List Byte) : (shiftOut n m).length = n := by
  simp [shiftOut]

@[simp] theorem length_halfBytes (h : Half) : (halfBytes h).length = 2 := rfl

@[simp] theorem length_quadBytes (q : Quad) : (quadBytes q).length = 4 := rfl

@[simp] theorem length_checkBytes (l : List Byte) : (checkBytes l).length = 2 := rfl

theorem length_localMessage (c : Byte) (b : List Byte) : (localMessage c b).length = b.length + 4 := by
  simp [localMessage]

theorem length_frameBytes (f : Frame) : f.bytes.length = f.body.length + 9 := by
  simp [Frame.bytes, Frame.covered]

theorem high_low (h : Half) : highByte h ++ lowByte h = h := by
  apply BitVec.eq_of_getLsbD_eq
  intro i hi
  simp only [highByte, lowByte, BitVec.getLsbD_append, BitVec.getLsbD_extractLsb']
  by_cases h8 : i < 8
  · simp [h8]
  · simp only [h8, decide_false]
    have e : 8 + (i - 8) = i := by omega
    have l : i - 8 < 8 := by omega
    simp [e, l]

theorem quad_bytes (q : Quad) :
    q.extractLsb' 24 8 ++ q.extractLsb' 16 8 ++ q.extractLsb' 8 8 ++ q.extractLsb' 0 8 = q := by
  apply BitVec.eq_of_getLsbD_eq
  intro i hi
  simp only [BitVec.getLsbD_append, BitVec.getLsbD_extractLsb']
  by_cases h1 : i < 8
  · simp [h1]
  · by_cases h2 : i - 8 < 8
    · have e : 8 + (i - 8) = i := by omega
      simp [h1, h2, e]
    · by_cases h3 : i - 8 - 8 < 8
      · have e : 16 + (i - 8 - 8) = i := by omega
        simp [h1, h2, h3, e]
      · have e : 24 + (i - 8 - 8 - 8) = i := by omega
        have l : i - 8 - 8 - 8 < 8 := by omega
        simp [h1, h2, h3, e, l]

/-- The control byte carries the kind, bit 6 at 0 and the hop budget (R185). -/
theorem controlByte_fields : ∀ (kind : FrameKind) (hop : BitVec 6),
    (controlByte kind hop).getLsbD 6 = false ∧ (controlByte kind hop).getLsbD 7 = decide (kind = .reply) ∧
      (controlByte kind hop).extractLsb' 0 6 = hop := by
  intro kind
  cases kind <;> decide +kernel

/-- The parts of a frame are read back from what its check covers. -/
@[simp] theorem frameOf_covered (f : Frame) : frameOf f.covered = some f := by
  obtain ⟨dst, src, kind, hop, tag, code, body⟩ := f
  have h := controlByte_fields kind hop
  simp only [Frame.covered, List.cons_append, List.nil_append, frameOf, h.1, h.2.1, h.2.2]
  cases kind <;> rfl

/-- The bytes of a frame after its sync byte are a good frame (R143, R144). -/
theorem goodFrame_bytes (f : Frame) : goodFrame (f.covered ++ checkBytes f.covered) = some f := by
  have l : (f.covered ++ checkBytes f.covered).length - 2 = f.covered.length := by simp
  simp only [goodFrame, l, List.take_left, List.drop_left, if_true, frameOf_covered]

end Sys2Proof.Machine
end

