-- ==== Sys2Proof/Laws/Commands.lean ====
section
/-! SUPPORT. What the rows of requests have in common, mode by mode and port by port. -/

namespace Sys2Proof.Machine

/-- Every request row is its request taken at its port (log entry 1). -/
theorem exec_request (i : Instr) (o : Origin) (r : Request) (h : i.request? = some (o, r)) (s : State) :
    exec i s = .next (takeRequest o r s) := by
  cases i <;> simp only [Instr.request?, Option.some.injEq, Prod.mk.injEq, reduceCtorEq] at h <;>
    (obtain ⟨rfl, rfl⟩ := h; rfl)

theorem transact_watch (f : State → State) (s : State) (h : s.tb.mode = .watch) : transact f s = f s := by
  simp only [transact, h]

theorem transact_waking (f : State → State) (s : State) (h : s.tb.mode = .waking) : transact f s = f (enterWatch s) := by
  simp only [transact, h]

theorem transact_asleep (f : State → State) (s : State) (h : s.tb.mode = .settling ∨ s.tb.mode = .dormant) :
    transact f s = putSlot (some (.bare .asleep)) (wakeCause .localPort s) := by
  rcases h with h | h <;> simp only [transact, h]

/-- A transaction that a hold cuts shifts out a bit for each clock. -/
@[simp] theorem length_cutTransaction (n : Nat) (c : HoldCut) (s : State) : (cutTransaction n c s).lp.lsdo.length = n := by
  simp [cutTransaction]

/-- Its bits before the hold are those of the slot, and its bits in the hold are 0 (R159, R181). -/
theorem lsdo_cutTransaction (n : Nat) (c : HoldCut) (s : State) {j : Nat} (h : j < n) :
    (j < c.before → (cutTransaction n c s).lp.lsdo[j]? = (shiftOut n (slotBytes s.lp.slot))[j]?) ∧
    (c.before ≤ j → c.held[j - c.before]? = some true → (cutTransaction n c s).lp.lsdo[j]? = some false) := by
  constructor
  · intro b
    simp [cutTransaction, cutBit, h, b]
  · intro b e
    simp [cutTransaction, cutBit, h, Nat.not_lt.2 b, e]

/-- A local message with the code and the body of a request is judged as that message (R160, R186). -/
theorem judgeInward_message (c : Byte) (b : List Byte) (h : b.length ≤ 48) : judgeInward (localMessage c b) = .message c b := by
  have n : (natByte (b.length + 1)).toNat = b.length + 1 := by
    simp only [natByte, BitVec.toNat_ofNat]
    omega
  have z : natByte (b.length + 1) ≠ 0#8 := by
    intro e
    rw [e] at n
    simp at n
  have t : (c :: b ++ checkBytes (natByte (b.length + 1) :: c :: b)).take (b.length + 1) = c :: b := by
    have : b.length + 1 = (c :: b).length := rfl
    rw [this, List.take_left]
  have d : (c :: b ++ checkBytes (natByte (b.length + 1) :: c :: b)).drop (b.length + 1) =
      checkBytes (natByte (b.length + 1) :: c :: b) := by
    have : b.length + 1 = (c :: b).length := rfl
    rw [this, List.drop_left]
  have e : localMessage c b = natByte (b.length + 1) :: (c :: b ++ checkBytes (natByte (b.length + 1) :: c :: b)) := rfl
  rw [e]
  unfold judgeInward
  dsimp only
  rw [if_neg z, n, if_neg (by omega), if_neg (by simp)]
  rw [t, d, if_neg (by simp [checkBytes, halfBytes])]

/-- In Watch and in Waking the message of a transaction is judged in Watch (R162). -/
theorem transact_served (s : State) (h : s.tb.mode = .watch ∨ s.tb.mode = .waking) :
    ∀ f : State → State, transact f s = f (if s.tb.mode = .waking then enterWatch s else s) := by
  intro f
  rcases h with h | h <;> simp [transact, h]

end Sys2Proof.Machine
end

