-- ==== Sys2Proof/Laws/Safety.lean ====
section
/-! SUPPORT. The laws of Safety.lean on one state, decided by finite checks over the 168 records, the 64 points, the 256 point keys, the
8 groups and the 2 sides. -/

namespace Sys2Proof.Machine

/-- Every record index. -/
def allRecords : List RecordIx := (List.range 168).map (Fin.ofNat 168)

/-- Every point key. -/
def allPointKeys : List PointKey := allPoints.flatMap fun p => allKinds.map fun kind => { point := p, kind }

theorem mem_allRecords (i : RecordIx) : i ∈ allRecords :=
  List.mem_map.2 ⟨i.val, List.mem_range.2 i.isLt, Fin.ext (Nat.mod_eq_of_lt i.isLt)⟩

theorem mem_allPointKeys (k : PointKey) : k ∈ allPointKeys :=
  List.mem_flatMap.2 ⟨k.point, mem_allPoints _, List.mem_map.2 ⟨k.kind, mem_allKinds _, rfl⟩⟩

/-- Whether a key fits a record. -/
def keyFitsB (i : RecordIx) : Option Key → Bool
  | none => true
  | some (.point _) => decide (i.val < 160)
  | some (.storm g) => decide (i = stormIx g)

theorem keyFits_of_check {i : RecordIx} {k : Option Key} (h : keyFitsB i k = true) : keyFits i k := by
  cases k with
  | none => trivial
  | some k => cases k <;> simpa [keyFits, keyFitsB] using h

/-- The law of one record. -/
def recordCheck (i : RecordIx) (r : Record) : Bool :=
  (decide (i.val < 160 → r.state ≠ .idle) && decide (160 ≤ i.val → r.state ≠ .free)) &&
  (decide (r.key.isSome = r.state.live) && keyFitsB i r.key) &&
  (decide (r.clearTime.isSome = decide (r.state = .cleared)) && decide (r.ack.isSome = decide (r.state = .acknowledged)))

theorem recordLaw_of_check {i : RecordIx} {r : Record} (h : recordCheck i r = true) : RecordLaw i r := by
  simp only [recordCheck, Bool.and_eq_true, decide_eq_true_eq] at h
  exact ⟨h.1.1.1, h.1.1.2, h.1.2.1, keyFits_of_check h.1.2.2, h.2.1, h.2.2⟩

/-- The law of one list: it holds, once each, the records of a state. -/
def listCheck (s : State) (l : List RecordIx) (state : RecordState) : Bool :=
  decide (l.map Fin.val).Nodup && allRecords.all fun i => (l.any fun j => Nat.beq j.val i.val) == decide ((s.record i).state = state)

theorem list_of_check {s : State} {l : List RecordIx} {state : RecordState} (h : listCheck s l state = true) :
    l.Nodup ∧ ∀ i, i ∈ l ↔ (s.record i).state = state := by
  simp only [listCheck, Bool.and_eq_true, decide_eq_true_eq, List.all_eq_true, beq_iff_eq] at h
  refine ⟨h.1.of_map _, fun i => ?_⟩
  rw [← decide_eq_true_iff (p := (s.record i).state = state), ← h.2 i (mem_allRecords i), List.any_eq_true]
  exact ⟨fun m => ⟨i, m, Nat.beq_refl _⟩, fun ⟨j, m, e⟩ => Fin.ext (Nat.eq_of_beq_eq_true e) ▸ m⟩

/-- The law of the record table. -/
def tableCheck (s : State) : Bool :=
  (allRecords.all fun i => recordCheck i (s.record i)) &&
  (listCheck s s.rt.free .free && listCheck s s.rt.standing .standing) &&
  (listCheck s s.rt.acknowledged .acknowledged && listCheck s s.rt.cleared .cleared)

theorem tableLaw_of_check {s : State} (h : tableCheck s = true) : TableLaw s := by
  simp only [tableCheck, Bool.and_eq_true, List.all_eq_true] at h
  obtain ⟨⟨hr, hf, hs⟩, ha, hc⟩ := h
  have f := list_of_check hf
  have st := list_of_check hs
  have a := list_of_check ha
  have c := list_of_check hc
  exact ⟨fun i => recordLaw_of_check (hr i (mem_allRecords i)), ⟨f.2, st.2, a.2, c.2, f.1, st.1, a.1, c.1⟩⟩

/-- The law of the record table is about the records and the four lists alone. -/
theorem tableLaw_congr {s t : State} (records : s.rt.records = t.rt.records) (free : s.rt.free = t.rt.free)
    (standing : s.rt.standing = t.rt.standing) (acknowledged : s.rt.acknowledged = t.rt.acknowledged)
    (cleared : s.rt.cleared = t.rt.cleared) (h : TableLaw s) : TableLaw t := by
  have hr : ∀ i, t.record i = s.record i := fun i => by rw [State.record, State.record, records]
  obtain ⟨a, b, c, d, e, f, g, i, j⟩ := h
  exact ⟨fun k => by rw [hr]; exact a k, fun k => by rw [hr, ← free]; exact b k, fun k => by rw [hr, ← standing]; exact c k,
    fun k => by rw [hr, ← acknowledged]; exact d k, fun k => by rw [hr, ← cleared]; exact e k, by rw [← free]; exact f,
    by rw [← standing]; exact g, by rw [← acknowledged]; exact i, by rw [← cleared]; exact j⟩

theorem tableLaw_of_rt {s t : State} (e : t.rt = s.rt) (h : TableLaw s) : TableLaw t :=
  tableLaw_congr (by rw [e]) (by rw [e]) (by rw [e]) (by rw [e]) (by rw [e]) h

/-- A list that a record is not on, with the record added when its new state is the list's. -/
theorem list_withRecord {s : State} {l : List RecordIx} {i : RecordIx} {r : Record} {state : RecordState}
    (h : ∀ j, j ∈ l ↔ (s.record j).state = state) (once : l.Nodup) (off : i ∉ l) :
    (∀ j, j ∈ (if r.state = state then l ++ [i] else l) ↔ (vget (vset s.rt.records i r) j).state = state) ∧
      (if r.state = state then l ++ [i] else l).Nodup := by
  refine ⟨fun j => ?_, ?_⟩
  · by_cases hj : i = j
    · subst hj
      rw [vget_vset_self]
      by_cases hs : r.state = state <;> simp [hs, off]
    · rw [vget_vset_of_ne _ _ hj]
      have hj' : ¬ j = i := fun e => hj e.symm
      by_cases hs : r.state = state <;> simp [hs, hj', h j, State.record]
  · by_cases hs : r.state = state
    · rw [if_pos hs]
      exact List.nodup_append.2 ⟨once, List.nodup_singleton i, fun a ha b hb e => off (by rw [List.mem_singleton.1 hb] at e; exact e ▸ ha)⟩
    · rw [if_neg hs]
      exact once

/-- What the law of the keys asks of one key. -/
def keyCheck (s : State) (k : PointKey) : Bool :=
  let e := s.key k
  (decide (e.link.isSome = decide (e.state = .raised ∨ e.state = .cleared)) &&
    decide (e.pending.isSome = decide (e.state = .held ∨ e.state = .waiting))) &&
  (match e.link with
    | some i => decide ((s.record i).key = some (.point k)) && decide (e.state = .cleared ↔ (s.record i).state = .cleared)
    | none => true) &&
  (match (s.point k.point).defn with
    | none => true
    | some d =>
      (match e.pending with
        | some v => decide (v.severity = d.severity k.kind ∧ v.value.isSome = k.kind.hasValue)
        | none => true) &&
      (match e.link with
        | some i => decide ((s.record i).severity = d.severity k.kind)
        | none => true) &&
      decide (e.state = .cleared → d.retirement = .latched) &&
      decide (k.kind.hasValue = true → d.evaluation k.kind = none → e.state = .quiet) &&
      decide (k.kind.hasValue = true → (s.point k.point).bucket k.kind = d.capacity → e.state ≠ .quiet ∧ e.state ≠ .cleared))

/-- What the law of the keys asks of one record. -/
def keyOfRecordCheck (s : State) (i : RecordIx) : Bool :=
  decide ((s.record i).peak.isSome = keyHasPeak (s.record i).key) &&
  (match (s.record i).key with
    | some (.point k) => decide ((s.key k).link = some i)
    | _ => true)

/-- The law of the keys. -/
def keysCheck (s : State) : Bool :=
  (allPointKeys.all fun k => keyCheck s k) && (allRecords.all fun i => keyOfRecordCheck s i) &&
    allPoints.all fun p => decide ((s.point p).defn = none → s.point p = .vacant)

theorem keyLaw_of_check {s : State} (h : keysCheck s = true) : KeyLaw s := by
  simp only [keysCheck, Bool.and_eq_true, List.all_eq_true] at h
  obtain ⟨⟨hk, hr⟩, hv⟩ := h
  have hk' := fun k => hk k (mem_allPointKeys k)
  have hr' := fun i => hr i (mem_allRecords i)
  simp only [keyCheck, Bool.and_eq_true, decide_eq_true_eq] at hk'
  simp only [keyOfRecordCheck, Bool.and_eq_true, decide_eq_true_eq] at hr'
  refine ⟨fun k i => ⟨fun hl => ?_, fun hl => ?_⟩, fun k => (hk' k).1.1.1, fun i => (hr' i).1, fun k i hl => ?_, fun k => (hk' k).1.1.2,
    fun p hp => of_decide_eq_true (hv p (mem_allPoints p)) hp, fun k v d hp hd => ?_, fun k i d hl hd => ?_, fun k d hc hd => ?_,
    fun k d hd hv he => ?_, fun k d hd hv hb => ?_⟩
  · have := (hk' k).1.2
    rw [hl] at this
    simp only [Bool.and_eq_true, decide_eq_true_eq] at this
    exact this.1
  · have := (hr' i).2
    rw [hl] at this
    simpa using this
  · have := (hk' k).1.2
    rw [hl] at this
    simp only [Bool.and_eq_true, decide_eq_true_eq] at this
    exact this.2
  all_goals
    have := (hk' k).2
    rw [hd] at this
    simp only [Bool.and_eq_true, decide_eq_true_eq] at this
  · have h1 := this.1.1.1.1
    rw [hp] at h1
    simpa using h1
  · have h1 := this.1.1.1.2
    rw [hl] at h1
    simpa using h1
  · exact this.1.1.2 hc
  · exact this.1.2 hv he
  · exact this.2 hv hb

/-- The law of the pool wait list. -/
def waitCheck (s : State) : Bool :=
  (allPointKeys.all fun k => decide (k ∈ s.rt.poolWait ↔ (s.key k).state = .waiting)) &&
  (decide s.rt.poolWait.Nodup &&
    decide (s.rt.poolWait.Pairwise fun a b => (s.pendingOf b).severity.level ≤ (s.pendingOf a).severity.level)) &&
  decide (s.rt.poolWait ≠ [] → s.rt.free = [])

theorem waitLaw_of_check {s : State} (h : waitCheck s = true) : WaitLaw s := by
  simp only [waitCheck, Bool.and_eq_true, decide_eq_true_eq, List.all_eq_true] at h
  exact ⟨fun k => h.1.1 k (mem_allPointKeys k), h.1.2.1, h.1.2.2, h.2⟩

/-- The law of the storm-held lists and the folded sets. -/
def divertedCheck (s : State) : Bool :=
  allGroups.all fun g =>
    (decide (s.governor g).held.Nodup && decide (s.governor g).folded.Nodup) &&
    allPointKeys.all fun k =>
      decide (k ∈ (s.governor g).held ↔ (s.key k).state = .held ∧ s.groupOf k = g) &&
        decide (k ∈ (s.governor g).folded ↔ (s.key k).state = .folded ∧ s.groupOf k = g)

theorem divertedLaw_of_check {s : State} (h : divertedCheck s = true) : DivertedLaw s := by
  simp only [divertedCheck, Bool.and_eq_true, decide_eq_true_eq, List.all_eq_true] at h
  have h' := fun g => h g (mem_allGroups g)
  exact ⟨fun g k => ((h' g).2 k (mem_allPointKeys k)).1, fun g => (h' g).1.1, fun g k => ((h' g).2 k (mem_allPointKeys k)).2,
    fun g => (h' g).1.2⟩

/-- The numbers of one governor. -/
def governorCheck (x : Governor) : Bool :=
  (decide (1 ≤ x.defn.depth ∧ x.defn.depth ≤ 15) && decide (1 ≤ x.defn.reopen ∧ x.defn.reopen ≤ x.defn.depth)) &&
  (decide (x.defn.refillExponent ≤ 7) && decide (x.tokens ≤ x.defn.depth)) &&
  (decide (1 ≤ x.refill ∧ x.refill ≤ x.defn.period) && decide (x.gate = .closed → x.tokens < x.defn.reopen))

theorem governorLaw_of_check {s : State} (h : (allGroups.all fun g => governorCheck (s.governor g)) = true) : GovernorLaw s := by
  simp only [governorCheck, Bool.and_eq_true, decide_eq_true_eq, List.all_eq_true] at h
  intro g
  have h' := h g (mem_allGroups g)
  exact ⟨h'.1.1.1, h'.1.1.2, h'.1.2.1, h'.1.2.2, h'.2.1, h'.2.2⟩

/-- The law of the storms, of one group. -/
def stormCheck (s : State) (g : GroupId) : Bool :=
  let x := s.governor g
  let state := (s.record (stormIx g)).state
  (decide (x.held ≠ [] → x.defn.mode = .hold ∧ (x.gate = .closed ∨ x.tokens = 0)) &&
    decide (x.folded ≠ [] → x.defn.mode = .fold ∧ (state = .standing ∨ state = .acknowledged))) &&
  (decide (x.defn.mode = .hold → state = .idle ∨ state = .cleared) &&
    decide (x.folded = [] → x.gate = .opened → state = .idle ∨ state = .cleared))

theorem stormLaw_of_check {s : State} (h : (allGroups.all fun g => stormCheck s g) = true) : StormLaw s := by
  simp only [stormCheck, Bool.and_eq_true, decide_eq_true_eq, List.all_eq_true] at h
  have h' := fun g => h g (mem_allGroups g)
  exact ⟨fun g => (h' g).1.1, fun g => (h' g).1.2, fun g => (h' g).2.1, fun g => (h' g).2.2⟩

/-- A definition in range. -/
def definitionCheck (d : Definition) : Bool :=
  (d.formOk && d.thresholdsOk) &&
  (decide (d.hysteresis ≤ 4095) && decide (1 ≤ d.capacity ∧ d.capacity ≤ 4095)) &&
  (decide (d.staleInterval ≤ 65535) &&
    match d.weighting with
    | .count drain => decide (1 ≤ drain ∧ drain ≤ 255)
    | .magnitude shift => decide (shift ≤ 7))

theorem definitionLaw_of_check {d : Definition} (h : definitionCheck d = true) : DefinitionLaw d := by
  simp only [definitionCheck, Bool.and_eq_true, decide_eq_true_eq] at h
  refine ⟨h.1.1.1, h.1.1.2, h.1.2.1, h.1.2.2, h.2.1, ?_⟩
  have hw := h.2.2
  revert hw
  cases d.weighting <;> intro hw <;> exact of_decide_eq_true hw

/-- An entry in order. -/
def entryCheck (e : PointEntry) : Bool :=
  match e.defn with
  | none => decide (e.lowBucket = 0 ∧ e.highBucket = 0 ∧ e.stale = none ∧ e.shelve = 0)
  | some d =>
    (definitionCheck d && decide (e.lowBucket ≤ d.capacity ∧ e.highBucket ≤ d.capacity)) &&
    (allKinds.all fun kind => decide (d.evaluation kind = none → e.bucket kind = 0)) &&
    (decide (e.stale.isSome = decide (0 < d.staleInterval)) && decide (e.stale.getD 0 ≤ d.staleInterval)) &&
    decide (e.shelve ≤ 86400)

/-- The law of the points. -/
def pointsCheck (s : State) : Bool :=
  (allPoints.all fun p => entryCheck (s.point p)) &&
    allPoints.all fun p => allPoints.all fun q =>
      match (s.point p).defn, (s.point q).defn with
      | some a, some b => decide (p = q) || !a.source.conflicts b.source
      | _, _ => true

theorem pointLaw_of_check {s : State} (h : pointsCheck s = true) : PointLaw s := by
  simp only [pointsCheck, Bool.and_eq_true, List.all_eq_true] at h
  refine ⟨fun p d hd => ?_, fun p hp => ?_, fun p q a b hne ha hb => ?_⟩
  · have h1 := h.1 p (mem_allPoints p)
    simp only [entryCheck, hd, Bool.and_eq_true, decide_eq_true_eq, List.all_eq_true] at h1
    obtain ⟨⟨⟨⟨hdef, hb⟩, hu⟩, hs, hn⟩, hsh⟩ := h1
    refine ⟨definitionLaw_of_check hdef, hb, fun kind => hu kind (mem_allKinds kind), hs, fun n hsome => ?_, hsh⟩
    rw [hsome] at hn
    exact hn
  · have h1 := h.1 p (mem_allPoints p)
    simp only [entryCheck, hp, decide_eq_true_eq] at h1
    exact h1
  · have h1 := h.2 p (mem_allPoints p) q (mem_allPoints q)
    simp only [ha, hb, Bool.or_eq_true, decide_eq_true_eq, Bool.not_eq_true'] at h1
    exact h1.resolve_left hne

/-- A side in order. -/
def sideCheck (x : SideState) : Bool :=
  (decide (x.queue.length ≤ 4) && x.queue.all fun f => decide (f.body.length ≤ 48)) &&
  decide (x.carrier = false → x.queue = [] ∧ x.reception = []) &&
  (match x.reception with
    | [] => true
    | [a] => decide (a = syncByte)
    | a :: len :: rest => decide (a = syncByte) && decide (len.toNat ≤ 48 ∧ rest.length < len.toNat + 7))

theorem sideLaw_of_check {x : SideState} (h : sideCheck x = true) : SideLaw x := by
  simp only [sideCheck, Bool.and_eq_true, decide_eq_true_eq, List.all_eq_true] at h
  obtain ⟨⟨⟨hr, hb⟩, hl⟩, hs⟩ := h
  refine ⟨hr, hb, hl, fun b hb => ?_, fun a len rest he => ?_⟩
  · revert hs hb
    rcases x.reception with _ | ⟨a, _ | ⟨len, rest⟩⟩ <;> simp
    · rintro rfl rfl
      rfl
    · rintro rfl _ _ rfl
      rfl
  · rw [he] at hs
    simp only [Bool.and_eq_true, decide_eq_true_eq] at hs
    exact hs.2

/-- The laws of the sides, the slot, the settle countdown, the level flags and the commands that wait. -/
def portsCheck (s : State) : Bool :=
  (sideCheck s.rr.west && sideCheck s.rr.east && decide ((s.lp.slot.map fun r => r.body.length).getD 0 ≤ 48)) &&
  ((match s.tb.settle with
    | none => decide (s.tb.mode ≠ .settling)
    | some n => decide (s.tb.mode = .settling ∧ 1 ≤ n ∧ n ≤ 2)) && decide (s.powerHold = true → s.tb.hutTime = 0#32)) &&
  (decide (s.rt.poolWait ≠ [] → s.noticeSet .poolFull = true) && decide (s.carrierLost = true → s.noticeSet .link = true)) &&
  s.pending.all Instr.wf

theorem linkLaw_of_check {s : State} (h : portsCheck s = true) : LinkLaw s := by
  simp only [portsCheck, Bool.and_eq_true, decide_eq_true_eq] at h
  refine ⟨fun d => ?_, fun r hr => ?_⟩
  · cases d
    · exact sideLaw_of_check h.1.1.1.1.1
    · exact sideLaw_of_check h.1.1.1.1.2
  · have := h.1.1.1.2
    rw [hr] at this
    exact this

theorem timeLaw_of_check {s : State} (h : portsCheck s = true) : TimeLaw s := by
  simp only [portsCheck, Bool.and_eq_true, decide_eq_true_eq] at h
  refine ⟨?_, h.1.1.2.2⟩
  have hs := h.1.1.2.1
  revert hs
  cases s.tb.settle <;> intro hs <;> exact of_decide_eq_true hs

theorem noticeLaw_of_check {s : State} (h : portsCheck s = true) : NoticeLaw s := by
  simp only [portsCheck, Bool.and_eq_true, decide_eq_true_eq] at h
  exact ⟨h.1.2.1, h.1.2.2⟩

theorem queueLaw_of_check {s : State} (h : portsCheck s = true) : QueueLaw s := by
  simp only [portsCheck, Bool.and_eq_true, List.all_eq_true] at h
  exact h.2

/-- Every law, by the law of the table and the checks of the others. -/
theorem inv_of_checks {s : State} (table : TableLaw s) (keys : keysCheck s = true) (waits : waitCheck s = true)
    (diverted : divertedCheck s = true) (governors : (allGroups.all fun g => governorCheck (s.governor g)) = true)
    (storms : (allGroups.all fun g => stormCheck s g) = true) (points : pointsCheck s = true) (ports : portsCheck s = true) : Inv s :=
  ⟨table, keyLaw_of_check keys, waitLaw_of_check waits, divertedLaw_of_check diverted, governorLaw_of_check governors,
    stormLaw_of_check storms, pointLaw_of_check points, linkLaw_of_check ports, timeLaw_of_check ports, noticeLaw_of_check ports,
    queueLaw_of_check ports⟩

end Sys2Proof.Machine
end

