-- ==== Sys2Proof/Laws/Serve.lean ====
section
/-! SUPPORT. What no request changes, whoever serves it: the address, the carriers, the queues and the receivers of the relay, the
local port, the sampled levels, the holds, the queue of commands. -/

namespace Sys2Proof.Machine

/-- What no request changes. -/
structure Untouched where
  address : Byte
  westCarrier : Bool
  eastCarrier : Bool
  westQueue : List Frame
  eastQueue : List Frame
  westReception : List Byte
  eastReception : List Byte
  lp : LocalPort
  cs : BitVec 16
  powerHold : Bool
  resetLow : Bool
  freeDraws : Nat
  pending : List Instr

/-- The part of a state that no request changes. -/
def State.untouched (s : State) : Untouched :=
  { address := s.rr.address, westCarrier := s.rr.west.carrier, eastCarrier := s.rr.east.carrier, westQueue := s.rr.west.queue
    eastQueue := s.rr.east.queue, westReception := s.rr.west.reception, eastReception := s.rr.east.reception, lp := s.lp, cs := s.cs
    powerHold := s.powerHold, resetLow := s.resetLow, freeDraws := s.freeDraws, pending := s.pending }

/-- What the mechanisms of the table leave, no request of theirs changes. -/
theorem untouched_of_outside {s t : State} (h : t.outside = s.outside) : t.untouched = s.untouched := by
  simp only [State.untouched, rr_of_outside h, lp_of_outside h, cs_of_outside h, powerHold_of_outside h, resetLow_of_outside h,
    freeDraws_of_outside h, pending_of_outside h]

theorem address_of_untouched {s t : State} (h : t.untouched = s.untouched) : t.rr.address = s.rr.address :=
  congrArg Untouched.address h

theorem isOwn_of_untouched {s t : State} (h : t.untouched = s.untouched) (b : Byte) : t.isOwn b = s.isOwn b := by
  simp only [State.isOwn, address_of_untouched h]

theorem carrier_of_untouched {s t : State} (h : t.untouched = s.untouched) (d : Side) : (t.side d).carrier = (s.side d).carrier := by
  cases d
  · exact congrArg Untouched.westCarrier h
  · exact congrArg Untouched.eastCarrier h

theorem queue_of_untouched {s t : State} (h : t.untouched = s.untouched) (d : Side) : (t.side d).queue = (s.side d).queue := by
  cases d
  · exact congrArg Untouched.westQueue h
  · exact congrArg Untouched.eastQueue h

theorem reception_of_untouched {s t : State} (h : t.untouched = s.untouched) (d : Side) :
    (t.side d).reception = (s.side d).reception := by
  cases d
  · exact congrArg Untouched.westReception h
  · exact congrArg Untouched.eastReception h

theorem lp_of_untouched {s t : State} (h : t.untouched = s.untouched) : t.lp = s.lp := congrArg Untouched.lp h

theorem powerHold_of_untouched {s t : State} (h : t.untouched = s.untouched) : t.powerHold = s.powerHold :=
  congrArg Untouched.powerHold h

theorem resetLow_of_untouched {s t : State} (h : t.untouched = s.untouched) : t.resetLow = s.resetLow := congrArg Untouched.resetLow h

theorem inHold_of_untouched {s t : State} (h : t.untouched = s.untouched) : t.inHold = s.inHold := by
  simp only [State.inHold, powerHold_of_untouched h, resetLow_of_untouched h]

theorem pending_of_untouched {s t : State} (h : t.untouched = s.untouched) : t.pending = s.pending := congrArg Untouched.pending h

theorem outside_serveReading (rs : List RawReading) (s : State) : (serveReading rs s).1.outside = s.outside := by
  unfold serveReading
  split
  · rfl
  · split
    · exact outside_takeReadings _ _
    · rfl

theorem outside_serveDefinePoint (b : RawPoint) (s : State) : (serveDefinePoint b s).1.outside = s.outside := by
  unfold serveDefinePoint
  (repeat' split) <;> simp

theorem outside_serveWithdrawPoint (p : Byte) (s : State) : (serveWithdrawPoint p s).1.outside = s.outside := by
  unfold serveWithdrawPoint
  (repeat' split) <;> simp

theorem outside_serveReadPoint (p : Byte) (s : State) : (serveReadPoint p s).1.outside = s.outside := by
  unfold serveReadPoint
  (repeat' split) <;> rfl

theorem outside_serveShelvePoint (p : Byte) (m : Half) (s : State) : (serveShelvePoint p m s).1.outside = s.outside := by
  unfold serveShelvePoint
  (repeat' split) <;> simp

theorem outside_serveUnshelvePoint (p : Byte) (s : State) : (serveUnshelvePoint p s).1.outside = s.outside := by
  unfold serveUnshelvePoint
  (repeat' split) <;> simp

theorem outside_serveDefineGroup (b : RawGroup) (s : State) : (serveDefineGroup b s).1.outside = s.outside := by
  unfold serveDefineGroup
  (repeat' split) <;> simp

theorem outside_serveReadGroup (g : Byte) (s : State) : (serveReadGroup g s).1.outside = s.outside := by
  unfold serveReadGroup
  split <;> rfl

theorem state_serveLookUp (k : RawKey) (s : State) : (serveLookUp k s).1 = s := by
  unfold serveLookUp
  (repeat' split) <;> rfl

theorem state_serveReadRecord (i : Byte) (s : State) : (serveReadRecord i s).1 = s := by
  unfold serveReadRecord
  split <;> rfl

theorem state_serveListWalk (w : RawWalk) (s : State) : (serveListWalk w s).1 = s := by
  unfold serveListWalk
  (repeat' split) <;> rfl

theorem outside_acknowledgeIndex (i : RecordIx) (who : AckBy) (tag : Half) (s : State) :
    (acknowledgeIndex i who tag s).1.outside = s.outside := by
  unfold acknowledgeIndex
  split <;> simp

theorem outside_serveAcknowledge (f : Byte) (k : RawKey) (tag : Half) (who : AckBy) (s : State) :
    (serveAcknowledge f k tag who s).1.outside = s.outside := by
  unfold serveAcknowledge
  (repeat' split) <;> first | rfl | exact outside_acknowledgeIndex _ _ _ _

theorem outside_serveAcknowledgeGroup (g m : Byte) (tag : Half) (who : AckBy) (s : State) :
    (serveAcknowledgeGroup g m tag who s).1.outside = s.outside := by
  unfold serveAcknowledgeGroup
  split
  · exact outside_foldl _ (fun _ _ => by simp) _ _
  · rfl

theorem outside_serveSetCounterSelection (g j : Byte) (e : Half) (v m : Byte) (s : State) :
    (serveSetCounterSelection g j e v m s).1.outside = s.outside := by
  unfold serveSetCounterSelection
  split <;> simp

theorem state_serveReadCounters (g : Byte) (s : State) : (serveReadCounters g s).1 = s := by
  unfold serveReadCounters
  split <;> rfl

theorem outside_serveClearCounters (g : Byte) (s : State) : (serveClearCounters g s).1.outside = s.outside := by
  unfold serveClearCounters
  split <;> simp

/-- No request changes the untouched part, whoever takes it. -/
theorem untouched_serveOwner (t : Taker) (r : Request) (s : State) : (serveOwner t r s).1.untouched = s.untouched := by
  cases r <;> simp only [serveOwner]
  case reading => exact untouched_of_outside (outside_serveReading _ _)
  case definePoint => exact untouched_of_outside (outside_serveDefinePoint _ _)
  case withdrawPoint => exact untouched_of_outside (outside_serveWithdrawPoint _ _)
  case readPoint => exact untouched_of_outside (outside_serveReadPoint _ _)
  case shelvePoint => exact untouched_of_outside (outside_serveShelvePoint _ _ _)
  case unshelvePoint => exact untouched_of_outside (outside_serveUnshelvePoint _ _)
  case defineGroup => exact untouched_of_outside (outside_serveDefineGroup _ _)
  case readGroup => exact untouched_of_outside (outside_serveReadGroup _ _)
  case lookUp => rw [state_serveLookUp]
  case readRecord => rw [state_serveReadRecord]
  case listWalk => rw [state_serveListWalk]
  case summary => rfl
  case acknowledge => exact untouched_of_outside (outside_serveAcknowledge _ _ _ _ _)
  case acknowledgeGroup => exact untouched_of_outside (outside_serveAcknowledgeGroup _ _ _ _ _)
  case setCounterSelection => exact untouched_of_outside (outside_serveSetCounterSelection _ _ _ _ _ _)
  case readCounters => rw [state_serveReadCounters]
  case clearCounters => exact untouched_of_outside (outside_serveClearCounters _ _)
  case readLinkCounters =>
    unfold serveReadLinkCounters
    split <;> rfl
  case setTime => rfl
  case wakeHut =>
    cases t
    · rfl
    · exact untouched_of_outside (outside_wakeCause _ _)
  case readNotices => rfl
  case peekNotices => rfl
  case setNoticeEnables => rfl
  case setHutSettings =>
    unfold serveSetHutSettings
    split <;> rfl
  case enterDormant =>
    unfold serveEnterDormant
    split <;> rfl
  case restart => rfl

theorem untouched_serve (t : Taker) (r : Request) (s : State) : (serve t r s).1.untouched = s.untouched := by
  unfold serve
  split
  · exact untouched_serveOwner t r s
  · rfl

theorem untouched_serveMessage (t : Taker) (code : Byte) (body : List Byte) (s : State) :
    (serveMessage t code body s).1.untouched = s.untouched := by
  unfold serveMessage
  split
  · exact untouched_serve _ _ _
  · rfl

end Sys2Proof.Machine
end

