-- ==== Sys2Proof/Tests/Slice0.lean ====
section
/-! SUPPORT. Tests: small checks of the model against the spec's own numbers, and for every statement with hypotheses a concrete state
and operands that meet them, each clause at a boundary value. -/

open Sys2Proof Sys2Proof.Machine

set_option maxRecDepth 20000

namespace Sys2Proof.Tests

/-! ## Small states -/

/-- A body field of zeros with its point. -/
def blankPoint (p : Byte) : RawPoint :=
  { point := p, source := 0#8, line := 0#8, activeLevel := 0#8, group := 0#8, retirement := 0#8, thresholdsPresent := 0#8
    lowThreshold := 0#16, highThreshold := 0#16, hysteresis := 0#16, capacity := 1#16, weighting := 0#8, weight := 1#8
    severityLow := 1#8, severityHigh := 1#8, severityStale := 1#8, severityFault := 1#8, staleInterval := 0#16 }

/-- A Reading point of group 7 without thresholds, of severity 2 in every kind. -/
def plain : Definition :=
  { source := .reading, group := 7, retirement := .latched, lowThreshold := none, highThreshold := none, hysteresis := 0, capacity := 1
    weighting := .count 1, severityLow := .minor, severityHigh := .minor, severityStale := .minor, severityFault := .minor
    staleInterval := 0 }

/-- An In Service entry with Quiet keys. -/
def entry (d : Definition) : PointEntry := .defined d

/-- The state after reset with an entry at point 63. -/
def withPoint (e : PointEntry) : State := { State.reset with pt := vset State.reset.pt 63 e }

/-- An entry whose key of a kind has an entry of its own. -/
def withKey (e : PointEntry) (kind : Kind) (k : KeyEntry) : PointEntry := { e with keys := e.keys.set kind k }

/-- The state with the governor of group 7 changed. -/
def withGovernor (f : Governor → Governor) (s : State) : State := { s with sg := vset s.sg 7 (f (s.governor 7)) }

/-- The state after reset in a mode. -/
def inMode (m : Mode) : State :=
  { State.reset with tb := { State.reset.tb with mode := m, settle := if m = .settling then some 2 else none } }

/-- The state after reset with RST_N low. -/
def pinLow : State := { State.reset with resetLow := true }

/-- The state after a power-on with the West carrier lost. -/
def westLost : State := State.afterPowerOn { straps := 1#8, westCarrier := false, eastCarrier := true }

/-- A header that addresses hut 1, on the West side. -/
def toHut : RouteHeader := { side := .west, destination := 1#8, source := 255#8, hop := 63#6, tag := 0#8 }

/-- A broadcast header with hop budget 0. -/
def toAll : RouteHeader := { toHut with destination := 0#8, hop := 0#6 }

/-- A record of a life. -/
def lifeOf (k : Key) (state : RecordState) : Record :=
  { state, key := some k, severity := .minor, raiseTime := 0#32, repeats := 255#8, peak := none
    clearTime := if state = .cleared then some 0#32 else none
    ack := if state = .acknowledged then some { taker := .localPort, tag := 0#16, time := 0#32 } else none }

/-- The state with record `i` off the Free list, with a state of its own, on the list of that state. -/
def withRecord (i : RecordIx) (r : Record) (s : State) : State :=
  { s with rt := { s.rt with
      records := vset s.rt.records i r
      free := s.rt.free.erase i
      standing := if r.state = .standing then s.rt.standing ++ [i] else s.rt.standing
      acknowledged := if r.state = .acknowledged then s.rt.acknowledged ++ [i] else s.rt.acknowledged
      cleared := if r.state = .cleared then s.rt.cleared ++ [i] else s.rt.cleared } }

/-- Point 63 with its Fault key on record 0, in a key state and a record state. -/
def faultOn (d : Definition) (k : KeyState) (r : RecordState) : State :=
  withRecord 0 (lifeOf (.point { point := 63, kind := .fault }) r)
    (withPoint (withKey (entry d) .fault { state := k, link := some 0, pending := none }))

/-- A table with no record Free: the four keys of points 0 to 39 hold the 160 pool records, all Standing but record 1, which is
Cleared; the storm record of group 0 is Cleared; the Fault key of point 63 waits. -/
def full : State :=
  let d : Definition := { plain with lowThreshold := some 0#16, highThreshold := some 1#16, capacity := 2 }
  let linked (state : KeyState) (i : Nat) : KeyEntry := { state, link := some (Fin.ofNat 168 i), pending := none }
  let point (p : Nat) : PointEntry :=
    if p < 40 then
      { entry d with keys := { low := linked .raised (4 * p), high := linked (if p = 0 then .cleared else .raised) (4 * p + 1)
                               stale := linked .raised (4 * p + 2), fault := linked .raised (4 * p + 3) } }
    else if p = 63 then
      withKey (entry plain) .fault { state := .waiting, link := none, pending := some { severity := .minor, value := none } }
    else .vacant
  let record (i : Nat) : Record :=
    if i < 160 then
      let kind : Kind := match i % 4 with
        | 0 => .low
        | 1 => .high
        | 2 => .stale
        | _ => .fault
      { lifeOf (.point { point := Fin.ofNat 64 (i / 4), kind }) (if i = 1 then .cleared else .standing) with
        peak := if kind.hasValue then some 0#16 else none }
    else if i = 160 then { lifeOf (.storm 0) .cleared with peak := some 1#16 }
    else .reset .idle
  { State.reset with
    pt := ⟨((List.range 64).map point).toArray, by simp⟩
    rt :=
      { records := ⟨((List.range 168).map record).toArray, by simp⟩, free := []
        standing := 0 :: ((List.range 158).map fun i => Fin.ofNat 168 (i + 2)), acknowledged := [], cleared := [1, 160]
        poolWait := [{ point := 63, kind := .fault }], changeCount := 0#16 }
    nu := { State.reset.nu with flags := 0x11#8 } }

theorem served_reset : served .localPort State.reset := ⟨rfl, .inl rfl⟩

theorem served_route : served (.route toHut) State.reset := ⟨rfl, rfl, .inl (by decide)⟩

theorem served_broadcast : served (.route toAll) State.reset := ⟨rfl, rfl, .inr rfl⟩

theorem served_point (e : PointEntry) : served .localPort (withPoint e) := ⟨rfl, .inl rfl⟩

theorem served_fault (d : Definition) (k : KeyState) (r : RecordState) : served .localPort (faultOn d k r) := ⟨rfl, .inl rfl⟩

theorem served_full : served .localPort full := ⟨rfl, .inl rfl⟩

theorem reset_table : TableLaw State.reset := tableLaw_of_check (by decide +kernel)

/-- A record that begins a life keeps the law of the table. -/
theorem table_withRecord {s : State} {i : RecordIx} {r : Record} (h : TableLaw s)
    (off : (s.record i).state = .free ∨ (s.record i).state = .idle) (hr : recordCheck i r = true) (live : r.state.live = true) :
    TableLaw (withRecord i r s) := by
  obtain ⟨records, lists⟩ := h
  have hs : i ∉ s.rt.standing := fun m => by rcases off with e | e <;> rw [(lists.standing i).1 m] at e <;> cases e
  have ha : i ∉ s.rt.acknowledged := fun m => by rcases off with e | e <;> rw [(lists.acknowledged i).1 m] at e <;> cases e
  have hc : i ∉ s.rt.cleared := fun m => by rcases off with e | e <;> rw [(lists.cleared i).1 m] at e <;> cases e
  have ls := list_withRecord (r := r) lists.standing lists.standingOnce hs
  have la := list_withRecord (r := r) lists.acknowledged lists.acknowledgedOnce ha
  have lc := list_withRecord (r := r) lists.cleared lists.clearedOnce hc
  refine ⟨fun j => ?_, ⟨fun j => ?_, ls.1, la.1, lc.1, lists.freeOnce.erase i, ls.2, la.2, lc.2⟩⟩
  · show RecordLaw j (vget (vset s.rt.records i r) j)
    rw [vget_vset]
    split
    · next e => exact e ▸ recordLaw_of_check hr
    · exact records j
  · show j ∈ s.rt.free.erase i ↔ (vget (vset s.rt.records i r) j).state = .free
    rw [lists.freeOnce.mem_erase_iff, vget_vset]
    by_cases e : i = j
    · subst e
      have : r.state ≠ .free := fun f => by rw [f] at live; cases live
      simp [this]
    · have e' : ¬ j = i := fun f => e f.symm
      simp only [e, if_false, ne_eq, e', not_false_eq_true, true_and]
      exact lists.free j

/-! ## Checks against the spec's own numbers -/

/-- WellFormed: twelve readings fit into a message, thirteen do not. -/
theorem test_wellFormed :
    (Instr.reading .localPort (List.replicate 12 ⟨0#8, 0#8, 0#16⟩)).wf = true ∧
      (Instr.reading .localPort (List.replicate 13 ⟨0#8, 0#8, 0#16⟩)).wf = false := by decide

/-- No word spells a command, and withFetchWord leaves the state. -/
theorem test_no_word : decodeTableWord 8 1 = none ∧ State.reset.withFetchWord 8 1 = State.reset := ⟨rfl, rfl⟩

/-- The check of the nine digits (R143). -/
theorem test_crc : crc [49#8, 50#8, 51#8, 52#8, 53#8, 54#8, 55#8, 56#8, 57#8] = 0x29B1#16 := by decide +kernel

/-- A request whose bytes are written out from 11 sections 11.2, 11.5 and 11.6: Shelve Point, point 12, 480 minutes. -/
theorem test_decode_shelve : decodeRequest 5#8 [12#8, 1#8, 0xE0#8] = .ok (.shelvePoint 12#8 480#16) := by decide

/-- The run of 11.9: UnknownCode, BadBodyLength, NotPermitted, BadField, BadBodyLength, BadField, in this order. -/
theorem test_run_of_11_9 :
    (serveMessage .localPort 33#8 [] State.reset).2.status = .unknownCode ∧
    (serveMessage .localPort 5#8 [12#8] State.reset).2.status = .badBodyLength ∧
    (serveMessage .localPort 20#8 [] State.reset).2.status = .notPermitted ∧
    (serveMessage .localPort 1#8 [] State.reset).2.status = .badField ∧
    (serveMessage .localPort 1#8 [0#8, 0#8, 0#8, 0#8, 0#8, 0#8] State.reset).2.status = .badBodyLength ∧
    (serveMessage .localPort 9#8 [12#8, 7#8] State.reset).2.status = .badField := by decide +kernel

/-- A message of length 52 is Malformed (11.9), and a transaction of eight zeros reads the slot Empty (R160). -/
theorem test_transactions :
    exec (.localTransaction (bitsOf [52#8]) none) State.reset =
      .next { State.reset with lp := { slot := some { status := .malformed, body := [] }, lsdo := List.replicate 8 false } } ∧
    exec (.localTransaction (List.replicate 8 false) none) State.reset =
      .next { State.reset with lp := { slot := none, lsdo := List.replicate 8 false } } := ⟨rfl, rfl⟩

/-- The levels of 03 section 3.10: H 450, Y 20, C 40, Magnitude with k = 2. -/
theorem test_levels_of_3_10 :
    let ev : Evaluation := { threshold := 450, hysteresis := 20, weighting := .magnitude 2 };
    [(0, 470), (5, 530), (25, 1600), (40, 440), (40, 400), (33, 300), (1, 429)].map (fun x : Nat × Int => newLevel .high ev 40 x.1 x.2) =
      [5, 25, 40, 40, 33, 1, 0] := by decide

/-- A live duration across a clock set back is 0 (R3). -/
theorem test_duration : Record.duration (lifeOf (.storm 0) .standing) 7#32 = 7 ∧
    Record.duration { lifeOf (.storm 0) .standing with raiseTime := 8#32 } 7#32 = 0 := by decide

/-- Withdraw, acknowledge and retire in one: the acknowledgement of the Cleared record 1 hands it to the waiting key (R76). -/
theorem test_hand_over : ∃ t, exec (.acknowledge .localPort 0#8 { number := 1#8, kind := 0#8 } 5#16) full = .next t ∧
    (t.record 1).key = some (.point { point := 63, kind := .fault }) ∧ t.rt.poolWait = [] ∧ t.rt.changeCount = 3#16 :=
  ⟨_, rfl, by decide +kernel⟩

/-! ## Witnesses: the machine and the local port -/

theorem witness_StepRunsTheFrontCommand :
    ({ State.reset with pending := [.settleExpiry] } : State).pending = Instr.settleExpiry :: [] ∧ State.reset.pending = [] := ⟨rfl, rfl⟩

theorem witness_LocalRequestActsByMode :
    (Instr.summary .localPort).request? = some (.localPort, .summary) ∧
    (∀ m, (inMode m).inHold = false ∧ (inMode m).tb.mode = m) ∧ pinLow.inHold = true := by
  refine ⟨rfl, fun m => ?_, rfl⟩
  cases m <;> decide

theorem witness_LocalTransactionJudged :
    (inMode .watch).inHold = false ∧ (inMode .watch).tb.mode = .watch ∧ (inMode .waking).inHold = false ∧
    (inMode .waking).tb.mode = .waking ∧
    bytesOf (List.replicate 7 true) = [] ∧ bytesOf (bitsOf [0#8, 1#8]) = [0#8, 1#8] ∧
    (bytesOf (bitsOf [50#8]) = [50#8] ∧ 49 < (50#8).toNat) ∧
    (bytesOf (bitsOf [49#8, 1#8]) = [49#8, 1#8] ∧ (49#8 : Byte) ≠ 0#8 ∧ [1#8].length < (49#8).toNat + 2) ∧
    (let rest : List Byte := [12#8, 0#8, 0#8];
      (1#8).toNat + 2 ≤ rest.length ∧ (rest.drop 1).take 2 ≠ halfBytes (crc (1#8 :: rest.take 1))) ∧
    (∀ code ∈ ([0#8, 27#8, 255#8] : List Byte),
      let m := localMessage code [];
      bytesOf (bitsOf m) = m ∧ m.take 2 = [1#8, code] ∧ (m.drop 2).length = 2 ∧
        ((m.drop 2).drop 0).take 2 = halfBytes (crc (1#8 :: code :: (m.drop 2).take 0)) ∧ (code = 0#8 ∨ 27 ≤ code.toNat)) ∧
    (let m := localMessage 1#8 [0#8];
      bytesOf (bitsOf m) = m ∧ m.take 2 = [2#8, 1#8] ∧ (2 - 1) % 4 ≠ 0) ∧
    (let m := localMessage 26#8 (List.replicate 48 0#8);
      bytesOf (bitsOf m) = m ∧ m.take 2 = [49#8, 26#8] ∧
        ((m.drop 2).drop 48).take 2 = halfBytes (crc (49#8 :: 26#8 :: (m.drop 2).take 48)) ∧ some 0 ≠ some (49 - 1)) := by
  decide +kernel

/-- The clocks of a cut transaction: the slot before the hold, zeros in it; the last clock comes after a completion. -/
theorem test_cut_transaction :
    (List.range 4).map (cutBit { before := 2, held := [true, false] } [true, false, true, true] (fun _ => true)) =
      [true, false, false, true] := by decide

theorem witness_LocalTransactionNotExamined :
    (inMode .settling).inHold = false ∧ (inMode .settling).tb.mode = .settling ∧ (inMode .dormant).inHold = false ∧
    (inMode .dormant).tb.mode = .dormant ∧ pinLow.inHold = true ∧
    (let bits := List.replicate 4 true; let held := [true, false];
      1 < bits.length ∧ 1 < 2 ∧ 2 < bits.length ∧ 2 ≤ 2 ∧ held[2 - 2]? = some true ∧ 0 < bits.length ∧ 0 ≤ 0 ∧
        held[0 - 0]? = some true) := by decide

theorem witness_LocalTransactionCarriesItsRequest :
    let rs : List RawReading := List.replicate 12 ⟨63#8, 0#8, 0#16⟩;
    (Instr.reading .localPort rs).request? = some (.localPort, .reading rs) ∧ (Instr.reading .localPort rs).wf = true := by decide

theorem witness_RequestsDecodeAndEncode : decodeRequest 26#8 [] = .ok .restart := by decide

theorem witness_PortsPermitTheirRequests :
    served .localPort State.reset ∧ (Instr.restart .localPort).request? = some (.localPort, .restart) ∧ Request.restart ≠ .wakeHut ∧
    served (.route toHut) State.reset ∧
    (Instr.restart (.route toHut)).request? = some (.route toHut, .restart) ∧
    Request.restart.code.toNat ∈ [1, 2, 3, 7, 15, 21, 22, 23, 24, 25, 26] ∧
    (Instr.wakeHut (.route toHut)).request? = some (.route toHut, .wakeHut) ∧
    Request.wakeHut.code.toNat ∉ [1, 2, 3, 7, 15, 21, 22, 23, 24, 25, 26] :=
  ⟨served_reset, rfl, by decide, served_route, rfl, by decide, rfl, by decide⟩

/-! ## Witnesses: the route link -/

theorem witness_FrameArrivalCarriesItsRequest :
    (Instr.summary (.route toHut)).request? = some (.route toHut, .summary) ∧ (Instr.summary (.route toHut)).wf = true ∧
    (State.reset.side toHut.side).reception = [] := ⟨rfl, rfl, rfl⟩

/-- A reply frame with the longest body, with a destination and a hop budget. -/
def replyTo (destination : Byte) (hop : BitVec 6) : Frame :=
  { destination, source := 3#8, kind := .reply, hop, tag := 0#8, code := 0#8, body := List.replicate 48 0#8 }

theorem witness_FramesBoundElsewhere :
    State.reset.inHold = false ∧ (State.reset.side .east).carrier = true ∧ (State.reset.side .east).reception = [] ∧
    (replyTo 1#8 0#6).body.length ≤ 48 ∧ State.reset.isOwn (replyTo 1#8 0#6).destination = true ∧ (replyTo 1#8 0#6).kind = .reply ∧
    (∀ hop ∈ ([0#6, 1#6, 63#6] : List (BitVec 6)),
      State.reset.isOwn (replyTo 2#8 hop).destination = false ∧ (replyTo 2#8 hop).destination ≠ 0#8 ∧
      State.reset.isOwn (replyTo 0#8 hop).destination = false ∧ (replyTo 0#8 hop).kind = .reply) := by decide

theorem witness_BadFramesAreCountedAlone :
    State.reset.inHold = false ∧ (State.reset.side .west).reception = [] ∧ (State.reset.side .west).carrier = true ∧
    (let rest : List Byte := List.replicate 55 0#8;
      (48#8).toNat ≤ 48 ∧ rest.length = (48#8).toNat + 7 ∧ rest.drop 53 ≠ halfBytes (crc (48#8 :: rest.take 53))) ∧
    (let covered : List Byte := [0#8, 1#8, 2#8, 0x40#8, 0#8, 12#8];
      let rest := covered.drop 1 ++ halfBytes (crc covered);
      rest.length = (0#8).toNat + 7 ∧ rest.drop 5 = halfBytes (crc (0#8 :: rest.take 5)) ∧ rest[2]? = some 0x40#8 ∧
        (0x40#8).getLsbD 6 = true) ∧
    48 < (49#8).toNat ∧ 0xC3#8 ∉ ([0#8, 0xC2#8] : List Byte) ∧
    westLost.inHold = false ∧ (westLost.side .west).carrier = false ∧ (westLost.side .west).reception = [] := by decide +kernel

theorem witness_UndecodableFramesAreAnswered :
    (served (.route toHut) State.reset ∧ State.reset.isOwn toHut.destination = true) ∧
    (served (.route toAll) State.reset ∧ State.reset.isOwn toAll.destination = false ∧ toAll.hop = 0#6) ∧
    (served (.route { toAll with hop := 1#6 }) State.reset ∧ ({ toAll with hop := 1#6 } : RouteHeader).hop ≠ 0#6) ∧
    (State.reset.side .west).reception = [] ∧ (List.replicate 48 0#8 : List Byte).length ≤ 48 ∧
    decodeRequest 27#8 (List.replicate 48 0#8) = .error .unknownCode ∧
    decodeRequest 26#8 (List.replicate 48 0#8) = .error .badBodyLength :=
  ⟨⟨served_route, by decide⟩, ⟨served_broadcast, by decide, rfl⟩, ⟨⟨rfl, rfl, .inr rfl⟩, by decide⟩, rfl, by decide, by decide, by decide⟩

theorem witness_CheckSequenceFindsAChangedByte : (0#8 : Byte) ≠ 128#8 := by decide

/-- The state with one frame on the West queue. -/
def oneQueued : State := onSide .west (fun x => { x with queue := [replyTo 2#8 0#6] }) State.reset

theorem witness_TransmissionsAndCarriersOfASide :
    oneQueued.inHold = false ∧ (oneQueued.side .west).carrier = true ∧ (oneQueued.side .west).queue = [replyTo 2#8 0#6] ∧
    westLost.inHold = false ∧ (westLost.side .west).carrier = false := by decide

theorem witness_ReadLinkCountersReportsAndClears : served (.route toHut) State.reset ∧ served .localPort State.reset :=
  ⟨served_route, served_reset⟩

/-! ## Witnesses: points -/

theorem witness_DefinePointChecksThenWrites :
    served .localPort State.reset ∧ ¬ FieldsInRange (blankPoint 64#8) ∧ FieldsInRange (blankPoint 63#8) ∧
    ((63 : PointId).val = (blankPoint 63#8).point.toNat ∧ ((withPoint (entry plain)).point 63).defn ≠ none) ∧
    ((withPoint (entry plain)).point 0).defn = none ∧
    (lineTaken (.contact 15 true) (withPoint (entry { plain with source := .contact 15 false }))) ∧
    (¬ lineTaken .reading State.reset ∧ bandsInvalid { plain with lowThreshold := some 0#16, highThreshold := some 0#16 } ∧
      bandsInvalid { plain with highThreshold := some 0x8000#16, hysteresis := 1 } ∧
      bandsInvalid { plain with lowThreshold := some 0x7FFF#16, hysteresis := 1 }) ∧
    ¬ bandsInvalid { plain with lowThreshold := some 0x8000#16, highThreshold := some 0x8FFF#16, hysteresis := 4095 } := by
  refine ⟨served_reset, fun h => absurd h.point (by decide), ?_, ?_, by decide +kernel, ?_, ⟨?_, ?_, ?_, ?_⟩, ?_⟩
  · exact ⟨by decide, by decide, by decide, by decide, by decide, by decide, by decide, by decide, by decide, by decide, by decide, by decide⟩
  · decide +kernel
  · exact ⟨63, _, rfl, .inl ⟨15, true, false, rfl, rfl⟩⟩
  · rintro ⟨q, d, _, ⟨line, a, b, h, _⟩ | ⟨side, h, _⟩⟩ <;> cases h
  · exact .inl ⟨0#16, 0#16, rfl, rfl, by decide⟩
  · exact .inr (.inl ⟨_, rfl, by decide⟩)
  · exact .inr (.inr ⟨_, rfl, by decide⟩)
  · rintro (⟨lo, hi, hl, hh, h⟩ | ⟨hi, hh, h⟩ | ⟨lo, hl, h⟩)
    · cases hl
      cases hh
      exact absurd h (by decide)
    · cases hh
      exact absurd h (by decide)
    · cases hl
      exact absurd h (by decide)

theorem full_table : TableLaw full := tableLaw_of_check (by decide +kernel)

theorem full_inv : Machine.Inv full :=
  inv_of_checks full_table (by decide +kernel) (by decide +kernel) (by decide +kernel) (by decide +kernel) (by decide +kernel)
    (by decide +kernel) (by decide +kernel)

/-- A key entry of a state alone. -/
def bare (k : KeyState) : KeyEntry := { state := k, link := none, pending := none }

/-- The Fault key of point 63 folded, its group in Fold mode, Open or Closed, the storm record in a state. -/
def foldedIn (gate : Gate) (state : RecordState) : State :=
  withGovernor (fun x => { x with gate, tokens := 0, folded := [faultKey 63], defn := { x.defn with mode := .fold } })
    (withRecord 167 { lifeOf (.storm 7) state with peak := some 1#16 } (withPoint (withKey (entry plain) .fault (bare .folded))))

theorem table_withPoint (e : PointEntry) (i : RecordIx) (r : Record)
    (off : (State.reset.record i).state = .free ∨ (State.reset.record i).state = .idle) (hr : recordCheck i r = true)
    (live : r.state.live = true) : TableLaw (withRecord i r (withPoint e)) :=
  table_withRecord (tableLaw_of_rt (s := State.reset) rfl reset_table) off hr live

theorem table_foldedIn (gate : Gate) (state : RecordState) (hr : recordCheck 167 { lifeOf (.storm 7) state with peak := some 1#16 } = true)
    (live : state.live = true) : TableLaw (foldedIn gate state) :=
  tableLaw_of_rt (s := withRecord 167 { lifeOf (.storm 7) state with peak := some 1#16 } _) rfl
    (table_withPoint (withKey (entry plain) .fault (bare .folded)) 167 _ (.inr (by decide +kernel)) hr live)

theorem foldedIn_inv : Machine.Inv (foldedIn .opened .standing) :=
  inv_of_checks (table_foldedIn .opened .standing (by decide) rfl) (by decide +kernel) (by decide +kernel) (by decide +kernel)
    (by decide +kernel) (by decide +kernel) (by decide +kernel) (by decide +kernel)

theorem witness_WithdrawPointRemovesEveryTrace :
    served .localPort full ∧ 63 < (64#8 : Byte).toNat ∧ (63 : PointId).val = (63#8 : Byte).toNat ∧
    (State.reset.point 63).defn = none ∧ (full.point 63).defn = some plain ∧ Machine.Inv full ∧
    ((0 : PointId).val = (0#8 : Byte).toNat ∧ (∃ d, (full.point 0).defn = some d) ∧ linkedOf 0 full = [0, 1, 2, 3] ∧
      waitingBut 0 full = [faultKey 63] ∧ (full.key (faultKey 63)).pending = some { severity := .minor, value := none }) ∧
    (served .localPort (foldedIn .opened .standing) ∧ Machine.Inv (foldedIn .opened .standing) ∧
      ((foldedIn .opened .standing).point 63).defn = some plain ∧ 0 < keysIn 63 .folded (foldedIn .opened .standing) ∧
      ((foldedIn .opened .standing).governor 7).gate = .opened ∧
      ∀ k ∈ ((foldedIn .opened .standing).governor 7).folded, k.point = 63) ∧
    (TableLaw full ∧ (full.record 0).state.live = true ∧ (full.record 0).key = some (.point { point := 0, kind := .low }) ∧
      ({ point := 0, kind := .low } : PointKey) ∉ full.rt.poolWait) :=
  ⟨served_full, by decide, by decide, by decide +kernel, by decide +kernel, full_inv,
    ⟨by decide, ⟨_, rfl⟩, by decide +kernel, by decide +kernel, by decide +kernel⟩,
    ⟨⟨rfl, .inl rfl⟩, foldedIn_inv, by decide +kernel, by decide +kernel, by decide +kernel, by decide +kernel⟩,
    full_table, by decide +kernel, by decide +kernel, by decide +kernel⟩

theorem witness_ReadPointReturnsTheEntry :
    served .localPort State.reset ∧ 63 < (64#8 : Byte).toNat ∧ (63 : PointId).val = (63#8 : Byte).toNat ∧
    (State.reset.point 63).defn = none ∧ served .localPort (withPoint (entry plain)) ∧
    ((withPoint (entry plain)).point 63).defn = some plain :=
  ⟨served_reset, by decide, by decide, by decide +kernel, served_point _, by decide +kernel⟩

theorem witness_ShelvePointLoadsTheCountdown :
    served .localPort State.reset ∧ 63 < (64#8 : Byte).toNat ∧ 1440 < (1441#16 : Half).toNat ∧
    (63 : PointId).val = (63#8 : Byte).toNat ∧ (1#16 : Half) ≠ 0#16 ∧ (1440#16 : Half).toNat ≤ 1440 ∧
    (State.reset.point 63).defn = none ∧ served .localPort (withPoint (entry plain)) ∧
    ((withPoint (entry plain)).point 63).defn ≠ none :=
  ⟨served_reset, by decide, by decide, by decide, by decide, by decide, by decide +kernel, served_point _, by decide +kernel⟩

/-- Point 63 shelved for one more second, with its Fault key on a Standing record. -/
def shelved : State :=
  let s := faultOn plain .raised .standing;
  { s with pt := vset s.pt 63 { s.point 63 with shelve := 1 } }

theorem witness_LeavingShelvingMakesItsOffers :
    served .localPort shelved ∧ 63 < (64#8 : Byte).toNat ∧ (63 : PointId).val = (63#8 : Byte).toNat ∧
    (State.reset.point 63).defn = none ∧
    (((withPoint (entry plain)).point 63).defn ≠ none ∧ ((withPoint (entry plain)).point 63).shelve = 0) ∧
    ((shelved.point 63).defn ≠ none ∧ 0 < (shelved.point 63).shelve) ∧ shelved.inHold = false :=
  ⟨⟨rfl, .inl rfl⟩, by decide, by decide, by decide +kernel, by decide +kernel, by decide +kernel, rfl⟩

/-! ## Witnesses: readings and samples -/

theorem witness_ReadingCountsAppliedAndRejected :
    let many (n : Nat) : List RawReading := List.replicate n ⟨63#8, 0#8, 0#16⟩;
    served .localPort State.reset ∧ 8 < (many 9).length ∧ (∃ r ∈ ([⟨64#8, 0#8, 0#16⟩] : List RawReading), 63 < r.point.toNat) ∧
    many 8 ≠ [] ∧ (many 8).length ≤ 8 ∧ (∀ r ∈ many 8, r.point.toNat ≤ 63) ∧ (∀ r ∈ many 8, taken State.reset r = false) :=
  ⟨served_reset, by decide, ⟨_, List.mem_cons_self, by decide⟩, by decide, by decide, by decide, by decide +kernel⟩

/-- A reading of point 63, marked or not. -/
def readingOf (fault : Byte) (value : Half) : RawReading := { point := 63#8, fault, value }

theorem witness_ReadingMovesItsBuckets :
    served .localPort (withPoint (entry plain)) ∧ (63 : PointId).val = (readingOf 0#8 0#16).point.toNat ∧
    (63 : PointId).val = (readingOf 255#8 0#16).point.toNat ∧ (readingOf 255#8 0#16).fault ≠ 0#8 ∧ (readingOf 0#8 0#16).fault = 0#8 ∧
    ((withPoint (entry plain)).point 63).defn = some plain ∧ plain.source = .reading :=
  ⟨served_point _, by decide, by decide, by decide, rfl, by decide +kernel, rfl⟩

theorem witness_ScanTickSamplesContactsAndCarriers : State.reset.inHold = false := rfl

/-! ## Witnesses: groups -/

/-- Define Group of group 7 with the widest numbers. -/
def widest : RawGroup :=
  { group := 7#8, depth := 15#8, reopen := 15#8, refillExponent := 7#8, bypass := 5#8, mode := 1#8, stormSeverity := 4#8 }

/-- The storm record of group 7 in a state. -/
def storm (state : RecordState) : State := withRecord 167 { lifeOf (.storm 7) state with peak := some 1#16 } State.reset

theorem witness_DefineGroupOpensAFullGovernor :
    served .localPort State.reset ∧ ¬ GroupInRange { widest with reopen := 16#8 } ∧ GroupInRange widest ∧
    (7 : GroupId).val = widest.group.toNat ∧
    (∃ p e, ((withPoint (entry plain)).point p).defn = some e ∧ e.group = 7) ∧
    (∀ p e, (State.reset.point p).defn = some e → e.group ≠ 7) ∧ (State.reset.record (stormIx 7)).state = .idle ∧
    (∀ x ∈ ([.cleared, .standing, .acknowledged] : List RecordState),
      ((storm x).record (stormIx 7)).state = x ∧ ((storm x).record (stormIx 7)).key = some (.storm 7)) ∧
    ∀ x p e, ((storm x).point p).defn = some e → e.group ≠ 7 := by
  have vacant : ∀ p : PointId, (State.reset.point p).defn = none := by decide +kernel
  refine ⟨served_reset, fun h => absurd h.reopen.2 (by decide), ⟨by decide, by decide, by decide, by decide, by decide, by decide, by decide⟩,
    by decide, ⟨63, plain, by decide +kernel, rfl⟩, fun p e h => ?_, by decide +kernel, by decide +kernel, fun x p e h => ?_⟩
  · rw [vacant p] at h
    cases h
  · rw [show (storm x).point p = State.reset.point p from rfl, vacant p] at h
    cases h

theorem witness_ReadGroupReturnsTheGovernor :
    served .localPort State.reset ∧ 7 < (8#8 : Byte).toNat ∧ (7 : GroupId).val = (7#8 : Byte).toNat := ⟨served_reset, by decide, by decide⟩

/-! ## Witnesses: records -/

theorem witness_ReadRecordReturnsTheRecord :
    served .localPort State.reset ∧ 167 < (168#8 : Byte).toNat ∧ (167 : RecordIx).val = (167#8 : Byte).toNat :=
  ⟨served_reset, by decide, by decide⟩

/-- Point 63 with its Fault key waiting in a state. -/
def waitingIn (k : KeyState) : State :=
  withPoint (withKey (entry plain) .fault { state := k, link := none, pending := some { severity := .minor, value := none } })

theorem witness_LookUpAnswersByTheKey :
    served .localPort State.reset ∧ NamesNoKey ⟨0#8, 5#8⟩ ∧ NamesNoKey ⟨64#8, 3#8⟩ ∧ NamesNoKey ⟨8#8, 4#8⟩ ∧
    Names ⟨63#8, 3#8⟩ (.point (faultKey 63)) ∧ Names ⟨7#8, 4#8⟩ (.storm 7) ∧
    (State.reset.key (faultKey 63)).state = .quiet ∧
    (∀ k ∈ ([.raised, .cleared] : List KeyState), ((faultOn plain k .standing).key (faultKey 63)).state = k ∧
      ((faultOn plain k .standing).key (faultKey 63)).link = some 0) ∧
    (∀ k ∈ ([.held, .waiting, .folded] : List KeyState), ((waitingIn k).key (faultKey 63)).state = k) ∧
    ((storm .standing).record (stormIx 7)).state.live = true ∧ (State.reset.record (stormIx 7)).state = .idle :=
  ⟨served_reset, .inl (by decide), .inr (.inl (by decide)), .inr (.inr (by decide)), rfl, rfl, by decide +kernel,
    by decide +kernel, by decide +kernel, by decide +kernel, by decide +kernel⟩

/-- A walk of a list from its head, of one entry. -/
def walk (list : Byte) (form : Byte) (cursor : RawKey) (count : Byte) : RawWalk :=
  { list, group := 7#8, count, cursorForm := form, cursor }

/-- The state with the Fault key of point 63 on the storm-held list of group 7. -/
def heldOne : State := withGovernor (fun x => { x with held := [faultKey 63] }) (waitingIn .held)

theorem witness_ListWalkReturnsAPage :
    served .localPort State.reset ∧
    ((walk 0#8 0#8 ⟨0#8, 0#8⟩ 0#8).count = 0#8 ∧ 8 < (walk 0#8 0#8 ⟨0#8, 0#8⟩ 9#8).count.toNat ∧
      recordList 6#8 State.reset = none ∧ keyList 6#8 7#8 State.reset = none ∧ keyList 5#8 8#8 State.reset = none) ∧
    ((3#8 : Byte).toNat ≤ 3 ∧ 2 ≤ (2#8 : Byte).toNat ∧ 167 < (168#8 : Byte).toNat) ∧
    (4 ≤ (4#8 : Byte).toNat ∧ 3 ≤ (3#8 : Byte).toNat ∧ NamesNoKey ⟨64#8, 0#8⟩) ∧
    (∃ l, recordList 1#8 (faultOn plain .raised .standing) = some l ∧ (1 : RecordIx) ∉ l ∧ l = [] ++ 0 :: [] ∧ (0 : RecordIx) ∉ ([] : List RecordIx)) ∧
    ∃ l, keyList 5#8 7#8 heldOne = some l ∧ allPending heldOne l ∧ Names ⟨7#8, 4#8⟩ (.storm 7) ∧
      Names ⟨63#8, 3#8⟩ (.point (faultKey 63)) ∧ Names ⟨63#8, 2#8⟩ (.point (staleKey 63)) ∧ staleKey 63 ∉ l ∧
      l = [] ++ faultKey 63 :: [] ∧ faultKey 63 ∉ ([] : List PointKey) :=
  ⟨served_reset, by decide +kernel, by decide, ⟨by decide, by decide, .inr (.inl (by decide))⟩,
    ⟨[0], by decide +kernel, by decide, rfl, by decide⟩,
    ⟨[faultKey 63], by decide +kernel, fun k hk => by rw [List.mem_singleton.1 hk]; decide +kernel, rfl, rfl, rfl,
      by decide, rfl, by decide⟩⟩

theorem witness_SummaryCountsTheTable :
    served .localPort full ∧ TableLaw full ∧ ∀ p : PointId, (full.point p).shelve = 0 := ⟨served_full, full_table, by decide +kernel⟩

theorem witness_AcknowledgeByIndex :
    served .localPort State.reset ∧ 167 < (168#8 : Byte).toNat ∧ (167 : RecordIx).val = (167#8 : Byte).toNat ∧
    (((storm .standing).record 167).state = .standing ∧ ((storm .standing).record 167).key ≠ none) ∧
    ((storm .acknowledged).record 167).state = .acknowledged ∧ (State.reset.record 167).state = .idle ∧
    (State.reset.record 0).state = .free :=
  ⟨served_reset, by decide, by decide, by decide +kernel, by decide +kernel, by decide +kernel, by decide +kernel⟩

/-- The full table without the waiting key. -/
def fullUnwaited : State :=
  { full with pt := vset full.pt 63 (entry plain), rt := { full.rt with poolWait := [] } }

theorem fullUnwaited_inv : Machine.Inv fullUnwaited :=
  inv_of_checks (tableLaw_congr (s := full) rfl rfl rfl rfl rfl full_table) (by decide +kernel) (by decide +kernel) (by decide +kernel)
    (by decide +kernel) (by decide +kernel) (by decide +kernel) (by decide +kernel)

theorem witness_AcknowledgeOfAClearedRecordRetiresIt :
    served .localPort full ∧ Machine.Inv full ∧
    ((160 : RecordIx).val = (160#8 : Byte).toNat ∧ (full.record 160).state = .cleared ∧ (full.record 160).key = some (.storm 0)) ∧
    ((1 : RecordIx).val = (1#8 : Byte).toNat ∧ (full.record 1).state = .cleared ∧
      (full.record 1).key = some (.point { point := 0, kind := .high })) ∧
    (full.rt.poolWait = [faultKey 63] ∧ (full.key (faultKey 63)).pending = some { severity := .minor, value := none }) ∧
    (served .localPort fullUnwaited ∧ Machine.Inv fullUnwaited ∧ (fullUnwaited.record 1).state = .cleared ∧
      (fullUnwaited.record 1).key = some (.point { point := 0, kind := .high }) ∧ fullUnwaited.rt.poolWait = []) :=
  ⟨served_full, full_inv, by decide +kernel, by decide +kernel, by decide +kernel,
    ⟨rfl, .inl rfl⟩, fullUnwaited_inv, by decide +kernel, by decide +kernel, rfl⟩

theorem witness_AcknowledgeByKey :
    served .localPort State.reset ∧ (1#8 : Byte) ≠ 0#8 ∧ (255#8 : Byte) ≠ 0#8 ∧ NamesNoKey ⟨64#8, 0#8⟩ ∧
    Names ⟨63#8, 3#8⟩ (.point (faultKey 63)) ∧ Names ⟨7#8, 4#8⟩ (.storm 7) ∧
    (State.reset.key (faultKey 63)).state = .quiet ∧
    (∀ k ∈ ([.held, .waiting, .folded] : List KeyState), ((waitingIn k).key (faultKey 63)).state = k) ∧
    (∀ k ∈ ([.raised, .cleared] : List KeyState), ((faultOn plain k .standing).key (faultKey 63)).state = k ∧
      ((faultOn plain k .standing).key (faultKey 63)).link = some 0) ∧
    (State.reset.record (stormIx 7)).state = .idle ∧ ((storm .standing).record (stormIx 7)).state.live = true :=
  ⟨served_reset, by decide, by decide, .inr (.inl (by decide)), rfl, rfl, by decide +kernel, by decide +kernel,
    by decide +kernel, by decide +kernel, by decide +kernel⟩

theorem witness_AcknowledgeGroupTakesTheStandingRecords :
    served .localPort full ∧ 7 < (8#8 : Byte).toNat ∧ 4 < (5#8 : Byte).toNat ∧ (7 : GroupId).val = (7#8 : Byte).toNat ∧
    Severity.minor.level = (2#8 : Byte).toNat ∧ TableLaw full ∧ takenOfGroup 7 .minor full ≠ [] :=
  ⟨served_full, by decide, by decide, by decide, by decide, full_table, by decide +kernel⟩

/-! ## Witnesses: counters, time, notices, modes -/

theorem witness_CounterRequestsSelectReadAndClear :
    served .localPort State.reset ∧ 7 < (8#8 : Byte).toNat ∧ 3 < (4#8 : Byte).toNat ∧ 512 ≤ (512#16 : Half).toNat ∧
    16 ≤ (16#8 : Byte).toNat ∧ 1 < (2#8 : Byte).toNat ∧ (7 : GroupId).val = (7#8 : Byte).toNat ∧ (3 : Fin 4).val = (3#8 : Byte).toNat ∧
    (511#16 : Half).toNat < 512 ∧ (15#8 : Byte).toNat < 16 ∧ (1#8 : Byte).toNat ≤ 1 :=
  ⟨served_reset, by decide, by decide, by decide, by decide, by decide, by decide, by decide, by decide, by decide, by decide⟩

/-- Bytes whose arrival, byte by byte, completes no frame of code 17. -/
theorem noClearArrives_of {d : Side} {bytes : List Byte} {s : State}
    (h : ∀ n < bytes.length, ∀ b ∈ bytes[n]?, ((goodFrame (((arrive d (bytes.take n) s).side d).reception.drop 1 ++ [b])).map Frame.code)
      ≠ some 17#8) : noClearArrives d bytes s := by
  intro before b after sync inside f e r g c
  have lt : before.length < bytes.length := by rw [e]; simp
  have at' : b ∈ bytes[before.length]? := by rw [e]; simp
  have := h _ lt b at'
  rw [show bytes.take before.length = before by rw [e]; simp, r, List.drop_one, List.tail_cons, g] at this
  exact this (congrArg some c)

theorem witness_CounterValuesNeverFall :
    (exec (.carrierReturn .west) State.reset = .next State.reset ∧ (∀ o b, Instr.carrierReturn .west ≠ .clearCounters o b) ∧
      (∀ pins, Instr.carrierReturn .west ≠ .powerOnCompletion pins) ∧ ∀ pins, Instr.carrierReturn .west ≠ .resetPinRelease pins) ∧
    (∀ body, judgeInward (bytesOf (bitsOf (localMessage 12#8 []))) ≠ .message 17#8 body) ∧
    noClearArrives .west (syncByte :: (carrying toHut .summary).covered ++ checkBytes (carrying toHut .summary).covered) State.reset := by
  refine ⟨⟨rfl, fun _ _ => nofun, fun _ => nofun, fun _ => nofun⟩, fun body => ?_, noClearArrives_of (by decide +kernel)⟩
  rw [show judgeInward (bytesOf (bitsOf (localMessage 12#8 []))) = .message 12#8 [] by decide +kernel]
  exact fun h => absurd (Inward.message.inj h).1 (by decide)

theorem witness_SetTimeLoadsTheCounter : served .localPort State.reset ∧ served (.route toHut) State.reset := ⟨served_reset, served_route⟩

theorem witness_WakeHutActsByMode : ∀ m, served (.route toHut) (inMode m) := by
  intro m
  refine ⟨?_, ?_, .inl ?_⟩ <;> cases m <;> decide

theorem witness_ReadNoticesClearsWhatItReturned : served .localPort State.reset := served_reset

theorem witness_NoticeSettingsAreWrittenWhole :
    served .localPort State.reset ∧ 4 < (5#8 : Byte).toNat ∧ 5 < (6#8 : Byte).toNat ∧ (4#8 : Byte).toNat = Severity.critical.level ∧
    barWritten .never 5#8 ∧ barWritten (.atLeast .warning) 1#8 :=
  ⟨served_reset, by decide, by decide, by decide, rfl, rfl⟩

theorem witness_EnterDormantThenSettleExpiry :
    served .localPort State.reset ∧ State.reset.nu.flags &&& State.reset.nu.enables ≠ 0#8 ∧
    (let quiet : State := { State.reset with nu := { State.reset.nu with flags := 0x40#8, enables := 0xBF#8 } };
      served .localPort quiet ∧ quiet.nu.flags &&& quiet.nu.enables = 0#8) ∧
    (inMode .settling).inHold = false ∧ (inMode .settling).tb.mode = .settling :=
  ⟨served_reset, by decide, ⟨⟨rfl, .inl rfl⟩, by decide⟩, by decide, by decide⟩

theorem witness_RestartResetsAndKeeps : served .localPort full := served_full

theorem witness_SecondTickLowersTheCountdowns :
    ({ State.reset with powerHold := true } : State).powerHold = true ∧ (pinLow.powerHold = false ∧ pinLow.resetLow = true) ∧
    ((inMode .watch).inHold = false ∧ (inMode .watch).tb.mode = .watch) ∧
    ((withPoint (entry plain)).inHold = false ∧ ((withPoint (entry plain)).point 63).defn ≠ none) ∧
    ((inMode .dormant).inHold = false ∧ (inMode .dormant).tb.mode = .dormant) ∧
    ((inMode .waking).inHold = false ∧ (inMode .waking).tb.mode = .waking) ∧
    ((inMode .settling).inHold = false ∧ (inMode .settling).tb.mode = .settling ∧ (inMode .settling).tb.settle = some 2) ∧
    (let last : State := { inMode .settling with tb := { (inMode .settling).tb with settle := some 1 } };
      last.inHold = false ∧ last.tb.mode = .settling ∧ last.tb.settle = some 1) ∧
    (shelved.inHold = false ∧ (shelved.point 63).shelve = 1) := by decide +kernel

/-- A shelved point with a Standing record, in Settling: the tick that ends the shelving wakes the part and reloads. -/
theorem test_tick_wakes :
    let s : State := { shelved with tb := { shelved.tb with mode := .settling, settle := some 2, wakeLevel := .atLeast .minor } };
    s.inHold = false ∧ (ran (.secondTick []) s).tb.mode = .watch ∧ (ran (.secondTick [.settle]) s).tb.mode = .watch := by decide +kernel

theorem witness_ResetsHoldThenComplete :
    State.reset.resetLow = false ∧
    (({ State.reset with powerHold := true } : State).powerHold = true ∧ ({ State.reset with powerHold := true } : State).resetLow = false) ∧
    (pinLow.powerHold = false ∧ pinLow.resetLow = true) := by decide

theorem witness_HoldsTakeNothing :
    pinLow.inHold = true ∧ (Instr.summary (.route toHut)).request? = some (.route toHut, .summary) ∧
    (Instr.summary .localPort).request? = some (.localPort, .summary) := by decide

/-! ## Witnesses: raising, holding, folding, clearing

Every witness names, beside the hypotheses of its statement, the commands that `BeginsTo` and `ClearsTo` speak of, each with the state
that it reaches. -/

/-- A point of group 7 with a stale interval of 1 second. -/
def silent : Definition := { plain with staleInterval := 1 }

/-- Point 63 with its stale countdown at 1, its Stale key in a state. -/
def expiring (k : KeyEntry) : State := withPoint (withKey (entry silent) .stale k)

theorem expires (k : KeyEntry) : Expires 63 silent (expiring k) := by
  have h : (expiring k).point 63 = withKey (entry silent) .stale k := by
    show vget (vset State.reset.pt 63 _) 63 = _
    rw [vget_vset_self]
  exact ⟨rfl, rfl, by rw [h]; rfl, ⟨0, by rw [h]; rfl⟩⟩

/-- The points whose Low or High threshold stands next to the end of its range, and the readings beyond and on it. -/
def above : Definition := { plain with highThreshold := some 0x7FFE#16 }

def below : Definition := { plain with lowThreshold := some 0x8001#16 }

def highKey : PointKey := { point := 63, kind := .high }

def lowKey : PointKey := { point := 63, kind := .low }

/-- What is to be decided of a reading in which one key alone finds something to do. -/
def aloneCheck (k : PointKey) (d : Definition) (r : RawReading) (s : State) : Bool :=
  decide (k.point.val = r.point.toNat ∧ (s.point k.point).defn = some d ∧ d.source = .reading ∧
    (k.kind = .low ∨ d.lowThreshold = none) ∧ (k.kind = .high ∨ d.highThreshold = none) ∧
    (k.kind = .stale ∨ (s.key (staleKey k.point)).state = .quiet) ∧
    (k.kind = .fault ∨ ((s.key (faultKey k.point)).state = .quiet ∧ faultKey k.point ∉ s.rt.poolWait)))

theorem alone {k : PointKey} {d : Definition} {r : RawReading} {s : State} (p : served .localPort s) (h : aloneCheck k d r s = true) :
    ReadsAlone k d r s := by
  obtain ⟨a, b, c, e, f, g, i⟩ := of_decide_eq_true h
  exact ⟨p, a, b, c, e, f, g, i⟩

/-- The states in which the condition of a Quiet key of point 63 begins, for the Stale key by an expiry, for the Fault key by a marked
reading, for the High and the Low key by a reading that fills the bucket, with the governor of group 7 in a condition. -/
def atExpiry (f : Governor → Governor) : State := stopped 63 (withGovernor f (expiring .quiet))

def atMarked (f : Governor → Governor) : State := atReading 63 plain (readingOf 1#8 0#16) (withGovernor f (withPoint (entry plain)))

def atFullHigh (f : Governor → Governor) : State :=
  withBucket highKey 1 (atReading 63 above (readingOf 0#8 0x7FFF#16) (withGovernor f (withPoint (entry above))))

def atFullLow (f : Governor → Governor) : State :=
  withBucket lowKey 1 (atReading 63 below (readingOf 0#8 0x8000#16) (withGovernor f (withPoint (entry below))))

/-- The commands that lead to those states, whatever the governor. -/
structure Led (f : Governor → Governor) : Prop where
  expiry : Expires 63 silent (withGovernor f (expiring .quiet))
  marked : ReadsAlone (faultKey 63) plain (readingOf 1#8 0#16) (withGovernor f (withPoint (entry plain)))
  high : ReadsAlone highKey above (readingOf 0#8 0x7FFF#16) (withGovernor f (withPoint (entry above))) ∧
    fills highKey above 0x7FFF#16 (withGovernor f (withPoint (entry above)))
  low : ReadsAlone lowKey below (readingOf 0#8 0x8000#16) (withGovernor f (withPoint (entry below))) ∧
    fills lowKey below 0x8000#16 (withGovernor f (withPoint (entry below)))

theorem led (f : Governor → Governor) : Led f := by
  have h : aloneCheck (faultKey 63) plain (readingOf 1#8 0#16) (withPoint (entry plain)) = true := by decide +kernel
  have hh : aloneCheck highKey above (readingOf 0#8 0x7FFF#16) (withPoint (entry above)) = true := by decide +kernel
  have hl : aloneCheck lowKey below (readingOf 0#8 0x8000#16) (withPoint (entry below)) = true := by decide +kernel
  have eh : (withPoint (entry above)).point 63 = entry above := by decide +kernel
  have el : (withPoint (entry below)).point 63 = entry below := by decide +kernel
  obtain ⟨a, b, c, d⟩ := expires .quiet
  refine ⟨⟨a, b, c, d⟩, alone ⟨rfl, .inl rfl⟩ h, ⟨alone ⟨rfl, .inl rfl⟩ hh, 1, -1, by decide, by decide, ?_⟩,
    ⟨alone ⟨rfl, .inl rfl⟩ hl, 1, -1, by decide, by decide, ?_⟩⟩
  · show bucketAfter _ _ ((withPoint (entry above)).point 63).highBucket _ _ = _
    rw [eh]; rfl
  · show bucketAfter _ _ ((withPoint (entry below)).point 63).lowBucket _ _ = _
    rw [el]; rfl

/-- What is to be decided of an attempt that its governor judges. -/
def governedCheck (k : PointKey) (d : Definition) (v : Option Half) (s : State) : Bool :=
  decide ((s.point k.point).defn = some d ∧ (s.key k).state = .quiet ∧ v.isSome = k.kind.hasValue ∧ (s.point k.point).shelve = 0 ∧
    meetsBar (s.governor d.group).defn.bypass (d.severity k.kind) = false)

theorem governed_of {k : PointKey} {d : Definition} {v : Option Half} {s : State} (h : governedCheck k d v s = true) : Governed k d v s := by
  obtain ⟨a, b, c, e, f⟩ := of_decide_eq_true h
  exact ⟨⟨a, b, c⟩, e, f⟩

/-- The attempts of the four keys are governed. -/
def FourGoverned (f : Governor → Governor) : Prop :=
  Governed (staleKey 63) silent none (atExpiry f) ∧ Governed (faultKey 63) plain none (atMarked f) ∧
  Governed highKey above (some 0x7FFF#16) (atFullHigh f) ∧ Governed lowKey below (some 0x8000#16) (atFullLow f)

/-- The Stale key of point 63 on the Cleared record 0, its countdown about to end. -/
def staleCleared : State :=
  withRecord 0 (lifeOf (.point (staleKey 63)) .cleared) (expiring { state := .cleared, link := some 0, pending := none })

theorem witness_StaleExpiryOfAKeyInTheTable :
    (∀ k ∈ ([.raised, .held, .waiting, .folded] : List KeyState),
      Expires 63 silent (expiring (bare k)) ∧ ((stopped 63 (expiring (bare k))).key (staleKey 63)).state = k) ∧
    (Expires 63 silent staleCleared ∧
      let s := stopped 63 staleCleared;
      (s.key (staleKey 63)).state = .cleared ∧ (s.key (staleKey 63)).link = some 0 ∧ (s.record 0).state = .cleared ∧
        (s.record 0).key = some (.point (staleKey 63))) ∧
    (let s0 := faultOn plain .cleared .cleared; let r := readingOf 1#8 0#16; let s := atReading 63 plain r s0;
      ReadsAlone (faultKey 63) plain r s0 ∧ r.fault ≠ 0#8 ∧ (s.key (faultKey 63)).state = .cleared ∧
        (s.key (faultKey 63)).link = some 0 ∧ (s.record 0).state = .cleared ∧ (s.record 0).key = some (.point (faultKey 63))) := by
  have hs : ∀ k ∈ ([.raised, .held, .waiting, .folded] : List KeyState),
      ((stopped 63 (expiring (bare k))).key (staleKey 63)).state = k := by decide +kernel
  obtain ⟨a, b, c, d⟩ := expires { state := .cleared, link := some 0, pending := none }
  exact ⟨fun k hk => ⟨expires _, hs k hk⟩, ⟨⟨a, b, c, d⟩, by decide +kernel⟩,
    alone ⟨rfl, .inl rfl⟩ (by decide +kernel), by decide +kernel⟩

/-- A governor that severity 2 bypasses. -/
def bypassed (x : Governor) : Governor := { x with defn := { x.defn with bypass := .atLeast .minor } }

theorem witness_BypassingAttemptTakesARecordOrWaits :
    Led bypassed ∧ (Attempt (staleKey 63) silent none (atExpiry bypassed) ∧
      meetsBar ((atExpiry bypassed).governor silent.group).defn.bypass (silent.severity .stale) = true ∧
      ∃ rest, (atExpiry bypassed).rt.free = 0 :: rest) ∧
    (Attempt highKey above (some 0x7FFF#16) (atFullHigh bypassed) ∧
      meetsBar ((atFullHigh bypassed).governor above.group).defn.bypass (above.severity .high) = true) ∧
    (let full : State := { atExpiry bypassed with rt := { (atExpiry bypassed).rt with free := [] } };
      Attempt (staleKey 63) silent none full ∧ full.rt.free = [] ∧
        (full.rt.poolWait.Pairwise fun a b => (full.pendingOf b).severity.level ≤ (full.pendingOf a).severity.level)) ∧
    (let shut := { atExpiry id with pt := vset (atExpiry id).pt 63 { (atExpiry id).point 63 with shelve := 1 } };
      Attempt (staleKey 63) silent none shut ∧ 0 < (shut.point 63).shelve) :=
  ⟨led _, ⟨⟨by decide +kernel, by decide +kernel, rfl⟩, by decide +kernel, ⟨_, rfl⟩⟩,
    ⟨⟨by decide +kernel, by decide +kernel, rfl⟩, by decide +kernel⟩,
    ⟨⟨by decide +kernel, by decide +kernel, rfl⟩, rfl, .nil⟩,
    ⟨⟨by decide +kernel, by decide +kernel, rfl⟩, by decide +kernel⟩⟩

theorem witness_OpenGovernorAdmitsForAToken :
    Led id ∧ FourGoverned id ∧ ((atExpiry id).governor 7).gate = .opened ∧ 0 < ((atExpiry id).governor 7).tokens ∧
    ((atExpiry id).governor 7).held = [] ∧ ∃ rest, (atExpiry id).rt.free = 0 :: rest :=
  ⟨led _, ⟨governed_of (by decide +kernel), governed_of (by decide +kernel), governed_of (by decide +kernel), governed_of (by decide +kernel)⟩,
    by decide +kernel, by decide +kernel, by decide +kernel, ⟨_, rfl⟩⟩

/-- Governors that turn an attempt away in Hold mode: out of tokens, Closed, with a key held. -/
def spent (x : Governor) : Governor := { x with tokens := 0 }

def shut (x : Governor) : Governor := { x with gate := .closed, tokens := 0 }

def queued1 (x : Governor) : Governor := { x with held := [faultKey 0] }

theorem witness_HoldGovernorHoldsTheKey :
    (Led spent ∧ FourGoverned spent ∧ ((atExpiry spent).governor 7).defn.mode = .hold ∧ ((atExpiry spent).governor 7).tokens = 0 ∧
      ((atExpiry spent).governor 7).held = [] ∧ ((atExpiry spent).governor 7).gate = .opened) ∧
    (Led shut ∧ FourGoverned shut ∧ ((atExpiry shut).governor 7).defn.mode = .hold ∧ ((atExpiry shut).governor 7).gate = .closed) ∧
    (Led queued1 ∧ FourGoverned queued1 ∧ ((atExpiry queued1).governor 7).defn.mode = .hold ∧
      ((atExpiry queued1).governor 7).held ≠ []) :=
  ⟨⟨led _, ⟨governed_of (by decide +kernel), governed_of (by decide +kernel), governed_of (by decide +kernel), governed_of (by decide +kernel)⟩,
      by decide +kernel⟩,
    ⟨led _, ⟨governed_of (by decide +kernel), governed_of (by decide +kernel), governed_of (by decide +kernel), governed_of (by decide +kernel)⟩,
      by decide +kernel⟩,
    ⟨led _, ⟨governed_of (by decide +kernel), governed_of (by decide +kernel), governed_of (by decide +kernel), governed_of (by decide +kernel)⟩,
      by decide +kernel⟩⟩

/-- Governors in Fold mode that turn an attempt away: out of tokens, Closed. -/
def foldSpent (x : Governor) : Governor := { spent x with defn := { x.defn with mode := .fold } }

def foldShut (x : Governor) : Governor := { shut x with defn := { x.defn with mode := .fold } }

/-- The quiet point about to expire, the governor Closed in Fold mode, the storm record in a state. -/
def folding (state : RecordState) : State :=
  withRecord 167 { lifeOf (.storm 7) state with peak := some 0#16 } (withGovernor foldShut (expiring .quiet))

theorem witness_FoldGovernorFoldsTheKey :
    (Led foldSpent ∧ FourGoverned foldSpent ∧ TableLaw (atExpiry foldSpent) ∧ ((atExpiry foldSpent).governor 7).defn.mode = .fold ∧
      ((atExpiry foldSpent).governor 7).folded.length < 256 ∧ ((atExpiry foldSpent).governor 7).gate = .opened ∧
      ((atExpiry foldSpent).governor 7).tokens = 0 ∧ ((atExpiry foldSpent).record (stormIx 7)).state = .idle) ∧
    ∀ state ∈ ([.cleared, .standing, .acknowledged] : List RecordState),
      let s := stopped 63 (folding state);
      Expires 63 silent (folding state) ∧ Governed (staleKey 63) silent none s ∧ TableLaw s ∧ (s.governor 7).defn.mode = .fold ∧
        (s.governor 7).folded.length < 256 ∧ (s.governor 7).gate = .closed ∧ (s.record (stormIx 7)).state = state := by
  have table (state : RecordState) (h : recordCheck 167 { lifeOf (.storm 7) state with peak := some 0#16 } = true)
      (live : state.live = true) : TableLaw (folding state) :=
    tableLaw_of_rt (s := withRecord 167 { lifeOf (.storm 7) state with peak := some 0#16 } (withPoint (entry plain)))
      (t := folding state) rfl (table_withPoint (entry plain) 167 _ (.inr (by decide +kernel)) h live)
  have stop {s : State} (h : TableLaw s) : TableLaw (stopped 63 s) := tableLaw_of_rt (s := s) rfl h
  obtain ⟨a, b, c, d⟩ := expires .quiet
  refine ⟨⟨led _, ⟨governed_of (by decide +kernel), governed_of (by decide +kernel), governed_of (by decide +kernel),
      governed_of (by decide +kernel)⟩, tableLaw_of_rt (s := State.reset) rfl reset_table, by decide +kernel⟩, fun state hs => ?_⟩
  simp only [List.mem_cons, List.not_mem_nil, or_false] at hs
  rcases hs with rfl | rfl | rfl
  · exact ⟨⟨a, b, c, d⟩, governed_of (by decide +kernel), stop (table _ (by decide) rfl), by decide +kernel⟩
  · exact ⟨⟨a, b, c, d⟩, governed_of (by decide +kernel), stop (table _ (by decide) rfl), by decide +kernel⟩
  · exact ⟨⟨a, b, c, d⟩, governed_of (by decide +kernel), stop (table _ (by decide) rfl), by decide +kernel⟩

theorem witness_RefillReopensAndReleases :
    ((withGovernor shut State.reset).inHold = false ∧ ((withGovernor shut State.reset).governor 7).gate = .closed) ∧
    (let one := withGovernor (fun x => { foldShut x with tokens := 1 }) State.reset;
      one.inHold = false ∧ (one.governor 7).gate = .closed ∧ (one.governor 7).defn.reopen ≤ (one.governor 7).tokens + 1 ∧
        (one.governor 7).defn.mode = .fold ∧ (one.governor 7).folded = []) ∧
    (heldOne.inHold = false ∧ (heldOne.governor 7).held.Nodup ∧
      faultKey 63 ∈ (heldOne.governor 7).held.take (min 4 (heldOne.governor 7).held.length)) ∧
    (State.reset.inHold = false ∧ (State.reset.governor 7).gate = .opened ∧ (State.reset.governor 7).held = []) ∧
    (∀ state ∈ ([.cleared, .standing, .acknowledged] : List RecordState),
      TableLaw (storm state) ∧ ((storm state).record (stormIx 7)).state = state) ∧
    (TableLaw State.reset ∧ (State.reset.record (stormIx 7)).state = .idle) ∧
    ((heldOne.governor 7).held = faultKey 63 :: [] ∧ 0 < (heldOne.governor 7).tokens ∧
      (heldOne.key (faultKey 63)).pending = some { severity := .minor, value := none } ∧
      (none : Option Half).isSome = (faultKey 63).kind.hasValue ∧ ∃ free, heldOne.rt.free = 0 :: free) ∧
    (let none := { heldOne with rt := { heldOne.rt with free := [] } };
      (none.governor 7).held = faultKey 63 :: [] ∧ none.rt.free = []) := by
  have table (state : RecordState) (h : recordCheck 167 { lifeOf (.storm 7) state with peak := some 1#16 } = true)
      (live : state.live = true) : TableLaw (storm state) := table_withRecord reset_table (.inr (by decide +kernel)) h live
  refine ⟨by decide +kernel, by decide +kernel, by decide +kernel, by decide +kernel, fun state hs => ?_, ⟨reset_table, by decide +kernel⟩,
    ⟨by decide +kernel, by decide +kernel, by decide +kernel, rfl, ⟨_, rfl⟩⟩, by decide +kernel⟩
  simp only [List.mem_cons, List.not_mem_nil, or_false] at hs
  rcases hs with rfl | rfl | rfl
  · exact ⟨table _ (by decide) rfl, by decide +kernel⟩
  · exact ⟨table _ (by decide) rfl, by decide +kernel⟩
  · exact ⟨table _ (by decide) rfl, by decide +kernel⟩

/-- The unmarked reading of point 63 and the state it reaches with nothing but the Fault key to clear. -/
def unmarked : RawReading := readingOf 0#8 0#16

def atUnmarked (s : State) : State := atReading 63 plain unmarked s

theorem witness_ClearEventActsByTheKey :
    (∀ s ∈ ([withPoint (entry plain), faultOn plain .raised .standing, faultOn plain .cleared .cleared, heldOne, waitingIn .waiting] : List State),
      ReadsAlone (faultKey 63) plain unmarked s ∧ ((atUnmarked s).point 63).defn = some plain) ∧
    ((atUnmarked (withPoint (entry plain))).key (faultKey 63)).state = .quiet ∧
    ((atUnmarked (faultOn plain .cleared .cleared)).key (faultKey 63)).state = .cleared ∧
    (let s := atUnmarked (faultOn plain .raised .standing);
      (s.key (faultKey 63)).state = .raised ∧ plain.retirement = .latched ∧ (s.key (faultKey 63)).link = some 0 ∧
        (s.record 0).key = some (.point (faultKey 63)) ∧ (s.record 0).state = .standing) ∧
    (((atUnmarked heldOne).key (faultKey 63)).state = .held ∧
      ((atUnmarked heldOne).key (faultKey 63)).pending = some { severity := .minor, value := none }) ∧
    (((atUnmarked (waitingIn .waiting)).key (faultKey 63)).state = .waiting ∧
      ((atUnmarked (waitingIn .waiting)).key (faultKey 63)).pending = some { severity := .minor, value := none }) ∧
    (ReadsAlone (staleKey 63) silent unmarked (expiring .quiet) ∧
      ((atReading 63 silent unmarked (expiring .quiet)).key (staleKey 63)).state = .quiet) ∧
    (ReadsAlone highKey above (readingOf 0#8 0x7FFE#16) (withPoint (entry above)) ∧
      empties highKey above 0x7FFE#16 (withPoint (entry above))) ∧
    (ReadsAlone lowKey below (readingOf 0#8 0x8001#16) (withPoint (entry below)) ∧
      empties lowKey below 0x8001#16 (withPoint (entry below))) := by
  refine ⟨fun s hs => ?_, by decide +kernel, by decide +kernel, by decide +kernel, by decide +kernel, by decide +kernel,
    ⟨alone ⟨rfl, .inl rfl⟩ (by decide +kernel), by decide +kernel⟩,
    ⟨alone ⟨rfl, .inl rfl⟩ (by decide +kernel), 0, 0, by decide, by decide, by decide, by decide +kernel⟩,
    ⟨alone ⟨rfl, .inl rfl⟩ (by decide +kernel), 0, 0, by decide, by decide, by decide, by decide +kernel⟩⟩
  simp only [List.mem_cons, List.not_mem_nil, or_false] at hs
  rcases hs with rfl | rfl | rfl | rfl | rfl <;> exact ⟨alone ⟨rfl, .inl rfl⟩ (by decide +kernel), by decide +kernel⟩

/-- The definition with the other policy. -/
def retiring : Definition := { plain with retirement := .selfRetiring }

/-- The full table with point 0 under the other policy: its Low key is Raised on record 0, and the Fault key of point 63 waits. -/
def fullRetiring : State :=
  { full with pt := vset full.pt 0 { full.point 0 with defn := (full.point 0).defn.map fun d => { d with retirement := .selfRetiring } } }

theorem witness_ClearEventRetiresOrAbsorbs :
    (let s := atReading 63 retiring unmarked (faultOn retiring .raised .standing);
      ReadsAlone (faultKey 63) retiring unmarked (faultOn retiring .raised .standing) ∧ (s.point 63).defn = some retiring ∧ TableLaw s ∧
        (s.key (faultKey 63)).state = .raised ∧ (s.key (faultKey 63)).link = some 0 ∧ (s.record 0).key = some (.point (faultKey 63)) ∧
        s.rt.poolWait = [] ∧ retiring.retirement = .selfRetiring ∧ (s.record 0).state = .standing) ∧
    (let s := atUnmarked (faultOn plain .raised .acknowledged);
      ReadsAlone (faultKey 63) plain unmarked (faultOn plain .raised .acknowledged) ∧ TableLaw s ∧ (s.record 0).state = .acknowledged ∧
        (s.key (faultKey 63)).link = some 0 ∧ faultKey 63 ∉ s.rt.poolWait) ∧
    (let k : PointKey := { point := 0, kind := .low };
      TableLaw fullRetiring ∧ (∃ d, (fullRetiring.point 0).defn = some d ∧ d.retirement = .selfRetiring) ∧ (fullRetiring.key k).state = .raised ∧
        (fullRetiring.key k).link = some 0 ∧ (fullRetiring.record 0).key = some (.point k) ∧ (fullRetiring.record 0).state = .standing ∧
        fullRetiring.rt.poolWait = faultKey 63 :: [] ∧ k ∉ fullRetiring.rt.poolWait ∧
        (fullRetiring.key (faultKey 63)).pending = some { severity := .minor, value := none } ∧
        (none : Option Half).isSome = (faultKey 63).kind.hasValue) ∧
    ∀ gate ∈ ([.opened, .closed] : List Gate), ∀ state ∈ ([.standing, .acknowledged] : List RecordState),
      let s := atUnmarked (foldedIn gate state);
      ReadsAlone (faultKey 63) plain unmarked (foldedIn gate state) ∧ (s.point 63).defn = some plain ∧ TableLaw s ∧
        (s.key (faultKey 63)).state = .folded ∧ (s.governor 7).gate = gate ∧ (s.governor 7).folded.erase (faultKey 63) = [] ∧
        (s.record (stormIx 7)).state = state := by
  have read {p : PointId} {d : Definition} {r : RawReading} {s : State} (m : s.tb.mode = .watch) (h : TableLaw s) :
      TableLaw (atReading p d r s) := by
    refine tableLaw_of_rt (s := s) ?_ h
    simp [atReading, atService, m]
  refine ⟨⟨alone ⟨rfl, .inl rfl⟩ (by decide +kernel), by decide +kernel,
      read rfl (table_withPoint _ 0 _ (.inl (by decide +kernel)) (by decide) rfl), by decide +kernel⟩,
    ⟨alone ⟨rfl, .inl rfl⟩ (by decide +kernel), read rfl (table_withPoint _ 0 _ (.inl (by decide +kernel)) (by decide) rfl), by decide +kernel⟩,
    ⟨tableLaw_of_rt (s := full) rfl full_table, ⟨_, rfl, rfl⟩, by decide +kernel⟩, fun gate hg state hs => ?_⟩
  simp only [List.mem_cons, List.not_mem_nil, or_false] at hg hs
  rcases hg with rfl | rfl <;> rcases hs with rfl | rfl <;>
    exact ⟨alone ⟨rfl, .inl rfl⟩ (by decide +kernel), by decide +kernel, read rfl (table_foldedIn _ _ (by decide) rfl), by decide +kernel⟩

/-- Point 63 with its High key, or its Low key, on record 0, in a key state and a record state, its bucket one below the capacity. -/
def bucketOn (d : Definition) (k : PointKey) (key : KeyState) (r : RecordState) : State :=
  withRecord 0 { lifeOf (.point k) r with peak := some 0#16 }
    (withPoint (withKey (entry d) k.kind { state := key, link := some 0, pending := none }))

theorem witness_FullBucketRaisesTheCondition :
    (Led bypassed ∧ ((atFullHigh bypassed).key highKey).state = .quiet ∧ ((atFullLow bypassed).key lowKey).state = .quiet ∧
      meetsBar ((atFullHigh bypassed).governor above.group).defn.bypass (above.severity .high) = true ∧
      meetsBar ((atFullLow bypassed).governor below.group).defn.bypass (below.severity .low) = true ∧
      ∃ rest, (atFullHigh bypassed).rt.free = 0 :: rest) ∧
    (∀ c ∈ ([(highKey, above, 0x7FFF#16), (lowKey, below, 0x8000#16)] : List (PointKey × Definition × Half)),
      ∀ x ∈ ([(.cleared, .cleared), (.raised, .standing)] : List (KeyState × RecordState)),
        let s0 := bucketOn c.2.1 c.1 x.1 x.2;
        let s := withBucket c.1 1 (atReading 63 c.2.1 (readingOf 0#8 c.2.2) s0);
        aloneCheck c.1 c.2.1 (readingOf 0#8 c.2.2) s0 = true ∧ reaches c.1.kind c.2.1 c.2.2 = some (1, -1) ∧
          bucketAfter c.2.1.weighting c.2.1.capacity (bucketOf c.1 s0) 1 (-1) = c.2.1.capacity ∧
          (s.key c.1).state = x.1 ∧ (s.key c.1).link = some 0 ∧ (s.record 0).state = x.2 ∧ (s.record 0).key = some (.point c.1)) ∧
    ∀ k ∈ ([.held, .waiting, .folded] : List KeyState),
      let s0 := withPoint (withKey (entry above) .high (bare k));
      ReadsAlone highKey above (readingOf 0#8 0x7FFF#16) s0 ∧ fills highKey above 0x7FFF#16 s0 ∧ (s0.key highKey).state = k := by
  refine ⟨⟨led _, by decide +kernel, by decide +kernel, by decide +kernel, by decide +kernel, ⟨_, rfl⟩⟩, by decide +kernel, fun k hk => ?_⟩
  simp only [List.mem_cons, List.not_mem_nil, or_false] at hk
  rcases hk with rfl | rfl | rfl <;>
    exact ⟨alone ⟨rfl, .inl rfl⟩ (by decide +kernel), ⟨1, -1, by decide, by decide, by decide +kernel⟩, by decide +kernel⟩

/-! ## Witnesses: laws that every step keeps -/

theorem witness_StepsKeepTheRecordTable : TableLaw full ∧ step full = .next full := ⟨full_table, rfl⟩

theorem witness_StepsKeepTheGovernors : GovernorLaw full ∧ step full = .next full := ⟨full_inv.governors, rfl⟩

theorem witness_StepsKeepThePoints : PointLaw full ∧ step full = .next full := ⟨full_inv.points, rfl⟩

theorem witness_StepsKeepLinksModesAndNotices :
    QueueLaw full ∧ LinkLaw full ∧ TimeLaw full ∧ NoticeLaw full ∧ step full = .next full :=
  ⟨full_inv.queue, full_inv.links, full_inv.time, full_inv.notices, rfl⟩

theorem witness_StepsKeepEveryLaw : Machine.Inv full ∧ step full = .next full := ⟨full_inv, rfl⟩

end Sys2Proof.Tests
end

