-- ==== Sys2Proof/Proofs/DefinePoint.lean ====
section
/-! PROOF. Define Point: what its bytes decode to, what its owner answers, and the row at the local port (R31 to R34). -/

namespace Sys2Proof.Machine

/-! ## Fields of a request: each decoder finds the value that the byte spells -/

theorem pointNumber_eq_some_iff {b : Byte} {p : PointId} : pointNumber b = some p ↔ p.val = b.toNat := by
  unfold pointNumber
  split
  · simp only [Option.some.injEq, Fin.ext_iff, eq_comm]
  · next h =>
    have : p.val ≠ b.toNat := by omega
    simp [this]

theorem groupNumber_eq_some_iff {b : Byte} {g : GroupId} : groupNumber b = some g ↔ b.toNat = g.val := by
  unfold groupNumber
  split
  · simp only [Option.some.injEq, Fin.ext_iff]
  · next h =>
    have : b.toNat ≠ g.val := by omega
    simp [this]

theorem severityOf_eq_some_iff {b : Byte} {v : Severity} : severityOf b = some v ↔ b.toNat = v.level := by
  unfold severityOf
  cases v <;> split <;> simp_all [Severity.level]

theorem retirementOf_eq_some_iff {b : Byte} {t : Retirement} : retirementOf b = some t ↔ b = t.byte := by
  unfold retirementOf
  cases t <;> split <;> simp_all [Retirement.byte, ← BitVec.toNat_inj]

theorem sourceOf_eq_some_iff {r : RawPoint} {src : Source} : sourceOf r = some src ↔ sourceWritten src r := by
  unfold sourceOf sourceWritten
  match src with
  | .reading => split <;> simp_all [← BitVec.toNat_inj]
  | .contact line activeHigh =>
    have active : (r.activeLevel != 0#8) = activeHigh ↔ (activeHigh = true ↔ r.activeLevel ≠ 0#8) := by
      cases activeHigh <;> simp
    split <;> simp_all [← BitVec.toNat_inj, Fin.ext_iff]
  | .carrier .west => split <;> simp_all [← BitVec.toNat_inj]
  | .carrier .east => split <;> simp_all [← BitVec.toNat_inj]

theorem weightingOf_eq_some_iff {r : RawPoint} {w : Weighting} :
    weightingOf r = some w ↔
      weightingWritten w r ∧ (r.weighting = 0#8 → r.weight ≠ 0#8) ∧ (r.weighting = 1#8 → r.weight.toNat ≤ 7) := by
  unfold weightingOf weightingWritten
  match w with
  | .count drain => split <;> simp_all [← BitVec.toNat_inj, and_comm]
  | .magnitude shift => split <;> simp_all [← BitVec.toNat_inj, and_comm]

theorem eq_zero_or_one_of_toNat_le {b : Byte} (h : b.toNat ≤ 1) : b = 0#8 ∨ b = 1#8 := by
  bv_omega

theorem exists_severity_level {n : Nat} : (∃ v : Severity, n = v.level) ↔ 1 ≤ n ∧ n ≤ 4 := by
  constructor
  · rintro ⟨v, rfl⟩
    cases v <;> decide
  · rintro ⟨low, high⟩
    interval_cases n
    exacts [⟨.warning, rfl⟩, ⟨.minor, rfl⟩, ⟨.major, rfl⟩, ⟨.critical, rfl⟩]

/-! ## The definition that a Define Point carries -/

/-- Only a Reading point may have thresholds, a stale interval or a Magnitude weighting (R31). -/
theorem formOk_iff {d : Definition} :
    d.formOk = true ↔ (d.source ≠ .reading →
      d.lowThreshold = none ∧ d.highThreshold = none ∧ d.staleInterval = 0 ∧ ∃ drain, d.weighting = .count drain) := by
  unfold Definition.formOk
  cases d.source <;> cases d.weighting <;> simp [and_assoc]

theorem source_eq_reading_iff {r : RawPoint} {d : Definition} (h : Written r d) : d.source = .reading ↔ r.source = 0#8 := by
  have hs := h.source
  unfold sourceWritten at hs
  split at hs <;> simp_all

theorem weighting_eq_count_iff {r : RawPoint} {d : Definition} (h : Written r d) :
    (∃ drain, d.weighting = .count drain) ↔ r.weighting = 0#8 := by
  have hw := h.weighting
  unfold weightingWritten at hw
  split at hw <;> simp_all

theorem source_ranges_of_written {r : RawPoint} {d : Definition} (h : Written r d) :
    r.source.toNat ≤ 3 ∧ (r.source = 1#8 → r.line.toNat ≤ 15) := by
  have hs := h.source
  unfold sourceWritten at hs
  split at hs
  case h_2 line activeHigh _ =>
    obtain ⟨contact, number, -⟩ := hs
    exact ⟨by rw [contact]; decide, fun _ => by omega⟩
  all_goals simp [hs]

theorem weighting_le_of_written {r : RawPoint} {d : Definition} (h : Written r d) : r.weighting.toNat ≤ 1 := by
  have hw := h.weighting
  unfold weightingWritten at hw
  split at hw <;> simp_all

/-- The form that the source requires, read off the bytes. -/
theorem formOk_iff_of_written {r : RawPoint} {d : Definition} (h : Written r d) :
    d.formOk = true ↔ (r.source ≠ 0#8 →
      r.thresholdsPresent.getLsbD 0 = false ∧ r.thresholdsPresent.getLsbD 1 = false ∧ r.staleInterval = 0#16 ∧ r.weighting = 0#8) := by
  rw [formOk_iff, weighting_eq_count_iff h, ne_eq, source_eq_reading_iff h, h.low, h.high, h.staleInterval]
  simp [← BitVec.toNat_inj]

/-- Once the bytes spell a definition, what is left of R31 is the weight byte, the bounds of the numbers and the form. -/
theorem fieldsInRange_iff_of_written {r : RawPoint} {p : PointId} {d : Definition} (point : p.val = r.point.toNat) (h : Written r d) :
    FieldsInRange r ↔
      ((r.weighting = 0#8 → r.weight ≠ 0#8) ∧ (r.weighting = 1#8 → r.weight.toNat ≤ 7)) ∧
      (r.hysteresis.toNat ≤ 4095 ∧ 1 ≤ r.capacity.toNat ∧ r.capacity.toNat ≤ 4095) ∧ d.formOk = true := by
  rw [formOk_iff_of_written h]
  constructor
  · intro range
    exact ⟨⟨range.drain, range.shift⟩, ⟨range.hysteresis, range.capacity⟩, range.form⟩
  · rintro ⟨⟨drain, shift⟩, ⟨hysteresis, capacity⟩, form⟩
    have severity {b : Byte} {v : Severity} (e : b.toNat = v.level) : 1 ≤ b.toNat ∧ b.toNat ≤ 4 := exists_severity_level.1 ⟨v, e⟩
    exact
      { point := by omega
        source := (source_ranges_of_written h).1
        line := (source_ranges_of_written h).2
        group := by have := h.group; omega
        retirement := by rw [h.retirement]; cases d.retirement <;> decide
        hysteresis, capacity
        weighting := weighting_le_of_written h
        drain, shift
        severities := by
          simp only [List.forall_mem_cons]
          exact ⟨severity h.severityLow, severity h.severityHigh, severity h.severityStale, severity h.severityFault, by simp⟩
        form }

/-- Define Point finds the definition that the bytes spell, when they are in range and of the source's form (R31). -/
theorem definitionOf_eq_some_iff {r : RawPoint} {p : PointId} {d : Definition} :
    definitionOf r = some (p, d) ↔ p.val = r.point.toNat ∧ Written r d ∧ FieldsInRange r := by
  simp only [definitionOf, bind, Option.bind_eq_some_iff, pointNumber_eq_some_iff, groupNumber_eq_some_iff, severityOf_eq_some_iff,
    retirementOf_eq_some_iff, sourceOf_eq_some_iff, weightingOf_eq_some_iff, Option.ite_none_right_eq_some]
  constructor
  · rintro ⟨q, point, source, hsource, group, hgroup, retirement, hretirement, weighting, ⟨hweighting, weight⟩, low, hlow, high, hhigh,
      stale, hstale, fault, hfault, bounds, form, same⟩
    obtain ⟨rfl, spelt⟩ := Prod.mk.inj (Option.some.inj same)
    have written : Written r d := by
      subst spelt
      exact
        { source := hsource, group := hgroup, retirement := hretirement, low := rfl, high := rfl, hysteresis := rfl, capacity := rfl
          weighting := hweighting, severityLow := hlow, severityHigh := hhigh, severityStale := hstale, severityFault := hfault
          staleInterval := rfl }
    rw [spelt] at form
    exact ⟨point, written, (fieldsInRange_iff_of_written point written).2 ⟨weight, bounds, form⟩⟩
  · rintro ⟨point, written, range⟩
    obtain ⟨weight, bounds, form⟩ := (fieldsInRange_iff_of_written point written).1 range
    refine ⟨p, point, d.source, written.source, d.group, written.group, d.retirement, written.retirement, d.weighting,
      ⟨written.weighting, weight⟩, d.severityLow, written.severityLow, d.severityHigh, written.severityHigh, d.severityStale,
      written.severityStale, d.severityFault, written.severityFault, bounds, ?_⟩
    simp only [← written.low, ← written.high, ← written.hysteresis, ← written.capacity, ← written.staleInterval]
    exact ⟨form, trivial⟩

/-- Bytes in range spell a source. -/
theorem exists_sourceWritten {r : RawPoint} (h : FieldsInRange r) : ∃ src, sourceWritten src r := by
  have source := h.source
  have line := h.line
  simp only [← BitVec.toNat_inj] at line
  interval_cases e : r.source.toNat
  · exact ⟨.reading, BitVec.eq_of_toNat_eq e⟩
  · exact ⟨.contact ⟨r.line.toNat, Nat.lt_succ_of_le (line rfl)⟩ (r.activeLevel != 0#8), BitVec.eq_of_toNat_eq e, rfl, by simp⟩
  · exact ⟨.carrier .west, BitVec.eq_of_toNat_eq e⟩
  · exact ⟨.carrier .east, BitVec.eq_of_toNat_eq e⟩

/-- Bytes in range spell a definition. -/
theorem exists_written {r : RawPoint} (h : FieldsInRange r) : ∃ d, Written r d := by
  obtain ⟨source, hsource⟩ := exists_sourceWritten h
  obtain ⟨retirement, hretirement⟩ : ∃ t, retirementOf r.retirement = some t := by
    rcases eq_zero_or_one_of_toNat_le h.retirement with e | e
    · exact ⟨.selfRetiring, by rw [e]; rfl⟩
    · exact ⟨.latched, by rw [e]; rfl⟩
  obtain ⟨weighting, hweighting⟩ : ∃ w, weightingWritten w r := by
    rcases eq_zero_or_one_of_toNat_le h.weighting with e | e
    · exact ⟨.count r.weight.toNat, e, rfl⟩
    · exact ⟨.magnitude r.weight.toNat, e, rfl⟩
  have severity : ∀ b ∈ [r.severityLow, r.severityHigh, r.severityStale, r.severityFault], ∃ v : Severity, b.toNat = v.level :=
    fun b mem => exists_severity_level.2 (h.severities b mem)
  simp only [List.forall_mem_cons] at severity
  obtain ⟨⟨low, hlow⟩, ⟨high, hhigh⟩, ⟨stale, hstale⟩, ⟨fault, hfault⟩, -⟩ := severity
  refine ⟨{ source, group := ⟨r.group.toNat, Nat.lt_succ_of_le h.group⟩, retirement, weighting
            lowThreshold := if r.thresholdsPresent.getLsbD 0 then some r.lowThreshold else none
            highThreshold := if r.thresholdsPresent.getLsbD 1 then some r.highThreshold else none
            hysteresis := r.hysteresis.toNat, capacity := r.capacity.toNat, severityLow := low, severityHigh := high
            severityStale := stale, severityFault := fault, staleInterval := r.staleInterval.toNat }, ?_⟩
  exact { source := hsource, group := rfl, retirement := retirementOf_eq_some_iff.1 hretirement, low := rfl, high := rfl, hysteresis := rfl
          capacity := rfl, weighting := hweighting, severityLow := hlow, severityHigh := hhigh, severityStale := hstale
          severityFault := hfault, staleInterval := rfl }

theorem definitionOf_eq_none_iff {r : RawPoint} : definitionOf r = none ↔ ¬ FieldsInRange r := by
  constructor
  · intro none h
    obtain ⟨d, hd⟩ := exists_written h
    have point : r.point.toNat < 64 := Nat.lt_succ_of_le h.point
    have found : definitionOf r = some (⟨_, point⟩, d) := definitionOf_eq_some_iff.2 ⟨rfl, hd, h⟩
    rw [none] at found
    cases found
  · intro h
    rw [Option.eq_none_iff_forall_ne_some]
    rintro ⟨p, d⟩ found
    obtain ⟨-, -, range⟩ := definitionOf_eq_some_iff.1 found
    exact h range

/-! ## The two checks against the table and the bands -/

theorem inService_iff {e : PointEntry} : e.inService = true ↔ e.defn ≠ none := by
  simp [PointEntry.inService, Option.isSome_iff_ne_none]

theorem conflicts_iff {a b : Source} :
    a.conflicts b = true ↔
      (∃ line x y, a = .contact line x ∧ b = .contact line y) ∨ ∃ side, a = .carrier side ∧ b = .carrier side := by
  cases a <;> cases b <;> simp [Source.conflicts, eq_comm]

theorem lineInUse_iff {s : State} {src : Source} : s.lineInUse src = true ↔ lineTaken src s := by
  simp only [State.lineInUse, lineTaken, List.any_eq_true, mem_allPoints, true_and]
  refine exists_congr fun q => ?_
  cases (s.point q).defn with
  | none => simp
  | some d => simp [conflicts_iff]

theorem lineTaken_congr {s t : State} (h : ∀ q, (t.point q).defn = (s.point q).defn) (src : Source) :
    lineTaken src t ↔ lineTaken src s := by
  simp only [lineTaken, h]

theorem thresholdsOk_iff {d : Definition} : d.thresholdsOk = true ↔ ¬ bandsInvalid d := by
  unfold Definition.thresholdsOk bandsInvalid
  cases d.lowThreshold <;> cases d.highThreshold <;> simp [and_assoc]

/-! ## The owner's answers, in their order (R31 to R34) -/

theorem serveDefinePoint_of_badField {r : RawPoint} (h : ¬ FieldsInRange r) (s : State) : serveDefinePoint r s = refusing .badField s := by
  simp only [serveDefinePoint, definitionOf_eq_none_iff.2 h]
  rfl

/-- The entry of a point just defined, its four keys and its countdown written out (R34). -/
theorem defined_eq (d : Definition) :
    PointEntry.defined d =
      { defn := some d, keys := { low := .quiet, high := .quiet, stale := .quiet, fault := .quiet }, lowBucket := 0, highBucket := 0
        stale := if d.staleInterval = 0 then none else some d.staleInterval, shelve := 0 } := by
  have stale : (if 0 < d.staleInterval then some d.staleInterval else none) =
      if d.staleInterval = 0 then none else some d.staleInterval := by
    by_cases h : d.staleInterval = 0 <;> simp [h, Nat.pos_iff_ne_zero]
  rw [PointEntry.defined, stale]
  rfl

section Owner

variable {r : RawPoint} {p : PointId} {d : Definition} {s : State} (found : definitionOf r = some (p, d))

include found

theorem serveDefinePoint_of_pointInService (inService : (s.point p).defn ≠ none) :
    serveDefinePoint r s = refusing .pointInService s := by
  simp only [serveDefinePoint, found, inService_iff.2 inService, if_true]
  rfl

variable (vacant : (s.point p).defn = none)

include vacant

theorem serveDefinePoint_of_lineTaken (taken : lineTaken d.source s) : serveDefinePoint r s = refusing .lineInUse s := by
  simp only [serveDefinePoint, found, inService_iff, vacant, ne_eq, not_true_eq_false, if_false, lineInUse_iff.2 taken, if_true]
  rfl

theorem serveDefinePoint_of_bandsInvalid (apart : ¬ lineTaken d.source s) (invalid : bandsInvalid d) :
    serveDefinePoint r s = refusing .badThresholds s := by
  simp [serveDefinePoint, found, inService_iff, vacant, lineInUse_iff, apart, invalid, thresholdsOk_iff, refusing, Reply.bare]

theorem serveDefinePoint_of_sound (apart : ¬ lineTaken d.source s) (valid : ¬ bandsInvalid d) :
    serveDefinePoint r s = (putPoint p (.defined d) s, .done []) := by
  simp [serveDefinePoint, found, inService_iff, vacant, lineInUse_iff, apart, valid, thresholdsOk_iff]

end Owner

/-! ## The row at the local port -/

/-- A request that is served at the local port: its owner acts on the state at service, and its reply goes into the slot (R160, R162). -/
theorem takeLocal_of_served {s : State} (h : served .localPort s) (r : Request) :
    takeLocal r s = answered .localPort r s (serve .localPort r) := by
  obtain ⟨free, mode⟩ := h
  unfold takeLocal
  rw [if_neg (by simp [free]), transact_served (shiftSlot (requestClocks r) s) mode]
  rfl

theorem defn_reloadStale (e : PointEntry) : e.reloadStale.defn = e.defn := by
  unfold PointEntry.reloadStale
  split <;> rfl

/-- Neither the bits shifted out nor the return to Watch touches a definition. -/
theorem defn_atService_localPort (r : Request) (s : State) (q : PointId) :
    ((atService .localPort r s).point q).defn = (s.point q).defn := by
  unfold atService
  dsimp only
  split
  · simp only [inWatch, State.point, vget_vmap, defn_reloadStale]
  · rfl

theorem exec_definePoint_of_served {s : State} (h : served .localPort s) (r : RawPoint) :
    exec (.definePoint .localPort r) s = .next (answered .localPort (.definePoint r) s (serveDefinePoint r)) := by
  rw [exec_request _ _ _ rfl]
  exact congrArg _ (takeLocal_of_served h _)

/-- The row depends on what the owner answers in the state at service alone. -/
theorem answered_congr {o : Origin} {r : Request} {s : State} {f g : State → State × Reply}
    (h : f (atService o r s) = g (atService o r s)) : answered o r s f = answered o r s g := by
  simp only [answered, h]

/-- Settles O18: each refusal, and the write, is the owner's answer in the state at service, whose definitions are those of `s`. -/
theorem definePointChecksThenWrites : Obligations.DefinePointChecksThenWrites := by
  unfold Obligations.DefinePointChecksThenWrites
  intro r s hs
  have row {f} (h : serveDefinePoint r (atService .localPort (.definePoint r) s) = f (atService .localPort (.definePoint r) s)) :
      exec (.definePoint .localPort r) s = .next (answered .localPort (.definePoint r) s f) := by
    rw [exec_definePoint_of_served hs, answered_congr h]
  have defn := defn_atService_localPort (.definePoint r) s
  refine ⟨fun bad => row (serveDefinePoint_of_badField bad _), fun range => ?_⟩
  obtain ⟨d, written⟩ := exists_written range
  refine ⟨d, written, fun p point => ?_⟩
  have found := definitionOf_eq_some_iff.2 ⟨point, written, range⟩
  rw [← defn p, ← lineTaken_congr defn]
  refine ⟨fun inService => row ?_, fun vacant taken => row ?_, fun vacant apart invalid => row ?_, fun vacant apart valid => row ?_⟩
  · exact serveDefinePoint_of_pointInService found inService
  · exact serveDefinePoint_of_lineTaken found vacant taken
  · exact serveDefinePoint_of_bandsInvalid found vacant apart invalid
  · rw [serveDefinePoint_of_sound found vacant apart valid, defined_eq]
    rfl

end Sys2Proof.Machine
end

