-- ==== Sys2Proof/Proofs/Reading.lean ====
section
/-! PROOF. Reading: no mechanism of the condition table redefines a point, one reading acts as a request of it alone, and the row at
the local port counts the readings applied and rejected (R46, R47). -/

namespace Sys2Proof.Machine

/-! ## Definitions are left alone by the record table, the governors and the evaluator -/

@[simp] theorem point_withRt (rt : RecordTable) (s : State) (q : PointId) : ({ s with rt } : State).point q = s.point q := rfl

@[simp] theorem defn_quietKey (k : Key) (s : State) (q : PointId) : ((quietKey k s).point q).defn = (s.point q).defn := by
  cases k with
  | point k => exact point_putKey_defn _ _ _ _
  | storm g => rfl

@[simp] theorem defn_putLinkedState (x : KeyState) (k : Key) (s : State) (q : PointId) :
    ((putLinkedState x k s).point q).defn = (s.point q).defn := by
  cases k with
  | point k => exact point_putKey_defn _ _ _ _
  | storm g => rfl

/-- An entry written with the definition that it had leaves every definition. -/
theorem defn_putPoint {p : PointId} {e : PointEntry} {s : State} (h : e.defn = (s.point p).defn) (q : PointId) :
    ((putPoint p e s).point q).defn = (s.point q).defn := by
  rw [point_putPoint]
  split
  · next same => rw [h, same]
  · rfl

/-! ### Records -/

@[simp] theorem defn_allocateOrWait (k : PointKey) (v : Pending) (s : State) (q : PointId) :
    ((allocateOrWait k v s).point q).defn = (s.point q).defn := by
  unfold allocateOrWait
  split <;> simp

@[simp] theorem defn_serveFreed (i : RecordIx) (s : State) (q : PointId) : ((serveFreed i s).point q).defn = (s.point q).defn := by
  unfold serveFreed
  split <;> simp [handOver]

@[simp] theorem defn_retire (i : RecordIx) (s : State) (q : PointId) : ((retire i s).point q).defn = (s.point q).defn := by
  cases live : (s.record i).state.live with
  | false => rw [retire_of_dead i s live]
  | true =>
    cases key : (s.record i).key with
    | none => simp [retire, key]
    | some k =>
      rw [retire_of_live i s k live key]
      dsimp only
      split <;> simp

@[simp] theorem defn_issueCleared (i : RecordIx) (k : Key) (s : State) (q : PointId) :
    ((issueCleared i k s).point q).defn = (s.point q).defn :=
  defn_issue _ _ _

@[simp] theorem defn_clearSelfRetiring (i : RecordIx) (s : State) (q : PointId) :
    ((clearSelfRetiring i s).point q).defn = (s.point q).defn := by
  unfold clearSelfRetiring
  split <;> simp

@[simp] theorem defn_clearLatched (i : RecordIx) (s : State) (q : PointId) :
    ((clearLatched i s).point q).defn = (s.point q).defn := by
  unfold clearLatched
  dsimp only
  split <;> simp

@[simp] theorem defn_reRaise (i : RecordIx) (s : State) (q : PointId) : ((reRaise i s).point q).defn = (s.point q).defn := by
  unfold reRaise
  dsimp only
  split <;> simp

@[simp] theorem defn_stormRaise (g : GroupId) (s : State) (q : PointId) : ((stormRaise g s).point q).defn = (s.point q).defn := by
  unfold stormRaise
  dsimp only
  split <;> simp

/-- A peak update writes a record alone. -/
@[simp] theorem point_peakUpdate (i : RecordIx) (v : Half) (s : State) (q : PointId) : (peakUpdate i v s).point q = s.point q := by
  unfold peakUpdate
  dsimp only
  split
  · split <;> rfl
  · rfl

/-! ### Governors -/

@[simp] theorem defn_holdKey (k : PointKey) (v : Pending) (s : State) (q : PointId) :
    ((holdKey k v s).point q).defn = (s.point q).defn := by
  simp [holdKey]

@[simp] theorem defn_foldKey (k : PointKey) (sev : Severity) (s : State) (q : PointId) :
    ((foldKey k sev s).point q).defn = (s.point q).defn := by
  simp [foldKey, stormFold]

@[simp] theorem defn_closeGovernor (g : GroupId) (s : State) (q : PointId) :
    ((closeGovernor g s).point q).defn = (s.point q).defn := by
  simp [closeGovernor]

@[simp] theorem defn_divert (k : PointKey) (v : Pending) (s : State) (q : PointId) :
    ((divert k v s).point q).defn = (s.point q).defn := by
  unfold divert
  split <;> simp

@[simp] theorem defn_stormClearIfDue (g : GroupId) (s : State) (q : PointId) :
    ((stormClearIfDue g s).point q).defn = (s.point q).defn := by
  unfold stormClearIfDue
  dsimp only
  split <;> simp

@[simp] theorem defn_governAttempt (k : PointKey) (v : Pending) (s : State) (q : PointId) :
    ((governAttempt k v s).point q).defn = (s.point q).defn := by
  unfold governAttempt
  dsimp only
  split
  · exact defn_holdKey _ _ _ _
  · split
    · split <;> simp
    · exact defn_divert _ _ _ _

/-! ### Conditions, samples, readings -/

@[simp] theorem defn_beginCondition (k : PointKey) (d : Definition) (v : Option Half) (s : State) (q : PointId) :
    ((beginCondition k d v s).point q).defn = (s.point q).defn := by
  cases state : (s.key k).state with
  | quiet =>
    simp only [beginCondition, state, raiseAttempt]
    split <;> simp
  | cleared =>
    simp only [beginCondition, state]
    split <;> simp
  | raised | held | waiting | folded => simp only [beginCondition, state]

@[simp] theorem defn_clearEvent (k : PointKey) (d : Definition) (s : State) (q : PointId) :
    ((clearEvent k d s).point q).defn = (s.point q).defn := by
  cases state : (s.key k).state with
  | raised =>
    simp only [clearEvent, state]
    split
    · split <;> simp
    · rfl
  | held => simp [clearEvent, state, absorbHeld]
  | waiting => simp [clearEvent, state, absorbWaiting]
  | folded => simp [clearEvent, state, absorbFolded]
  | quiet | cleared => simp only [clearEvent, state]

@[simp] theorem defn_verdict (k : PointKey) (d : Definition) (b : Band) (level : Nat) (v : Half) (s : State) (q : PointId) :
    ((verdict k d b level v s).point q).defn = (s.point q).defn := by
  cases b with
  | violating => simp only [verdict]; split <;> simp
  | recovered => simp only [verdict]; split <;> simp
  | holding => rfl

@[simp] theorem point_offerPeak (k : PointKey) (v : Half) (s : State) (q : PointId) : (offerPeak k v s).point q = s.point q := by
  unfold offerPeak
  dsimp only
  split <;> simp

theorem defn_setBucket (e : PointEntry) (kind : Kind) (level : Nat) : (e.setBucket kind level).defn = e.defn := by
  cases kind <;> rfl

@[simp] theorem defn_applySample (k : PointKey) (v : Half) (s : State) (q : PointId) :
    ((applySample k v s).point q).defn = (s.point q).defn := by
  unfold applySample
  dsimp only
  split
  · rfl
  · split
    · rfl
    · rw [point_offerPeak, defn_verdict, defn_putPoint (defn_setBucket _ _ _)]

@[simp] theorem defn_staleStep (p : PointId) (d : Definition) (s : State) (q : PointId) :
    ((staleStep p d s).point q).defn = (s.point q).defn := by
  unfold staleStep
  dsimp only
  rw [defn_clearEvent, defn_putPoint]
  split <;> rfl

@[simp] theorem defn_faultStep (p : PointId) (d : Definition) (marked : Bool) (s : State) (q : PointId) :
    ((faultStep p d marked s).point q).defn = (s.point q).defn := by
  cases marked <;> simp [faultStep]

@[simp] theorem defn_applyReading (p : PointId) (d : Definition) (marked : Bool) (v : Half) (s : State) (q : PointId) :
    ((applyReading p d marked v s).point q).defn = (s.point q).defn := by
  cases marked <;> simp [applyReading]

/-! ## One reading -/

/-- The state after a request of one reading alone. -/
def readAlone (s : State) (r : RawReading) : State := (serveReading [r] s).1

theorem readingsOf_cons_eq_some_iff {r : RawReading} {rs : List RawReading} {l : List (PointId × Bool × Half)} :
    readingsOf (r :: rs) = some l ↔
      ∃ p m, p.val = r.point.toNat ∧ readingsOf rs = some m ∧ l = (p, r.fault != 0#8, r.value) :: m := by
  simp only [← pointNumber_eq_some_iff, readingsOf]
  split
  · next p m point rest => simp [point, rest, eq_comm]
  · next other => simpa using fun p point m rest => (other p m point rest).elim

section One

variable {p : PointId} {r : RawReading} (point : p.val = r.point.toNat) (s : State)

include point

/-- A reading is applied when its point takes readings, and else does nothing (R47). -/
theorem readAlone_eq :
    readAlone s r = match s.readingDef p with
      | some d => applyReading p d (r.fault != 0#8) r.value s
      | none => s := by
  have one : readingsOf [r] = some [(p, r.fault != 0#8, r.value)] := readingsOf_cons_eq_some_iff.2 ⟨p, [], point, rfl, rfl⟩
  cases h : s.readingDef p <;> simp [readAlone, serveReading, one, takeReading, h]

theorem taken_eq_isSome : taken s r = (s.readingDef p).isSome := by
  obtain ⟨n, bound⟩ := p
  obtain rfl : n = r.point.toNat := point
  simp only [taken, bound, dif_pos, State.readingDef]
  cases (s.point ⟨r.point.toNat, bound⟩).defn with
  | none => rfl
  | some d => by_cases source : d.source = .reading <;> simp [source]

/-- A reading acts as a request of it alone, and raises the count of its class by 1 (R46, R47). -/
theorem takeReading_eq (a b : Nat) :
    takeReading (s, a, b) (p, r.fault != 0#8, r.value) =
      (readAlone s r, if taken s r then a + 1 else a, if taken s r then b else b + 1) := by
  rw [taken_eq_isSome point, readAlone_eq point, takeReading]
  cases s.readingDef p <;> rfl

theorem readAlone_of_not_taken (rejected : taken s r = false) : readAlone s r = s := by
  rw [taken_eq_isSome point, Option.isSome_eq_false_iff, Option.isNone_iff_eq_none] at rejected
  rw [readAlone_eq point, rejected]

theorem defn_readAlone (q : PointId) : ((readAlone s r).point q).defn = (s.point q).defn := by
  rw [readAlone_eq point]
  cases s.readingDef p with
  | none => rfl
  | some d => exact defn_applyReading _ _ _ _ _ _

end One

/-- Which readings are taken depends on the definitions alone. -/
theorem taken_congr {s t : State} (h : ∀ q, (t.point q).defn = (s.point q).defn) : taken t = taken s := by
  funext r
  simp only [taken, h]

/-! ## The readings of a request, in order -/

/-- When no point is above 63, every reading is found (R46). -/
theorem exists_readingsOf {rs : List RawReading} (points : ∀ r ∈ rs, r.point.toNat ≤ 63) : ∃ l, readingsOf rs = some l := by
  induction rs with
  | nil => exact ⟨[], rfl⟩
  | cons r rs ih =>
    obtain ⟨head, tail⟩ := List.forall_mem_cons.1 points
    obtain ⟨l, found⟩ := ih tail
    exact ⟨_, readingsOf_cons_eq_some_iff.2 ⟨⟨_, Nat.lt_succ_of_le head⟩, l, rfl, found, rfl⟩⟩

theorem length_readingsOf {rs : List RawReading} {l : List (PointId × Bool × Half)} (found : readingsOf rs = some l) :
    l.length = rs.length := by
  induction rs generalizing l with
  | nil => cases found; rfl
  | cons r rs ih =>
    obtain ⟨p, m, -, rest, rfl⟩ := readingsOf_cons_eq_some_iff.1 found
    simp [ih rest]

theorem point_le_of_readingsOf {rs : List RawReading} {l : List (PointId × Bool × Half)} (found : readingsOf rs = some l) :
    ∀ r ∈ rs, r.point.toNat ≤ 63 := by
  induction rs generalizing l with
  | nil => simp
  | cons r rs ih =>
    obtain ⟨p, m, point, rest, -⟩ := readingsOf_cons_eq_some_iff.1 found
    exact List.forall_mem_cons.2 ⟨by omega, ih rest⟩

/-- The readings act one after another, each as a request of it alone. No reading redefines a point, so the state before the first
decides which are applied (R46, R47). -/
theorem foldl_takeReading {rs : List RawReading} {l : List (PointId × Bool × Half)} (found : readingsOf rs = some l) (s : State)
    (a b : Nat) :
    l.foldl takeReading (s, a, b) =
      (rs.foldl readAlone s, a + rs.countP (taken s), b + rs.countP fun r => !taken s r) := by
  induction rs generalizing l s a b with
  | nil => cases found; rfl
  | cons r rs ih =>
    obtain ⟨p, m, point, rest, rfl⟩ := readingsOf_cons_eq_some_iff.1 found
    have same : taken (readAlone s r) = taken s := taken_congr (defn_readAlone point s)
    rw [List.foldl_cons, takeReading_eq point, ih rest, same, List.foldl_cons, List.countP_cons, List.countP_cons]
    cases taken s r <;> simp <;> omega

theorem foldl_readAlone_of_not_taken {rs : List RawReading} {s : State} (points : ∀ r ∈ rs, r.point.toNat ≤ 63)
    (rejected : ∀ r ∈ rs, taken s r = false) : rs.foldl readAlone s = s := by
  induction rs with
  | nil => rfl
  | cons r rs ih =>
    obtain ⟨point, points⟩ := List.forall_mem_cons.1 points
    obtain ⟨head, tail⟩ := List.forall_mem_cons.1 rejected
    rw [List.foldl_cons, readAlone_of_not_taken (p := ⟨_, Nat.lt_succ_of_le point⟩) rfl s head, ih points tail]

/-! ## The owner's answers and the row at the local port -/

theorem serveReading_of_badField {rs : List RawReading} (bad : rs = [] ∨ 8 < rs.length ∨ ∃ r ∈ rs, 63 < r.point.toNat) (s : State) :
    serveReading rs s = refusing .badField s := by
  unfold serveReading
  split
  · rfl
  · next l found =>
    have points := point_le_of_readingsOf found
    have length := length_readingsOf found
    rw [if_neg]
    · rfl
    · rintro ⟨one, eight⟩
      rcases bad with rfl | many | ⟨r, mem, above⟩
      · simp [length] at one
      · omega
      · exact absurd (points r mem) (by omega)

theorem serveReading_of_sound {rs : List RawReading} (nonempty : rs ≠ []) (few : rs.length ≤ 8)
    (points : ∀ r ∈ rs, r.point.toNat ≤ 63) (s : State) :
    serveReading rs s =
      (rs.foldl readAlone s, { status := .done, body := [sent1 (rs.countP (taken s)), sent1 (rs.countP fun r => !taken s r)] }) := by
  obtain ⟨l, found⟩ := exists_readingsOf points
  have bounds : 1 ≤ l.length ∧ l.length ≤ 8 := by
    rw [length_readingsOf found]
    exact ⟨List.length_pos_iff.2 nonempty, few⟩
  simp only [serveReading, found, if_pos bounds, foldl_takeReading found, Nat.zero_add]
  rfl

theorem exec_reading_of_served {s : State} (h : served .localPort s) (rs : List RawReading) :
    exec (.reading .localPort rs) s = .next (answered .localPort (.reading rs) s (serveReading rs)) := by
  rw [exec_request _ _ _ rfl]
  exact congrArg _ (takeLocal_of_served h _)

/-- Settles O23: the row answers as the owner does in the state at service, whose definitions are those of `s`; the readings fold over
that state one by one. -/
theorem readingCountsAppliedAndRejected : Obligations.ReadingCountsAppliedAndRejected := by
  unfold Obligations.ReadingCountsAppliedAndRejected
  intro rs s hs t
  have same : taken t = taken s := taken_congr (defn_atService_localPort _ s)
  rw [exec_reading_of_served hs]
  refine ⟨fun bad => ?_, fun nonempty few points => ⟨rs.foldl readAlone t, ?_, rfl, ?_, fun rejected => ?_⟩⟩
  · rw [answered_congr (serveReading_of_badField bad t)]
  · simp only [answered, serveReading_of_sound nonempty few points, same, t]
  · exact outside_foldl _ (fun u r => outside_serveReading [r] u) rs t
  · exact foldl_readAlone_of_not_taken points (by rwa [same])

end Sys2Proof.Machine
end

