-- ==== Sys2Proof/Proofs/ServedRequest.lean ====
section
/-! PROOF. A request that is served, at either port: the words of the statements for the route link are what the model does there, and
the row of the request is the answer of its owner in the state at service (R144 to R148, R151, R153). -/

namespace Sys2Proof.Machine

/-! ## The words of the statements for the route link -/

theorem putSide_eq_onSide (d : Side) (f : SideState → SideState) (s : State) : putSide d (f (s.side d)) s = onSide d f s := by
  cases d <;> rfl

theorem countLink_eq_onSide (d : Side) (which : LinkCounter) (s : State) : countLink d which 1 s = onSide d (raised [which]) s := by
  cases d <;> rfl

theorem place_eq_queued (d : Side) (f : Frame) (s : State) : place d f s = queued d f s := by
  unfold place queued
  cases carrier : (s.side d).carrier with
  | false => simp [countLink_eq_onSide]
  | true =>
    by_cases room : (s.side d).queue.length < 4
    · simp [room, Nat.not_le.2 room, ← putSide_eq_onSide]
    · simp [room, Nat.not_lt.1 room, countLink_eq_onSide]

theorem forward_eq_sentOn (d : Side) (f : Frame) (s : State) : forward d f s = sentOn d f s := by
  simp only [forward, sentOn, place_eq_queued, countLink_eq_onSide]

/-- The receiver hunts again, and the frame is counted as Received and as Taken: the state at service (R144, R145). -/
theorem atService_route_eq (h : RouteHeader) (r : Request) (s : State) :
    atService (.route h) r s = countLink h.side .taken 1 (countLink h.side .received 1 (hunt h.side s)) := by
  simp only [atService]
  cases h.side <;> rfl

theorem isOwn_hunt_received (d : Side) (s : State) (b : Byte) : (countLink d .received 1 (hunt d s)).isOwn b = s.isOwn b := by
  simp [State.isOwn, hunt]

theorem isOwn_atService_route (h : RouteHeader) (r : Request) (s : State) (b : Byte) :
    (atService (.route h) r s).isOwn b = s.isOwn b := by
  simp [atService_route_eq, State.isOwn, hunt]

/-! ## The row of a request that is served -/

theorem takeFrame_of_addressed {d : Side} {f : Frame} {s : State} (kind : f.kind = .request)
    (own : (countLink d .received 1 s).isOwn f.destination = true) (act : State → State × Reply) :
    takeFrame d f act s = takeAddressed d f act (countLink d .received 1 s) := by
  simp only [takeFrame, own, kind, if_true]

theorem takeFrame_of_broadcast {d : Side} {f : Frame} {s : State} (kind : f.kind = .request)
    (other : (countLink d .received 1 s).isOwn f.destination = false) (broadcast : f.destination = 0#8) (act : State → State × Reply) :
    takeFrame d f act s = takeBroadcast d f act (countLink d .received 1 s) := by
  rw [takeFrame]
  simp only [other, Bool.false_eq_true, if_false, if_pos broadcast, kind]

/-- A request that is served by the route link: its owner acts on the state at service; the reply to an addressed one is queued, a
broadcast goes on (R145, R146, R148). -/
theorem takeRoute_of_served {h : RouteHeader} {s : State} (hs : served (.route h) s) (r : Request) :
    takeRoute h r s = answered (.route h) r s (serve (.routeLink h.source) r) := by
  obtain ⟨free, carrier, destination⟩ := hs
  have same (b : Byte) : (serve (.routeLink h.source) r (atService (.route h) r s)).1.isOwn b = s.isOwn b := by
    rw [isOwn_of_untouched (untouched_serve _ _ _), isOwn_atService_route]
  have arrived : takeRoute h r s = takeFrame h.side (requestFrame h r) (serve (.routeLink h.source) r) (hunt h.side s) := by
    rw [takeRoute, if_neg (by simp [free]), if_pos carrier]
  cases addressed : s.isOwn h.destination with
  | true =>
    rw [arrived, takeFrame_of_addressed rfl ((isOwn_hunt_received _ _ _).trans addressed), takeAddressed, place_eq_queued,
      ← atService_route_eq h r s]
    simp only [answered, withReply, same, addressed, if_true]
    rfl
  | false =>
    have broadcast : h.destination = 0#8 := by simpa [addressed] using destination
    rw [arrived, takeFrame_of_broadcast rfl ((isOwn_hunt_received _ _ _).trans addressed) broadcast, takeBroadcast, forward_eq_sentOn,
      ← atService_route_eq h r s]
    simp only [answered, withReply, same, addressed, Bool.false_eq_true, if_false]
    rfl

/-- The row of a request that is served: the answer of its owner in the state at service, at either port. -/
theorem exec_request_of_served {i : Instr} {o : Origin} {r : Request} (row : i.request? = some (o, r)) {s : State} (hs : served o s) :
    exec i s = .next (answered o r s (serve (takerOf o) r)) := by
  rw [exec_request i o r row]
  cases o with
  | localPort => exact congrArg _ (takeLocal_of_served hs r)
  | route h => exact congrArg _ (takeRoute_of_served hs r)

/-- What the owner answers in the state at service is all that the row has to know. -/
theorem answered_eq_withReply {o : Origin} {r : Request} {s x : State} {reply : Reply} {f : State → State × Reply}
    (h : f (atService o r s) = (x, reply)) : answered o r s f = withReply o r reply x := by
  simp only [answered, h]

end Sys2Proof.Machine
end

