-- ==== Sys2Proof/Proofs/StormClear.lean ====
section
/-! PROOF. How the group counters take an event, and what the clear of a storm record writes (R15, R17, R131 to R137). -/

namespace Sys2Proof.Machine

/-! ## How the group counters take an event (R131 to R137) -/

/-- A counter takes an event that both of its masks hold, and StormClosed whatever the severity mask (R133). -/
theorem takes_iff (c : Counter) (e : TableEvent) :
    c.takes e = true ↔ c.eventMask.getLsbD e.kind.bit = true ∧
      (e.kind = .stormClosed ∨ ∃ v, e.severity = some v ∧ c.severityMask.getLsbD (v.level - 1) = true) := by
  unfold Counter.takes
  cases e.kind <;> cases e.severity <;> simp [severityInMask]

/-- A counter takes an event as the word `tally` says. -/
theorem count_eq_tally (c : Counter) (e : TableEvent) : c.count e = tally e.kind e.severity (e.duration.getD 0) c := by
  simp only [Counter.count, tally, takes_iff, satAdd, Counter.amount, Nat.min_comm]
  cases e.severity <;> cases c.measure <;> simp

/-- GC counts an event once, for its group. -/
theorem counted_countEvent (e : TableEvent) (s : State) :
    counted [(e.group, e.kind, e.severity, e.duration.getD 0)] s (countEvent e s) := by
  intro h j
  simp only [List.foldl_cons, List.foldl_nil, ← count_eq_tally, State.counter, State.counters, countEvent, vget_vset]
  split
  · next same => rw [vget_vmap, same]
  · rfl

/-- Events counted, and then others. -/
theorem counted_append {first second : List (GroupId × EventKind × Option Severity × Nat)} {s t u : State} (h : counted first s t)
    (k : counted second t u) : counted (first ++ second) s u := by
  intro g j
  rw [List.foldl_append, ← h g j, k g j]

/-- NU and TB take no notice of a Cleared or a Retired event: it is counted, and nothing else (R164, R178). -/
theorem issue_of_ending {e : TableEvent} (h : e.kind = .cleared ∨ e.kind = .retired) (s : State) : issue e s = countEvent e s := by
  rcases h with h | h <;> simp only [issue, noticeEvent, wakeEvent, h]

theorem duration_eq_liveDuration (r : Record) (s : State) : r.duration s.tb.hutTime = liveDuration r s := by
  unfold Record.duration liveDuration
  rw [BitVec.toInt_eq_msb_cond]
  dsimp only
  split <;> omega

/-! ## The clear of a storm record (R15, R17) -/

/-- An Idle record and a Cleared one are left (R18). -/
theorem clearLatched_of_idle_or_cleared {i : RecordIx} {s : State}
    (left : (s.record i).state = .idle ∨ (s.record i).state = .cleared) : clearLatched i s = s := by
  apply clearLatched_of_other <;> rcases left with h | h <;> simp [h]

section Storm

variable {g : GroupId} {s : State} (key : (s.record (stormIx g)).key = some (.storm g))

include key

/-- A Standing storm record goes to the Cleared tail with its clear time; Cleared is counted. -/
theorem clearLatched_of_storm_standing (state : (s.record (stormIx g)).state = .standing) :
    clearLatched (stormIx g) s =
      countEvent (recordEvent .cleared (.storm g) (stormIx g) (s.record (stormIx g)).severity
          (some (liveDuration (s.record (stormIx g)) s)) s)
        { s with rt := { s.rt with
            records := vset s.rt.records (stormIx g) { s.record (stormIx g) with state := .cleared, clearTime := some s.tb.hutTime }
            standing := s.rt.standing.erase (stormIx g)
            acknowledged := s.rt.acknowledged.erase (stormIx g)
            cleared := toTail (stormIx g) s.rt.cleared
            changeCount := s.rt.changeCount + 1#16 } } := by
  simp only [clearLatched, state, key, putLinkedState, issueCleared, record_advance, record_toCleared, record_putRecord,
    if_true]
  rw [issue_of_ending (.inl rfl), ← duration_eq_liveDuration]
  rfl

/-- An Acknowledged storm record is retired to Idle; Cleared and then Retired are counted. -/
theorem clearLatched_of_storm_acknowledged (state : (s.record (stormIx g)).state = .acknowledged) :
    clearLatched (stormIx g) s =
      countEvent (recordEvent .retired (.storm g) (stormIx g) (s.record (stormIx g)).severity
          (some (liveDuration (s.record (stormIx g)) s)) s)
        (countEvent (recordEvent .cleared (.storm g) (stormIx g) (s.record (stormIx g)).severity
            (some (liveDuration (s.record (stormIx g)) s)) s)
          { s with rt := { s.rt with
              records := vset s.rt.records (stormIx g) (ended .idle (s.record (stormIx g)))
              standing := s.rt.standing.erase (stormIx g)
              acknowledged := s.rt.acknowledged.erase (stormIx g)
              cleared := s.rt.cleared.erase (stormIx g)
              changeCount := s.rt.changeCount + 1#16 } }) := by
  have step : clearLatched (stormIx g) s = retire (stormIx g) (issueCleared (stormIx g) (.storm g) s) := by
    simp only [clearLatched, state, key]
  have same : (issueCleared (stormIx g) (.storm g) s).record (stormIx g) = s.record (stormIx g) := record_issue _ _ _
  rw [step, retire_of_live _ _ (.storm g) (by rw [same, state]; rfl) (by rw [same, key]), same]
  simp only [stormIx_not_pool, Bool.false_eq_true, if_false, quietKey]
  rw [issue_of_ending (.inr rfl), issueCleared, issue_of_ending (.inl rfl), ← duration_eq_liveDuration]
  rfl

end Storm

end Sys2Proof.Machine
end

