-- ==== Sys2Proof/Proofs/GroupRequests.lean ====
section
/-! PROOF. Define Group and Read Group: what the bytes of a governor's definition decode to, what the owner answers, and the two rows
(R94, R95, R108). -/

namespace Sys2Proof.Machine

/-! ## The definition that a Define Group carries -/

theorem barOf_eq_some_iff {n : Byte} {b : Bar} : barOf n = some b ↔ barWritten b n := by
  cases b with
  | never => by_cases five : n = 5#8 <;> simp [barOf, barWritten, five]
  | atLeast v =>
    by_cases five : n = 5#8
    · subst five
      cases v <;> simp [barOf, barWritten, Severity.level]
    · simp [barOf, barWritten, five, severityOf_eq_some_iff]

theorem governorModeOf_eq_some_iff {n : Byte} {m : GovernorMode} : governorModeOf n = some m ↔ n = m.byte := by
  unfold governorModeOf
  cases m <;> split <;> simp_all [GovernorMode.byte, ← BitVec.toNat_inj]

theorem exists_barWritten {n : Byte} (h : 1 ≤ n.toNat ∧ n.toNat ≤ 5) : ∃ b, barWritten b n := by
  by_cases five : n = 5#8
  · exact ⟨.never, five⟩
  · obtain ⟨v, level⟩ := exists_severity_level.2 (⟨h.1, by bv_omega⟩ : 1 ≤ n.toNat ∧ n.toNat ≤ 4)
    exact ⟨.atLeast v, level⟩

theorem range_of_barWritten {n : Byte} {b : Bar} (h : barWritten b n) : 1 ≤ n.toNat ∧ n.toNat ≤ 5 := by
  cases b with
  | never =>
    have five : n = 5#8 := h
    simp [five]
  | atLeast v =>
    have range := exists_severity_level.1 ⟨v, h⟩
    omega

theorem toNat_governorModeByte_le_one (m : GovernorMode) : m.byte.toNat ≤ 1 := by
  cases m <;> decide

/-- Once the bytes spell a definition, what is left of R94 is the bounds of the numbers. -/
theorem groupInRange_iff_of_written {r : RawGroup} {g : GroupId} {d : GovernorDef} (group : r.group.toNat = g.val)
    (h : GroupWritten r d) :
    GroupInRange r ↔
      1 ≤ r.depth.toNat ∧ r.depth.toNat ≤ 15 ∧ 1 ≤ r.reopen.toNat ∧ r.reopen.toNat ≤ r.depth.toNat ∧ r.refillExponent.toNat ≤ 7 := by
  constructor
  · intro range
    exact ⟨range.depth.1, range.depth.2, range.reopen.1, range.reopen.2, range.exponent⟩
  · rintro ⟨depthLow, depthHigh, reopenLow, reopenHigh, exponent⟩
    have mode : r.mode = d.mode.byte := h.mode
    exact
      { group := by omega
        depth := ⟨depthLow, depthHigh⟩
        reopen := ⟨reopenLow, reopenHigh⟩
        exponent
        bypass := range_of_barWritten h.bypass
        mode := mode ▸ toNat_governorModeByte_le_one d.mode
        severity := exists_severity_level.1 ⟨_, h.severity⟩ }

/-- Define Group finds the definition that the bytes spell, when they are in range (R94). -/
theorem governorDefOf_eq_some_iff {r : RawGroup} {g : GroupId} {d : GovernorDef} :
    governorDefOf r = some (g, d) ↔ r.group.toNat = g.val ∧ GroupWritten r d ∧ GroupInRange r := by
  simp only [governorDefOf, bind, Option.bind_eq_some_iff, groupNumber_eq_some_iff, barOf_eq_some_iff, governorModeOf_eq_some_iff,
    severityOf_eq_some_iff, Option.ite_none_right_eq_some]
  constructor
  · rintro ⟨q, group, bypass, hbypass, mode, hmode, severity, hseverity, bounds, same⟩
    obtain ⟨rfl, spelt⟩ := Prod.mk.inj (Option.some.inj same)
    have written : GroupWritten r d := by
      subst spelt
      exact { depth := rfl, reopen := rfl, exponent := rfl, bypass := hbypass, mode := hmode, severity := hseverity }
    exact ⟨group, written, (groupInRange_iff_of_written group written).2 bounds⟩
  · rintro ⟨group, written, range⟩
    refine ⟨g, group, d.bypass, written.bypass, d.mode, written.mode, d.stormSeverity, written.severity,
      (groupInRange_iff_of_written group written).1 range, ?_⟩
    simp only [← written.depth, ← written.reopen, ← written.exponent]

/-- Bytes in range spell a definition. -/
theorem exists_groupWritten {r : RawGroup} (h : GroupInRange r) : ∃ d, GroupWritten r d := by
  obtain ⟨bypass, hbypass⟩ := exists_barWritten h.bypass
  obtain ⟨stormSeverity, hseverity⟩ := exists_severity_level.2 h.severity
  obtain ⟨mode, hmode⟩ : ∃ m : GovernorMode, r.mode = m.byte := by
    rcases eq_zero_or_one_of_toNat_le h.mode with e | e
    · exact ⟨.hold, e⟩
    · exact ⟨.fold, e⟩
  exact ⟨{ depth := r.depth.toNat, reopen := r.reopen.toNat, refillExponent := r.refillExponent.toNat, bypass, mode, stormSeverity },
    { depth := rfl, reopen := rfl, exponent := rfl, bypass := hbypass, mode := hmode, severity := hseverity }⟩

theorem governorDefOf_eq_none {r : RawGroup} (h : ¬ GroupInRange r) : governorDefOf r = none := by
  rw [Option.eq_none_iff_forall_ne_some]
  rintro ⟨g, d⟩ found
  obtain ⟨-, -, range⟩ := governorDefOf_eq_some_iff.1 found
  exact h range

theorem groupInUse_iff {s : State} {g : GroupId} : s.groupInUse g = true ↔ ∃ p e, (s.point p).defn = some e ∧ e.group = g := by
  simp only [State.groupInUse, List.any_eq_true, mem_allPoints, true_and]
  refine exists_congr fun p => ?_
  cases (s.point p).defn with
  | none => simp
  | some e => simp

/-! ## The owner's answers, in their order (R94, R95) -/

theorem serveDefineGroup_of_badField {r : RawGroup} (h : ¬ GroupInRange r) (s : State) : serveDefineGroup r s = refusing .badField s := by
  simp only [serveDefineGroup, governorDefOf_eq_none h]
  rfl

theorem serveDefineGroup_of_inUse {r : RawGroup} {g : GroupId} {d : GovernorDef} {s : State} (found : governorDefOf r = some (g, d))
    (inUse : ∃ p e, (s.point p).defn = some e ∧ e.group = g) : serveDefineGroup r s = refusing .groupInUse s := by
  simp only [serveDefineGroup, found, groupInUse_iff.2 inUse, if_true]
  rfl

theorem serveDefineGroup_of_unused {r : RawGroup} {g : GroupId} {d : GovernorDef} {s : State} (found : governorDefOf r = some (g, d))
    (unused : ∀ p e, (s.point p).defn = some e → e.group ≠ g) :
    serveDefineGroup r s = (defineGovernor g d s, { status := .done, body := [] }) := by
  have free : ¬ s.groupInUse g = true := fun inUse => by
    obtain ⟨p, e, defn, group⟩ := groupInUse_iff.1 inUse
    exact unused p e defn group
  simp only [serveDefineGroup, found, if_neg free]
  rfl

/-! ## Define Group at the local port -/

/-- A governor that has taken a definition: Open, its tokens at the depth, its countdown at 2^p (R95). -/
def Governor.opened (x : Governor) (d : GovernorDef) : Governor :=
  { x with defn := d, gate := .opened, tokens := d.depth, refill := 2 ^ d.refillExponent }

theorem defineGovernor_eq (g : GroupId) (d : GovernorDef) (s : State) :
    defineGovernor g d s = clearLatched (stormIx g) (putGovernor g ((s.governor g).opened d) s) := rfl

/-- Neither the bits shifted out nor the return to Watch touches a record. -/
theorem record_atService_localPort (r : Request) (s : State) (i : RecordIx) : (atService .localPort r s).record i = s.record i := by
  unfold atService
  dsimp only
  split <;> rfl

/-- Neither the bits shifted out nor the return to Watch touches a governor. -/
theorem governor_atService_localPort (r : Request) (s : State) (g : GroupId) : (atService .localPort r s).governor g = s.governor g := by
  unfold atService
  dsimp only
  split <;> rfl

theorem exec_defineGroup_of_served {s : State} (h : served .localPort s) (r : RawGroup) :
    exec (.defineGroup .localPort r) s = .next (answered .localPort (.defineGroup r) s (serveDefineGroup r)) :=
  exec_request_of_served rfl h

/-- Settles O26: each refusal, and the definition, is the owner's answer in the state at service, whose points, records and governors
are those of `s`; after the definition the storm record is asked to clear. -/
theorem defineGroupOpensAFullGovernor : Obligations.DefineGroupOpensAFullGovernor := by
  unfold Obligations.DefineGroupOpensAFullGovernor
  intro r s hs t ends
  have row {x : State} {status : Status} (h : serveDefineGroup r t = (x, { status, body := [] })) : ends x status :=
    (exec_defineGroup_of_served hs r).trans (congrArg _ (answered_eq_withReply h))
  refine ⟨fun bad => row (serveDefineGroup_of_badField bad t), fun range => ?_⟩
  obtain ⟨d, written⟩ := exists_groupWritten range
  refine ⟨d, written, fun g group => ?_⟩
  have found : governorDefOf r = some (g, d) := governorDefOf_eq_some_iff.2 ⟨group.symm, written, range⟩
  simp only [← defn_atService_localPort (.defineGroup r) s, ← record_atService_localPort (.defineGroup r) s,
    ← governor_atService_localPort (.defineGroup r) s]
  refine ⟨fun inUse => row (serveDefineGroup_of_inUse found inUse), fun unused => ?_⟩
  have defined := row (serveDefineGroup_of_unused found unused)
  rw [defineGovernor_eq] at defined
  refine ⟨fun left => ?_, fun standing key => ⟨_, defined, ?_⟩, fun acknowledged key => ⟨_, defined, ?_⟩⟩
  · rwa [clearLatched_of_idle_or_cleared] at defined
    exact left
  · rw [clearLatched_of_storm_standing]
    · exact ⟨rfl, rfl, rfl, rfl, rfl, rfl, counted_countEvent _ _⟩
    · exact key
    · exact standing
  · rw [clearLatched_of_storm_acknowledged]
    · exact ⟨rfl, rfl, rfl, rfl, rfl, rfl, counted_append (counted_countEvent _ _) (counted_countEvent _ _)⟩
    · exact key
    · exact acknowledged

/-! ## Read Group at either port -/

theorem natHalf_eq_sent2 (n : Nat) : natHalf n = sent2 n := by
  have high : (BitVec.ofNat 16 n).extractLsb' 8 8 = BitVec.ofNat 8 (n / 256) := by
    apply BitVec.eq_of_toNat_eq
    simp [Nat.shiftRight_eq_div_pow]
    omega
  have low : (BitVec.ofNat 16 n).extractLsb' 0 8 = BitVec.ofNat 8 n := by
    apply BitVec.eq_of_toNat_eq
    simp
  rw [natHalf, halfBytes, high, low, sent2]

theorem barByte_eq_sent1 (b : Bar) : b.byte = sent1 (barNumber b) := by
  cases b <;> rfl

theorem serveReadGroup_of_badField {b : Byte} (h : 7 < b.toNat) (s : State) : serveReadGroup b s = refusing .badField s := by
  have none : groupNumber b = none := dif_neg (by omega)
  simp only [serveReadGroup, none]
  rfl

theorem serveReadGroup_of_group {b : Byte} {g : GroupId} (group : g.val = b.toNat) (s : State) :
    serveReadGroup b s = telling (fun t => governorBytes (t.governor g) (t.record (stormIx g)).state) s := by
  simp only [serveReadGroup, groupNumber_eq_some_iff.2 group.symm]
  rfl

theorem exec_readGroup_of_served {o : Origin} {s : State} (h : served o s) (b : Byte) :
    exec (.readGroup o b) s = .next (answered o (.readGroup b) s (serveReadGroup b)) := by
  rw [exec_request_of_served rfl h]
  cases o <;> rfl

/-- Settles O27: the owner answers with the bytes of the governor and of its storm record as they stand at service. -/
theorem readGroupReturnsTheGovernor : Obligations.ReadGroupReturnsTheGovernor := by
  unfold Obligations.ReadGroupReturnsTheGovernor
  intro o b s hs
  rw [exec_readGroup_of_served hs]
  refine ⟨fun above => ?_, fun g group => ?_⟩
  · rw [answered_congr (serveReadGroup_of_badField above _)]
  · rw [answered_congr (serveReadGroup_of_group group _)]
    simp only [governorBytes, natHalf_eq_sent2, barByte_eq_sent1]
    rfl

end Sys2Proof.Machine
end

