-- ==== Sys2Proof/Proofs/ShelveAndRead.lean ====
section
/-! PROOF. The owner of a request that both ports serve, and what it finds at service; Shelve Point (R118) and Read Record (R126). -/

namespace Sys2Proof.Machine

/-! ## The state at service, at either port -/

/-- Neither port touches the table before the owner acts: a return to Watch reloads stale countdowns, an arrival counts on its side. -/
theorem core_atService (o : Origin) (r : Request) (s : State) : (atService o r s).core = s.core := by
  cases o with
  | localPort =>
    unfold atService
    dsimp only
    split
    · exact core_enterWatch _
    · rfl
  | route h => cases d : h.side <;> simp only [atService, d] <;> rfl

theorem hutTime_atService (o : Origin) (r : Request) (s : State) : (atService o r s).tb.hutTime = s.tb.hutTime := by
  cases o with
  | localPort =>
    unfold atService
    dsimp only
    split <;> rfl
  | route h => cases d : h.side <;> simp only [atService, d] <;> rfl

/-- The row of a request that both ports serve: all there is to know is what its owner answers in the state at service (R149, R160). -/
theorem exec_of_serveOwner {i : Instr} {o : Origin} {r : Request} (row : i.request? = some (o, r)) (anywhere : localOnly r = false)
    (notWake : r ≠ .wakeHut) {s : State} (hs : served o s) {f : State → State × Reply}
    (h : serveOwner (takerOf o) r (atService o r s) = f (atService o r s)) : exec i s = .next (answered o r s f) := by
  have permit : permitted (takerOf o) r = true := by
    cases o with
    | localPort => exact decide_eq_true notWake
    | route h => simp [takerOf, permitted, anywhere]
  rw [exec_request_of_served row hs, answered_congr]
  rw [serve, if_pos permit, h]

/-! ## Shelve Point (R118) -/

theorem pointNumber_eq_none {b : Byte} (h : 63 < b.toNat) : pointNumber b = none := dif_neg (by omega)

theorem serveShelvePoint_of_badField {b : Byte} {m : Half} (bad : 63 < b.toNat ∨ m = 0#16 ∨ 1440 < m.toNat) (s : State) :
    serveShelvePoint b m s = refusing .badField s := by
  by_cases above : 63 < b.toNat
  · simp only [serveShelvePoint, pointNumber_eq_none above]
    rfl
  · have minutes : ¬ (1 ≤ m.toNat ∧ m.toNat ≤ 1440) := by
      rcases bad with h | h | h
      · exact absurd h above
      · simp [h]
      · omega
    unfold serveShelvePoint
    split
    · rfl
    · rw [if_neg minutes]
      rfl

section Shelve

variable {b : Byte} {m : Half} {p : PointId} {s : State} (point : p.val = b.toNat) (nonzero : m ≠ 0#16) (day : m.toNat ≤ 1440)

include point nonzero day

/-- With its number and its minutes in range, all turns on whether the point is In Service. -/
theorem serveShelvePoint_of_inRange :
    serveShelvePoint b m s =
      if (s.point p).inService then (putPoint p { s.point p with shelve := m.toNat * 60 } s, .done []) else (s, .bare .pointVacant) := by
  have least : 1 ≤ m.toNat := by bv_omega
  simp only [serveShelvePoint, pointNumber_eq_some_iff.2 point, if_pos (And.intro least day)]

theorem serveShelvePoint_of_vacant (vacant : (s.point p).defn = none) : serveShelvePoint b m s = refusing .pointVacant s := by
  rw [serveShelvePoint_of_inRange point nonzero day, if_neg (fun h => inService_iff.1 h vacant)]
  rfl

theorem serveShelvePoint_of_inService (inService : (s.point p).defn ≠ none) :
    serveShelvePoint b m s =
      ({ s with pt := vset s.pt p { s.point p with shelve := m.toNat * 60 } }, { status := .done, body := [] }) := by
  rw [serveShelvePoint_of_inRange point nonzero day, if_pos (inService_iff.2 inService)]
  rfl

end Shelve

/-- Settles O21: the owner judges the number, the minutes and then the point, which is In Service at service exactly when it is in `s`. -/
theorem shelvePointLoadsTheCountdown : Obligations.ShelvePointLoadsTheCountdown := by
  unfold Obligations.ShelvePointLoadsTheCountdown
  intro o b m s hs ends
  have row {f : State → State × Reply}
      (h : serveShelvePoint b m (atService o (.shelvePoint b m) s) = f (atService o (.shelvePoint b m) s)) : ends f :=
    exec_of_serveOwner rfl rfl Request.noConfusion hs h
  refine ⟨fun bad => row (serveShelvePoint_of_badField bad _), fun p point nonzero day => ?_⟩
  rw [← defn_of_core (core_atService o (.shelvePoint b m) s) p]
  exact ⟨fun vacant => row (serveShelvePoint_of_vacant point nonzero day vacant),
    fun inService => row (serveShelvePoint_of_inService point nonzero day inService)⟩

/-! ## The fields of a record, as they are sent (11 section 11.7) -/

theorem halfBytes_eq_sent2 (h : Half) : halfBytes h = sent2 h.toNat := by
  rw [← natHalf_eq_sent2, natHalf, BitVec.ofNat_toNat, BitVec.setWidth_eq]

theorem quadBytes_eq_sent4 (q : Quad) : quadBytes q = sent4 q.toNat := by
  have byte (n : Nat) : q.extractLsb' n 8 = BitVec.ofNat 8 (q.toNat / 2 ^ n) := by
    apply BitVec.eq_of_toNat_eq
    simp [Nat.shiftRight_eq_div_pow]
  simp only [quadBytes, sent4, byte, Nat.pow_zero, Nat.div_one, Nat.reducePow]

theorem key_bytes_eq_keySent (k : Key) : k.bytes = keySent k := by
  cases k with
  | storm g => rfl
  | point k =>
    obtain ⟨p, kind⟩ := k
    cases kind <;> rfl

/-- Four presence bits joined are their sum. -/
theorem presence_bits : ∀ key peak clearTime ack : Bool,
    (if key then 1#8 else 0#8) ||| (if peak then 2#8 else 0#8) ||| (if clearTime then 4#8 else 0#8) ||| (if ack then 8#8 else 0#8) =
      sent1 ((if key then 1 else 0) + (if peak then 2 else 0) + (if clearTime then 4 else 0) + (if ack then 8 else 0)) := by
  decide

/-- The 24 bytes of a record: what an absent field is sent as is 0 in each of its bytes. -/
theorem recordBytes_eq_recordSent (i : RecordIx) (r : Record) : recordBytes i r = recordSent i r := by
  have presence : presenceByte r = _ := presence_bits r.key.isSome r.peak.isSome r.clearTime.isSome r.ack.isSome
  have state : r.state.byte = match r.state with
      | .free => 0#8
      | .idle => 1#8
      | .standing => 2#8
      | .acknowledged => 3#8
      | .cleared => 4#8 := by cases r.state <;> rfl
  have peak : halfBytes (r.peak.getD 0#16) = match r.peak with
      | some v => sent2 v.toNat
      | none => [0#8, 0#8] := by cases r.peak <;> simp [halfBytes_eq_sent2, sent2]
  have clearTime : optQuad r.clearTime = match r.clearTime with
      | some v => sent4 v.toNat
      | none => [0#8, 0#8, 0#8, 0#8] := by cases r.clearTime <;> simp [optQuad, quadBytes_eq_sent4, sent4]
  have ack : ackBytes r.ack = match r.ack with
      | some a => [a.taker.byte] ++ sent2 a.tag.toNat ++ sent4 a.time.toNat
      | none => [0#8, 0#8, 0#8, 0#8, 0#8, 0#8, 0#8] := by cases r.ack <;> simp [ackBytes, halfBytes_eq_sent2, quadBytes_eq_sent4]
  rw [recordBytes, presence, state, quadBytes_eq_sent4, peak, clearTime, ack]
  simp only [key_bytes_eq_keySent]
  rfl

/-! ## Read Record (R126) -/

theorem recordNumber_eq_some_iff {b : Byte} {i : RecordIx} : recordNumber b = some i ↔ i.val = b.toNat := by
  unfold recordNumber
  split
  · simp only [Option.some.injEq, Fin.ext_iff, eq_comm]
  · next h =>
    have : i.val ≠ b.toNat := by omega
    simp [this]

theorem recordNumber_eq_none {b : Byte} (h : 167 < b.toNat) : recordNumber b = none := dif_neg (by omega)

theorem serveReadRecord_of_badField {b : Byte} (above : 167 < b.toNat) (s : State) : serveReadRecord b s = refusing .badField s := by
  simp only [serveReadRecord, recordNumber_eq_none above]
  rfl

theorem serveReadRecord_of_record {b : Byte} {i : RecordIx} (index : i.val = b.toNat) (s : State) :
    serveReadRecord b s = telling (fun t => recordSent i (t.record i)) s := by
  simp only [serveReadRecord, recordNumber_eq_some_iff.2 index, recordBytes_eq_recordSent]
  rfl

/-- Settles O28: the owner answers with the bytes of the record as it stands at service. -/
theorem readRecordReturnsTheRecord : Obligations.ReadRecordReturnsTheRecord := by
  unfold Obligations.ReadRecordReturnsTheRecord
  intro o b s hs ends
  have row {f : State → State × Reply}
      (h : serveReadRecord b (atService o (.readRecord b) s) = f (atService o (.readRecord b) s)) : ends f :=
    exec_of_serveOwner rfl rfl Request.noConfusion hs h
  exact ⟨fun above => row (serveReadRecord_of_badField above _), fun i index => row (serveReadRecord_of_record index _)⟩

end Sys2Proof.Machine
end

