-- ==== Sys2Proof/Proofs/ListWalk.lean ====
section
/-! PROOF. List Walk: the list named, the start of the walk, the page, and the row at either port (R127, R128). -/

namespace Sys2Proof.Machine

/-! ## The key that two bytes name (R111) -/

theorem sent1_eq_iff {n : Nat} {b : Byte} (h : n < 256) : sent1 n = b ↔ n = b.toNat := by
  rw [← BitVec.toNat_inj, sent1, BitVec.toNat_ofNat, Nat.mod_eq_of_lt h]

theorem kindOf_eq_some_iff {b : Byte} {k : Kind} : kindOf b = some k ↔ b = k.byte := by
  unfold kindOf
  cases k <;> split <;> simp_all [Kind.byte, ← BitVec.toNat_inj]

theorem names_point_iff {raw : RawKey} {k : PointKey} :
    Names raw (.point k) ↔ k.point.val = raw.number.toNat ∧ raw.kind = k.kind.byte := by
  have number := sent1_eq_iff (b := raw.number) (show k.point.val < 256 by omega)
  rw [Names, ← key_bytes_eq_keySent, Key.bytes, List.cons.injEq, List.cons.injEq]
  exact and_congr number ((and_iff_left rfl).trans eq_comm)

theorem names_storm_iff {raw : RawKey} {g : GroupId} : Names raw (.storm g) ↔ raw.number.toNat = g.val ∧ raw.kind = 4#8 := by
  have number := sent1_eq_iff (b := raw.number) (show g.val < 256 by omega)
  rw [Names, keySent, List.cons.injEq, List.cons.injEq]
  exact and_congr (number.trans eq_comm) ((and_iff_left rfl).trans eq_comm)

theorem toNat_kindByte_lt (k : Kind) : k.byte.toNat < 4 := by
  cases k <;> decide

theorem keyOf_eq_some_iff {raw : RawKey} {k : Key} : keyOf raw = some k ↔ Names raw k := by
  by_cases storm : raw.kind = 4#8
  · have notPoint (x : Kind) : ¬ 4#8 = x.byte := by cases x <;> decide
    cases k with
    | storm g => simp [keyOf, storm, names_storm_iff, groupNumber_eq_some_iff]
    | point k => simp [keyOf, storm, names_point_iff, notPoint]
  · cases k with
    | storm g => simp [keyOf, storm, names_storm_iff, Option.bind_eq_some_iff]
    | point k =>
      obtain ⟨p, kind⟩ := k
      simp [keyOf, storm, names_point_iff, kindOf_eq_some_iff, pointNumber_eq_some_iff, Option.bind_eq_some_iff, and_comm]

theorem keyOf_eq_none_of_namesNoKey {raw : RawKey} (h : NamesNoKey raw) : keyOf raw = none := by
  rw [Option.eq_none_iff_forall_ne_some]
  intro k found
  cases k with
  | storm g =>
    obtain ⟨number, kind⟩ := names_storm_iff.1 (keyOf_eq_some_iff.1 found)
    rcases h with h | h | h <;> simp [kind] at h
    omega
  | point k =>
    obtain ⟨number, kind⟩ := names_point_iff.1 (keyOf_eq_some_iff.1 found)
    have four := toNat_kindByte_lt k.kind
    rw [← kind] at four
    rcases h with h | h | ⟨h, -⟩
    · omega
    · omega
    · simp [h] at four

/-! ## The list that a walk names (R127) -/

theorem walkList_eq (b group : Byte) (s : State) :
    s.walkList b group = ((recordList b s).map .records).or ((keyList b group s).map .keys) := by
  by_cases four : b = 4#8
  · subst four
    rfl
  by_cases five : b = 5#8
  · subst five
    by_cases inRange : group.toNat < 8 <;> simp [State.walkList, recordList, keyList, groupNumber, inRange]
  · have noKeys : keyList b group s = none := by simp [keyList, four, five]
    rw [← BitVec.toNat_inj] at four five
    rw [noKeys, Option.map_none, Option.or_none, State.walkList, recordList]
    split <;> simp_all

theorem walkList_of_recordList {b group : Byte} {s : State} {l : List RecordIx} (found : recordList b s = some l) :
    s.walkList b group = some (.records l) := by
  rw [walkList_eq, found]
  rfl

/-- The bytes from 4 on name no record list. -/
theorem recordList_eq_none_iff {b : Byte} {s : State} : recordList b s = none ↔ 4 ≤ b.toNat := by
  unfold recordList
  split <;> simp_all
  omega

theorem four_le_of_keyList {b group : Byte} {s : State} {l : List PointKey} (found : keyList b group s = some l) : 4 ≤ b.toNat := by
  by_contra small
  have four : b ≠ 4#8 := by bv_omega
  have five : b ≠ 5#8 := by bv_omega
  simp [keyList, four, five] at found

theorem walkList_of_keyList {b group : Byte} {s : State} {l : List PointKey} (found : keyList b group s = some l) :
    s.walkList b group = some (.keys l) := by
  rw [walkList_eq, recordList_eq_none_iff.2 (four_le_of_keyList found), found]
  rfl

/-! ## Behind a cursor (R128) -/

theorem after_of_notMem {α : Type} [DecidableEq α] {x : α} {l : List α} (h : x ∉ l) : after x l = none := by
  induction l with
  | nil => rfl
  | cons y rest ih =>
    rw [List.mem_cons, not_or] at h
    rw [after, if_neg (Ne.symm h.1), ih h.2]

theorem after_append_cons {α : Type} [DecidableEq α] {x : α} {a : List α} (first : x ∉ a) (b : List α) :
    after x (a ++ x :: b) = some b := by
  induction a with
  | nil => exact if_pos rfl
  | cons y rest ih =>
    rw [List.mem_cons, not_or] at first
    rw [List.cons_append, after, if_neg (Ne.symm first.1), ih first.2]

/-! ## A page -/

theorem walkReply_eq_page {α : Type} {entry line : α → List Byte} {l : List α} (h : ∀ x ∈ l, entry x = line x) (count : Nat) :
    walkReply entry count (some l) = page line count l := by
  have lines : (l.take count).flatMap entry = (l.take count).flatMap line :=
    List.flatMap_congr fun x hx => h x (List.mem_of_mem_take hx)
  simp only [walkReply, page, lines, List.length_take, boolByte, decide_eq_true_eq]
  rfl

theorem recordEntry_eq_recordLine (s : State) (i : RecordIx) : recordEntry s i = recordLine s i := by
  unfold recordEntry recordLine
  simp only [key_bytes_eq_keySent]
  rfl

/-- The entry of a key that carries a pending value. -/
theorem keyListEntry_eq_keyLine {s : State} {k : PointKey} (h : (s.key k).pending.isSome = true) : keyListEntry s k = keyLine s k := by
  obtain ⟨v, found⟩ := Option.isSome_iff_exists.1 h
  simp only [keyListEntry, keyLine, State.pendingOf, found, key_bytes_eq_keySent]
  rfl

/-! ## The start of a walk (R127) -/

section Start

variable {w : RawWalk}

theorem recordWalkStart_head (form : w.cursorForm = 0#8) (l : List RecordIx) : recordWalkStart w l = some (some l) := by
  rw [recordWalkStart, form]
  rfl

theorem recordWalkStart_cursor (form : w.cursorForm = 1#8) {i : RecordIx} (index : i.val = w.cursor.number.toNat) (l : List RecordIx) :
    recordWalkStart w l = some (after i l) := by
  rw [recordWalkStart, form, recordNumber_eq_some_iff.2 index]
  rfl

theorem recordWalkStart_refused (bad : 2 ≤ w.cursorForm.toNat ∨ (w.cursorForm = 1#8 ∧ 167 < w.cursor.number.toNat))
    (l : List RecordIx) : recordWalkStart w l = none := by
  unfold recordWalkStart
  rcases bad with above | ⟨form, above⟩
  · split
    · omega
    · omega
    · rfl
  · rw [form, recordNumber_eq_none above]
    rfl

theorem keyWalkStart_head (form : w.cursorForm = 0#8) (l : List PointKey) : keyWalkStart w l = some (some l) := by
  rw [keyWalkStart, form]
  rfl

theorem keyWalkStart_cursor (form : w.cursorForm = 2#8) {k : PointKey} (cursor : Names w.cursor (.point k)) (l : List PointKey) :
    keyWalkStart w l = some (after k l) := by
  rw [keyWalkStart, form, keyOf_eq_some_iff.2 cursor]
  rfl

/-- A storm key is on no key list. -/
theorem keyWalkStart_storm (form : w.cursorForm = 2#8) {g : GroupId} (cursor : Names w.cursor (.storm g)) (l : List PointKey) :
    keyWalkStart w l = some none := by
  rw [keyWalkStart, form, keyOf_eq_some_iff.2 cursor]
  rfl

theorem keyWalkStart_refused (bad : w.cursorForm = 1#8 ∨ 3 ≤ w.cursorForm.toNat ∨ (w.cursorForm = 2#8 ∧ NamesNoKey w.cursor))
    (l : List PointKey) : keyWalkStart w l = none := by
  rcases bad with form | above | ⟨form, noKey⟩
  · rw [keyWalkStart, form]
    rfl
  · unfold keyWalkStart
    split
    · omega
    · omega
    · rfl
  · rw [keyWalkStart, form, keyOf_eq_none_of_namesNoKey noKey]
    rfl

end Start

/-! ## The owner's answers -/

/-- The cursor of a walk is of the wrong form for its list, or is refused (R127, R184). -/
def cursorRefused (w : RawWalk) : Prop :=
  (w.list.toNat ≤ 3 ∧ (2 ≤ w.cursorForm.toNat ∨ (w.cursorForm = 1#8 ∧ 167 < w.cursor.number.toNat))) ∨
    (4 ≤ w.list.toNat ∧ (w.cursorForm = 1#8 ∨ 3 ≤ w.cursorForm.toNat ∨ (w.cursorForm = 2#8 ∧ NamesNoKey w.cursor)))

section Owner

variable {w : RawWalk} {s : State}

theorem serveListWalk_of_badField
    (bad : w.count = 0#8 ∨ 8 < w.count.toNat ∨ (recordList w.list s = none ∧ keyList w.list w.group s = none) ∨ cursorRefused w) :
    serveListWalk w s = refusing .badField s := by
  by_cases count : 1 ≤ w.count.toNat ∧ w.count.toNat ≤ 8
  swap
  · rw [serveListWalk, if_neg count]
    rfl
  rw [serveListWalk, if_pos count]
  cases records : recordList w.list s with
  | some l =>
    have list : ¬ 4 ≤ w.list.toNat := fun h => by simp [recordList_eq_none_iff.2 h] at records
    have cursor : recordWalkStart w l = none := by
      rcases bad with h | h | ⟨h, -⟩ | ⟨-, h⟩ | ⟨h, -⟩
      · simp [h] at count
      · omega
      · simp [h] at records
      · exact recordWalkStart_refused h l
      · exact absurd h list
    simp only [walkList_of_recordList records, cursor]
    rfl
  | none =>
    have list := recordList_eq_none_iff.1 records
    cases keys : keyList w.list w.group s with
    | none =>
      simp only [walkList_eq, records, keys]
      rfl
    | some l =>
      have cursor : keyWalkStart w l = none := by
        rcases bad with h | h | ⟨-, h⟩ | ⟨h, -⟩ | ⟨-, h⟩
        · simp [h] at count
        · omega
        · simp [h] at keys
        · omega
        · exact keyWalkStart_refused h l
      simp only [walkList_of_keyList keys, cursor]
      rfl

variable (nonzero : w.count ≠ 0#8) (few : w.count.toNat ≤ 8)

include nonzero few

theorem serveListWalk_of_records {l : List RecordIx} {start : Option (List RecordIx)} (found : recordList w.list s = some l)
    (cursor : recordWalkStart w l = some start) : serveListWalk w s = (s, walkReply (recordEntry s) w.count.toNat start) := by
  rw [serveListWalk, if_pos ⟨by bv_omega, few⟩]
  simp only [walkList_of_recordList found, cursor]

theorem serveListWalk_of_keys {l : List PointKey} {start : Option (List PointKey)} (found : keyList w.list w.group s = some l)
    (cursor : keyWalkStart w l = some start) : serveListWalk w s = (s, walkReply (keyListEntry s) w.count.toNat start) := by
  rw [serveListWalk, if_pos ⟨by bv_omega, few⟩]
  simp only [walkList_of_keyList found, cursor]

end Owner

/-! ## The row -/

/-- The lists at service are those of `s`, and so are the keys that carry a pending value. -/
theorem recordList_of_core {s t : State} (h : t.core = s.core) (b : Byte) : recordList b t = recordList b s := by
  simp only [recordList, rt_of_core h]

theorem keyList_of_core {s t : State} (h : t.core = s.core) (b group : Byte) : keyList b group t = keyList b group s := by
  simp only [keyList, rt_of_core h, governor_of_core h]

theorem allPending_of_core {s t : State} (h : t.core = s.core) (l : List PointKey) : allPending t l ↔ allPending s l := by
  simp only [allPending, key_of_core h]

/-- Settles O30: the owner finds at service the lists of `s`; the start of the walk is the list, or what stands behind the cursor. -/
theorem listWalkReturnsAPage : Obligations.ListWalkReturnsAPage := by
  unfold Obligations.ListWalkReturnsAPage
  intro o w s hs ends
  have row {f : State → State × Reply} (h : serveListWalk w (atService o (.listWalk w) s) = f (atService o (.listWalk w) s)) : ends f :=
    exec_of_serveOwner rfl rfl Request.noConfusion hs h
  have core := core_atService o (.listWalk w) s
  simp only [← recordList_of_core core, ← keyList_of_core core, ← allPending_of_core core]
  refine ⟨fun bad => row (serveListWalk_of_badField bad), fun nonzero few => ⟨fun l found => ?_, fun l found pending => ?_⟩⟩
  · have walk {start} (h : recordWalkStart w l = some start) := serveListWalk_of_records nonzero few found h
    refine ⟨fun form => row ?_, fun form i index => ⟨fun absent => row ?_, fun a b parts first => row ?_⟩⟩
    · rw [walk (recordWalkStart_head form l), walkReply_eq_page fun i _ => recordEntry_eq_recordLine _ i]
    · rw [walk (recordWalkStart_cursor form index l), after_of_notMem absent]
      rfl
    · rw [walk (recordWalkStart_cursor form index l), parts, after_append_cons first,
        walkReply_eq_page fun i _ => recordEntry_eq_recordLine _ i]
  · have walk {start} (h : keyWalkStart w l = some start) := serveListWalk_of_keys nonzero few found h
    refine ⟨fun form => row ?_, fun form =>
      ⟨fun g storm => row ?_, fun k cursor => ⟨fun absent => row ?_, fun a b parts first => row ?_⟩⟩⟩
    · rw [walk (keyWalkStart_head form l), walkReply_eq_page fun k hk => keyListEntry_eq_keyLine (pending k hk)]
    · rw [walk (keyWalkStart_storm form storm l)]
      rfl
    · rw [walk (keyWalkStart_cursor form cursor l), after_of_notMem absent]
      rfl
    · have behind : ∀ k' ∈ b, k' ∈ l := fun k' hk => parts ▸ List.mem_append_right a (List.mem_cons_of_mem k hk)
      rw [walk (keyWalkStart_cursor form cursor l), parts, after_append_cons first,
        walkReply_eq_page fun k' hk => keyListEntry_eq_keyLine (pending k' (behind k' hk))]

end Sys2Proof.Machine
end

