-- ==== Sys2Proof/Proofs/Summary.lean ====
section
/-! PROOF. Summary: its 21 bytes, and the law that its counts add up (R21, R129). -/

namespace Sys2Proof.Machine

/-! ## The 21 bytes -/

theorem counted_eq_visible (s : State) : s.counted = visible s := by
  funext i
  unfold State.counted visible
  cases (s.record i).key with
  | none => rfl
  | some k => cases k <;> simp [State.keyShelved, State.shelved, Nat.pos_iff_ne_zero]

theorem countOf_eq_visibleOf (s : State) (l : List RecordIx) (sev : Severity) : s.countOf l sev = visibleOf s l sev := by
  rw [State.countOf, visibleOf, counted_eq_visible, List.countP_eq_length_filter]

theorem severityCounts_eq_sent1 (s : State) (sev : Severity) :
    severityCounts s sev =
      [sent1 (visibleOf s s.rt.standing sev), sent1 (visibleOf s s.rt.acknowledged sev), sent1 (visibleOf s s.rt.cleared sev)] := by
  simp only [severityCounts, countOf_eq_visibleOf]
  rfl

/-! ## The counts over the table -/

/-- How many of the 168 records are in a state and meet a condition. -/
def recordsIn (s : State) (state : RecordState) (p : RecordIx → Bool) : Nat :=
  (List.finRange 168).countP fun i => decide ((s.record i).state = state) && p i

/-- The four severities share out what counts of a list. -/
theorem sum_visibleOf (s : State) (l : List RecordIx) :
    visibleOf s l .warning + visibleOf s l .minor + visibleOf s l .major + visibleOf s l .critical = l.countP (visible s) := by
  induction l with
  | nil => rfl
  | cons i l ih =>
    simp only [visibleOf, List.countP_cons] at ih ⊢
    cases visible s i with
    | false => simpa using ih
    | true => cases (s.record i).severity <;> simp <;> omega

/-- A list that holds, once each, the records of a state counts what the table counts in that state. -/
theorem countP_eq_recordsIn {s : State} {l : List RecordIx} {state : RecordState} (holds : ∀ i, i ∈ l ↔ (s.record i).state = state)
    (once : l.Nodup) (p : RecordIx → Bool) : l.countP p = recordsIn s state p := by
  have same : l.Perm ((List.finRange 168).filter fun i => decide ((s.record i).state = state)) :=
    (List.perm_ext_iff_of_nodup once ((List.nodup_finRange 168).filter _)).2 fun i => by simp [holds i]
  rw [same.countP_eq, List.countP_filter, recordsIn]
  simp only [Bool.and_comm]

/-- A record that is not Idle counts in its state, or is live and hidden, or is Free: one of these, and once. -/
theorem share_of_state (state : RecordState) (seen : Bool) :
    (if decide (state = .standing) && seen then 1 else 0) + (if decide (state = .acknowledged) && seen then 1 else 0) +
        (if decide (state = .cleared) && seen then 1 else 0) + (if decide (state = .free) && true then 1 else 0) +
        (if state.live && !seen then 1 else 0) =
      if decide (state ≠ .idle) then 1 else 0 := by
  cases state <;> cases seen <;> rfl

/-- What counts in the three live states, the Free records and the hidden ones are the records that are not Idle. -/
theorem recordsIn_add_hiddenIn (s : State) :
    recordsIn s .standing (visible s) + recordsIn s .acknowledged (visible s) + recordsIn s .cleared (visible s) +
        recordsIn s .free (fun _ => true) + hiddenIn s =
      (List.finRange 168).countP fun i => decide ((s.record i).state ≠ .idle) := by
  unfold recordsIn hiddenIn
  induction List.finRange 168 with
  | nil => rfl
  | cons i l ih =>
    have share := share_of_state (s.record i).state (visible s i)
    simp only [List.countP_cons] at ih ⊢
    omega

/-- The storm records, in the order of their groups. -/
theorem filter_not_isPool : (List.finRange 168).filter (fun i => !isPool i) = ([0, 1, 2, 3, 4, 5, 6, 7] : List GroupId).map stormIx := by
  decide +kernel

theorem length_filter_isPool : ((List.finRange 168).filter isPool).length = 160 := by
  decide +kernel

/-- No pool record is Idle, and a storm record that is not Idle is live (R1, R2). -/
theorem countP_not_idle {s : State} (records : ∀ i, RecordLaw i (s.record i)) :
    (List.finRange 168).countP (fun i => decide ((s.record i).state ≠ .idle)) =
      160 + ([0, 1, 2, 3, 4, 5, 6, 7] : List GroupId).countP fun g => (s.record (stormIx g)).state.live := by
  have pool : ∀ i ∈ (List.finRange 168).filter isPool, decide ((s.record i).state ≠ .idle) = true := fun i h =>
    decide_eq_true ((records i).poolNotIdle ((isPool_iff i).1 (List.mem_filter.1 h).2))
  have storm (g : GroupId) : decide ((s.record (stormIx g)).state ≠ .idle) = (s.record (stormIx g)).state.live := by
    have notFree := (records (stormIx g)).stormNotFree (Nat.le_add_right 160 g.val)
    cases state : (s.record (stormIx g)).state with
    | free => exact absurd state notFree
    | idle | standing | acknowledged | cleared => rfl
  rw [List.countP_eq_countP_filter_add _ _ isPool, List.countP_eq_length.2 pool, length_filter_isPool,
    filter_not_isPool, List.countP_map]
  exact congrArg _ (List.countP_congr fun g _ => by rw [Function.comp_apply, storm])

theorem visible_of_unshelved {s : State} (unshelved : ∀ p, (s.point p).shelve = 0) {i : RecordIx} (key : (s.record i).key.isSome = true) :
    visible s i = true := by
  unfold visible
  split
  · next h => simp [h] at key
  · rfl
  · exact decide_eq_true (unshelved _)

/-- Settles O31: the bytes are those of the model, field by field; for the sum, the law reads each list off the table, where a record
is in one state and of one severity. -/
theorem summaryCountsTheTable : Obligations.SummaryCountsTheTable := by
  unfold Obligations.SummaryCountsTheTable
  refine ⟨fun o s hs => exec_of_serveOwner rfl rfl Request.noConfusion hs ?_, fun s law => ⟨?_, fun unshelved => ?_⟩⟩
  · simp only [serveOwner, serveSummary, summaryBytes, severityCounts_eq_sent1, halfBytes_eq_sent2, quadBytes_eq_sent4]
    rfl
  · obtain ⟨records, lists⟩ := law
    have standing := (sum_visibleOf s _).trans (countP_eq_recordsIn lists.standing lists.standingOnce (visible s))
    have acknowledged := (sum_visibleOf s _).trans (countP_eq_recordsIn lists.acknowledged lists.acknowledgedOnce (visible s))
    have cleared := (sum_visibleOf s _).trans (countP_eq_recordsIn lists.cleared lists.clearedOnce (visible s))
    have free : s.rt.free.length = recordsIn s .free fun _ => true :=
      (List.countP_eq_length.2 fun _ _ => rfl).symm.trans (countP_eq_recordsIn lists.free lists.freeOnce _)
    rw [← countP_not_idle records, ← recordsIn_add_hiddenIn]
    simp only [List.map_cons, List.map_nil, List.sum_cons, List.sum_nil]
    omega
  · refine List.countP_eq_zero.2 fun i _ => ?_
    have key := (law.records i).keyWhileLive
    cases live : (s.record i).state.live with
    | false => simp
    | true => simp [visible_of_unshelved unshelved (key.trans live)]

end Sys2Proof.Machine
end

