-- ==== Sys2Proof/Proofs/AcknowledgeGroup.lean ====
section
/-! PROOF. Acknowledge Group: what the acknowledgement of one Standing record writes (R13, R114), what it comes to over the records of
a group, and the row at either port (R117). -/

namespace Sys2Proof.Machine

/-! ## One Standing record -/

/-- NU and TB take no notice of an Acknowledged event: it is counted, and nothing else (R164, R178). -/
theorem issue_of_acknowledged {e : TableEvent} (h : e.kind = .acknowledged) (s : State) : issue e s = countEvent e s := by
  simp only [issue, noticeEvent, wakeEvent, h]

/-- A Standing record goes to the Acknowledged tail with its acknowledgement, and Acknowledged is counted (R13). -/
theorem acknowledged_acknowledgeRecord {i : RecordIx} {k : Key} {s : State} (state : (s.record i).state = .standing)
    (key : (s.record i).key = some k) (who : AckBy) (tag : Half) : Acknowledged i who tag s (acknowledgeRecord i who tag s) := by
  have step : acknowledgeRecord i who tag s =
      countEvent (recordEvent .acknowledged k i (s.record i).severity none s)
        { s with rt := { s.rt with
            records := vset s.rt.records i
              { s.record i with state := .acknowledged, ack := some { taker := who, tag, time := s.tb.hutTime } }
            standing := s.rt.standing.erase i
            acknowledged := toTail i s.rt.acknowledged
            cleared := s.rt.cleared.erase i
            changeCount := s.rt.changeCount + 1#16 } } := by
    simp only [acknowledgeRecord, state, key]
    rw [issue_of_acknowledged rfl]
    rfl
  rw [step]
  refine ⟨rfl, rfl, rfl, rfl, rfl, rfl, fun k' key' => ?_⟩
  obtain rfl : k = k' := Option.some.inj (key.symm.trans key')
  exact counted_countEvent _ _

/-! ## The records of a group, one after the other -/

/-- Records to be taken: they stand, once each, with keys of a group, and are on neither of the other live lists. -/
structure TakenStanding (g : GroupId) (l : List RecordIx) (s : State) : Prop where
  once : l.Nodup
  state : ∀ i ∈ l, (s.record i).state = .standing
  key : ∀ i ∈ l, ∃ k, (s.record i).key = some k ∧ s.keyGroup k = g
  notAcknowledged : ∀ i ∈ l, i ∉ s.rt.acknowledged
  notCleared : ∀ i ∈ l, i ∉ s.rt.cleared

/-- What the acknowledgement of a list of Standing records comes to. -/
structure AllAcknowledged (g : GroupId) (l : List RecordIx) (who : AckBy) (tag : Half) (s x : State) : Prop where
  outside : x.outside = s.outside
  sg : x.sg = s.sg
  pt : x.pt = s.pt
  nu : x.nu = s.nu
  tb : x.tb = s.tb
  free : x.rt.free = s.rt.free
  cleared : x.rt.cleared = s.rt.cleared
  poolWait : x.rt.poolWait = s.rt.poolWait
  standing : x.rt.standing = s.rt.standing.diff l
  acknowledged : x.rt.acknowledged = s.rt.acknowledged ++ l
  changeCount : x.rt.changeCount = s.rt.changeCount + BitVec.ofNat 16 l.length
  events : counted (l.map fun i => (g, .acknowledged, some (s.record i).severity, 0)) s x
  records : ∀ i, x.record i =
    if i ∈ l then { s.record i with state := .acknowledged, ack := some { taker := who, tag, time := s.tb.hutTime } } else s.record i

theorem keyGroup_of_pt {s t : State} (h : t.pt = s.pt) (k : Key) : t.keyGroup k = s.keyGroup k := by
  cases k with
  | storm g => rfl
  | point k => simp only [State.keyGroup, State.groupOf, State.point, h]

/-- The rest of the records stand as before when the first has been acknowledged. -/
theorem TakenStanding.tail {g : GroupId} {i : RecordIx} {l : List RecordIx} {who : AckBy} {tag : Half} {s y : State}
    (h : TakenStanding g (i :: l) s) (step : Acknowledged i who tag s y) :
    TakenStanding g l y ∧ ∀ j ∈ l, y.record j = s.record j := by
  obtain ⟨rt, pt, -⟩ := step
  obtain ⟨fresh, once⟩ := List.nodup_cons.1 h.once
  have other : ∀ j ∈ l, i ≠ j := fun j hj same => fresh (same ▸ hj)
  have record : ∀ j ∈ l, y.record j = s.record j := fun j hj => by
    rw [State.record, rt]
    exact vget_vset_of_ne _ _ (other j hj)
  refine ⟨⟨once, fun j hj => ?_, fun j hj => ?_, fun j hj => ?_, fun j hj => ?_⟩, record⟩
  · rw [record j hj]
    exact h.state j (List.mem_cons_of_mem i hj)
  · obtain ⟨k, key, group⟩ := h.key j (List.mem_cons_of_mem i hj)
    exact ⟨k, by rw [record j hj, key], by rw [keyGroup_of_pt pt, group]⟩
  · have off := h.notAcknowledged j (List.mem_cons_of_mem i hj)
    rw [rt]
    simp [toTail, List.erase_of_not_mem (h.notAcknowledged i List.mem_cons_self), off, (other j hj).symm]
  · rw [rt]
    exact fun on => h.notCleared j (List.mem_cons_of_mem i hj) (List.mem_of_mem_erase on)

/-- The first record acknowledged, and then the rest. -/
theorem AllAcknowledged.cons {g : GroupId} {i : RecordIx} {l : List RecordIx} {who : AckBy} {tag : Half} {s y x : State}
    (h : TakenStanding g (i :: l) s) (step : Acknowledged i who tag s y) (rest : AllAcknowledged g l who tag y x) :
    AllAcknowledged g (i :: l) who tag s x := by
  have same := (h.tail step).2
  obtain ⟨rt, pt, sg, nu, tb, outside, event⟩ := step
  obtain ⟨k, key, group⟩ := h.key i List.mem_cons_self
  have fresh : i ∉ l := (List.nodup_cons.1 h.once).1
  have record (j : RecordIx) : y.record j =
      if i = j then { s.record i with state := .acknowledged, ack := some { taker := who, tag, time := s.tb.hutTime } }
      else s.record j := by
    rw [State.record, rt]
    exact vget_vset _ _ _ _
  exact {
    outside := rest.outside.trans outside
    sg := rest.sg.trans sg
    pt := rest.pt.trans pt
    nu := rest.nu.trans nu
    tb := rest.tb.trans tb
    free := by rw [rest.free, rt]
    cleared := by rw [rest.cleared, rt, List.erase_of_not_mem (h.notCleared i List.mem_cons_self)]
    poolWait := by rw [rest.poolWait, rt]
    standing := by rw [rest.standing, rt, List.diff_cons]
    acknowledged := by
      rw [rest.acknowledged, rt, toTail, List.erase_of_not_mem (h.notAcknowledged i List.mem_cons_self), List.append_assoc]
      rfl
    changeCount := by
      rw [rest.changeCount, rt, List.length_cons, Nat.add_comm l.length 1, BitVec.ofNat_add, ← BitVec.add_assoc]
    events := by
      have later := rest.events
      rw [List.map_congr_left fun j hj => by rw [same j hj]] at later
      exact counted_append (group ▸ event k key) later
    records := fun j => by
      rw [rest.records j, record j, tb]
      by_cases first : i = j
      · subst first
        simp [fresh]
      · simp [first, Ne.symm first] }

theorem allAcknowledged_foldl {g : GroupId} {l : List RecordIx} (who : AckBy) (tag : Half) {s : State} (h : TakenStanding g l s) :
    AllAcknowledged g l who tag s (l.foldl (fun s i => acknowledgeRecord i who tag s) s) := by
  induction l generalizing s with
  | nil =>
    exact {
      outside := rfl, sg := rfl, pt := rfl, nu := rfl, tb := rfl, free := rfl, cleared := rfl, poolWait := rfl, standing := rfl
      acknowledged := (List.append_nil _).symm, changeCount := (BitVec.add_zero _).symm, events := fun _ _ => rfl
      records := fun _ => rfl }
  | cons i l ih =>
    obtain ⟨k, key, -⟩ := h.key i List.mem_cons_self
    have step := acknowledged_acknowledgeRecord (h.state i List.mem_cons_self) key who tag
    exact .cons h step (ih (h.tail step).1)

/-! ## The records that are taken -/

theorem groupStanding_eq_takenOfGroup (g : GroupId) (limit : Severity) (s : State) : s.groupStanding g limit = takenOfGroup g limit s := by
  refine List.filter_congr fun i _ => ?_
  unfold State.recordInGroup
  cases (s.record i).key with
  | none => rfl
  | some k => simp [Severity.meets]

theorem takenOfGroup_of_core {s t : State} (h : t.core = s.core) (g : GroupId) (limit : Severity) :
    takenOfGroup g limit t = takenOfGroup g limit s := by
  have group (k : Key) : t.keyGroup k = s.keyGroup k := by
    cases k with
    | storm g => rfl
    | point k => exact groupOf_of_core h k
  simp only [takenOfGroup, rt_of_core h, record_of_core h, group]

/-- By the law of the table the records taken stand, and are on no other list. -/
theorem takenStanding_takenOfGroup {s : State} (law : TableLaw s) (g : GroupId) (limit : Severity) :
    TakenStanding g (takenOfGroup g limit s) s := by
  obtain ⟨-, lists⟩ := law
  have state : ∀ i ∈ takenOfGroup g limit s, (s.record i).state = .standing := fun i hi =>
    (lists.standing i).1 (List.mem_filter.1 hi).1
  refine ⟨lists.standingOnce.filter _, state, fun i hi => ?_, fun i hi on => ?_, fun i hi on => ?_⟩
  · have taken := (List.mem_filter.1 hi).2
    cases key : (s.record i).key with
    | none => simp [key] at taken
    | some k =>
      simp only [key, decide_eq_true_eq] at taken
      exact ⟨k, rfl, taken.1⟩
  · exact absurd ((lists.acknowledged i).1 on) (by simp [state i hi])
  · exact absurd ((lists.cleared i).1 on) (by simp [state i hi])

/-! ## The owner's answers, and the row -/

theorem serveAcknowledgeGroup_of_badField {gb lb : Byte} (bad : 7 < gb.toNat ∨ lb = 0#8 ∨ 4 < lb.toNat) (tag : Half) (who : AckBy)
    (s : State) : serveAcknowledgeGroup gb lb tag who s = refusing .badField s := by
  unfold serveAcknowledgeGroup
  split
  · next g limit group severity =>
    have range := exists_severity_level.1 ⟨limit, severityOf_eq_some_iff.1 severity⟩
    have below := groupNumber_eq_some_iff.1 group
    rcases bad with h | h | h
    · omega
    · simp [h] at range
    · omega
  · rfl

theorem serveAcknowledgeGroup_of_sound {gb lb : Byte} {g : GroupId} {limit : Severity} (group : g.val = gb.toNat)
    (severity : limit.level = lb.toNat) (tag : Half) (who : AckBy) (s : State) :
    serveAcknowledgeGroup gb lb tag who s =
      ((takenOfGroup g limit s).foldl (fun s i => acknowledgeRecord i who tag s) s,
        { status := .done, body := [sent1 (takenOfGroup g limit s).length] }) := by
  simp only [serveAcknowledgeGroup, groupNumber_eq_some_iff.2 group.symm, severityOf_eq_some_iff.2 severity.symm,
    groupStanding_eq_takenOfGroup]
  rfl

theorem ackBy_takerOf (o : Origin) : (takerOf o).ackBy = byWhom o := by
  cases o <;> rfl

/-- Settles O35: the records taken are acknowledged one after the other in the state at service, whose table is that of `s`. -/
theorem acknowledgeGroupTakesTheStandingRecords : Obligations.AcknowledgeGroupTakesTheStandingRecords := by
  unfold Obligations.AcknowledgeGroupTakesTheStandingRecords
  intro o gb lb tag s hs r t ends
  have row {x : State} {reply : Reply} (h : serveAcknowledgeGroup gb lb tag (byWhom o) t = (x, reply)) : ends x reply :=
    (exec_of_serveOwner (f := serveAcknowledgeGroup gb lb tag (byWhom o)) rfl rfl Request.noConfusion hs
      (by rw [← ackBy_takerOf o]; rfl)).trans (congrArg _ (answered_eq_withReply h))
  refine ⟨fun bad => row (serveAcknowledgeGroup_of_badField bad tag _ t), fun g limit group severity law => ?_⟩
  have core : t.core = s.core := core_atService o r s
  have rt : t.rt = s.rt := rt_of_core core
  have time : t.tb.hutTime = s.tb.hutTime := hutTime_atService o r s
  have taken := allAcknowledged_foldl (byWhom o) tag (takenStanding_takenOfGroup (tableLaw_of_rt rt law) g limit)
  have ending := row (serveAcknowledgeGroup_of_sound group severity tag (byWhom o) t)
  rw [takenOfGroup_of_core core] at taken ending
  refine ⟨_, ending, taken.outside, taken.sg, taken.pt, taken.nu, taken.tb, rt ▸ taken.free, rt ▸ taken.cleared, rt ▸ taken.poolWait,
    ?_, rt ▸ taken.acknowledged, rt ▸ taken.changeCount, ?_, fun i => ?_⟩
  · rw [taken.standing, rt, law.lists.standingOnce.sdiff_eq_filter]
    exact List.filter_congr fun i _ => by simp
  · simpa only [record_of_core core] using taken.events
  · rw [taken.records i, record_of_core core, time]

end Sys2Proof.Machine
end

