-- ==== Sys2Proof/Proofs/CounterRequests.lean ====
section
/-! PROOF. Set Counter Selection, Read Counters and Clear Counters: what their bytes decode to, what their owner answers, and the three
rows (R138, R139, R140). -/

namespace Sys2Proof.Machine

/-! ## The fields of a selection (R138, R184) -/

theorem counterNumber_eq_some_iff {b : Byte} {j : Fin 4} : counterNumber b = some j ↔ j.val = b.toNat := by
  unfold counterNumber
  split
  · simp only [Option.some.injEq, Fin.ext_iff, eq_comm]
  · next h =>
    have : j.val ≠ b.toNat := by omega
    simp [this]

theorem eventMaskOf_eq_some_iff {m : Half} {x : BitVec 9} : eventMaskOf m = some x ↔ m.toNat < 512 ∧ BitVec.ofNat 9 m.toNat = x := by
  rw [eventMaskOf, Option.ite_none_right_eq_some, Option.some.injEq, ← BitVec.setWidth_eq_extractLsb' (by decide),
    BitVec.ofNat_toNat]

theorem severityMaskOf_eq_some_iff {m : Byte} {x : BitVec 4} :
    severityMaskOf m = some x ↔ m.toNat < 16 ∧ BitVec.ofNat 4 m.toNat = x := by
  rw [severityMaskOf, Option.ite_none_right_eq_some, Option.some.injEq, ← BitVec.setWidth_eq_extractLsb' (by decide),
    BitVec.ofNat_toNat]

theorem measureOf_eq_some_iff {b : Byte} {x : Measure} : measureOf b = some x ↔ b = x.byte := by
  unfold measureOf
  cases x <;> split <;> simp_all [Measure.byte, ← BitVec.toNat_inj]

theorem toNat_measureByte_le_one (x : Measure) : x.byte.toNat ≤ 1 := by
  cases x <;> decide

theorem measureOf_of_le_one {b : Byte} (h : b.toNat ≤ 1) : measureOf b = some (if b = 0#8 then .events else .seconds) := by
  rw [measureOf_eq_some_iff]
  rcases eq_zero_or_one_of_toNat_le h with rfl | rfl <;> rfl

/-! ## Set Counter Selection: the owner's answers (R138) -/

theorem serveSetCounterSelection_of_badField {gb jb : Byte} {em : Half} {sm mb : Byte}
    (bad : 7 < gb.toNat ∨ 3 < jb.toNat ∨ 512 ≤ em.toNat ∨ 16 ≤ sm.toNat ∨ 1 < mb.toNat) (s : State) :
    serveSetCounterSelection gb jb em sm mb s = refusing .badField s := by
  unfold serveSetCounterSelection
  split
  · next g j eventMask severityMask measure group counter events severities measured =>
    have groupBelow := groupNumber_eq_some_iff.1 group
    have counterBelow := counterNumber_eq_some_iff.1 counter
    have eventsBelow := (eventMaskOf_eq_some_iff.1 events).1
    have severitiesBelow := (severityMaskOf_eq_some_iff.1 severities).1
    have measureBelow := toNat_measureByte_le_one measure
    rw [← measureOf_eq_some_iff.1 measured] at measureBelow
    omega
  · rfl

theorem serveSetCounterSelection_of_sound {gb jb : Byte} {em : Half} {sm mb : Byte} {g : GroupId} {j : Fin 4}
    (group : g.val = gb.toNat) (counter : j.val = jb.toNat) (events : em.toNat < 512) (severities : sm.toNat < 16)
    (measure : mb.toNat ≤ 1) (s : State) :
    serveSetCounterSelection gb jb em sm mb s =
      (putCounter g j
        { value := (s.counter g j).value, eventMask := BitVec.ofNat 9 em.toNat, severityMask := BitVec.ofNat 4 sm.toNat
          measure := if mb = 0#8 then .events else .seconds } s, { status := .done, body := [] }) := by
  simp only [serveSetCounterSelection, groupNumber_eq_some_iff.2 group.symm, counterNumber_eq_some_iff.2 counter,
    eventMaskOf_eq_some_iff.2 ⟨events, rfl⟩, severityMaskOf_eq_some_iff.2 ⟨severities, rfl⟩, measureOf_of_le_one measure]
  rfl

/-! ## Read Counters and Clear Counters: the owner's answers (R139, R140) -/

theorem groupNumber_eq_none {b : Byte} (h : 7 < b.toNat) : groupNumber b = none := dif_neg (by omega)

theorem natByte_eq_of_val_eq {n : Nat} {b : Byte} (h : n = b.toNat) : natByte n = b := by
  rw [natByte, h, BitVec.ofNat_toNat, BitVec.setWidth_eq]

/-- The eight bytes of a counter (11 section 11.7). -/
theorem counterBytes_eq_sent (c : Counter) :
    counterBytes c = sent2 c.eventMask.toNat ++ [sent1 c.severityMask.toNat, c.measure.byte] ++ sent4 c.value.toNat := by
  have events : (c.eventMask.setWidth 16).toNat = c.eventMask.toNat := BitVec.toNat_setWidth_of_le (by decide)
  have severities : c.severityMask.setWidth 8 = sent1 c.severityMask.toNat := (BitVec.ofNat_toNat 8 c.severityMask).symm
  rw [counterBytes, halfBytes_eq_sent2, events, severities, quadBytes_eq_sent4]

theorem serveReadCounters_of_badField {b : Byte} (above : 7 < b.toNat) (s : State) : serveReadCounters b s = refusing .badField s := by
  simp only [serveReadCounters, groupNumber_eq_none above]
  rfl

theorem serveReadCounters_of_group {b : Byte} {g : GroupId} (group : g.val = b.toNat) (s : State) :
    serveReadCounters b s = telling (fun t => [b] ++ allCounters.flatMap fun j =>
      sent2 (t.counter g j).eventMask.toNat ++ [sent1 (t.counter g j).severityMask.toNat, (t.counter g j).measure.byte] ++
        sent4 (t.counter g j).value.toNat) s := by
  simp only [serveReadCounters, groupNumber_eq_some_iff.2 group.symm, natByte_eq_of_val_eq group, counterBytes_eq_sent]
  rfl

theorem serveClearCounters_of_badField {b : Byte} (above : 7 < b.toNat) (s : State) :
    serveClearCounters b s = refusing .badField s := by
  simp only [serveClearCounters, groupNumber_eq_none above]
  rfl

theorem serveClearCounters_of_group {b : Byte} {g : GroupId} (group : g.val = b.toNat) (s : State) :
    serveClearCounters b s =
      (clearCounters g s,
        { status := .done, body := [b] ++ allCounters.flatMap fun j => sent4 (s.counter g j).value.toNat }) := by
  simp only [serveClearCounters, groupNumber_eq_some_iff.2 group.symm, natByte_eq_of_val_eq group, quadBytes_eq_sent4]
  rfl

/-! ## The three rows -/

theorem exec_setCounterSelection_of_served {gb jb : Byte} {em : Half} {sm mb : Byte} {s : State} (hs : served .localPort s)
    {f : State → State × Reply} (h : ∀ t, serveSetCounterSelection gb jb em sm mb t = f t) :
    exec (.setCounterSelection .localPort gb jb em sm mb) s =
      .next (answered .localPort (.setCounterSelection gb jb em sm mb) s f) :=
  (exec_request_of_served rfl hs).trans (congrArg _ (answered_congr (h _)))

theorem exec_readCounters_of_served {o : Origin} {b : Byte} {s : State} (hs : served o s) {f : State → State × Reply}
    (h : ∀ t, serveReadCounters b t = f t) : exec (.readCounters o b) s = .next (answered o (.readCounters b) s f) :=
  exec_of_serveOwner rfl rfl Request.noConfusion hs (h _)

theorem exec_clearCounters_of_served {o : Origin} {b : Byte} {s : State} (hs : served o s) {f : State → State × Reply}
    (h : ∀ t, serveClearCounters b t = f t) : exec (.clearCounters o b) s = .next (answered o (.clearCounters b) s f) :=
  exec_of_serveOwner rfl rfl Request.noConfusion hs (h _)

/-- Settles O36: for each of the three requests, the refusal and the answer are the owner's, whatever the state at service. -/
theorem counterRequestsSelectReadAndClear : Obligations.CounterRequestsSelectReadAndClear := by
  unfold Obligations.CounterRequestsSelectReadAndClear
  refine ⟨fun gb jb em sm mb s hs => ⟨fun bad => ?_, fun g j group counter events severities measure => ?_⟩,
    fun o gb s hs => ⟨fun above => ?_, fun g group => ?_⟩, fun o gb s hs => ⟨fun above => ?_, fun g group => ?_⟩⟩
  · exact exec_setCounterSelection_of_served hs (serveSetCounterSelection_of_badField bad)
  · exact exec_setCounterSelection_of_served hs (serveSetCounterSelection_of_sound group counter events severities measure)
  · exact exec_readCounters_of_served hs (serveReadCounters_of_badField above)
  · exact exec_readCounters_of_served hs (serveReadCounters_of_group group)
  · exact exec_clearCounters_of_served hs (serveClearCounters_of_badField above)
  · exact exec_clearCounters_of_served hs (serveClearCounters_of_group group)

end Sys2Proof.Machine
end

