-- ==== Sys2Proof/Proofs/LinkRequests.lean ====
section
/-! PROOF. Read Link Counters, in the bytes it sends and what its flag clears (R157, R188), and Wake Hut by the route link, in the four
modes (R150, R178, R179). -/

namespace Sys2Proof.Machine

/-! ## Read Link Counters: the bytes and the owner's answer (11 section 11.7) -/

theorem linkCounterBytes_eq_sent3 (v : Quad) : linkCounterBytes v = sent3 (min v.toNat 16777215) := rfl

/-- The link state byte, with the West queue length in bits 4 to 6 (R188). -/
theorem linkStateByte_eq_sent1 (s : State) :
    linkStateByte s =
      (if s.rr.west.carrier then 0x80#8 else 0#8) ||| sent1 (16 * s.rr.west.queue.length) |||
        (if s.rr.east.carrier then 0x08#8 else 0#8) ||| sent1 s.rr.east.queue.length := by
  rw [linkStateByte, Nat.mul_comm s.rr.west.queue.length]
  rfl

/-- Settles O17: the reply is made from the state before the clear, which the flag alone decides. -/
theorem readLinkCountersReportsAndClears : Obligations.ReadLinkCountersReportsAndClears := by
  unfold Obligations.ReadLinkCountersReportsAndClears
  intro o clear s hs three seven state
  refine exec_of_serveOwner rfl rfl Request.noConfusion hs ?_
  simp only [serveOwner, serveReadLinkCounters, clearLinks, linkStateByte_eq_sent1, LinkCounters.bytes,
    linkCounterBytes_eq_sent3, Reply.done, three, seven, state]

/-! ## Wake Hut: what a wake cause does in each mode (R178, R179) -/

section WakeCause

variable {c : WakeCause} {s : State}

/-- Settling goes back to Watch: the stale countdowns are reloaded and the settle countdown is removed. -/
theorem wakeCause_of_settling (mode : s.tb.mode = .settling) :
    wakeCause c s =
      { inWatch s with
        tb := { s.tb with mode := .watch, settle := none, wakeRecord := some { cause := c, time := s.tb.hutTime } }
        nu := { s.nu with flags := s.nu.flags ||| 0x80#8 } } := by
  simp only [wakeCause, mode]
  rfl

theorem wakeCause_of_dormant (mode : s.tb.mode = .dormant) :
    wakeCause c s =
      { s with
        tb := { s.tb with mode := .waking, wakeRecord := some { cause := c, time := s.tb.hutTime } }
        nu := { s.nu with flags := s.nu.flags ||| 0x80#8 } } := by
  simp only [wakeCause, mode]
  rfl

theorem wakeCause_of_awake (mode : s.tb.mode = .watch ∨ s.tb.mode = .waking) : wakeCause c s = s := by
  rcases mode with mode | mode <;> simp only [wakeCause, mode]

end WakeCause

/-- The route link permits Wake Hut, and its answer does not depend on the mode (R149, R150). -/
theorem serve_wakeHut_of_route (source : Byte) (s : State) :
    serve (.routeLink source) .wakeHut s = (wakeCause (.routeWake source) s, { status := .done, body := [] }) := rfl

/-- Settles O39: the owner answers with a wake cause, whose effect the mode at service decides. -/
theorem wakeHutActsByMode : Obligations.WakeHutActsByMode := by
  unfold Obligations.WakeHutActsByMode
  intro h s hs
  rw [exec_request_of_served rfl hs]
  refine congrArg _ (answered_congr ?_)
  rw [takerOf, serve_wakeHut_of_route]
  refine Prod.ext ?_ rfl
  dsimp only
  split
  · next settling => exact wakeCause_of_settling settling
  · next dormant => exact wakeCause_of_dormant dormant
  · next watch => exact wakeCause_of_awake (.inl watch)
  · next waking => exact wakeCause_of_awake (.inr waking)

end Sys2Proof.Machine
end

