-- ==== Sys2Proof/Proofs/Resets.lean ====
section
/-! PROOF. The step on the queue (O1), the state after power-on and its laws (O3, O4), the resets (O45), the holds (O46) and the events of
one side of the route link (O16). -/

namespace Sys2Proof.Machine

/-! ## The step -/

/-- Settles O1: both clauses are the two branches of `step`. -/
theorem stepRunsTheFrontCommand : Obligations.StepRunsTheFrontCommand := by
  unfold Obligations.StepRunsTheFrontCommand
  refine ⟨fun c rest s queue => ?_, fun s queue => ?_⟩ <;> simp only [step, queue]

/-! ## The state after power-on, table by table (R22, R43, R93, R141, R158) -/

section PowerOn

variable (pins : ResetPins)

/-- A pool record is Free and a storm record Idle; neither has had a life (R22). -/
theorem record_afterPowerOn (i : RecordIx) :
    (State.afterPowerOn pins).record i = Record.reset (if i.val < 160 then .free else .idle) := by
  refine (vget_append (Vector.replicate 160 (Record.reset .free)) (Vector.replicate 8 (Record.reset .idle)) i).trans ?_
  by_cases pool : i.val < 160
  · rw [dif_pos pool, if_pos pool, vget_replicate]
  · rw [dif_neg pool, if_neg pool, vget_replicate]

@[simp] theorem point_afterPowerOn (p : PointId) : (State.afterPowerOn pins).point p = .vacant := vget_replicate _ _ _

@[simp] theorem governor_afterPowerOn (g : GroupId) : (State.afterPowerOn pins).governor g = .reset := vget_replicate _ _ _

@[simp] theorem key_afterPowerOn (k : PointKey) : (State.afterPowerOn pins).key k = .quiet := by
  rw [State.key, point_afterPowerOn]
  exact keys_quiet_get k.kind

theorem counter_afterPowerOn (g : GroupId) (j : Fin 4) : (State.afterPowerOn pins).counter g j = .reset := by
  rw [State.counter]
  refine (congrArg (vget · j) (vget_replicate 8 (Vector.replicate 4 Counter.reset) g)).trans ?_
  exact vget_replicate _ _ _

/-- The numbers on the Free list, in ascending order (R7). -/
theorem free_afterPowerOn : (State.afterPowerOn pins).rt.free.map Fin.val = List.range 160 := by
  change ((List.range 160).map (Fin.ofNat 168)).map Fin.val = List.range 160
  rw [List.map_map]
  refine (List.map_congr_left fun n hn => ?_).trans (List.map_id _)
  exact Nat.mod_eq_of_lt (by have := List.mem_range.1 hn; omega)

theorem mem_free_afterPowerOn (i : RecordIx) : i ∈ (State.afterPowerOn pins).rt.free ↔ i.val < 160 := by
  rw [← List.mem_range, ← free_afterPowerOn pins, List.mem_map]
  exact ⟨fun h => ⟨i, h, rfl⟩, fun ⟨j, hj, e⟩ => Fin.ext e ▸ hj⟩

theorem side_afterPowerOn (d : Side) :
    (State.afterPowerOn pins).side d = .reset (match d with
      | .west => pins.westCarrier
      | .east => pins.eastCarrier) := by
  cases d <;> rfl

end PowerOn

/-- Settles O3: the values are those of the reset blocks. -/
theorem powerOnLeavesTheStatedValues : Obligations.PowerOnLeavesTheStatedValues := by
  unfold Obligations.PowerOnLeavesTheStatedValues
  refine ⟨fun pins => ⟨_, rfl, record_afterPowerOn pins, free_afterPowerOn pins, rfl, rfl, rfl, rfl, rfl, fun p => ?_,
    key_afterPowerOn pins, rfl, governor_afterPowerOn pins, counter_afterPowerOn pins, rfl, fun d => ?_, rfl, ?_, rfl, rfl⟩,
    _, rfl, rfl⟩
  · rw [point_afterPowerOn]
    exact ⟨rfl, rfl, rfl, rfl, rfl⟩
  · rw [side_afterPowerOn]
    cases d <;> exact ⟨rfl, rfl, rfl, rfl⟩
  · change NoticeUnit.reset pins = _
    simp only [NoticeUnit.reset, Bool.and_eq_true]

/-! ## The laws after power-on -/

section PowerOnLaws

variable (pins : ResetPins)

theorem tableLaw_afterPowerOn : TableLaw (State.afterPowerOn pins) := by
  have state (i : RecordIx) : ((State.afterPowerOn pins).record i).state = if i.val < 160 then .free else .idle := by
    rw [record_afterPowerOn]
    rfl
  have none_in {x : RecordState} (h : x ≠ .free) (h' : x ≠ .idle) (i : RecordIx) :
      i ∈ ([] : List RecordIx) ↔ ((State.afterPowerOn pins).record i).state = x := by
    rw [state]
    split <;> simp [h.symm, h'.symm]
  refine ⟨fun i => ?_, fun i => ?_, none_in nofun nofun, none_in nofun nofun, none_in nofun nofun, ?_, .nil, .nil, .nil⟩
  · rw [record_afterPowerOn]
    by_cases pool : i.val < 160
    · rw [if_pos pool]
      constructor <;> simp [Record.reset, RecordState.live, keyFits]
      omega
    · rw [if_neg pool]
      constructor <;> simp [Record.reset, RecordState.live, keyFits, pool]
  · rw [mem_free_afterPowerOn, state]
    split <;> simp_all
  · refine List.Nodup.of_map Fin.val ?_
    rw [free_afterPowerOn]
    exact List.nodup_range

theorem keyLaw_afterPowerOn : KeyLaw (State.afterPowerOn pins) := by
  constructor <;> simp [record_afterPowerOn, Record.reset, KeyEntry.quiet, keyHasPeak, PointEntry.vacant]

theorem waitLaw_afterPowerOn : WaitLaw (State.afterPowerOn pins) := by
  have none_waits : (State.afterPowerOn pins).rt.poolWait = [] := rfl
  constructor <;> simp [none_waits, KeyEntry.quiet]

theorem divertedLaw_afterPowerOn : DivertedLaw (State.afterPowerOn pins) := by
  constructor <;> simp [Governor.reset, KeyEntry.quiet]

theorem governorNumbers_reset : GovernorNumbers .reset := by
  constructor <;> simp [Governor.reset, GovernorDef.reset, GovernorDef.period]

theorem governorLaw_afterPowerOn : GovernorLaw (State.afterPowerOn pins) := fun g => by
  rw [governor_afterPowerOn]
  exact governorNumbers_reset

theorem stormLaw_afterPowerOn : StormLaw (State.afterPowerOn pins) := by
  constructor <;> simp [Governor.reset, record_afterPowerOn, Record.reset]

theorem pointLaw_afterPowerOn : PointLaw (State.afterPowerOn pins) := by
  constructor <;> simp [PointEntry.vacant]

theorem linkLaw_afterPowerOn : LinkLaw (State.afterPowerOn pins) := by
  refine ⟨fun d => ?_, nofun⟩
  rw [side_afterPowerOn]
  constructor <;> simp [SideState.reset]

theorem noticeLaw_afterPowerOn : NoticeLaw (State.afterPowerOn pins) := by
  have lost : (State.afterPowerOn pins).carrierLost = !(pins.westCarrier && pins.eastCarrier) := (Bool.not_and _ _).symm
  have flags : (State.afterPowerOn pins).nu.flags = if pins.westCarrier && pins.eastCarrier then 0x01#8 else 0x41#8 := rfl
  refine ⟨fun waits => absurd rfl waits, fun h => ?_⟩
  rw [lost, Bool.not_eq_true'] at h
  rw [State.noticeSet, flags, h]
  rfl

theorem inv_afterPowerOn : Inv (State.afterPowerOn pins) where
  table := tableLaw_afterPowerOn pins
  keys := keyLaw_afterPowerOn pins
  waits := waitLaw_afterPowerOn pins
  diverted := divertedLaw_afterPowerOn pins
  governors := governorLaw_afterPowerOn pins
  storms := stormLaw_afterPowerOn pins
  points := pointLaw_afterPowerOn pins
  links := linkLaw_afterPowerOn pins
  time := ⟨nofun, nofun⟩
  notices := noticeLaw_afterPowerOn pins
  queue := nofun

end PowerOnLaws

/-- Settles O4: every table is empty, every list but Free too, and every key Quiet. -/
theorem resetKeepsEveryLaw : Obligations.ResetKeepsEveryLaw := ⟨inv_afterPowerOn, inv_afterPowerOn _⟩

/-! ## Resets and holds (R181) -/

/-- In a hold WAKE is asserted, ATTN deasserted, and no side sends. -/
theorem lines_of_inHold {s : State} (hold : s.inHold = true) :
    s.wake = true ∧ s.attn = false ∧ ∀ d, s.transmitting d = none := by
  simp [State.wake, State.attn, State.transmitting, hold]

theorem reception_beginHold (s : State) (d : Side) : ((beginHold s).side d).reception = [] := by cases d <;> rfl

/-- What stands at the start of a hold, whichever hold it is. -/
theorem hold_beginHold {s : State} (hold : s.inHold = true) :
    (beginHold s).wake = true ∧ (beginHold s).attn = false ∧
      ∀ d, (beginHold s).transmitting d = none ∧ ((beginHold s).side d).reception = [] := by
  obtain ⟨wake, attn, quiet⟩ := lines_of_inHold (s := beginHold s) hold
  exact ⟨wake, attn, fun d => ⟨quiet d, reception_beginHold s d⟩⟩

/-- Settles O45: each hold begins with `beginHold`, and a completion writes every block with its reset value. -/
theorem resetsHoldThenComplete : Obligations.ResetsHoldThenComplete := by
  unfold Obligations.ResetsHoldThenComplete
  intro pins s
  refine ⟨?_, fun high => ?_, fun power high => ?_, fun noPower low => ?_⟩
  · obtain ⟨wake, attn, sides⟩ :=
      hold_beginHold (s := { s with powerHold := true, tb := { s.tb with hutTime := 0#32 } }) rfl
    exact ⟨_, rfl, rfl, rfl, wake, attn, sides, rfl⟩
  · obtain ⟨wake, attn, sides⟩ := hold_beginHold (s := { s with resetLow := true }) (Bool.or_true _)
    refine ⟨beginHold { s with resetLow := true }, ?_, rfl, rfl, wake, attn, sides, rfl⟩
    simp only [exec, execResetPinAssert, high, Bool.false_eq_true, if_false]
  · simp only [exec, execPowerOnCompletion, power, high, if_true, Bool.false_eq_true, if_false]
    rfl
  · simp only [exec, execResetPinRelease, noPower, low, if_true, Bool.false_eq_true, if_false]
    rfl

/-- A request by the route link does nothing in a hold, and one at the local port only shifts out zeros. -/
theorem takeRequest_of_inHold {s : State} (hold : s.inHold = true) (o : Origin) (r : Request) :
    takeRequest o r s = match o with
      | .localPort => heldTransaction (requestClocks r) s
      | .route _ => s := by
  cases o <;> simp only [takeRequest, takeLocal, takeRoute, hold, if_true]

/-- Settles O46: every command but the resets and the second tick asks first whether the part is held. -/
theorem holdsTakeNothing : Obligations.HoldsTakeNothing := by
  unfold Obligations.HoldsTakeNothing
  intro s hold
  obtain ⟨wake, attn, quiet⟩ := lines_of_inHold hold
  refine ⟨wake, attn, quiet, fun i h r row => ?_, fun i r row => ⟨requestClocks r, ?_⟩, fun d bytes => ?_, fun d => ⟨?_, ?_, ?_⟩,
    fun lines => ?_, fun p => ⟨?_, ?_⟩, fun g => ?_, ?_⟩
  · rw [exec_request i _ _ row, takeRequest_of_inHold hold]
  · rw [exec_request i _ _ row, takeRequest_of_inHold hold]
    rfl
  · simp only [exec, execFrameArrival, arrive, hold, if_true]
  · simp only [exec, execTransmissionCompletion, hold, if_true]
  · simp only [exec, execCarrierLoss, hold, if_true]
  · simp only [exec, execCarrierReturn, hold, if_true]
  · simp only [exec, execScanTick, hold, if_true]
  · simp only [exec, execStaleCountdownExpiry, hold, Bool.not_true, Bool.false_and, Bool.false_eq_true, if_false]
  · simp only [exec, execShelveExpiry, hold, Bool.not_true, Bool.false_and, Bool.false_eq_true, if_false]
  · simp only [exec, execRefill, hold, if_true]
  · simp only [exec, execSettleExpiry, hold, if_true]

/-! ## One side of the route link (R152 to R154) -/

/-- Settles O16: outside a hold the three events write their side, and the carrier changes set Link. -/
theorem transmissionsAndCarriersOfASide : Obligations.TransmissionsAndCarriersOfASide := by
  unfold Obligations.TransmissionsAndCarriersOfASide
  intro d s free
  refine ⟨fun f rest present queue => ⟨?_, ?_⟩, fun present => ?_, fun lost => ?_⟩
  · simp only [State.transmitting, present, free, queue, Bool.not_false, Bool.and_self, if_true, List.head?_cons]
  · rw [← putSide_eq_onSide d (fun x => { x with queue := rest })]
    simp only [exec, execTransmissionCompletion, completeTransmission, free, present, queue, Bool.false_eq_true, if_false,
      if_true, List.tail_cons]
  · simp only [exec, execCarrierLoss, loseCarrier, free, present, Bool.false_eq_true, if_false, if_true, LinkCounters.add, satAdd,
      Nat.min_comm _ 4294967295]
    cases d <;> rfl
  · simp only [exec, execCarrierReturn, returnCarrier, free, lost, Bool.false_eq_true, if_false]
    cases d <;> rfl

end Sys2Proof.Machine
end

