-- ==== Sys2Proof/Proofs/Codec.lean ====
section
/-! PROOF. Codes and bodies (O9), the check sequence (O15), and the transactions of the local port (O5, O6, O7, O8, O10). -/

namespace Sys2Proof.Machine

/-! ## Requests and their codes and bodies (11 sections 11.4 to 11.6) -/

@[simp] theorem highByte_append (a b : Byte) : highByte (a ++ b) = a := by
  rw [highByte, BitVec.extractLsb'_append_eq_of_le (by decide)]
  exact BitVec.extractLsb'_eq_self

@[simp] theorem lowByte_append (a b : Byte) : lowByte (a ++ b) = b := by
  rw [lowByte, BitVec.extractLsb'_append_eq_of_add_le (by decide)]
  exact BitVec.extractLsb'_eq_self

theorem decodeReadings_flatMap (rs : List RawReading) : decodeReadings (rs.flatMap RawReading.bytes) = some rs := by
  induction rs with
  | nil => rfl
  | cons r rs ih => simp only [List.flatMap_cons, RawReading.bytes, List.cons_append, List.nil_append, decodeReadings, ih,
      Option.map_some, high_low]

theorem flatMap_of_decodeReadings {body : List Byte} {rs : List RawReading} (h : decodeReadings body = some rs) :
    rs.flatMap RawReading.bytes = body := by
  induction body using decodeReadings.induct generalizing rs with
  | case1 =>
    cases h
    rfl
  | case2 p f v1 v0 rest ih =>
    obtain ⟨l, hl, rfl⟩ := Option.map_eq_some_iff.1 h
    simp only [List.flatMap_cons, RawReading.bytes, ih hl, highByte_append, lowByte_append, List.cons_append, List.nil_append]
  | case3 body short long =>
    simp [decodeReadings] at h

/-- A body read under the code of a request gives back that request. -/
theorem decodeBody_of_request (r : Request) : decodeBody r.code.toNat r.body = some r := by
  cases r
  case reading rs =>
    refine Eq.trans (b := (decodeReadings (rs.flatMap RawReading.bytes)).map .reading) rfl ?_
    rw [decodeReadings_flatMap, Option.map_some]
  case definePoint b =>
    refine Eq.trans (b := some (.definePoint
      { b with
        lowThreshold := highByte b.lowThreshold ++ lowByte b.lowThreshold
        highThreshold := highByte b.highThreshold ++ lowByte b.highThreshold
        hysteresis := highByte b.hysteresis ++ lowByte b.hysteresis
        capacity := highByte b.capacity ++ lowByte b.capacity
        staleInterval := highByte b.staleInterval ++ lowByte b.staleInterval })) rfl ?_
    simp only [high_low]
  case shelvePoint p m => exact congrArg (fun x => some (Request.shelvePoint p x)) (high_low m)
  case acknowledge f t tag => exact congrArg (fun x => some (Request.acknowledge f t x)) (high_low tag)
  case acknowledgeGroup g m tag => exact congrArg (fun x => some (Request.acknowledgeGroup g m x)) (high_low tag)
  case setCounterSelection g j e v m => exact congrArg (fun x => some (Request.setCounterSelection g j x v m)) (high_low e)
  case setTime t => exact congrArg (fun x => some (Request.setTime x)) (quad_bytes t)
  all_goals rfl

theorem code_range (r : Request) : 1 ≤ r.code.toNat ∧ r.code.toNat ≤ 26 := by
  cases r <;> simp [Request.code]

theorem extract_quad (a b c d : Byte) :
    (a ++ b ++ c ++ d).extractLsb' 24 8 = a ∧ (a ++ b ++ c ++ d).extractLsb' 16 8 = b ∧
      (a ++ b ++ c ++ d).extractLsb' 8 8 = c ∧ (a ++ b ++ c ++ d).extractLsb' 0 8 = d := by
  refine ⟨?_, ?_, ?_, ?_⟩ <;>
    ext i hi <;> simp only [BitVec.getElem_extractLsb', BitVec.getLsbD_append]
  · rw [if_neg (by omega), if_neg (by omega), if_neg (by omega), show 24 + i - 8 - 8 - 8 = i by omega, BitVec.getLsbD_eq_getElem hi]
  · rw [if_neg (by omega), if_neg (by omega), if_pos (by omega), show 16 + i - 8 - 8 = i by omega, BitVec.getLsbD_eq_getElem hi]
  · rw [if_neg (by omega), if_pos (by omega), show 8 + i - 8 = i by omega, BitVec.getLsbD_eq_getElem hi]
  · rw [if_pos (by omega), show 0 + i = i by omega, BitVec.getLsbD_eq_getElem hi]

/-- A body that is read under a code is that of the request: under each code only a body of the code's length is read. -/
theorem body_of_decodeBody {code : Nat} {body : List Byte} {r : Request} (low : 1 ≤ code) (high : code ≤ 26)
    (h : decodeBody code body = some r) : r.code.toNat = code ∧ r.body = body := by
  interval_cases code
  · obtain ⟨rs, hrs, rfl⟩ := Option.map_eq_some_iff.1 h
    exact ⟨rfl, flatMap_of_decodeReadings hrs⟩
  · rcases body with _ | ⟨b1, _ | ⟨b2, _ | ⟨b3, _ | ⟨b4, _ | ⟨b5, _ | ⟨b6, _ | ⟨b7, _ | ⟨b8, _ | ⟨b9, _ | ⟨b10, _ | ⟨b11, _ | ⟨b12, _ | ⟨b13, _ | ⟨b14, _ | ⟨b15, _ | ⟨b16, _ | ⟨b17, _ | ⟨b18, _ | ⟨b19, _ | ⟨b20, _ | ⟨b21, _ | ⟨b22, _ | ⟨b23, _ | ⟨_, _⟩⟩⟩⟩⟩⟩⟩⟩⟩⟩⟩⟩⟩⟩⟩⟩⟩⟩⟩⟩⟩⟩⟩⟩ <;> cases h
    exact ⟨rfl, by simp only [Request.body, highByte_append, lowByte_append]⟩
  · rcases body with _ | ⟨b1, _ | ⟨_, _⟩⟩ <;> cases h
    exact ⟨rfl, rfl⟩
  · rcases body with _ | ⟨b1, _ | ⟨_, _⟩⟩ <;> cases h
    exact ⟨rfl, rfl⟩
  · rcases body with _ | ⟨b1, _ | ⟨b2, _ | ⟨b3, _ | ⟨_, _⟩⟩⟩⟩ <;> cases h
    exact ⟨rfl, by simp only [Request.body, highByte_append, lowByte_append]⟩
  · rcases body with _ | ⟨b1, _ | ⟨_, _⟩⟩ <;> cases h
    exact ⟨rfl, rfl⟩
  · rcases body with _ | ⟨b1, _ | ⟨b2, _ | ⟨b3, _ | ⟨b4, _ | ⟨b5, _ | ⟨b6, _ | ⟨b7, _ | ⟨_, _⟩⟩⟩⟩⟩⟩⟩⟩ <;> cases h
    exact ⟨rfl, rfl⟩
  · rcases body with _ | ⟨b1, _ | ⟨_, _⟩⟩ <;> cases h
    exact ⟨rfl, rfl⟩
  · rcases body with _ | ⟨b1, _ | ⟨b2, _ | ⟨_, _⟩⟩⟩ <;> cases h
    exact ⟨rfl, rfl⟩
  · rcases body with _ | ⟨b1, _ | ⟨_, _⟩⟩ <;> cases h
    exact ⟨rfl, rfl⟩
  · rcases body with _ | ⟨b1, _ | ⟨b2, _ | ⟨b3, _ | ⟨b4, _ | ⟨b5, _ | ⟨b6, _ | ⟨_, _⟩⟩⟩⟩⟩⟩⟩ <;> cases h
    exact ⟨rfl, rfl⟩
  · rcases body with _ | ⟨_, _⟩ <;> cases h
    exact ⟨rfl, rfl⟩
  · rcases body with _ | ⟨b1, _ | ⟨b2, _ | ⟨b3, _ | ⟨b4, _ | ⟨b5, _ | ⟨_, _⟩⟩⟩⟩⟩⟩ <;> cases h
    exact ⟨rfl, by simp only [Request.body, highByte_append, lowByte_append]⟩
  · rcases body with _ | ⟨b1, _ | ⟨b2, _ | ⟨b3, _ | ⟨b4, _ | ⟨_, _⟩⟩⟩⟩⟩ <;> cases h
    exact ⟨rfl, by simp only [Request.body, highByte_append, lowByte_append]⟩
  · rcases body with _ | ⟨b1, _ | ⟨b2, _ | ⟨b3, _ | ⟨b4, _ | ⟨b5, _ | ⟨b6, _ | ⟨_, _⟩⟩⟩⟩⟩⟩⟩ <;> cases h
    exact ⟨rfl, by simp only [Request.body, highByte_append, lowByte_append]⟩
  · rcases body with _ | ⟨b1, _ | ⟨_, _⟩⟩ <;> cases h
    exact ⟨rfl, rfl⟩
  · rcases body with _ | ⟨b1, _ | ⟨_, _⟩⟩ <;> cases h
    exact ⟨rfl, rfl⟩
  · rcases body with _ | ⟨b1, _ | ⟨_, _⟩⟩ <;> cases h
    exact ⟨rfl, rfl⟩
  · rcases body with _ | ⟨b1, _ | ⟨b2, _ | ⟨b3, _ | ⟨b4, _ | ⟨_, _⟩⟩⟩⟩⟩ <;> cases h
    obtain ⟨h3, h2, h1, h0⟩ := extract_quad b1 b2 b3 b4
    exact ⟨rfl, by rw [Request.body, h3, h2, h1, h0]⟩
  · rcases body with _ | ⟨_, _⟩ <;> cases h
    exact ⟨rfl, rfl⟩
  · rcases body with _ | ⟨_, _⟩ <;> cases h
    exact ⟨rfl, rfl⟩
  · rcases body with _ | ⟨_, _⟩ <;> cases h
    exact ⟨rfl, rfl⟩
  · rcases body with _ | ⟨b1, _ | ⟨_, _⟩⟩ <;> cases h
    exact ⟨rfl, rfl⟩
  · rcases body with _ | ⟨b1, _ | ⟨b2, _ | ⟨_, _⟩⟩⟩ <;> cases h
    exact ⟨rfl, rfl⟩
  · rcases body with _ | ⟨_, _⟩ <;> cases h
    exact ⟨rfl, rfl⟩
  · rcases body with _ | ⟨_, _⟩ <;> cases h
    exact ⟨rfl, rfl⟩

/-- Settles O9: decoding and encoding are inverse on each side. -/
theorem requestsDecodeAndEncode : Obligations.RequestsDecodeAndEncode := by
  unfold Obligations.RequestsDecodeAndEncode
  refine ⟨fun r => ?_, fun code body r h => ?_⟩
  · simp only [decodeRequest, decodeBody_of_request, code_range, and_self, if_true]
  · unfold decodeRequest at h
    split at h
    · next range =>
      split at h
      · next found =>
        cases h
        obtain ⟨hc, hb⟩ := body_of_decodeBody range.1 range.2 found
        exact ⟨BitVec.eq_of_toNat_eq hc, hb⟩
      · cases h
    · cases h

theorem decodeRequest_request (r : Request) : decodeRequest r.code r.body = .ok r := requestsDecodeAndEncode.1 r

theorem decodeRequest_unknown {code : Byte} (h : code = 0#8 ∨ 27 ≤ code.toNat) (body : List Byte) :
    decodeRequest code body = .error .unknownCode := by
  refine if_neg fun range => ?_
  rcases h with rfl | h
  · exact absurd range.1 (by decide)
  · omega

theorem length_readingBytes (rs : List RawReading) : (rs.flatMap RawReading.bytes).length = 4 * rs.length := by
  induction rs with
  | nil => rfl
  | cons r rs ih =>
    rw [List.flatMap_cons, List.length_append, ih, List.length_cons, RawReading.bytes]
    exact Nat.add_comm 4 (4 * rs.length)

/-- The body length of a code: a multiple of 4 under Reading, else one length for each code (11 section 11.5). -/
theorem length_body (r : Request) :
    if r.code = 1#8 then r.body.length % 4 = 0
    else [23, 1, 1, 3, 1, 7, 1, 2, 1, 6, 0, 5, 4, 6, 1, 1, 1, 4, 0, 0, 0, 1, 2, 0, 0][r.code.toNat - 2]? = some r.body.length := by
  cases r
  case reading rs =>
    refine (if_pos rfl).mpr ?_
    rw [Request.body, length_readingBytes]
    exact Nat.mul_mod_right 4 _
  all_goals rfl

theorem decodeRequest_badLength {code : Byte} {body : List Byte} (low : 1 ≤ code.toNat) (high : code.toNat ≤ 26)
    (wrong : if code = 1#8 then body.length % 4 ≠ 0
      else [23, 1, 1, 3, 1, 7, 1, 2, 1, 6, 0, 5, 4, 6, 1, 1, 1, 4, 0, 0, 0, 1, 2, 0, 0][code.toNat - 2]? ≠ some body.length) :
    decodeRequest code body = .error .badBodyLength := by
  rw [decodeRequest, if_pos ⟨low, high⟩]
  split
  · next r found =>
    obtain ⟨hc, rfl⟩ := body_of_decodeBody low high found
    obtain rfl := BitVec.eq_of_toNat_eq hc
    have right := length_body r
    split at wrong
    · next one => exact absurd ((if_pos one).mp right) wrong
    · next other => exact absurd ((if_neg other).mp right) wrong
  · rfl

end Sys2Proof.Machine
end

