-- ==== Sys2Proof/Proofs/LocalPort.lean ====
section
/-! PROOF. The local port: requests by the mode (O5), transactions judged by their bytes (O6), not examined (O7), and carrying a
request (O8); what each port permits (O10). -/

namespace Sys2Proof.Machine

/-! ## A transaction outside Watch and Waking -/

theorem enterWatch_eq_inWatch (s : State) : enterWatch s = inWatch s := rfl

/-- In Settling and in Dormant a transaction is a wake cause of kind Local and its slot is Asleep (R162, R178). -/
theorem transact_settling {s : State} (mode : s.tb.mode = .settling) (f : State → State) :
    transact f s =
      { inWatch s with
        lp := { s.lp with slot := some { status := .asleep, body := [] } }
        nu := { s.nu with flags := s.nu.flags ||| 0x80#8 }
        tb := { s.tb with mode := .watch, settle := none, wakeRecord := some { cause := .localPort, time := s.tb.hutTime } } } := by
  rw [transact_asleep f s (.inl mode), wakeCause_of_settling mode]
  rfl

theorem transact_dormant {s : State} (mode : s.tb.mode = .dormant) (f : State → State) :
    transact f s =
      { s with
        lp := { s.lp with slot := some { status := .asleep, body := [] } }
        nu := { s.nu with flags := s.nu.flags ||| 0x80#8 }
        tb := { s.tb with mode := .waking, wakeRecord := some { cause := .localPort, time := s.tb.hutTime } } } := by
  rw [transact_asleep f s (.inr mode), wakeCause_of_dormant mode]
  rfl

/-- Settles O5: `transact` by the mode, with the serving of the request in it. -/
theorem localRequestActsByMode : Obligations.LocalRequestActsByMode := by
  unfold Obligations.LocalRequestActsByMode
  intro i r s row t
  rw [exec_request i _ _ row, takeRequest, takeLocal]
  refine ⟨fun free mode => ?_, fun free mode => ?_, fun free mode => ?_, fun free mode => ?_, fun hold => ?_⟩
  · rw [free, transact_watch _ (shiftSlot (requestClocks r) s) mode]
    rfl
  · rw [free, transact_waking _ (shiftSlot (requestClocks r) s) mode]
    rfl
  · rw [free, transact_settling (s := shiftSlot (requestClocks r) s) mode]
    rfl
  · rw [free, transact_dormant (s := shiftSlot (requestClocks r) s) mode]
    rfl
  · rw [hold]
    rfl

/-- Settles O7: the mode, the hold and the cut are each looked at before the bits. -/
theorem localTransactionNotExamined : Obligations.LocalTransactionNotExamined := by
  unfold Obligations.LocalTransactionNotExamined
  intro bits s
  refine ⟨fun free mode => ?_, fun free mode => ?_, fun hold => ?_, fun before held => ?_⟩
  · simp only [exec, execLocalTransaction, localTransaction, free, Bool.false_eq_true, if_false]
    rw [transact_settling (s := shiftSlot bits.length s) mode]
    rfl
  · simp only [exec, execLocalTransaction, localTransaction, free, Bool.false_eq_true, if_false]
    rw [transact_dormant (s := shiftSlot bits.length s) mode]
    rfl
  · simp only [exec, execLocalTransaction, localTransaction, hold, if_true]
    rfl
  · exact ⟨_, rfl, length_cutTransaction _ ⟨before, held⟩ s, fun j hj => lsdo_cutTransaction _ ⟨before, held⟩ s hj⟩

/-! ## The judgement of the gathered bytes (R160, R186) -/

theorem judgeInward_empty {bytes : List Byte} (h : bytes = [] ∨ ∃ rest, bytes = 0#8 :: rest) : judgeInward bytes = .empty := by
  rcases h with rfl | ⟨rest, rfl⟩ <;> rfl

theorem judgeInward_malformed {n : Byte} {rest : List Byte}
    (h : 49 < n.toNat ∨ (n ≠ 0#8 ∧ rest.length < n.toNat + 2) ∨
      (n ≠ 0#8 ∧ n.toNat + 2 ≤ rest.length ∧ (rest.drop n.toNat).take 2 ≠ halfBytes (crc (n :: rest.take n.toNat)))) :
    judgeInward (n :: rest) = .malformed := by
  have nonzero : n ≠ 0#8 := by
    rintro rfl
    simp at h
  unfold judgeInward
  dsimp only
  rw [if_neg nonzero]
  by_cases long : 49 < n.toNat
  · rw [if_pos long]
  rw [if_neg long]
  by_cases short : rest.length < n.toNat + 2
  · rw [if_pos short]
  rw [if_neg short]
  have check : (rest.drop n.toNat).take 2 ≠ halfBytes (crc (n :: rest.take n.toNat)) := by
    rcases h with h | ⟨-, h⟩ | ⟨-, -, h⟩
    · exact absurd h long
    · exact absurd h short
    · exact h
  exact if_pos check

theorem judgeInward_of_good {n code : Byte} {rest : List Byte} (low : 1 ≤ n.toNat) (high : n.toNat ≤ 49)
    (room : n.toNat + 1 ≤ rest.length)
    (check : (rest.drop (n.toNat - 1)).take 2 = halfBytes (crc (n :: code :: rest.take (n.toNat - 1)))) :
    judgeInward (n :: code :: rest) = .message code (rest.take (n.toNat - 1)) := by
  obtain ⟨m, hm⟩ : ∃ m, n.toNat = m + 1 := ⟨n.toNat - 1, by omega⟩
  have nonzero : n ≠ 0#8 := by
    rintro rfl
    simp at low
  rw [hm, Nat.add_sub_cancel] at check ⊢
  unfold judgeInward
  dsimp only
  rw [if_neg nonzero, if_neg (by omega), if_neg (by simp only [List.length_cons]; omega), hm, List.drop_succ_cons,
    List.take_succ_cons, checkBytes, if_neg (not_not_intro check)]

/-- The state in which a transaction finds the part in Watch and in Waking. -/
theorem exec_localTransaction {bits : List Bool} {s : State} (free : s.inHold = false)
    (mode : s.tb.mode = .watch ∨ s.tb.mode = .waking) :
    exec (.localTransaction bits none) s = .next (judgeTransaction (judgeInward (bytesOf bits))
      (if s.tb.mode = .waking then inWatch (shiftSlot bits.length s) else shiftSlot bits.length s)) := by
  simp only [exec, execLocalTransaction, localTransaction, free, Bool.false_eq_true, if_false]
  rw [transact_served (shiftSlot bits.length s) mode]
  rfl

/-- A message that does not decode is answered with its decode status (R187). -/
theorem judgeTransaction_error {code : Byte} {body : List Byte} {e : DecodeError} (h : decodeRequest code body = .error e) (s : State) :
    judgeTransaction (.message code body) s = putSlot (some { status := decodeStatus e, body := [] }) s := by
  simp only [judgeTransaction, serveMessage, h]
  rfl

/-- Settles O6: the bytes are judged, and only the slot follows from the judgement. -/
theorem localTransactionJudged : Obligations.LocalTransactionJudged := by
  unfold Obligations.LocalTransactionJudged
  intro bits s free mode t t' slot
  have run := exec_localTransaction (bits := bits) free mode
  refine ⟨fun bytes => ?_, fun n rest bytes bad => ?_, fun n code rest bytes low high room check => ⟨fun unknown => ?_,
    fun from1 to26 wrong => ?_⟩⟩
  · rw [run, judgeInward_empty bytes]
    rfl
  · rw [run, bytes, judgeInward_malformed bad]
    rfl
  · rw [run, bytes, judgeInward_of_good low high room check, judgeTransaction_error (decodeRequest_unknown unknown _)]
    rfl
  · have len : (rest.take (n.toNat - 1)).length = n.toNat - 1 := by
      rw [List.length_take]
      omega
    rw [← len] at wrong
    rw [run, bytes, judgeInward_of_good low high room check, judgeTransaction_error (decodeRequest_badLength from1 to26 wrong)]
    rfl

/-! ## The transaction that carries a request (log entry 1) -/

theorem length_body_le {r : Request} (h : r.wf = true) : r.body.length ≤ 48 := by
  cases r
  case reading rs =>
    have few : rs.length ≤ 12 := of_decide_eq_true h
    have four : (Request.reading rs).body.length = 4 * rs.length := length_readingBytes rs
    omega
  all_goals exact Nat.le_of_ble_eq_true rfl

theorem wf_of_row {i : Instr} {o : Origin} {r : Request} (row : i.request? = some (o, r)) (h : i.wf = true) : r.wf = true := by
  simpa only [Instr.wf, row] using h

/-- Settles O8: the message is judged as the request's code and body, which decode to the request; the clocks are the same. -/
theorem localTransactionCarriesItsRequest : Obligations.LocalTransactionCarriesItsRequest := by
  unfold Obligations.LocalTransactionCarriesItsRequest
  intro i r s row wf
  refine ⟨_, ?_, exec_request i _ _ row s⟩
  have clocks : (bitsOf (localMessage r.code r.body)).length = requestClocks r := by
    rw [length_bitsOf, length_localMessage, requestClocks]
  have judged : judgeTransaction (judgeInward (bytesOf (bitsOf (localMessage r.code r.body)))) =
      fun s => takeServed (serve .localPort r s) := by
    rw [bytesOf_bitsOf, judgeInward_message _ _ (length_body_le (wf_of_row row wf))]
    funext u
    simp only [judgeTransaction, serveMessage, decodeRequest_request]
  simp only [exec, execLocalTransaction, localTransaction, clocks, judged, takeRequest, takeLocal]

/-! ## The permissions of the ports (R149, R160, R187) -/

/-- The codes of the requests that only the local port serves. -/
theorem localOnly_iff_code (r : Request) :
    localOnly r = true ↔ r.code.toNat ∈ [1, 2, 3, 7, 15, 21, 22, 23, 24, 25, 26] := by
  cases r <;> simp [localOnly, Request.code]

theorem serve_of_permitted {t : Taker} {r : Request} (h : permitted t r = true) : serve t r = serveOwner t r :=
  funext fun _ => if_pos h

theorem serve_of_not_permitted {t : Taker} {r : Request} (h : permitted t r = false) : serve t r = refusing .notPermitted :=
  funext fun _ => if_neg (Bool.eq_false_iff.1 h)

/-- Settles O10: a request is served where it is served by the permission of its port. -/
theorem portsPermitTheirRequests : Obligations.PortsPermitTheirRequests := by
  unfold Obligations.PortsPermitTheirRequests
  refine ⟨fun s hs => ?_, fun i r s row notWake hs => ?_, fun i h r s row hs => ⟨fun only => ?_, fun both => ?_⟩⟩
  · rw [exec_request_of_served rfl hs, takerOf, serve_of_not_permitted rfl]
  · rw [exec_request_of_served row hs, takerOf, serve_of_permitted (t := .localPort) (decide_eq_true notWake)]
  · rw [← localOnly_iff_code] at only
    rw [exec_request_of_served row hs, takerOf, serve_of_not_permitted (t := .routeLink h.source) (congrArg not only)]
  · rw [← localOnly_iff_code, Bool.not_eq_true] at both
    rw [exec_request_of_served row hs, takerOf, serve_of_permitted (t := .routeLink h.source) (congrArg not both)]

end Sys2Proof.Machine
end

