-- ==== Sys2Proof/Proofs/CheckSequence.lean ====
section
/-! PROOF. The check sequence (O15, R143): every step of the division is injective, so that a changed byte changes the check, and a
register appended to itself is shifted out. -/

namespace Sys2Proof.Machine

/-- Bit 0 after a step of the division is the bit shifted out, for the divisor has bit 0 set. -/
theorem getLsbD_zero_crcBit (r : Half) : (crcBit r).getLsbD 0 = r.msb := by
  unfold crcBit
  split
  · next h => simp [h]
  · next h => simpa using h

theorem shiftLeft_injective_of_msb {r r' : Half} (msb : r.msb = r'.msb) (rest : r <<< 1 = r' <<< 1) : r = r' := by
  refine BitVec.eq_of_getLsbD_eq fun i hi => ?_
  by_cases top : i = 15
  · subst top
    rwa [BitVec.msb_eq_getLsbD_last, BitVec.msb_eq_getLsbD_last] at msb
  · have bit := congrArg (fun x => x.getLsbD (i + 1)) rest
    simpa [show i + 1 < 16 by omega, BitVec.getLsbD_eq_getElem hi] using bit

/-- A step of the division loses nothing. -/
theorem crcBit_injective : Function.Injective crcBit := by
  intro r r' h
  have msb : r.msb = r'.msb := by rw [← getLsbD_zero_crcBit, ← getLsbD_zero_crcBit, h]
  refine shiftLeft_injective_of_msb msb ?_
  unfold crcBit at h
  rw [msb] at h
  split at h
  · exact (BitVec.xor_left_inj _).1 h
  · exact h

/-- The eight steps of a byte, from the register with the byte added. -/
def crcBits (r : Half) : Half := crcBit (crcBit (crcBit (crcBit (crcBit (crcBit (crcBit (crcBit r)))))))

theorem crcByte_eq (r : Half) (b : Byte) : crcByte r b = crcBits (r ^^^ (b ++ 0#8)) := rfl

theorem crcBits_injective : Function.Injective crcBits := by
  intro r r' h
  iterate 8 replace h := crcBit_injective h
  exact h

theorem crcByte_left_injective (b : Byte) : Function.Injective fun r => crcByte r b :=
  fun _ _ h => (BitVec.xor_left_inj _).1 (crcBits_injective h)

theorem append_zero_injective {x y : Byte} (h : x ++ 0#8 = y ++ 0#8) : x = y := by
  rw [← highByte_append x 0#8, h, highByte_append]

theorem crcByte_right_injective (r : Half) : Function.Injective (crcByte r) :=
  fun _ _ h => append_zero_injective ((BitVec.xor_right_inj _).1 (crcBits_injective h))

theorem foldl_crcByte_injective (l : List Byte) : Function.Injective fun r => l.foldl crcByte r := by
  induction l with
  | nil => exact fun _ _ h => h
  | cons b l ih => exact fun r r' h => crcByte_left_injective b (ih h)

/-- Eight bits below a clear high byte are shifted into it, and nothing is divided. -/
theorem crcBits_low : ∀ x : Byte, crcBits (0#8 ++ x) = x ++ 0#8 := by decide +kernel

/-- A register takes its own high byte: only the low one is left, moved up; and then its low byte: nothing is left. -/
theorem crcByte_self (r : Half) : crcByte (crcByte r (highByte r)) (lowByte r) = 0#16 := by
  have low : crcByte r (highByte r) = lowByte r ++ 0#8 := by
    have split : r ^^^ (highByte r ++ 0#8) = 0#8 ++ lowByte r := by
      conv => enter [1, 1]; rw [← high_low r]
      rw [BitVec.xor_append, BitVec.xor_self, BitVec.xor_zero]
    rw [crcByte_eq, split, crcBits_low]
  rw [low, crcByte_eq, BitVec.xor_self]
  rfl

/-- Settles O15: injectivity of the steps, and `crcByte_self` for the two bytes appended. -/
theorem checkSequenceFindsAChangedByte : Obligations.CheckSequenceFindsAChangedByte := by
  unfold Obligations.CheckSequenceFindsAChangedByte
  refine ⟨rfl, fun m => ?_, fun a b x y different same => different ?_⟩
  · rw [crc, List.foldl_append]
    exact crcByte_self (crc m)
  · simp only [crc, List.foldl_append, List.foldl_cons] at same
    exact crcByte_right_injective _ (foldl_crcByte_injective b same)

end Sys2Proof.Machine
end

