-- ==== Sys2Proof/Proofs/RouteLink.lean ====
section
/-! PROOF. The arrival of frames on a side of the route link: the frame that carries a request (O11), frames bound elsewhere (O12), bad
frames (O13), and requests that do not decode (O14). -/

namespace Sys2Proof.Machine

/-! ## The receiver of a side, byte by byte (R144) -/

/-- The state with the bytes in reception on a side replaced. -/
def receiving (d : Side) (bytes : List Byte) (s : State) : State := putSide d { s.side d with reception := bytes } s

theorem side_receiving (d : Side) (bytes : List Byte) (s : State) :
    (receiving d bytes s).side d = { s.side d with reception := bytes } := by
  simp [receiving]

theorem receiving_receiving (d : Side) (a b : List Byte) (s : State) : receiving d b (receiving d a s) = receiving d b s := by
  cases d <;> rfl

theorem hunt_eq_receiving (d : Side) (s : State) : hunt d s = receiving d [] s := rfl

theorem receiving_self {d : Side} {bytes : List Byte} {s : State} (h : (s.side d).reception = bytes) : receiving d bytes s = s := by
  subst h
  cases d <;> rfl

section Arrival

variable {d : Side} {s : State}

theorem receiveByte_of_lost (lost : (s.side d).carrier = false) (b : Byte) : receiveByte d s b = s :=
  if_neg (Bool.eq_false_iff.1 lost)

theorem foldl_receiveByte_of_lost (lost : (s.side d).carrier = false) (bytes : List Byte) :
    bytes.foldl (receiveByte d) s = s := by
  induction bytes with
  | nil => rfl
  | cons b bytes ih => rw [List.foldl_cons, receiveByte_of_lost lost, ih]

variable (present : (s.side d).carrier = true)

include present

theorem receiveByte_sync (idle : (s.side d).reception = []) : receiveByte d s syncByte = receiving d [syncByte] s := by
  rw [receiveByte, if_pos present, if_pos idle, if_pos rfl, receiving]

theorem receiveByte_noise (idle : (s.side d).reception = []) {b : Byte} (noise : b ≠ syncByte) : receiveByte d s b = s := by
  rw [receiveByte, if_pos present, if_pos idle, if_neg noise]

/-- Within a frame a byte is taken by `receiveInside`, from the bytes in reception. -/
theorem receiveByte_inside (sync : Byte) (inside : List Byte) (b : Byte) :
    receiveByte d (receiving d (sync :: inside) s) b = receiveInside d b (receiving d (sync :: inside) s) := by
  rw [receiveByte, side_receiving, if_pos present, if_neg (List.cons_ne_nil _ _)]

theorem receiveByte_length {len : Byte} (short : len.toNat ≤ 48) (sync : Byte) :
    receiveByte d (receiving d [sync] s) len = receiving d [sync, len] s := by
  rw [receiveByte_inside present]
  simp only [receiveInside, side_receiving]
  rw [if_neg (by omega)]
  cases d <;> rfl

theorem receiveByte_badLength {len : Byte} (long : 48 < len.toNat) (sync : Byte) :
    receiveByte d (receiving d [sync] s) len = countLink d .badCheck 1 (receiving d [] s) := by
  rw [receiveByte_inside present]
  simp only [receiveInside, side_receiving]
  rw [if_pos long, hunt_eq_receiving, receiving_receiving]

theorem receiveByte_middle {len : Byte} {rest : List Byte} (more : rest.length + 1 ≠ len.toNat + 7) (sync b : Byte) :
    receiveByte d (receiving d (sync :: len :: rest) s) b = receiving d (sync :: len :: rest ++ [b]) s := by
  rw [receiveByte_inside present]
  simp only [receiveInside, side_receiving]
  rw [if_neg more]
  cases d <;> rfl

theorem receiveByte_last {len : Byte} {rest : List Byte} (last : rest.length + 1 = len.toNat + 7) (sync b : Byte) :
    receiveByte d (receiving d (sync :: len :: rest) s) b = takeArrival d (len :: rest ++ [b]) (receiving d [] s) := by
  rw [receiveByte_inside present]
  simp only [receiveInside, side_receiving]
  rw [if_pos last, hunt_eq_receiving, receiving_receiving]

/-- The rest of a frame that has begun: its last byte completes it. -/
theorem foldl_receiveByte_inside (sync len : Byte) (before after : List Byte) (some_left : after ≠ [])
    (total : before.length + after.length = len.toNat + 7) :
    after.foldl (receiveByte d) (receiving d (sync :: len :: before) s) =
      takeArrival d (len :: before ++ after) (receiving d [] s) := by
  induction after generalizing before with
  | nil => exact absurd rfl some_left
  | cons b after ih =>
    rw [List.foldl_cons]
    by_cases last : after = []
    · subst last
      exact receiveByte_last present total sync b
    · have left : 0 < after.length := List.length_pos_iff.2 last
      rw [List.length_cons] at total
      rw [receiveByte_middle present (by omega), List.cons_append, List.cons_append,
        ih (before ++ [b]) last (by rw [List.length_append, List.length_singleton]; omega)]
      simp

/-- A whole frame, good or bad, on a side that hunts: it is taken once, and the side hunts again. -/
theorem foldl_receiveByte_frame (idle : (s.side d).reception = []) {len : Byte} {rest : List Byte} (short : len.toNat ≤ 48)
    (total : rest.length = len.toNat + 7) :
    (syncByte :: len :: rest).foldl (receiveByte d) s = takeArrival d (len :: rest) s := by
  have left : rest ≠ [] := by
    rintro rfl
    simp at total
  rw [List.foldl_cons, List.foldl_cons, receiveByte_sync present idle, receiveByte_length present short,
    foldl_receiveByte_inside present _ _ [] rest left (by rw [List.length_nil]; omega), receiving_self idle]
  rfl

theorem foldl_receiveByte_noise (idle : (s.side d).reception = []) {bytes : List Byte} (noise : syncByte ∉ bytes) :
    bytes.foldl (receiveByte d) s = s := by
  induction bytes with
  | nil => rfl
  | cons b bytes ih =>
    obtain ⟨first, rest⟩ := List.ne_and_not_mem_of_not_mem_cons noise
    rw [List.foldl_cons, receiveByte_noise present idle first.symm, ih rest]

/-- The bytes of a frame are taken as that frame. -/
theorem foldl_receiveByte_bytes (idle : (s.side d).reception = []) {f : Frame} (fits : f.body.length ≤ 48) :
    f.bytes.foldl (receiveByte d) s = takeFrame d f (serveMessage (.routeLink f.source) f.code f.body) s := by
  have len : (natByte f.body.length).toNat = f.body.length := by
    rw [natByte, BitVec.toNat_ofNat]
    omega
  have good := goodFrame_bytes f
  rw [Frame.bytes]
  rw [Frame.covered] at good ⊢
  simp only [List.cons_append, List.nil_append] at good ⊢
  rw [foldl_receiveByte_frame present idle (by omega)]
  · rw [takeArrival, good]
  · simp only [List.length_cons, List.length_append, length_checkBytes, len]

end Arrival

/-- The arrival of a whole frame on a side that hunts, outside a hold. -/
theorem exec_frameArrival {d : Side} {s : State} (free : s.inHold = false) (present : (s.side d).carrier = true)
    (idle : (s.side d).reception = []) {f : Frame} (fits : f.body.length ≤ 48) :
    exec (.frameArrival d f.bytes) s = .next (takeFrame d f (serveMessage (.routeLink f.source) f.code f.body) s) := by
  simp only [exec, execFrameArrival, arrive, free, Bool.false_eq_true, if_false, foldl_receiveByte_bytes present idle fits]

/-- Outside a hold bytes are received one after the other. -/
theorem exec_bytes {d : Side} {s : State} (free : s.inHold = false) (bytes : List Byte) :
    exec (.frameArrival d bytes) s = .next (bytes.foldl (receiveByte d) s) := by
  simp only [exec, execFrameArrival, arrive, free, Bool.false_eq_true, if_false]

/-! ## The frame that carries a request -/

/-- Settles O11: the frame's code and body decode to the request, and its row takes the same frame. -/
theorem frameArrivalCarriesItsRequest : Obligations.FrameArrivalCarriesItsRequest := by
  unfold Obligations.FrameArrivalCarriesItsRequest
  intro i h r s row wf idle
  refine ⟨_, ?_, exec_request i _ _ row s⟩
  rw [takeRequest, takeRoute]
  cases free : s.inHold with
  | true => simp only [exec, execFrameArrival, arrive, free, if_true]
  | false =>
    rw [if_neg Bool.false_ne_true]
    cases present : (s.side h.side).carrier with
    | false => rw [exec_bytes free, foldl_receiveByte_of_lost present, if_neg Bool.false_ne_true]
    | true =>
      have decoded : serveMessage (.routeLink h.source) r.code r.body = serve (.routeLink h.source) r := by
        funext u
        simp only [serveMessage, decodeRequest_request]
      rw [if_pos rfl, hunt_eq_receiving, receiving_self idle,
        exec_frameArrival (f := carrying h r) free present idle (length_body_le (wf_of_row row wf))]
      exact congrArg (fun act => Host.Outcome.next (takeFrame h.side (requestFrame h r) act s)) decoded

/-! ## Frames that this hut does not take -/

theorem isOwn_received (d : Side) (s : State) (b : Byte) : (countLink d .received 1 s).isOwn b = s.isOwn b := by
  simp [State.isOwn]

theorem takeFrame_of_ownReply {d : Side} {f : Frame} {s : State} (own : s.isOwn f.destination = true) (kind : f.kind = .reply)
    (act : State → State × Reply) : takeFrame d f act s = countLink d .received 1 s := by
  simp only [takeFrame, isOwn_received, own, kind, if_true]

theorem takeFrame_of_elsewhere {d : Side} {f : Frame} {s : State} (other : s.isOwn f.destination = false)
    (elsewhere : f.destination ≠ 0#8 ∨ f.kind = .reply) (act : State → State × Reply) :
    takeFrame d f act s = passOn d f (countLink d .received 1 s) := by
  simp only [takeFrame, isOwn_received, other, Bool.false_eq_true, if_false]
  by_cases broadcast : f.destination = 0#8
  · simp only [if_pos broadcast, elsewhere.resolve_left (not_not_intro broadcast)]
  · rw [if_neg broadcast]

theorem raised_pair (d : Side) (a b : LinkCounter) (s : State) : countLink d b 1 (countLink d a 1 s) = onSide d (raised [a, b]) s := by
  cases d <;> rfl

/-- Settles O12: the two ways of `takeFrame` that hand nothing to an owner. -/
theorem framesBoundElsewhere : Obligations.FramesBoundElsewhere := by
  unfold Obligations.FramesBoundElsewhere
  intro d f s free present idle fits t
  rw [exec_frameArrival free present idle fits]
  have counted : countLink d .received 1 s = t := countLink_eq_onSide _ _ _
  refine ⟨fun own kind => ?_, fun other elsewhere => ⟨fun spent => ?_, fun budget => ?_⟩⟩
  · rw [takeFrame_of_ownReply own kind, counted]
  · rw [takeFrame_of_elsewhere other elsewhere, passOn, if_pos spent, raised_pair]
  · rw [takeFrame_of_elsewhere other elsewhere, passOn, if_neg budget, forward_eq_sentOn, counted]

/-! ## Bad frames -/

/-- Bytes of the length of a frame whose check does not agree, or whose control byte has bit 6 set, are no good frame (R144, R185). -/
theorem goodFrame_eq_none {len : Byte} {rest : List Byte} (total : rest.length = len.toNat + 7)
    (bad : rest.drop (len.toNat + 5) ≠ halfBytes (crc (len :: rest.take (len.toNat + 5))) ∨
      ∃ c, rest[2]? = some c ∧ c.getLsbD 6 = true) : goodFrame (len :: rest) = none := by
  have size : (len :: rest).length - 2 = len.toNat + 5 + 1 := by
    rw [List.length_cons]
    omega
  unfold goodFrame
  dsimp only
  rw [size, List.drop_succ_cons, List.take_succ_cons]
  by_cases check : rest.drop (len.toNat + 5) = checkBytes (len :: rest.take (len.toNat + 5))
  · obtain ⟨c, third, bit⟩ := bad.resolve_left (not_not_intro check)
    rw [if_pos check]
    rcases rest with _ | ⟨r0, _ | ⟨r1, _ | ⟨r2, _ | ⟨r3, _ | ⟨r4, rest⟩⟩⟩⟩⟩ <;>
      simp only [List.length_nil, List.length_cons] at total <;> try omega
    cases third
    simp only [List.take_succ_cons, frameOf, bit, if_true]
  · exact if_neg check

/-- Settles O13: a bad frame reaches `takeArrival` with no good frame in it; noise reaches nothing. -/
theorem badFramesAreCountedAlone : Obligations.BadFramesAreCountedAlone := by
  unfold Obligations.BadFramesAreCountedAlone
  intro d s free idle
  refine ⟨fun present => ⟨fun len rest short total bad => ?_, fun len long => ?_, fun bytes noise => ?_⟩, fun lost bytes => ?_⟩
  · rw [exec_bytes free, ← countLink_eq_onSide]
    refine congrArg _ ((foldl_receiveByte_frame present idle short total).trans ?_)
    rw [takeArrival, goodFrame_eq_none total bad]
  · rw [exec_bytes free, ← countLink_eq_onSide]
    refine congrArg _ ?_
    change receiveByte d (receiveByte d s syncByte) len = _
    rw [receiveByte_sync present idle, receiveByte_badLength present long, receiving_self idle]
  · rw [exec_bytes free, foldl_receiveByte_noise present idle noise]
  · rw [exec_bytes free, foldl_receiveByte_of_lost lost]

/-! ## Requests that do not decode -/

theorem serveMessage_error {t : Taker} {code : Byte} {body : List Byte} {e : DecodeError} (h : decodeRequest code body = .error e)
    (s : State) : serveMessage t code body s = (s, { status := decodeStatus e, body := [] }) := by
  simp only [serveMessage, h]
  rfl

theorem isOwn_taken (d : Side) (s : State) (b : Byte) : (onSide d (raised [.received, .taken]) s).isOwn b = s.isOwn b := by
  cases d <;> rfl

/-- Settles O14: the frame is taken, and its reply is made without an owner. -/
theorem undecodableFramesAreAnswered : Obligations.UndecodableFramesAreAnswered := by
  unfold Obligations.UndecodableFramesAreAnswered
  intro h code body s e hs idle fits failed f status t
  obtain ⟨free, present, destination⟩ := hs
  have statusIs : decodeStatus e = status := by cases e <;> rfl
  rw [exec_frameArrival (f := f) free present idle fits]
  refine congrArg _ ?_
  cases addressed : s.isOwn h.destination with
  | true =>
    rw [takeFrame_of_addressed rfl ((isOwn_received _ _ _).trans addressed), takeAddressed]
    rw [serveMessage_error failed, place_eq_queued, raised_pair, if_pos rfl, statusIs]
    have own : t.rr.address = s.rr.address := by simp only [t]; cases h.side <;> rfl
    rw [← own]
    rfl
  | false =>
    have broadcast : h.destination = 0#8 := by simpa [addressed] using destination
    rw [takeFrame_of_broadcast rfl ((isOwn_received _ _ _).trans addressed) broadcast, takeBroadcast]
    rw [serveMessage_error failed, forward_eq_sentOn, raised_pair, if_neg Bool.false_ne_true]

end Sys2Proof.Machine
end

