-- ==== Sys2Proof/Proofs/SmallRequests.lean ====
section
/-! PROOF. Requests that act on few fields: Read Point (O20), Look Up (O29), Set Time (O38), Read and Peek Notices (O40), the notice
settings (O41), Enter Dormant (O42), Restart (O43). -/

namespace Sys2Proof.Machine

/-! ## The state at service -/

/-- What the return to Watch keeps is at service as it stood, but for the bits shifted out. -/
theorem proj_atService_localPort {α : Type} (f : State → α) (kept : ∀ t, f (inWatch t) = f t) (r : Request) (s : State) :
    f (atService .localPort r s) = f { s with lp := { s.lp with lsdo := shiftedOut r s } } := by
  simp only [atService]
  split
  · exact kept _
  · rfl

theorem nu_atService_localPort (r : Request) (s : State) : (atService .localPort r s).nu = s.nu :=
  proj_atService_localPort (·.nu) (fun _ => rfl) r s

theorem rr_atService_localPort (r : Request) (s : State) : (atService .localPort r s).rr = s.rr :=
  proj_atService_localPort (·.rr) (fun _ => rfl) r s

/-! ## Time and notices -/

/-- Settles O38: the owner answers with the old time and keeps everything else. -/
theorem setTimeLoadsTheCounter : Obligations.SetTimeLoadsTheCounter := by
  unfold Obligations.SetTimeLoadsTheCounter
  intro o v s hs
  refine exec_of_serveOwner rfl rfl Request.noConfusion hs ?_
  simp only [serveOwner, serveSetTime, quadBytes_eq_sent4, Reply.done]

theorem wakeRecordBytes_eq_sent (w : Option WakeRecord) :
    wakeRecordBytes w = (match w with
      | none => [0#8, 255#8, 0#8, 0#8, 0#8, 0#8, 0#8]
      | some { cause := .raise i, time } => [1#8, sent1 i.val, 0#8] ++ sent4 time.toNat
      | some { cause := .routeWake source, time } => [2#8, 255#8, source] ++ sent4 time.toNat
      | some { cause := .localPort, time } => [3#8, 255#8, 0#8] ++ sent4 time.toNat) := by
  rcases w with _ | ⟨i | source | _, time⟩
  · rfl
  · exact congrArg ([1#8, sent1 i.val, 0#8] ++ ·) (quadBytes_eq_sent4 time)
  · exact congrArg ([2#8, 255#8, source] ++ ·) (quadBytes_eq_sent4 time)
  · exact congrArg ([3#8, 255#8, 0#8] ++ ·) (quadBytes_eq_sent4 time)

theorem noticeBytes_eq_noticesSent (s : State) : noticeBytes s = noticesSent s := by
  rw [noticeBytes, barByte_eq_sent1, wakeRecordBytes_eq_sent]
  rfl

/-- The row of a request that the local port permits: its owner's answer. -/
theorem exec_local_of_served {i : Instr} {r : Request} (row : i.request? = some (.localPort, r)) (notWake : r ≠ .wakeHut) {s : State}
    (hs : served .localPort s) {f : State → State × Reply}
    (h : serveOwner .localPort r (atService .localPort r s) = f (atService .localPort r s)) :
    exec i s = .next (answered .localPort r s f) := by
  rw [exec_request_of_served row hs, takerOf, serve_of_permitted (t := .localPort) (decide_eq_true notWake), answered_congr h]

/-- The level flags whose condition stands (R164). -/
theorem standingConditions_eq (s : State) :
    s.standingConditions = (if s.rt.poolWait = [] then 0#8 else 0x10#8) |||
      (if s.rr.west.carrier = true ∧ s.rr.east.carrier = true then 0#8 else 0x40#8) := by
  unfold State.standingConditions State.carrierLost
  congr 1
  · simp only [List.isEmpty_iff]
    rfl
  · cases s.rr.west.carrier <;> cases s.rr.east.carrier <;> rfl

/-- Settles O40: the answer is made from the state before the flags are cleared. -/
theorem readNoticesClearsWhatItReturned : Obligations.ReadNoticesClearsWhatItReturned := by
  unfold Obligations.ReadNoticesClearsWhatItReturned
  intro s hs
  constructor
  · refine exec_local_of_served rfl Request.noConfusion hs ?_
    simp only [serveOwner, serveReadNotices, readNotices, standingConditions_eq, noticeBytes_eq_noticesSent, Reply.done]
  · refine exec_local_of_served rfl Request.noConfusion hs ?_
    simp only [serveOwner, servePeekNotices, telling, noticeBytes_eq_noticesSent, Reply.done]

/-- Two flag sets meet exactly when they share a bit. -/
theorem and_ne_zero_iff (x y : BitVec 8) : x &&& y ≠ 0#8 ↔ ∃ n : Fin 8, x.getLsbD n = true ∧ y.getLsbD n = true := by
  constructor
  · intro meets
    by_contra none
    refine meets (BitVec.eq_of_getLsbD_eq fun i hi => ?_)
    rw [BitVec.getLsbD_and, BitVec.getLsbD_zero, Bool.and_eq_false_iff, ← Bool.not_eq_true, ← Bool.not_eq_true, ← not_and_or]
    exact fun both => none ⟨⟨i, hi⟩, both⟩
  · rintro ⟨n, hx, hy⟩ zero
    have bit := congrArg (fun z => z.getLsbD n) zero
    rw [BitVec.getLsbD_and, hx, hy, BitVec.getLsbD_zero] at bit
    exact Bool.noConfusion bit

theorem serveSetHutSettings_of_badField {n w : Byte} (bad : n = 0#8 ∨ 4 < n.toNat ∨ w = 0#8 ∨ 5 < w.toNat) (s : State) :
    serveSetHutSettings n w s = refusing .badField s := by
  unfold serveSetHutSettings
  split
  · next level bar hn hw =>
    have fromN := severityOf_eq_some_iff.1 hn
    have fromW := range_of_barWritten (barOf_eq_some_iff.1 hw)
    have levels := exists_severity_level.1 ⟨level, fromN⟩
    rcases bad with rfl | bad | rfl | bad
    · exact absurd levels (by decide)
    · omega
    · exact absurd fromW (by decide)
    · omega
  · rfl

/-- Settles O41: the two settings requests, and ATTN as a common bit of flags and enables. -/
theorem noticeSettingsAreWrittenWhole : Obligations.NoticeSettingsAreWrittenWhole := by
  unfold Obligations.NoticeSettingsAreWrittenWhole
  refine ⟨fun e s hs => ?_, fun n w s hs => ⟨fun bad => ?_, fun level bar hn hw => ?_⟩, fun s => ?_⟩
  · exact exec_local_of_served rfl Request.noConfusion hs rfl
  · exact exec_local_of_served rfl Request.noConfusion hs (serveSetHutSettings_of_badField bad _)
  · refine exec_local_of_served rfl Request.noConfusion hs ?_
    simp only [serveOwner, serveSetHutSettings, severityOf_eq_some_iff.2 hn, barOf_eq_some_iff.2 hw, Reply.done]
  · rw [State.attn, Bool.and_eq_true, Bool.not_eq_true', State.enabledNotice, decide_eq_true_iff, and_ne_zero_iff]

/-! ## Modes -/

/-- Settles O42: the flags are judged before the mode is written; the expiry looks at the mode alone. -/
theorem enterDormantThenSettleExpiry : Obligations.EnterDormantThenSettleExpiry := by
  unfold Obligations.EnterDormantThenSettleExpiry
  refine ⟨fun s hs => ⟨fun pending => ?_, fun none => ?_⟩, fun s free mode => ⟨?_, ?_, ?_⟩⟩
  · refine exec_local_of_served rfl Request.noConfusion hs ?_
    rw [serveOwner, serveEnterDormant, State.enabledNotice, nu_atService_localPort, if_pos (decide_eq_true pending)]
    rfl
  · refine exec_local_of_served rfl Request.noConfusion hs ?_
    rw [serveOwner, serveEnterDormant, State.enabledNotice, nu_atService_localPort, if_neg (by simp [none])]
    rfl
  · simp only [exec, execSettleExpiry, free, settleExpire, mode, Bool.false_eq_true, if_false]
  · simp only [State.wake, mode]
    exact Bool.or_true _
  · have still : ({ s with tb := { s.tb with mode := .dormant, settle := none } } : State).inHold = false := free
    rw [State.wake, still]
    rfl

/-- The entry of a point as Restart leaves it, from the entry it finds (R44). -/
theorem restarted_eq (e : PointEntry) :
    e.restarted =
      { defn := e.defn, keys := { low := .quiet, high := .quiet, stale := .quiet, fault := .quiet }, lowBucket := 0, highBucket := 0
        stale := e.defn.bind (fun d => if d.staleInterval = 0 then none else some d.staleInterval), shelve := 0 } := by
  unfold PointEntry.restarted
  cases e.defn with
  | none => rfl
  | some d => exact defined_eq d

/-- The state that the owner of Restart leaves. -/
def restartedState (s : State) : State := (serveRestart s).1

/-- Settles O43: every block that Restart writes is named in `restartBlocks`. -/
theorem restartResetsAndKeeps : Obligations.RestartResetsAndKeeps := by
  unfold Obligations.RestartResetsAndKeeps
  intro s hs
  refine ⟨restartedState (atService .localPort .restart s), exec_local_of_served rfl Request.noConfusion hs rfl, rfl, fun p => ?_,
    fun g => ?_, proj_atService_localPort (·.gc) (fun _ => rfl) _ _, proj_atService_localPort (·.cs) (fun _ => rfl) _ _, rr_atService_localPort _ _, proj_atService_localPort (·.powerHold) (fun _ => rfl) _ _, proj_atService_localPort (·.resetLow) (fun _ => rfl) _ _,
    proj_atService_localPort (·.freeDraws) (fun _ => rfl) _ _, proj_atService_localPort (·.pending) (fun _ => rfl) _ _, proj_atService_localPort (·.lp.lsdo) (fun _ => rfl) _ _, ?_, ?_⟩
  · refine (vget_vmap _ _ _).trans ((restarted_eq _).trans ?_)
    have same : ((atService .localPort .restart s).point p).defn = (s.point p).defn := defn_atService_localPort _ _ _
    rw [← same]
    rfl
  · refine (vget_vmap _ _ _).trans ?_
    have same : (atService .localPort .restart s).governor g = s.governor g := governor_atService_localPort _ _ _
    rw [← same]
    rfl
  · have same : (atService .localPort .restart s).rr = s.rr := proj_atService_localPort (·.rr) (fun _ => rfl) _ _
    change ({ (atService .localPort .restart s).nu with flags := resetFlags (atService .localPort .restart s) } : NoticeUnit) = _
    rw [nu_atService_localPort, resetFlags, State.carrierLost, rr_atService_localPort]
    cases s.rr.west.carrier <;> cases s.rr.east.carrier <;> rfl
  · simp only [restartedState, serveRestart, restartBlocks, atService]
    split <;> rfl

/-! ## Entries and records in replies -/

theorem severityByte_eq_sent1 (v : Severity) : v.byte = sent1 v.level := rfl

/-- The point state of a key and its record, as Read Point sends them. -/
theorem keyEntryBytes_eq (k : KeyEntry) :
    keyEntryBytes k = [(match k.state with
        | .quiet => 0#8
        | .raised => 1#8
        | .cleared => 2#8
        | .held => 3#8
        | .waiting => 4#8
        | .folded => 5#8), (match k.link with
        | some i => sent1 i.val
        | none => 255#8)] := by
  rw [keyEntryBytes]
  congr 1

theorem sent4_mod (n : Nat) : sent4 (n % 4294967296) = sent4 n := by
  have byte {a b : Nat} (h : a % 256 = b % 256) : BitVec.ofNat 8 a = BitVec.ofNat 8 b :=
    BitVec.eq_of_toNat_eq (by rwa [BitVec.toNat_ofNat, BitVec.toNat_ofNat])
  simp only [sent4, List.cons.injEq, and_true]
  exact ⟨byte (by omega), byte (by omega), byte (by omega), byte (by omega)⟩

theorem natQuad_eq_sent4 (n : Nat) : natQuad n = sent4 n := by
  rw [natQuad, quadBytes_eq_sent4, BitVec.toNat_ofNat]
  exact sent4_mod n

theorem thresholdBits (lo hi : Option Half) :
    (if lo.isSome then 1#8 else 0#8) ||| (if hi.isSome then 2#8 else 0#8) =
      (match lo, hi with
        | none, none => 0#8
        | some _, none => 1#8
        | none, some _ => 2#8
        | some _, some _ => 3#8) := by
  cases lo <;> cases hi <;> simp

/-- The presence and the value of a stale countdown are sent as one byte and two (R184). -/
theorem staleBytes (stale : Option Nat) (rest : List Byte) :
    [boolByte stale.isSome] ++ (sent2 (stale.getD 0) ++ rest) = (match stale with
      | none => [0#8, 0#8, 0#8]
      | some n => 1#8 :: sent2 n) ++ rest := by
  cases stale <;> rfl

theorem sourceBytes_eq (src : Source) :
    src.bytes = (match src with
      | .reading => [0#8, 0#8, 0#8]
      | .contact line high => [1#8, sent1 line.val, if high then 1#8 else 0#8]
      | .carrier .west => [2#8, 0#8, 0#8]
      | .carrier .east => [3#8, 0#8, 0#8]) := by
  rcases src with _ | _ | (_ | _) <;> rfl

theorem retirementByte_eq (x : Retirement) :
    x.byte = (match x with
      | .selfRetiring => 0#8
      | .latched => 1#8) := by
  cases x <;> rfl

theorem weightingBytes_eq (w : Weighting) :
    w.bytes = (match w with
      | .count drain => [0#8, sent1 drain]
      | .magnitude shift => [1#8, sent1 shift]) := by
  cases w <;> rfl

theorem serveReadPoint_of_badField {b : Byte} (above : 63 < b.toNat) (s : State) : serveReadPoint b s = refusing .badField s := by
  rw [serveReadPoint, pointNumber_eq_none above]
  rfl

theorem serveReadPoint_of_vacant {b : Byte} {p : PointId} {s : State} (point : p.val = b.toNat) (vacant : (s.point p).defn = none) :
    serveReadPoint b s = refusing .pointVacant s := by
  rw [serveReadPoint, pointNumber_eq_some_iff.2 point]
  simp only [vacant]
  rfl

theorem serveReadPoint_of_inService {b : Byte} {p : PointId} {d : Definition} {s : State} (point : p.val = b.toNat)
    (defined : (s.point p).defn = some d) : serveReadPoint b s = (s, .done (pointBytes p (s.point p) d)) := by
  rw [serveReadPoint, pointNumber_eq_some_iff.2 point]
  simp only [defined]

/-- Settles O20: byte by byte, with the free byte of `inServiceByte` in front. -/
theorem readPointReturnsTheEntry : Obligations.ReadPointReturnsTheEntry := by
  unfold Obligations.ReadPointReturnsTheEntry
  intro o b s hs ends
  have row {f : State → State × Reply}
      (h : serveReadPoint b (atService o (.readPoint b) s) = f (atService o (.readPoint b) s)) : ends f :=
    exec_of_serveOwner rfl rfl Request.noConfusion hs h
  have same (p : PointId) := defn_of_core (core_atService o (.readPoint b) s) p
  refine ⟨fun above => row (serveReadPoint_of_badField above _), fun p point =>
    ⟨fun vacant => row (serveReadPoint_of_vacant point ((same p).trans vacant)), fun d defined => ⟨inServiceByte, row ?_⟩⟩⟩
  rw [serveReadPoint_of_inService point ((same p).trans defined)]
  simp only [telling, pointBytes, definitionBytes, keyEntryBytes_eq, natHalf_eq_sent2, natQuad_eq_sent4, halfBytes_eq_sent2,
    sourceBytes_eq, retirementByte_eq, weightingBytes_eq, thresholdBits, natByte_eq_of_val_eq point, Reply.done, List.append_assoc, staleBytes]
  rfl

/-! ## Look Up -/

theorem pendingReply_eq (e : KeyEntry) : pendingReply e = pendingAnswer e := by
  rw [pendingReply, pendingAnswer]
  congr 1

section Places

variable {s : State}

theorem placeOf_quiet {k : PointKey} (h : (s.key k).state = .quiet) : s.placeOf (.point k) = .nowhere := by
  simp only [State.placeOf, h]

theorem placeOf_linked {k : PointKey} {i : RecordIx} (h : (s.key k).state = .raised ∨ (s.key k).state = .cleared)
    (link : (s.key k).link = some i) : s.placeOf (.point k) = .record i := by
  rcases h with h | h <;> simp only [State.placeOf, h, link]

theorem placeOf_waiting {k : PointKey} (h : (s.key k).state = .held ∨ (s.key k).state = .waiting ∨ (s.key k).state = .folded) :
    s.placeOf (.point k) = .pending (s.key k) := by
  rcases h with h | h | h <;> simp only [State.placeOf, h]

theorem placeOf_stormLive {g : GroupId} (h : (s.record (stormIx g)).state.live = true) :
    s.placeOf (.storm g) = .record (stormIx g) := by
  simp only [State.placeOf, h, if_true]

theorem placeOf_stormIdle {g : GroupId} (h : (s.record (stormIx g)).state = .idle) : s.placeOf (.storm g) = .nowhere := by
  simp only [State.placeOf, h]
  rfl

end Places

/-- Settles O29: the key that the bytes name is placed, and its place answered. -/
theorem lookUpAnswersByTheKey : Obligations.LookUpAnswersByTheKey := by
  unfold Obligations.LookUpAnswersByTheKey
  intro o raw s hs ends
  have row {f : State → State × Reply}
      (h : serveLookUp raw (atService o (.lookUp raw) s) = f (atService o (.lookUp raw) s)) : ends f :=
    exec_of_serveOwner rfl rfl Request.noConfusion hs h
  have sameKey (k : PointKey) := key_of_core (core_atService o (.lookUp raw) s) k
  have sameRecord (i : RecordIx) := record_of_core (core_atService o (.lookUp raw) s) i
  refine ⟨fun names => row ?_, fun k names => ?_, fun g names => ?_⟩
  · simp only [serveLookUp, keyOf_eq_none_of_namesNoKey names]
    rfl
  · have found := keyOf_eq_some_iff.2 names
    simp only [← sameKey k]
    refine ⟨fun h => row ?_, fun h i link => row ?_, fun h => row ?_⟩
    · simp only [serveLookUp, found, placeOf_quiet h]
      rfl
    · simp only [serveLookUp, found, placeOf_linked h link, recordBytes_eq_recordSent]
      rfl
    · simp only [serveLookUp, found, placeOf_waiting h, pendingReply_eq]
  · have found := keyOf_eq_some_iff.2 names
    simp only [← sameRecord (stormIx g)]
    refine ⟨fun h => row ?_, fun h => row ?_⟩
    · simp only [serveLookUp, found, placeOf_stormLive h, recordBytes_eq_recordSent]
      rfl
    · simp only [serveLookUp, found, placeOf_stormIdle h]
      rfl

end Sys2Proof.Machine
end

