-- ==== Sys2Proof/Proofs/Acknowledge.lean ====
section
/-! PROOF. Acknowledge by index (O32) and by key (O34). -/

namespace Sys2Proof.Machine

theorem serveAcknowledge_of_index {form : Byte} {target : RawKey} {i : RecordIx} (byIndex : form = 0#8)
    (index : i.val = target.number.toNat) (tag : Half) (who : AckBy) (s : State) :
    serveAcknowledge form target tag who s = acknowledgeIndex i who tag s := by
  rw [serveAcknowledge, if_pos byIndex, recordNumber_eq_some_iff.2 index]

theorem serveAcknowledge_of_badIndex {form : Byte} {target : RawKey} (byIndex : form = 0#8) (above : 167 < target.number.toNat)
    (tag : Half) (who : AckBy) (s : State) : serveAcknowledge form target tag who s = refusing .badField s := by
  rw [serveAcknowledge, if_pos byIndex, recordNumber_eq_none above]
  rfl

section Index

variable {i : RecordIx} {s : State} (who : AckBy) (tag : Half)

theorem acknowledgeIndex_of_standing (h : (s.record i).state = .standing) :
    acknowledgeIndex i who tag s = (acknowledgeRecord i who tag s, { status := .done, body := [sent1 i.val, 0#8] }) := by
  simp only [acknowledgeIndex, h]
  rfl

theorem acknowledgeIndex_of_cleared (h : (s.record i).state = .cleared) :
    acknowledgeIndex i who tag s = (acknowledgeRecord i who tag s, { status := .done, body := [sent1 i.val, 1#8] }) := by
  simp only [acknowledgeIndex, h]
  rfl

theorem acknowledgeIndex_of_acknowledged (h : (s.record i).state = .acknowledged) :
    acknowledgeIndex i who tag s = refusing .alreadyAcked s := by
  simp only [acknowledgeIndex, h]
  rfl

theorem acknowledgeIndex_of_dead (h : (s.record i).state = .free ∨ (s.record i).state = .idle) :
    acknowledgeIndex i who tag s = refusing .notFound s := by
  rcases h with h | h
  · simp only [acknowledgeIndex, h]
    rfl
  · simp only [acknowledgeIndex, h]
    rfl

end Index

/-- The row of an Acknowledge that is served: the owner's answer at service. -/
theorem exec_acknowledge {o : Origin} {form : Byte} {target : RawKey} {tag : Half} {s x : State} {reply : Reply} (hs : served o s)
    (h : serveAcknowledge form target tag (byWhom o) (atService o (.acknowledge form target tag) s) = (x, reply)) :
    exec (.acknowledge o form target tag) s = .next (withReply o (.acknowledge form target tag) reply x) := by
  rw [← answered_eq_withReply (f := serveAcknowledge form target tag (byWhom o)) h]
  refine exec_of_serveOwner rfl rfl Request.noConfusion hs ?_
  rw [serveOwner, ackBy_takerOf]

/-- Settles O32: the index names a record, whose state decides. -/
theorem acknowledgeByIndex : Obligations.AcknowledgeByIndex := by
  unfold Obligations.AcknowledgeByIndex
  intro o form target tag s hs byIndex r t ends
  have same (i : RecordIx) : t.record i = s.record i := record_of_core (core_atService o r s) i
  refine ⟨fun above => exec_acknowledge hs (serveAcknowledge_of_badIndex byIndex above _ _ _), fun i index => ?_⟩
  have byState {x : State} {reply : Reply} (h : acknowledgeIndex i (byWhom o) tag t = (x, reply)) : ends x reply :=
    exec_acknowledge hs ((serveAcknowledge_of_index byIndex index _ _ _).trans h)
  rw [← same i]
  refine ⟨fun standing key => ?_, fun acked => byState (acknowledgeIndex_of_acknowledged _ _ acked),
    fun dead => byState (acknowledgeIndex_of_dead _ _ dead)⟩
  obtain ⟨k, hk⟩ := Option.ne_none_iff_exists'.1 key
  exact ⟨_, byState (acknowledgeIndex_of_standing _ _ standing), acknowledged_acknowledgeRecord standing hk _ _⟩

/-- Every Acknowledge has a message of one length, and so finds the part in one state. -/
theorem atService_acknowledge (o : Origin) (form form' : Byte) (target target' : RawKey) (tag : Half) (s : State) :
    atService o (.acknowledge form target tag) s = atService o (.acknowledge form' target' tag) s := by
  cases o <;> rfl

section ByKey

variable {form : Byte} {target : RawKey} {key : Key} {s : State} (byKey : form ≠ 0#8) (found : keyOf target = some key)
  (tag : Half) (who : AckBy)

include byKey found

theorem serveAcknowledge_of_record {i : RecordIx} (place : s.placeOf key = .record i) :
    serveAcknowledge form target tag who s = acknowledgeIndex i who tag s := by
  simp only [serveAcknowledge, if_neg byKey, found, place]

theorem serveAcknowledge_of_pending {e : KeyEntry} (place : s.placeOf key = .pending e) :
    serveAcknowledge form target tag who s = (s, pendingAnswer e) := by
  simp only [serveAcknowledge, if_neg byKey, found, place, pendingReply_eq]

theorem serveAcknowledge_of_nowhere (place : s.placeOf key = .nowhere) :
    serveAcknowledge form target tag who s = refusing .notFound s := by
  simp only [serveAcknowledge, if_neg byKey, found, place]
  rfl

end ByKey

/-- Settles O34: the key is placed as Look Up places it, and a record so found is acknowledged by its index. -/
theorem acknowledgeByKey : Obligations.AcknowledgeByKey := by
  unfold Obligations.AcknowledgeByKey
  intro o form target tag s hs byKey r t ends asIndex
  have sameKey (k : PointKey) : t.key k = s.key k := key_of_core (core_atService o r s) k
  have sameRecord (i : RecordIx) : t.record i = s.record i := record_of_core (core_atService o r s) i
  have reaches {key : Key} {i : RecordIx} (found : keyOf target = some key) (place : t.placeOf key = .record i) : asIndex i := by
    have index : i.val = (sent1 i.val).toNat := by
      rw [sent1, BitVec.toNat_ofNat]
      omega
    have one : atService o (.acknowledge 0#8 { number := sent1 i.val, kind := 0#8 } tag) s = t := atService_acknowledge _ _ _ _ _ _ _
    exact ⟨(acknowledgeIndex i (byWhom o) tag t).1, (acknowledgeIndex i (byWhom o) tag t).2,
      exec_acknowledge hs (serveAcknowledge_of_record byKey found tag _ place),
      exec_acknowledge hs (by rw [serveAcknowledge_of_index rfl index, one])⟩
  refine ⟨fun names => exec_acknowledge hs ?_, fun k names => ?_, fun g names => ?_⟩
  · simp only [serveAcknowledge, if_neg byKey, keyOf_eq_none_of_namesNoKey names]
    rfl
  · have found := keyOf_eq_some_iff.2 names
    rw [← sameKey k]
    exact ⟨fun h => exec_acknowledge hs (serveAcknowledge_of_nowhere byKey found _ _ (placeOf_quiet h)),
      fun h => exec_acknowledge hs (serveAcknowledge_of_pending byKey found _ _ (placeOf_waiting h)),
      fun h i link => reaches found (placeOf_linked h link)⟩
  · have found := keyOf_eq_some_iff.2 names
    rw [← sameRecord (stormIx g)]
    exact ⟨fun h => exec_acknowledge hs (serveAcknowledge_of_nowhere byKey found _ _ (placeOf_stormIdle h)),
      fun h => reaches found (placeOf_stormLive h)⟩

end Sys2Proof.Machine
end

