-- ==== Sys2Proof/Proofs/Mechanisms.lean ====
section
/-! PROOF. What every mechanism of the condition table keeps, as one relation between a state and a later one: nothing outside the table,
the points but for a reload of the stale countdowns, the modes but for a wake, no flag lost, no counter lowered. -/

namespace Sys2Proof.Machine

/-! ## The relation -/

/-- How the mode and the settle countdown go on within a command (R178): as they are, or by a wake. -/
def ModeFollows (s t : State) : Prop :=
  (t.tb.mode = s.tb.mode ∧ t.tb.settle = s.tb.settle) ∨ (s.tb.mode = .settling ∧ t.tb.mode = .watch ∧ t.tb.settle = none) ∨
    (s.tb.mode = .dormant ∧ t.tb.mode = .waking ∧ t.tb.settle = s.tb.settle)

/-- A later state of the same command, whatever has become of the points: what is outside the table is as it was, the mode goes on, no
notice flag is lost, PoolFull is set when the first key waits, and no counter falls. -/
structure Follows (s t : State) : Prop where
  outside : t.outside = s.outside
  mode : ModeFollows s t
  flags : ∀ n : Nat, s.nu.flags.getLsbD n = true → t.nu.flags.getLsbD n = true
  full : t.rt.poolWait ≠ [] → s.rt.poolWait ≠ [] ∨ t.nu.flags.getLsbD 4 = true
  counters : ∀ g j, (s.counter g j).value.toNat ≤ (t.counter g j).value.toNat

/-- A later state of the same command in which the points have kept their definitions, buckets and shelving, and their stale countdowns
but for the reload of R66. -/
structure Kept (s t : State) : Prop extends Follows s t where
  points : pointsKept s t

theorem ModeFollows.refl (s : State) : ModeFollows s s := .inl ⟨rfl, rfl⟩

theorem ModeFollows.trans {s t u : State} (h : ModeFollows s t) (k : ModeFollows t u) : ModeFollows s u := by
  rcases h with ⟨a, b⟩ | ⟨a, b, c⟩ | ⟨a, b, c⟩ <;> rcases k with ⟨a', b'⟩ | ⟨a', b', c'⟩ | ⟨a', b', c'⟩ <;>
    simp_all [ModeFollows]

theorem Follows.refl (s : State) : Follows s s := ⟨rfl, .refl s, fun _ h => h, .inl, fun _ _ => le_rfl⟩

theorem Follows.trans {s t u : State} (h : Follows s t) (k : Follows t u) : Follows s u where
  outside := k.outside.trans h.outside
  mode := h.mode.trans k.mode
  flags n set := k.flags n (h.flags n set)
  full waits := (k.full waits).elim (fun before => (h.full before).imp_right (k.flags 4)) .inr
  counters g j := (h.counters g j).trans (k.counters g j)

theorem pointsKept.refl (s : State) : pointsKept s s := fun _ =>
  ⟨rfl, rfl, rfl, rfl, (if_neg fun h => Mode.noConfusion (h.1.symm.trans h.2)).symm⟩

theorem reloadStale_stale_congr {e e' : PointEntry} (defn : e'.defn = e.defn) (stale : e'.stale = e.stale) :
    e'.reloadStale.stale = e.reloadStale.stale := by
  rw [reloadStale_stale, reloadStale_stale, defn, stale]

/-- Settling goes to Watch at most once within a command. -/
theorem ModeFollows.reloads_iff {s t u : State} (h : ModeFollows s t) (k : ModeFollows t u) :
    (s.tb.mode = .settling ∧ u.tb.mode = .watch ↔
      (s.tb.mode = .settling ∧ t.tb.mode = .watch) ∨ (t.tb.mode = .settling ∧ u.tb.mode = .watch)) ∧
    ¬ ((s.tb.mode = .settling ∧ t.tb.mode = .watch) ∧ (t.tb.mode = .settling ∧ u.tb.mode = .watch)) := by
  have modes : ∀ a b c : Mode, (b = a ∨ (a = .settling ∧ b = .watch) ∨ (a = .dormant ∧ b = .waking)) →
      (c = b ∨ (b = .settling ∧ c = .watch) ∨ (b = .dormant ∧ c = .waking)) →
      (a = .settling ∧ c = .watch ↔ (a = .settling ∧ b = .watch) ∨ (b = .settling ∧ c = .watch)) ∧
        ¬ ((a = .settling ∧ b = .watch) ∧ (b = .settling ∧ c = .watch)) := by
    intro a b c
    cases a <;> cases b <;> cases c <;> simp
  refine modes _ _ _ ?_ ?_
  · exact h.imp And.left (Or.imp (fun x => ⟨x.1, x.2.1⟩) fun x => ⟨x.1, x.2.1⟩)
  · exact k.imp And.left (Or.imp (fun x => ⟨x.1, x.2.1⟩) fun x => ⟨x.1, x.2.1⟩)

theorem pointsKept.trans {s t u : State} (mode : ModeFollows s t) (mode' : ModeFollows t u) (h : pointsKept s t) (k : pointsKept t u) :
    pointsKept s u := by
  intro p
  obtain ⟨a, b, c, d, e⟩ := h p
  obtain ⟨a', b', c', d', e'⟩ := k p
  obtain ⟨either, notBoth⟩ := mode.reloads_iff mode'
  refine ⟨a'.trans a, b'.trans b, c'.trans c, d'.trans d, ?_⟩
  by_cases first : s.tb.mode = .settling ∧ t.tb.mode = .watch
  · rw [if_pos first] at e
    rw [e', if_neg fun second => notBoth ⟨first, second⟩, if_pos (either.2 (.inl first)), e]
  · rw [if_neg first] at e
    by_cases second : t.tb.mode = .settling ∧ u.tb.mode = .watch
    · rw [e', if_pos second, if_pos (either.2 (.inr second)), reloadStale_stale_congr a e]
    · rw [e', if_neg second, if_neg fun both => (either.1 both).elim first second, e]

theorem Kept.refl (s : State) : Kept s s := { Follows.refl s with points := .refl s }

theorem Kept.trans {s t u : State} (h : Kept s t) (k : Kept t u) : Kept s u :=
  { h.toFollows.trans k.toFollows with points := h.points.trans h.mode k.mode k.points }

/-! ## Updates of the table that an operation makes by itself -/

section Updates

variable {s t u : State}

/-- An update of records, lists, keys or governors, with no event: it is kept when the points keep what is not a key, and no key begins
to wait. -/
theorem Kept.update (h : Kept s t) (outside : u.outside = t.outside) (tb : u.tb = t.tb) (nu : u.nu = t.nu) (gc : u.gc = t.gc)
    (points : ∀ p, (u.point p).defn = (t.point p).defn ∧ (u.point p).lowBucket = (t.point p).lowBucket ∧
      (u.point p).highBucket = (t.point p).highBucket ∧ (u.point p).shelve = (t.point p).shelve ∧
      (u.point p).stale = (t.point p).stale)
    (waits : u.rt.poolWait ≠ [] → t.rt.poolWait ≠ []) : Kept s u := by
  refine h.trans { outside, mode := .inl ⟨by rw [tb], by rw [tb]⟩, flags := fun n set => by rwa [nu], full := fun w => .inl (waits w),
                   counters := fun g j => ?_, points := fun p => ?_ }
  · rw [State.counter, State.counter, State.counters, State.counters, gc]
  · obtain ⟨a, b, c, d, e⟩ := points p
    refine ⟨a, b, c, d, e.trans (if_neg fun x => ?_).symm⟩
    rw [tb] at x
    exact Mode.noConfusion (x.1.symm.trans x.2)

/-- An update of the record table alone, by which no key begins to wait. -/
theorem Kept.withRt (h : Kept s t) {rt : RecordTable} (waits : rt.poolWait ≠ [] → t.rt.poolWait ≠ []) :
    Kept s { t with rt } :=
  h.update rfl rfl rfl rfl (fun _ => ⟨rfl, rfl, rfl, rfl, rfl⟩) waits

theorem Kept.putRecord {i : RecordIx} {r : Record} (h : Kept s t) : Kept s (putRecord i r t) := h.withRt id

theorem Kept.withFree {free : List RecordIx} (h : Kept s t) : Kept s { t with rt := { t.rt with free } } := h.withRt id

theorem Kept.advance {n : Nat} (h : Kept s t) : Kept s (advance n t) := h.withRt id

theorem Kept.toStanding {i : RecordIx} (h : Kept s t) : Kept s (toStanding i t) := h.withRt id

theorem Kept.toAcknowledged {i : RecordIx} (h : Kept s t) : Kept s (toAcknowledged i t) := h.withRt id

theorem Kept.toCleared {i : RecordIx} (h : Kept s t) : Kept s (toCleared i t) := h.withRt id

theorem Kept.offLists {i : RecordIx} (h : Kept s t) : Kept s (offLists i t) := h.withRt id

theorem Kept.toFree {i : RecordIx} (h : Kept s t) : Kept s (toFree i t) := h.withRt id

theorem Kept.putGovernor {g : GroupId} {x : Governor} (h : Kept s t) : Kept s (putGovernor g x t) :=
  h.update rfl rfl rfl rfl (fun _ => ⟨rfl, rfl, rfl, rfl, rfl⟩) id

theorem Kept.putKey {k : PointKey} {e : KeyEntry} (h : Kept s t) : Kept s (putKey k e t) :=
  h.update rfl rfl rfl rfl (fun p => by simp) id

theorem Kept.quietKey {k : Key} (h : Kept s t) : Kept s (quietKey k t) := by
  cases k
  · exact h.putKey
  · exact h

theorem Kept.putLinkedState {x : KeyState} {k : Key} (h : Kept s t) : Kept s (putLinkedState x k t) := by
  cases k
  · exact h.putKey
  · exact h

end Updates

/-! ## Notices, counters, wake causes: the reaction to an event -/

section Events

variable {s t : State}

theorem Follows.setNotice {n : Notice} (h : Follows s t) : Follows s (setNotice n t) :=
  h.trans ⟨rfl, .inl ⟨rfl, rfl⟩, fun i set => by rw [flags_setNotice, BitVec.getLsbD_or, set, Bool.true_or], .inl, fun _ _ => le_rfl⟩

theorem pointsKept.of_point {s t : State} (point : ∀ p, t.point p = s.point p) (mode : t.tb.mode = s.tb.mode) : pointsKept s t := by
  intro p
  rw [point p, mode]
  exact pointsKept.refl s p

theorem Kept.setNotice {n : Notice} (h : Kept s t) : Kept s (setNotice n t) :=
  h.trans { (Follows.refl t).setNotice with points := pointsKept.of_point (fun _ => rfl) rfl }

/-- A counter saturates: it is never less than it was (R136). -/
theorem toNat_le_satAdd (v : Quad) (n : Nat) : v.toNat ≤ (satAdd v n).toNat := by
  rw [satAdd, BitVec.toNat_ofNat]
  have := v.isLt
  omega

theorem value_le_count (c : Counter) (e : TableEvent) : c.value.toNat ≤ (c.count e).value.toNat := by
  unfold Counter.count
  split
  · exact toNat_le_satAdd _ _
  · exact le_rfl

theorem counter_countEvent (e : TableEvent) (s : State) (g : GroupId) (j : Fin 4) :
    (countEvent e s).counter g j = if e.group = g then (s.counter g j).count e else s.counter g j := by
  rw [countEvent, State.counter, State.counters, vget_vset]
  split
  · next same => rw [vget_vmap, same]; rfl
  · rfl

theorem Kept.countEvent {e : TableEvent} (h : Kept s t) : Kept s (countEvent e t) :=
  h.trans { outside := rfl, mode := .inl ⟨rfl, rfl⟩, flags := fun _ set => set, full := .inl
            points := pointsKept.of_point (fun _ => rfl) rfl
            counters := fun g j => by
              rw [counter_countEvent]
              split
              · exact value_le_count _ _
              · exact le_rfl }

/-- A wake from Settling reloads the stale countdowns; a wake from Dormant leaves the points (R66, R177, R178). -/
theorem Kept.wakeCause {c : WakeCause} (h : Kept s t) : Kept s (wakeCause c t) := by
  refine h.trans ?_
  cases mode : t.tb.mode with
  | watch =>
    rw [wakeCause_of_awake (.inl mode)]
    exact .refl t
  | waking =>
    rw [wakeCause_of_awake (.inr mode)]
    exact .refl t
  | settling =>
    rw [wakeCause_of_settling mode]
    refine { outside := rfl, mode := .inr (.inl ⟨mode, rfl, rfl⟩), flags := fun n set => ?_, full := .inl, counters := fun _ _ => le_rfl,
             points := fun p => ?_ }
    · exact (BitVec.getLsbD_or).trans (by rw [set, Bool.true_or])
    · have point : (inWatch t).point p = (t.point p).reloadStale := point_enterWatch t p
      obtain ⟨a, -, b, c, d⟩ := reloadStale_rest (t.point p)
      rw [← point] at a b c d
      exact ⟨a, b, c, d, (congrArg PointEntry.stale point).trans (if_pos ⟨mode, rfl⟩).symm⟩
  | dormant =>
    rw [wakeCause_of_dormant mode]
    refine { outside := rfl, mode := .inr (.inr ⟨mode, rfl, rfl⟩), flags := fun n set => ?_, full := .inl, counters := fun _ _ => le_rfl,
             points := fun p => ⟨rfl, rfl, rfl, rfl, (if_neg fun x => Mode.noConfusion (mode.symm.trans x.1)).symm⟩ }
    exact (BitVec.getLsbD_or).trans (by rw [set, Bool.true_or])

theorem Kept.raisedNotice {sev : Severity} {b : Bool} (h : Kept s t) : Kept s (raisedNotice sev b t) := by
  unfold Machine.raisedNotice
  split
  · exact h.setNotice
  · exact h

theorem Kept.judgeWake {i : RecordIx} {sev : Severity} {b : Bool} (h : Kept s t) : Kept s (judgeWake i sev b t) := by
  unfold Machine.judgeWake
  split
  · exact h.wakeCause
  · exact h

theorem Kept.noticeEvent {e : TableEvent} (h : Kept s t) : Kept s (noticeEvent e t) := by
  unfold Machine.noticeEvent
  split
  · split
    · exact h.raisedNotice
    · exact h
  · exact h.setNotice
  · split
    · exact h.setNotice
    · exact h
  all_goals exact h

theorem Kept.wakeEvent {e : TableEvent} (h : Kept s t) : Kept s (wakeEvent e t) := by
  unfold Machine.wakeEvent
  split
  · exact h.judgeWake
  · exact h

theorem Kept.issue {e : TableEvent} (h : Kept s t) : Kept s (issue e t) := h.countEvent.noticeEvent.wakeEvent

theorem Kept.foldl {α : Type} {f : State → α → State} (step : ∀ s a, Kept s (f s a)) (l : List α) (h : Kept s t) : Kept s (l.foldl f t) := by
  induction l generalizing t with
  | nil => exact h
  | cons a l ih => exact ih (h.trans (step t a))

theorem Kept.unshelveOffers {p : PointId} (h : Kept s t) : Kept s (unshelveOffers p t) :=
  h.foldl (fun s _ => (Kept.refl s).raisedNotice.judgeWake) _

end Events

/-! ## Records (chapters 1 and 4) -/

section Records

variable {s t : State}

theorem Kept.allocate {i : RecordIx} {k : PointKey} {v : Pending} (h : Kept s t) : Kept s (allocate i k v t) :=
  h.putRecord.toStanding.putKey.advance.issue

/-- A Held event of cause Pool sets PoolFull, whatever the flags were (R73, R164). -/
theorem full_issue_pool {e : TableEvent} (kind : e.kind = .held) (cause : e.cause = some .pool) (s : State) :
    (issue e s).nu.flags.getLsbD 4 = true := by
  have flags : (issue e s).nu.flags = s.nu.flags ||| 0x10#8 := by
    simp only [issue, wakeEvent, noticeEvent, kind, cause, if_true]
    rfl
  rw [flags, BitVec.getLsbD_or]
  exact Bool.or_true _

theorem Kept.joinPoolWait {k : PointKey} {v : Pending} (h : Kept s t) : Kept s (joinPoolWait k v t) := by
  refine h.trans ?_
  unfold Machine.joinPoolWait
  dsimp only
  generalize insertBySeverity (fun x => (t.pendingOf x).severity) k v.severity t.rt.poolWait = wait
  let u := Machine.advance 1 (Machine.putKey k { state := .waiting, link := none, pending := some v }
    { t with rt := { t.rt with poolWait := wait } })
  have joined : pointsKept t u := ((Kept.refl t).putKey (k := k)).points
  have react : Kept u (Machine.issue (keyEvent .held k v.severity (some .pool) u) u) := (Kept.refl u).issue
  exact { outside := react.outside, mode := react.mode, flags := react.flags, full := fun _ => .inr (full_issue_pool rfl rfl _)
          counters := react.counters, points := pointsKept.trans (t := u) (.inl ⟨rfl, rfl⟩) react.mode joined react.points }

theorem Kept.allocateOrWait {k : PointKey} {v : Pending} (h : Kept s t) : Kept s (allocateOrWait k v t) := by
  unfold Machine.allocateOrWait
  split
  · exact h.withFree.allocate
  · exact h.joinPoolWait

theorem Kept.handOver {i : RecordIx} {k : PointKey} {rest : List PointKey} (waits : t.rt.poolWait ≠ []) (h : Kept s t) :
    Kept s (handOver i k rest t) :=
  (h.withRt fun _ => waits).advance.issue.allocate

theorem Kept.serveFreed {i : RecordIx} (h : Kept s t) : Kept s (serveFreed i t) := by
  unfold Machine.serveFreed
  split
  · next waits => exact h.handOver (by rw [waits]; exact List.cons_ne_nil _ _)
  · exact h.toFree

theorem Kept.retire {i : RecordIx} (h : Kept s t) : Kept s (retire i t) := by
  unfold Machine.retire
  dsimp only
  split
  · split
    · exact h.offLists.putRecord.quietKey.advance.issue.serveFreed
    · exact h.offLists.putRecord.quietKey.advance.issue
  · exact h

theorem Kept.issueCleared {i : RecordIx} {k : Key} (h : Kept s t) : Kept s (issueCleared i k t) := h.issue

theorem Kept.clearSelfRetiring {i : RecordIx} (h : Kept s t) : Kept s (clearSelfRetiring i t) := by
  unfold Machine.clearSelfRetiring
  split
  · exact h.issueCleared.retire
  · exact h.issueCleared.retire
  · exact h

theorem Kept.clearLatched {i : RecordIx} (h : Kept s t) : Kept s (clearLatched i t) := by
  unfold Machine.clearLatched
  dsimp only
  split
  · exact h.putRecord.toCleared.putLinkedState.advance.issueCleared
  · exact h.issueCleared.retire
  · exact h

theorem Kept.reRaise {i : RecordIx} (h : Kept s t) : Kept s (reRaise i t) := by
  unfold Machine.reRaise
  dsimp only
  split
  · exact h.putRecord.toStanding.putLinkedState.advance.issue
  · exact h

theorem Kept.stormRaise {g : GroupId} (h : Kept s t) : Kept s (stormRaise g t) := by
  unfold Machine.stormRaise
  dsimp only
  split
  · exact h.putRecord.toStanding.advance.issue
  · exact h

theorem Kept.peakUpdate {i : RecordIx} {v : Half} (h : Kept s t) : Kept s (peakUpdate i v t) := by
  unfold Machine.peakUpdate
  dsimp only
  split
  · split
    · exact h.putRecord
    · exact h
  · exact h

theorem Kept.acknowledgeRecord {i : RecordIx} {who : AckBy} {tag : Half} (h : Kept s t) : Kept s (acknowledgeRecord i who tag t) := by
  unfold Machine.acknowledgeRecord
  dsimp only
  split
  · exact h.putRecord.toAcknowledged.advance.issue
  · exact h.putRecord.issue.retire
  · exact h

end Records

/-! ## Governors (chapter 5) -/

section Governors

variable {s t : State}

theorem Kept.holdKey {k : PointKey} {v : Pending} (h : Kept s t) : Kept s (holdKey k v t) := h.putGovernor.putKey.advance.issue

theorem Kept.stormFold {g : GroupId} (h : Kept s t) : Kept s (stormFold g t) := h.stormRaise.reRaise.peakUpdate

theorem Kept.foldKey {k : PointKey} {sev : Severity} (h : Kept s t) : Kept s (foldKey k sev t) := h.putGovernor.putKey.issue.stormFold

theorem Kept.divert {k : PointKey} {v : Pending} (h : Kept s t) : Kept s (divert k v t) := by
  unfold Machine.divert
  split
  · exact h.holdKey
  · exact h.foldKey

theorem Kept.closeGovernor {g : GroupId} (h : Kept s t) : Kept s (closeGovernor g t) := h.putGovernor.issue

theorem Kept.governAttempt {k : PointKey} {v : Pending} (h : Kept s t) : Kept s (governAttempt k v t) := by
  unfold Machine.governAttempt
  dsimp only
  split
  · exact h.holdKey
  · split
    · split
      · exact h.putGovernor.allocateOrWait
      · exact h.closeGovernor.divert
    · exact h.divert

theorem Kept.stormClearIfDue {g : GroupId} (h : Kept s t) : Kept s (stormClearIfDue g t) := by
  unfold Machine.stormClearIfDue
  dsimp only
  split
  · exact h.clearLatched
  · exact h

theorem Kept.releaseKey {g : GroupId} {k : PointKey} {rest : List PointKey} (h : Kept s t) : Kept s (releaseKey g k rest t) := by
  unfold Machine.releaseKey
  dsimp only
  split
  · exact h.putGovernor.advance.withFree.issue.allocate
  · exact h.putGovernor.advance.joinPoolWait

theorem Kept.releaseLoop {g : GroupId} {n : Nat} (h : Kept s t) : Kept s (releaseLoop g n t) := by
  induction n generalizing t with
  | zero => exact h
  | succ n ih =>
    unfold Machine.releaseLoop
    split
    · split
      · exact ih h.releaseKey
      · exact h
    · exact h

theorem Kept.reopen {g : GroupId} (h : Kept s t) : Kept s (reopen g t) := by
  unfold Machine.reopen
  dsimp only
  split
  · split
    · exact h.putGovernor.setNotice.clearLatched
    · exact h.putGovernor.setNotice
  · exact h

theorem Kept.releaseIfOpen {g : GroupId} (h : Kept s t) : Kept s (releaseIfOpen g t) := by
  unfold Machine.releaseIfOpen
  dsimp only
  split
  · exact h.releaseLoop
  · exact h

theorem Kept.refillGovernor {g : GroupId} (h : Kept s t) : Kept s (refillGovernor g t) := h.putGovernor.reopen.releaseIfOpen

theorem Kept.lowerRefill {g : GroupId} (h : Kept s t) : Kept s (lowerRefill g t) := by
  unfold Machine.lowerRefill
  dsimp only
  split
  · exact h.refillGovernor
  · exact h.putGovernor

theorem Kept.defineGovernor {g : GroupId} {d : GovernorDef} (h : Kept s t) : Kept s (defineGovernor g d t) := h.putGovernor.clearLatched

end Governors

/-! ## Conditions: their beginning and their end (chapters 3 and 4) -/

section Conditions

variable {s t : State}

theorem Kept.raiseAttempt {k : PointKey} {v : Pending} (h : Kept s t) : Kept s (raiseAttempt k v t) := by
  unfold Machine.raiseAttempt
  split
  · exact h.allocateOrWait
  · exact h.governAttempt

theorem Kept.beginCondition {k : PointKey} {d : Definition} {v : Option Half} (h : Kept s t) : Kept s (beginCondition k d v t) := by
  unfold Machine.beginCondition
  dsimp only
  split
  · exact h.raiseAttempt
  · split
    · exact h.reRaise
    · exact h
  all_goals exact h

theorem Kept.absorbHeld {k : PointKey} (h : Kept s t) : Kept s (absorbHeld k t) := h.putGovernor.putKey.advance.issue

theorem Kept.absorbWaiting {k : PointKey} (h : Kept s t) : Kept s (absorbWaiting k t) :=
  (h.withRt fun waits empty => waits (by rw [empty]; rfl)).putKey.advance.issue

theorem Kept.absorbFolded {k : PointKey} {d : Definition} (h : Kept s t) : Kept s (absorbFolded k d t) :=
  h.putGovernor.putKey.issue.stormClearIfDue

theorem Kept.clearEvent {k : PointKey} {d : Definition} (h : Kept s t) : Kept s (clearEvent k d t) := by
  unfold Machine.clearEvent
  dsimp only
  split
  · split
    · split
      · exact h.clearSelfRetiring
      · exact h.clearLatched
    · exact h
  · exact h.absorbHeld
  · exact h.absorbWaiting
  · exact h.absorbFolded
  all_goals exact h

theorem Kept.offerPeak {k : PointKey} {v : Half} (h : Kept s t) : Kept s (offerPeak k v t) := by
  unfold Machine.offerPeak
  dsimp only
  split
  · exact h.peakUpdate
  · exact h.peakUpdate
  · exact h

theorem Kept.verdict {k : PointKey} {d : Definition} {b : Band} {n : Nat} {v : Half} (h : Kept s t) : Kept s (verdict k d b n v t) := by
  unfold Machine.verdict
  split
  · split
    · exact h.beginCondition
    · exact h
  · split
    · exact h.clearEvent
    · exact h
  · exact h

theorem Kept.faultStep {p : PointId} {d : Definition} {marked : Bool} (h : Kept s t) : Kept s (faultStep p d marked t) := by
  unfold Machine.faultStep
  split
  · exact h.beginCondition
  · exact h.clearEvent

theorem Kept.dropPending {p : PointId} {kind : Kind} (h : Kept s t) : Kept s (dropPending p t kind) := by
  unfold Machine.dropPending
  dsimp only
  split
  · exact h.putGovernor.putKey.advance
  · exact (h.withRt fun waits empty => waits (by rw [empty]; rfl)).putKey.advance
  · exact h.putGovernor.putKey.stormClearIfDue
  all_goals exact h

theorem Kept.retireLinked {p : PointId} {acc : State × Nat} {kind : Kind} (h : Kept s acc.1) : Kept s (retireLinked p acc kind).1 := by
  unfold Machine.retireLinked
  dsimp only
  split
  · exact h.retire
  · exact h.retire
  · exact h

end Conditions

end Sys2Proof.Machine
end

