-- ==== Sys2Proof/Proofs/Closed.lean ====
section
/-! PROOF. What a command can do at the two ports: a property that the owners of requests, the sides and the reply slot keep is kept by
every request, by every local transaction and by every byte that arrives. -/

namespace Sys2Proof.Machine

/-- A property of states that the ports keep when owners serve only codes that are `ok`: it says nothing of the reply slot and nothing of
a side but its carrier, and every owner, every wake cause and the return to Watch keep it. -/
structure Closed (ok : Byte → Prop) (P : State → Prop) : Prop where
  port : ∀ {s : State} (lp : LocalPort) (n : Nat), P s → P { s with lp := lp, freeDraws := n }
  side : ∀ {s : State} (d : Side) (x : SideState), x.carrier = (s.side d).carrier → P s → P (putSide d x s)
  enterWatch : ∀ {s : State}, P s → P (enterWatch s)
  wake : ∀ {s : State} (c : WakeCause), P s → P (wakeCause c s)
  serve : ∀ {s : State} (t : Taker) (r : Request), ok r.code → P s → P (serveOwner t r s).1

section Ports

variable {ok : Byte → Prop} {P : State → Prop} {s : State}

/-! ## The reply slot and the sides -/

theorem Closed.putSlot (h : Closed ok P) (slot : Option Reply) (start : P s) : P (putSlot slot s) := h.port _ s.freeDraws start

theorem Closed.shiftSlot (h : Closed ok P) (n : Nat) (start : P s) : P (shiftSlot n s) := h.port _ s.freeDraws start

theorem Closed.heldTransaction (h : Closed ok P) (n : Nat) (start : P s) : P (heldTransaction n s) := h.port _ s.freeDraws start

theorem Closed.countLink (h : Closed ok P) (d : Side) (w : LinkCounter) (n : Nat) (start : P s) : P (countLink d w n s) :=
  h.side d _ rfl start

theorem Closed.hunt (h : Closed ok P) (d : Side) (start : P s) : P (hunt d s) := h.side d _ rfl start

theorem Closed.place (h : Closed ok P) (d : Side) (f : Frame) (start : P s) : P (place d f s) := by
  unfold Machine.place
  split
  · split
    · exact h.side d _ rfl start
    · exact h.countLink d _ _ start
  · exact h.countLink d _ _ start

theorem Closed.forward (h : Closed ok P) (d : Side) (f : Frame) (start : P s) : P (forward d f s) := by
  unfold Machine.forward
  dsimp only
  split
  · exact h.countLink d _ _ (h.place _ _ start)
  · exact h.place _ _ start

theorem Closed.passOn (h : Closed ok P) (d : Side) (f : Frame) (start : P s) : P (passOn d f s) := by
  unfold Machine.passOn
  split
  · exact h.countLink d _ _ start
  · exact h.forward d f start

/-! ## Requests -/

theorem Closed.permit (h : Closed ok P) (t : Taker) (r : Request) (code : ok r.code) (start : P s) : P (Machine.serve t r s).1 := by
  unfold Machine.serve
  split
  · exact h.serve t r code start
  · exact start

theorem Closed.serveMessage (h : Closed ok P) (t : Taker) (code : Byte) (body : List Byte) (good : ok code) (start : P s) :
    P (serveMessage t code body s).1 := by
  cases decoded : decodeRequest code body with
  | ok r =>
    have same : Machine.serveMessage t code body s = Machine.serve t r s := by
      unfold Machine.serveMessage
      rw [decoded]
    rw [same]
    exact h.permit t r ((requestsDecodeAndEncode.2 code body r decoded).1.symm ▸ good) start
  | error e =>
    rw [serveMessage_error decoded]
    exact start

/-- A good frame of a side, whose request, if it is taken, `served` answers. -/
theorem Closed.takeFrame (h : Closed ok P) (d : Side) (f : Frame) {served : State → State × Reply}
    (keeps : ∀ {u : State}, P u → P (served u).1) (start : P s) : P (takeFrame d f served s) := by
  have counted := h.countLink d .received 1 start
  have addressed := h.place d
    (replyFrame f (served (Machine.countLink d .taken 1 (Machine.countLink d .received 1 s))).2
      (served (Machine.countLink d .taken 1 (Machine.countLink d .received 1 s))).1)
    (keeps (h.countLink d .taken 1 counted))
  have broadcast : P (takeBroadcast d f served (Machine.countLink d .received 1 s)) := by
    unfold takeBroadcast
    dsimp only
    split
    · exact keeps (h.countLink d _ _ counted)
    · exact h.forward d f (keeps (h.countLink d _ _ counted))
  unfold Machine.takeFrame
  dsimp only
  split
  · split
    · exact addressed
    · exact counted
  · split
    · split
      · exact broadcast
      · exact h.passOn d f counted
    · exact h.passOn d f counted

theorem Closed.transact (h : Closed ok P) {served : State → State} (keeps : ∀ {u : State}, P u → P (served u)) (start : P s) :
    P (transact served s) := by
  unfold Machine.transact
  split
  · exact keeps start
  · exact keeps (h.enterWatch start)
  all_goals exact h.putSlot _ (h.wake _ start)

/-- A request at the port it arrives at. -/
theorem Closed.takeRequest (h : Closed ok P) (o : Origin) (r : Request) (code : ok r.code) (start : P s) : P (takeRequest o r s) := by
  cases o with
  | localPort =>
    show P (takeLocal r s)
    unfold takeLocal
    split
    · exact h.heldTransaction _ start
    · exact h.transact (fun before => h.putSlot _ (h.permit _ r code before)) (h.shiftSlot _ start)
  | route header =>
    show P (takeRoute header r s)
    unfold takeRoute
    split
    · exact start
    · split
      · exact h.takeFrame _ _ (h.permit _ r code) (h.hunt _ start)
      · exact start

/-- A local transaction, whose message, if it carries one, has a code that is `ok`. -/
theorem Closed.localTransaction (h : Closed ok P) (bits : List Bool) (cut : Option HoldCut)
    (codes : ∀ code body, cut = none → judgeInward (bytesOf bits) = .message code body → ok code) (start : P s) :
    P (localTransaction bits cut s) := by
  unfold Machine.localTransaction
  split
  · exact h.port _ _ start
  · split
    · exact h.heldTransaction _ start
    · refine h.transact (fun before => ?_) (h.shiftSlot _ start)
      unfold judgeTransaction
      split
      · exact h.putSlot _ before
      · exact h.putSlot _ before
      · next code body message => exact h.putSlot _ (h.serveMessage _ code body (codes code body rfl message) before)

/-! ## Bytes that arrive -/

theorem Closed.takeArrival (h : Closed ok P) (d : Side) (bytes : List Byte) (codes : ∀ f, goodFrame bytes = some f → ok f.code) (start : P s) :
    P (takeArrival d bytes s) := by
  unfold Machine.takeArrival
  split
  · next f good => exact h.takeFrame d f (h.serveMessage _ _ _ (codes f good)) start
  · exact h.countLink d _ _ start

/-- One byte, when no frame that it completes has a code that is not `ok`. -/
theorem Closed.receiveByte (h : Closed ok P) (d : Side) (b : Byte)
    (codes : ∀ sync inside f, (s.side d).reception = sync :: inside → goodFrame (inside ++ [b]) = some f → ok f.code) (start : P s) :
    P (receiveByte d s b) := by
  unfold Machine.receiveByte
  split
  · split
    · split
      · exact h.side d _ rfl start
      · exact start
    · unfold receiveInside
      split
      · exact start
      · split
        · exact h.countLink d _ _ (h.hunt d start)
        · exact h.side d _ rfl start
      · next sync len rest reception =>
        split
        · exact h.takeArrival d _ (fun f good => codes sync (len :: rest) f reception good) (h.hunt d start)
        · exact h.side d _ rfl start
  · exact start

theorem Closed.foldl_receiveByte (h : Closed ok P) (d : Side) (bytes : List Byte)
    (codes : ∀ before b after sync inside f, bytes = before ++ b :: after →
      ((before.foldl (Machine.receiveByte d) s).side d).reception = sync :: inside → goodFrame (inside ++ [b]) = some f → ok f.code)
    (start : P s) : P (bytes.foldl (Machine.receiveByte d) s) := by
  induction bytes generalizing s with
  | nil => exact start
  | cons b rest ih =>
    refine ih (fun before b' after sync inside f split => codes (b :: before) b' after sync inside f (by rw [split]; rfl)) ?_
    exact h.receiveByte d b (fun sync inside f => codes [] b rest sync inside f rfl) start

/-- Bytes that arrive on a side, when no frame that completes within them has a code that is not `ok`. -/
theorem Closed.arrive (h : Closed ok P) (d : Side) (bytes : List Byte)
    (codes : ∀ before b after sync inside f, bytes = before ++ b :: after → ((arrive d before s).side d).reception = sync :: inside →
      goodFrame (inside ++ [b]) = some f → ok f.code) (start : P s) : P (arrive d bytes s) := by
  unfold Machine.arrive at codes ⊢
  split
  · exact start
  · next noHold =>
    simp only [if_neg noHold] at codes
    exact h.foldl_receiveByte d bytes codes start

end Ports

/-! ## Every command -/

/-- A property of states that every command keeps but the completion of a reset, when owners serve only codes that are `ok`. Owners, ticks
and expiries act outside a hold alone. -/
structure CommandOps (ok : Byte → Prop) (P : State → Prop) : Prop where
  port : ∀ {s : State} (lp : LocalPort) (n : Nat), P s → P { s with lp := lp, freeDraws := n }
  side : ∀ {s : State} (d : Side) (x : SideState), x.carrier = (s.side d).carrier → P s → P (putSide d x s)
  enterWatch : ∀ {s : State}, P s → P (enterWatch s)
  wake : ∀ {s : State} (c : WakeCause), P s → P (wakeCause c s)
  serve : ∀ {s : State} (t : Taker) (r : Request), s.inHold = false → ok r.code → P s → P (serveOwner t r s).1
  carrier : ∀ {s : State} (d : Side) (x : SideState), P s → P (setNotice .link (putSide d x s))
  scan : ∀ {s : State} (lines : BitVec 16), P s → P (scan lines s)
  second : ∀ {s : State} (order : List TickOwner), P s → P (second order s)
  staleExpire : ∀ {s : State} (p : PointId), P s → P (staleExpire p s)
  shelveExpire : ∀ {s : State} (p : PointId), P s → P (shelveExpire p s)
  refill : ∀ {s : State} (g : GroupId), P s → P (refillGovernor g s)
  settleExpire : ∀ {s : State}, P s → P (settleExpire s)
  powerOn : ∀ {s : State}, P s → P (beginHold { s with powerHold := true, tb := { s.tb with hutTime := 0#32 } })
  powerEnds : ∀ {s : State}, P s → P { s with powerHold := false }
  pinFalls : ∀ {s : State}, P s → P (beginHold { s with resetLow := true })
  pinRises : ∀ {s : State}, P s → P { s with resetLow := false }

section Commands

variable {ok : Byte → Prop} {P : State → Prop} {s : State}

/-- Outside a hold no port begins one. -/
theorem CommandOps.closed (h : CommandOps ok P) : Closed ok fun s => s.inHold = false ∧ P s where
  port lp n before := ⟨before.1, h.port lp n before.2⟩
  side d x carrier before := ⟨(inHold_putSide d x _).trans before.1, h.side d x carrier before.2⟩
  enterWatch before := ⟨before.1, h.enterWatch before.2⟩
  wake c before := ⟨(inHold_of_outside (outside_wakeCause c _)).trans before.1, h.wake c before.2⟩
  serve t r code before :=
    ⟨(inHold_of_untouched (untouched_serveOwner t r _)).trans before.1, h.serve t r before.1 code before.2⟩

theorem CommandOps.takeRequest (h : CommandOps ok P) (o : Origin) (r : Request) (code : ok r.code) (start : P s) :
    P (takeRequest o r s) := by
  cases hold : s.inHold with
  | false => exact (h.closed.takeRequest o r code ⟨hold, start⟩).2
  | true =>
    cases o with
    | localPort =>
      rw [show Machine.takeRequest .localPort r s = heldTransaction (requestClocks r) s from if_pos hold]
      exact h.port _ s.freeDraws start
    | route header =>
      rw [show Machine.takeRequest (.route header) r s = s from if_pos hold]
      exact start

theorem CommandOps.localTransaction (h : CommandOps ok P) (bits : List Bool) (cut : Option HoldCut)
    (codes : ∀ code body, cut = none → judgeInward (bytesOf bits) = .message code body → ok code) (start : P s) :
    P (localTransaction bits cut s) := by
  cases hold : s.inHold with
  | false => exact (h.closed.localTransaction bits cut codes ⟨hold, start⟩).2
  | true =>
    cases cut with
    | some c => exact h.port _ _ start
    | none =>
      rw [show Machine.localTransaction bits none s = heldTransaction bits.length s from if_pos hold]
      exact h.port _ s.freeDraws start

theorem CommandOps.arrive (h : CommandOps ok P) (d : Side) (bytes : List Byte)
    (codes : ∀ before b after sync inside f, bytes = before ++ b :: after → ((arrive d before s).side d).reception = sync :: inside →
      goodFrame (inside ++ [b]) = some f → ok f.code) (start : P s) : P (arrive d bytes s) := by
  cases hold : s.inHold with
  | false => exact (h.closed.arrive d bytes codes ⟨hold, start⟩).2
  | true =>
    rw [show Machine.arrive d bytes s = s from if_pos hold]
    exact start

/-- A command whose requests have codes that are `ok`. -/
theorem CommandOps.exec (h : CommandOps ok P) {c : Instr} {t : State} (start : P s)
    (requests : ∀ o r, c.request? = some (o, r) → ok r.code)
    (transactions : ∀ bits code body, c = .localTransaction bits none → judgeInward (bytesOf bits) = .message code body → ok code)
    (frames : ∀ d bytes before b after sync inside f, c = .frameArrival d bytes → bytes = before ++ b :: after →
      ((Machine.arrive d before s).side d).reception = sync :: inside → goodFrame (inside ++ [b]) = some f → ok f.code)
    (completes : ∀ pins (u : State), c = .powerOnCompletion pins ∨ c = .resetPinRelease pins → u.powerHold = false → P u →
      P (completeReset pins u))
    (ran : exec c s = .next t) : P t := by
  cases row : c.request? with
  | some x =>
    rw [exec_request c x.1 x.2 row] at ran
    cases ran
    exact h.takeRequest _ _ (requests x.1 x.2 row) start
  | none =>
    cases c <;> simp only [Instr.request?, reduceCtorEq] at row <;> obtain rfl := Host.Outcome.next.inj ran
    case localTransaction bits cut =>
      exact h.localTransaction bits cut (fun code body whole => transactions bits code body (whole ▸ rfl)) start
    case frameArrival d bytes =>
      exact h.arrive d bytes (fun before b after sync inside f => frames d bytes before b after sync inside f rfl) start
    case transmissionCompletion d =>
      split
      · exact start
      · unfold completeTransmission
        split
        · exact h.side d _ rfl start
        · exact start
    case carrierLoss d =>
      split
      · exact start
      · unfold loseCarrier
        dsimp only
        split
        · exact h.carrier d _ start
        · exact start
    case carrierReturn d =>
      split
      · exact start
      · unfold returnCarrier
        dsimp only
        split
        · exact start
        · exact h.carrier d _ start
    case scanTick lines =>
      split
      · exact start
      · exact h.scan lines start
    case secondTick order => exact h.second order start
    case staleCountdownExpiry p =>
      split
      · exact h.staleExpire p start
      · exact start
    case shelveExpiry p =>
      split
      · exact h.shelveExpire p start
      · exact start
    case refill g =>
      split
      · exact start
      · exact h.refill g start
    case settleExpiry =>
      split
      · exact start
      · exact h.settleExpire start
    case powerOn => exact h.powerOn start
    case powerOnCompletion pins =>
      split
      · split
        · exact h.powerEnds start
        · exact completes pins _ (.inl rfl) rfl (h.powerEnds start)
      · exact start
    case resetPinAssert =>
      split
      · exact start
      · exact h.pinFalls start
    case resetPinRelease pins =>
      split
      · split
        · exact h.pinRises start
        · next noPower => exact completes pins _ (.inr rfl) (Bool.eq_false_iff.2 noPower) (h.pinRises start)
      · exact start

/-- Every command, when every code may be served and the completion of a reset keeps the property too. -/
theorem CommandOps.exec_all (h : CommandOps (fun _ => True) P) (complete : ∀ pins (u : State), u.powerHold = false → P u → P (completeReset pins u))
    {c : Instr} {t : State} (start : P s) (ran : Machine.exec c s = .next t) : P t :=
  h.exec start (fun _ _ _ => trivial) (fun _ _ _ _ _ => trivial) (fun _ _ _ _ _ _ _ _ _ _ _ _ => trivial)
    (fun pins u _ => complete pins u) ran

end Commands

end Sys2Proof.Machine
end

