-- ==== Sys2Proof/Proofs/TableOps.lean ====
section
/-! PROOF. A law of the tables, which speaks of the records, the points and the governors alone, is kept by every command when each
operation on the tables keeps it. -/

namespace Sys2Proof.Machine

/-- A law of the tables that every operation on them keeps. -/
structure TableOps (P : State → Prop) : Prop where
  congr : ∀ {s t : State}, P s → t.rt = s.rt → t.pt = s.pt → t.sg = s.sg → P t
  enterWatch : ∀ {s : State}, P s → P (enterWatch s)
  applySample : ∀ {s : State} (k : PointKey) (v : Half), P s → P (applySample k v s)
  staleStep : ∀ {s : State} {p : PointId} {d : Definition}, (s.point p).defn = some d → P s → P (staleStep p d s)
  faultStep : ∀ {s : State} {p : PointId} {d : Definition} (marked : Bool), (s.point p).defn = some d → P s → P (faultStep p d marked s)
  staleExpire : ∀ {s : State} (p : PointId), P s → P (staleExpire p s)
  lowerStale : ∀ {s : State} {p : PointId} {n : Nat}, (s.point p).stale = some (n + 2) → P s →
    P (putPoint p { s.point p with stale := some (n + 1) } s)
  setShelve : ∀ {s : State} {p : PointId} {n : Nat}, n ≤ (s.point p).shelve ∨ ((s.point p).defn ≠ none ∧ n ≤ 86400) → P s →
    P (putPoint p { s.point p with shelve := n } s)
  definePoint : ∀ {s : State} (r : RawPoint), P s → P (serveDefinePoint r s).1
  withdraw : ∀ {s : State} {p : PointId}, (s.point p).defn ≠ none → P s → P (withdraw p s).1
  defineGroup : ∀ {s : State} (r : RawGroup), P s → P (serveDefineGroup r s).1
  acknowledge : ∀ {s : State} (i : RecordIx) (who : AckBy) (tag : Half), P s → P (acknowledgeRecord i who tag s)
  refill : ∀ {s : State} (g : GroupId), P s → P (refillGovernor g s)
  lowerRefill : ∀ {s : State} {g : GroupId}, 1 < (s.governor g).refill → P s →
    P (putGovernor g { s.governor g with refill := (s.governor g).refill - 1 } s)
  restart : ∀ {s : State}, P s → P (restartBlocks s)
  reset : ∀ pins : ResetPins, P (State.afterPowerOn pins)

section Owners

variable {P : State → Prop} {s : State}

theorem TableOps.foldl (_h : TableOps P) {α : Type} {f : State → α → State} (keeps : ∀ {u : State} (a : α), P u → P (f u a)) (l : List α)
    (start : P s) : P (l.foldl f s) := by
  induction l generalizing s with
  | nil => exact start
  | cons a l ih => exact ih (keeps a start)

theorem TableOps.setNotice (h : TableOps P) (n : Notice) (start : P s) : P (setNotice n s) := h.congr start rfl rfl rfl

theorem TableOps.wakeCause (h : TableOps P) (c : WakeCause) (start : P s) : P (wakeCause c s) := by
  unfold Machine.wakeCause
  split
  · exact h.congr (h.enterWatch start) rfl rfl rfl
  · exact h.congr start rfl rfl rfl
  all_goals exact start

theorem TableOps.judgeWake (h : TableOps P) (i : RecordIx) (sev : Severity) (b : Bool) (start : P s) : P (judgeWake i sev b s) := by
  unfold Machine.judgeWake
  split
  · exact h.wakeCause _ start
  · exact start

theorem TableOps.raisedNotice (h : TableOps P) (sev : Severity) (b : Bool) (start : P s) : P (raisedNotice sev b s) := by
  unfold Machine.raisedNotice
  split
  · exact h.setNotice _ start
  · exact start

theorem TableOps.unshelveOffers (h : TableOps P) (p : PointId) (start : P s) : P (unshelveOffers p s) :=
  h.foldl (fun _ before => h.judgeWake _ _ _ (h.raisedNotice _ _ before)) _ start

/-! ## Readings and samples -/

theorem TableOps.takeReading (h : TableOps P) (acc : State × Nat × Nat) (r : PointId × Bool × Half) (start : P acc.1) :
    P (takeReading acc r).1 := by
  unfold Machine.takeReading
  split
  · next d found =>
    have defn : (acc.1.point r.1).defn = some d := by
      unfold State.readingDef at found
      split at found
      · next e defn =>
        split at found
        · exact defn.trans found
        · cases found
      · cases found
    have steps := h.faultStep r.2.1 ((defn_staleStep _ _ _ _).trans defn) (h.staleStep defn start)
    unfold applyReading
    dsimp only
    split
    · exact steps
    · exact h.applySample _ _ (h.applySample _ _ steps)
  · exact start

theorem TableOps.takeReadings (h : TableOps P) (l : List (PointId × Bool × Half)) (acc : State × Nat × Nat) (start : P acc.1) :
    P (l.foldl Machine.takeReading acc).1 := by
  induction l generalizing acc with
  | nil => exact start
  | cons r l ih => exact ih _ (h.takeReading acc r start)

theorem TableOps.reading (h : TableOps P) (rs : List RawReading) (start : P s) : P (serveReading rs s).1 := by
  unfold serveReading
  split
  · exact start
  · split
    · exact h.takeReadings _ _ start
    · exact start

theorem TableOps.scan (h : TableOps P) (lines : BitVec 16) (start : P s) : P (scan lines s) := by
  refine h.foldl (fun p before => ?_) _ (h.congr start rfl rfl rfl)
  unfold scanPoint
  split
  · exact h.applySample _ _ before
  · exact before

/-! ## Shelving -/

theorem TableOps.unshelve (h : TableOps P) (p : PointId) (start : P s) : P (unshelve p s) :=
  h.unshelveOffers p (h.setShelve (.inl (Nat.zero_le _)) start)

theorem TableOps.shelveExpire (h : TableOps P) (p : PointId) (start : P s) : P (shelveExpire p s) :=
  h.unshelveOffers p (h.setNotice _ (h.setShelve (.inl (Nat.zero_le _)) start))

theorem TableOps.shelvePoint (h : TableOps P) (b : Byte) (m : Half) (start : P s) : P (serveShelvePoint b m s).1 := by
  unfold serveShelvePoint
  split
  · exact start
  · split
    · next range =>
      split
      · next inService => exact h.setShelve (.inr ⟨inService_iff.1 inService, by omega⟩) start
      · exact start
    · exact start

theorem TableOps.unshelvePoint (h : TableOps P) (b : Byte) (start : P s) : P (serveUnshelvePoint b s).1 := by
  unfold serveUnshelvePoint
  split
  · exact start
  · split
    · dsimp only
      split
      · exact h.unshelve _ start
      · exact start
    · exact start

/-! ## The second tick -/

theorem TableOps.settleExpire (h : TableOps P) (start : P s) : P (settleExpire s) := by
  unfold Machine.settleExpire
  split
  · exact h.congr start rfl rfl rfl
  all_goals exact start

theorem TableOps.ownerTick (h : TableOps P) (o : TickOwner) (start : P s) : P (ownerTick s o) := by
  cases o with
  | stale =>
    show P (staleTick s)
    unfold staleTick
    split
    · refine h.foldl (fun p before => ?_) _ start
      unfold Machine.lowerStale
      dsimp only
      split
      · exact h.staleExpire p before
      · next running => exact h.lowerStale running before
      · exact before
    all_goals exact start
  | shelve =>
    refine h.foldl (fun p before => ?_) _ start
    unfold lowerShelve
    split
    · exact before
    · exact h.shelveExpire p before
    · next n running => exact h.setShelve (.inl (by omega)) before
  | refill =>
    refine h.foldl (fun g before => ?_) _ start
    unfold Machine.lowerRefill
    dsimp only
    split
    · exact h.refill g before
    · exact h.lowerRefill (by omega) before
  | settle =>
    show P (settleTick s)
    unfold settleTick
    split
    · exact h.congr start rfl rfl rfl
    · exact h.settleExpire start
    · exact start

theorem TableOps.second (h : TableOps P) (order : List TickOwner) (start : P s) : P (second order s) := by
  unfold Machine.second
  split
  · exact start
  · split
    · exact h.congr start rfl rfl rfl
    · exact h.foldl (fun o before => h.ownerTick o before) _ (h.congr start rfl rfl rfl)

/-! ## Requests -/

theorem TableOps.acknowledgeIndex (h : TableOps P) (i : RecordIx) (who : AckBy) (tag : Half) (start : P s) :
    P (acknowledgeIndex i who tag s).1 := by
  unfold Machine.acknowledgeIndex
  split
  · exact h.acknowledge i who tag start
  · exact h.acknowledge i who tag start
  all_goals exact start

theorem TableOps.acknowledgeRequest (h : TableOps P) (form : Byte) (k : RawKey) (tag : Half) (who : AckBy) (start : P s) :
    P (serveAcknowledge form k tag who s).1 := by
  unfold serveAcknowledge
  split
  · split
    · exact start
    · exact h.acknowledgeIndex _ who tag start
  · split
    · exact start
    · split
      · exact h.acknowledgeIndex _ who tag start
      all_goals exact start

theorem TableOps.acknowledgeGroup (h : TableOps P) (g m : Byte) (tag : Half) (who : AckBy) (start : P s) :
    P (serveAcknowledgeGroup g m tag who s).1 := by
  unfold serveAcknowledgeGroup
  split
  · exact h.foldl (fun i before => h.acknowledge i who tag before) _ start
  · exact start

theorem TableOps.withdrawPoint (h : TableOps P) (b : Byte) (start : P s) : P (serveWithdrawPoint b s).1 := by
  unfold serveWithdrawPoint
  split
  · exact start
  · next p _ =>
    split
    · next inService =>
      show P (Machine.withdraw p s).1
      exact h.withdraw (p := p) (inService_iff.1 inService) start
    · exact start

theorem TableOps.serveOwner (h : TableOps P) (t : Taker) (r : Request) (start : P s) : P (serveOwner t r s).1 := by
  cases r <;> simp only [Machine.serveOwner]
  case reading rs => exact h.reading rs start
  case definePoint b => exact h.definePoint b start
  case withdrawPoint p => exact h.withdrawPoint p start
  case readPoint p =>
    unfold serveReadPoint
    split
    · exact start
    · split <;> exact start
  case shelvePoint p m => exact h.shelvePoint p m start
  case unshelvePoint p => exact h.unshelvePoint p start
  case defineGroup b => exact h.defineGroup b start
  case readGroup g =>
    unfold serveReadGroup
    split <;> exact start
  case lookUp => rwa [state_serveLookUp]
  case readRecord => rwa [state_serveReadRecord]
  case listWalk => rwa [state_serveListWalk]
  case summary => exact start
  case acknowledge f k tag => exact h.acknowledgeRequest f k tag _ start
  case acknowledgeGroup g m tag => exact h.acknowledgeGroup g m tag _ start
  case setCounterSelection =>
    unfold serveSetCounterSelection
    split
    · exact h.congr start rfl rfl rfl
    · exact start
  case readCounters => rwa [state_serveReadCounters]
  case clearCounters =>
    unfold serveClearCounters
    split
    · exact start
    · exact h.congr start rfl rfl rfl
  case readLinkCounters =>
    unfold serveReadLinkCounters
    dsimp only
    split
    · exact start
    · exact h.congr start rfl rfl rfl
  case setTime => exact h.congr start rfl rfl rfl
  case wakeHut =>
    cases t
    · exact start
    · exact h.wakeCause _ start
  case readNotices => exact h.congr start rfl rfl rfl
  case peekNotices => exact start
  case setNoticeEnables => exact h.congr start rfl rfl rfl
  case setHutSettings =>
    unfold serveSetHutSettings
    split
    · exact h.congr start rfl rfl rfl
    · exact start
  case enterDormant =>
    unfold serveEnterDormant
    split
    · exact start
    · exact h.congr start rfl rfl rfl
  case restart => exact h.congr (h.restart start) rfl rfl rfl

/-! ## Commands -/

theorem TableOps.commandOps (h : TableOps P) : CommandOps (fun _ => True) P where
  port _ _ start := h.congr start rfl rfl rfl
  side d x _ start := h.congr start (rt_putSide d x _) (pt_putSide d x _) (sg_putSide d x _)
  enterWatch := h.enterWatch
  wake := h.wakeCause
  serve t r _ _ := h.serveOwner t r
  carrier d x start := h.setNotice _ (h.congr start (rt_putSide d x _) (pt_putSide d x _) (sg_putSide d x _))
  scan := h.scan
  second := h.second
  staleExpire := h.staleExpire
  shelveExpire := h.shelveExpire
  refill := h.refill
  settleExpire := h.settleExpire
  powerOn start := h.congr start rfl rfl rfl
  powerEnds start := h.congr start rfl rfl rfl
  pinFalls start := h.congr start rfl rfl rfl
  pinRises start := h.congr start rfl rfl rfl

theorem TableOps.completeReset (h : TableOps P) (pins : ResetPins) : P (completeReset pins s) :=
  h.congr (h.reset pins) rfl rfl rfl

theorem TableOps.exec (h : TableOps P) {c : Instr} {t : State} (start : P s) (ran : exec c s = .next t) : P t :=
  h.commandOps.exec_all (fun pins _ _ _ => h.completeReset pins) start ran

/-- A law of the tables that every operation on them keeps is kept by every step. -/
theorem TableOps.step (h : TableOps P) {t : State} (start : P s) (ran : step s = .next t) : P t := by
  unfold Machine.step at ran
  split at ran
  · cases ran
    exact start
  · next c rest _ => exact h.exec (s := { s with pending := rest }) (h.congr start rfl rfl rfl) ran

end Owners

end Sys2Proof.Machine
end

