-- ==== Sys2Proof/Proofs/Transitions.lean ====
section
/-! PROOF. What the transitions of chapters 1, 4 and 5 do to the record table, the key entries and the governors: one equation for each. -/

namespace Sys2Proof.Machine

@[simp] theorem hutTime_issue (e : TableEvent) (s : State) : (issue e s).tb.hutTime = s.tb.hutTime :=
  hutTime_of_outside (outside_issue e s)

/-! ## Events by their kind (R19, R79, R164) -/

/-- The events that NU and TB leave: those that set no notice and wake nobody. -/
def TableEvent.silent (e : TableEvent) : Prop :=
  e.kind = .cleared ∨ e.kind = .retired ∨ e.kind = .acknowledged ∨ e.kind = .released ∨ e.kind = .absorbed ∨ e.kind = .folded ∨
    (e.kind = .held ∧ e.cause ≠ some .pool)

theorem issue_of_silent {e : TableEvent} (silent : e.silent) (s : State) : issue e s = countEvent e s := by
  unfold issue wakeEvent noticeEvent
  rcases silent with h | h | h | h | h | h | ⟨h, cause⟩ <;> simp only [h]
  rw [if_neg cause]

theorem issue_of_pool {e : TableEvent} (kind : e.kind = .held) (cause : e.cause = some .pool) (s : State) :
    issue e s = setNotice .poolFull (countEvent e s) := by
  simp only [issue, wakeEvent, noticeEvent, kind, cause, if_true]

theorem issue_of_stormClosed {e : TableEvent} (kind : e.kind = .stormClosed) (s : State) :
    issue e s = setNotice .storm (countEvent e s) := by
  simp only [issue, wakeEvent, noticeEvent, kind]

/-- A Raised event: the notice by its rule, then the wake by its own (R78, R178). -/
theorem issue_of_raised {e : TableEvent} {i : RecordIx} {sev : Severity} (kind : e.kind = .raised) (severity : e.severity = some sev)
    (record : e.record = some i) (s : State) :
    issue e s = judgeWake i sev (s.keyShelved e.key) (raisedNotice sev (s.keyShelved e.key) (countEvent e s)) := by
  have shelved : (raisedNotice sev ((countEvent e s).keyShelved e.key) (countEvent e s)).keyShelved e.key = s.keyShelved e.key := by
    cases e.key with
    | point k => exact shelved_of_core (core_raisedNotice _ _ _) k.point
    | storm g => rfl
  simp only [issue, wakeEvent, noticeEvent, kind, severity, record, shelved]
  rfl

/-! ## Allocation (R11, R72, R73) -/

theorem rt_allocateOrWait_of_free {s : State} {i : RecordIx} {rest : List RecordIx} (free : s.rt.free = i :: rest) (k : PointKey) (v : Pending) :
    (allocateOrWait k v s).rt =
      { s.rt with
        records := vset s.rt.records i (newRecord k v s.tb.hutTime)
        free := rest
        standing := s.rt.standing.erase i ++ [i]
        acknowledged := s.rt.acknowledged.erase i
        cleared := s.rt.cleared.erase i
        changeCount := s.rt.changeCount + 1#16 } := by
  simp only [allocateOrWait, free, rt_allocate]

theorem allocateOrWait_of_none_free {s : State} (free : s.rt.free = []) (k : PointKey) (v : Pending) :
    allocateOrWait k v s = joinPoolWait k v s := by
  simp only [allocateOrWait, free]

theorem key_allocateOrWait_of_free {s : State} {i : RecordIx} {rest : List RecordIx} (free : s.rt.free = i :: rest) (k : PointKey) (v : Pending)
    (k' : PointKey) :
    (allocateOrWait k v s).key k' = if k = k' then { state := .raised, link := some i, pending := none } else s.key k' := by
  simp only [allocateOrWait, free, key_allocate]
  rfl

@[simp] theorem sg_allocateOrWait (k : PointKey) (v : Pending) (s : State) : (allocateOrWait k v s).sg = s.sg := by
  unfold allocateOrWait
  split
  · exact sg_allocate _ _ _ _
  · exact sg_joinPoolWait _ _ _

/-- The state in which the head of a storm-held list is released: off the list, a token spent, the exit counted (R103). -/
def releasing (g : GroupId) (rest : List PointKey) (s : State) : State :=
  advance 1 (putGovernor g { s.governor g with tokens := (s.governor g).tokens - 1, held := rest } s)

/-- The Released event of a key that is released with a record. -/
def releasedEvent (i : RecordIx) (k : PointKey) (s : State) : TableEvent :=
  recordEvent .released (.point k) i (s.pendingOf k).severity none s

theorem releaseKey_of_free {g : GroupId} {s : State} {i : RecordIx} {free : List RecordIx} (found : s.rt.free = i :: free) (k : PointKey)
    (rest : List PointKey) :
    releaseKey g k rest s = allocateOrWait k (s.pendingOf k) (countEvent (releasedEvent i k s) (releasing g rest s)) := by
  have head : (releasing g rest s).rt.free = i :: free := found
  have head' : (countEvent (releasedEvent i k s) (releasing g rest s)).rt.free = i :: free := found
  unfold releaseKey
  dsimp only
  rw [← releasing, head]
  simp only [allocateOrWait, head']
  rw [issue_of_silent (.inr (.inr (.inr (.inl rfl))))]
  rfl

theorem releaseKey_of_none_free {g : GroupId} {s : State} (none : s.rt.free = []) (k : PointKey) (rest : List PointKey) :
    releaseKey g k rest s = allocateOrWait k (s.pendingOf k) (releasing g rest s) := by
  have head : (releasing g rest s).rt.free = [] := none
  unfold releaseKey
  dsimp only
  rw [← releasing, head]
  simp only [allocateOrWait, head]

/-! ## Retirement (R17, R76) -/

section Retirement

variable {s : State} {i : RecordIx}

/-- The state in which a retired pool record is given away: off its list, its key Quiet, Retired issued. -/
def givenUp (i : RecordIx) (k : PointKey) (s : State) : State :=
  issue (recordEvent .retired (.point k) i (s.record i).severity (some ((s.record i).duration s.tb.hutTime)) s)
    (advance 1 (putKey k .quiet (putRecord i ((s.record i).endLife .free) (offLists i s))))

theorem rt_givenUp (i : RecordIx) (k : PointKey) (s : State) :
    (givenUp i k s).rt =
      { s.rt with
        records := vset s.rt.records i ((s.record i).endLife .free)
        standing := s.rt.standing.erase i
        acknowledged := s.rt.acknowledged.erase i
        cleared := s.rt.cleared.erase i
        changeCount := s.rt.changeCount + 1#16 } := by
  rw [givenUp, rt_issue]
  rfl

theorem key_givenUp (i : RecordIx) (k : PointKey) (s : State) (k' : PointKey) :
    (givenUp i k s).key k' = if k = k' then .quiet else s.key k' := by
  simp only [givenUp, key_issue, key_advance, key_putKey, key_putRecord]
  rfl

theorem sg_givenUp (i : RecordIx) (k : PointKey) (s : State) : (givenUp i k s).sg = s.sg := by
  rw [givenUp, sg_issue]
  rfl

theorem retire_of_pool {k : PointKey} (live : (s.record i).state.live = true) (key : (s.record i).key = some (.point k))
    (pool : isPool i = true) : retire i s = serveFreed i (givenUp i k s) := by
  rw [retire_of_live i s _ live key]
  simp only [pool, if_true]
  rfl

theorem retire_of_pool_none_waits {k : PointKey} (live : (s.record i).state.live = true) (key : (s.record i).key = some (.point k))
    (pool : isPool i = true) (none : s.rt.poolWait = []) : retire i s = toFree i (givenUp i k s) := by
  rw [retire_of_pool live key pool, serveFreed, rt_givenUp]
  simp only [none]

theorem retire_of_pool_waits {k w : PointKey} {rest : List PointKey} (live : (s.record i).state.live = true)
    (key : (s.record i).key = some (.point k)) (pool : isPool i = true) (waits : s.rt.poolWait = w :: rest) :
    retire i s = handOver i w rest (givenUp i k s) := by
  rw [retire_of_pool live key pool, serveFreed, rt_givenUp]
  simp only [waits]

theorem rt_handOver (i : RecordIx) (w : PointKey) (rest : List PointKey) (s : State) :
    (handOver i w rest s).rt =
      { s.rt with
        records := vset s.rt.records i (newRecord w (s.pendingOf w) s.tb.hutTime)
        standing := s.rt.standing.erase i ++ [i]
        acknowledged := s.rt.acknowledged.erase i
        cleared := s.rt.cleared.erase i
        poolWait := rest
        changeCount := s.rt.changeCount + 2#16 } := by
  rw [handOver, rt_allocate, rt_issue, hutTime_issue]
  exact congrArg (fun c => { s.rt with
    records := vset s.rt.records i (newRecord w (s.pendingOf w) s.tb.hutTime)
    standing := s.rt.standing.erase i ++ [i]
    acknowledged := s.rt.acknowledged.erase i
    cleared := s.rt.cleared.erase i
    poolWait := rest
    changeCount := c }) (BitVec.add_assoc s.rt.changeCount 1#16 1#16)

theorem key_handOver (i : RecordIx) (w : PointKey) (rest : List PointKey) (s : State) (k : PointKey) :
    (handOver i w rest s).key k = if w = k then { state := .raised, link := some i, pending := none } else s.key k := by
  rw [handOver, key_allocate, key_issue]
  rfl

theorem sg_handOver (i : RecordIx) (w : PointKey) (rest : List PointKey) (s : State) : (handOver i w rest s).sg = s.sg := by
  rw [handOver, sg_allocate, sg_issue]
  rfl

@[simp] theorem sg_retire (i : RecordIx) (s : State) : (retire i s).sg = s.sg := by
  cases live : (s.record i).state.live with
  | false => rw [retire_of_dead i s live]
  | true =>
    cases key : (s.record i).key with
    | none => simp only [retire, live, key]
    | some k =>
      have quiet (t : State) : (quietKey k t).sg = t.sg := by cases k <;> rfl
      have serve (t : State) : (serveFreed i t).sg = t.sg := by
        unfold serveFreed
        split
        · exact sg_handOver _ _ _ _
        · rfl
      rw [retire_of_live i s k live key]
      dsimp only
      split
      · rw [serve, sg_issue, sg_advance, quiet]
        rfl
      · rw [sg_issue, sg_advance, quiet]
        rfl

/-- A pool record that nothing waits for goes to the Free tail. -/
theorem rt_retire_of_none_waits {k : PointKey} (live : (s.record i).state.live = true) (key : (s.record i).key = some (.point k))
    (pool : isPool i = true) (none : s.rt.poolWait = []) :
    (retire i s).rt =
      { s.rt with
        records := vset s.rt.records i ((s.record i).endLife .free)
        free := s.rt.free ++ [i]
        standing := s.rt.standing.erase i
        acknowledged := s.rt.acknowledged.erase i
        cleared := s.rt.cleared.erase i
        changeCount := s.rt.changeCount + 1#16 } := by
  rw [retire_of_pool_none_waits live key pool none, toFree, rt_givenUp]

theorem key_retire_of_none_waits {k : PointKey} (live : (s.record i).state.live = true) (key : (s.record i).key = some (.point k))
    (pool : isPool i = true) (none : s.rt.poolWait = []) (k' : PointKey) :
    (retire i s).key k' = if k = k' then .quiet else s.key k' := by
  rw [retire_of_pool_none_waits live key pool none]
  exact key_givenUp i k s k'

/-- A pool record that a key waits for becomes that key's. -/
theorem rt_retire_of_waits {k w : PointKey} {rest : List PointKey} (live : (s.record i).state.live = true)
    (key : (s.record i).key = some (.point k)) (pool : isPool i = true) (waits : s.rt.poolWait = w :: rest) :
    (retire i s).rt =
      { s.rt with
        records := vset s.rt.records i (newRecord w ((givenUp i k s).pendingOf w) s.tb.hutTime)
        standing := (s.rt.standing.erase i).erase i ++ [i]
        acknowledged := (s.rt.acknowledged.erase i).erase i
        cleared := (s.rt.cleared.erase i).erase i
        poolWait := rest
        changeCount := s.rt.changeCount + 3#16 } := by
  have time : (givenUp i k s).tb.hutTime = s.tb.hutTime := hutTime_issue _ _
  have count : s.rt.changeCount + 1#16 + 2#16 = s.rt.changeCount + 3#16 := BitVec.add_assoc s.rt.changeCount 1#16 2#16
  rw [retire_of_pool_waits live key pool waits, rt_handOver, rt_givenUp]
  simp only [vset_vset_self, time, count]

theorem key_retire_of_waits {k w : PointKey} {rest : List PointKey} (live : (s.record i).state.live = true)
    (key : (s.record i).key = some (.point k)) (pool : isPool i = true) (waits : s.rt.poolWait = w :: rest) (k' : PointKey) :
    (retire i s).key k' =
      if w = k' then { state := .raised, link := some i, pending := none } else if k = k' then .quiet else s.key k' := by
  rw [retire_of_pool_waits live key pool waits, key_handOver, key_givenUp]

theorem pendingOf_givenUp {k w : PointKey} (other : k ≠ w) : (givenUp i k s).pendingOf w = s.pendingOf w := by
  rw [State.pendingOf, key_givenUp, if_neg other]
  rfl

/-- A storm record that is retired becomes Idle. -/
theorem rt_retire_of_storm {k : Key} (live : (s.record i).state.live = true) (key : (s.record i).key = some k) (storm : isPool i = false) :
    (retire i s).rt =
      { s.rt with
        records := vset s.rt.records i ((s.record i).endLife .idle)
        standing := s.rt.standing.erase i
        acknowledged := s.rt.acknowledged.erase i
        cleared := s.rt.cleared.erase i
        changeCount := s.rt.changeCount + 1#16 } := by
  rw [retire_of_live i s k live key]
  simp only [storm, Bool.false_eq_true, if_false, rt_issue]
  cases k <;> rfl

theorem key_retire_of_storm {g : GroupId} (live : (s.record i).state.live = true) (key : (s.record i).key = some (.storm g))
    (storm : isPool i = false) (k' : PointKey) : (retire i s).key k' = s.key k' := by
  rw [retire_of_live i s _ live key]
  simp only [storm, Bool.false_eq_true, if_false, key_issue]
  rfl

end Retirement

/-! ## Clear, re-raise, storm raise, acknowledgement (R12 to R16) -/

section Records

variable {s : State} {i : RecordIx} {k : Key}

theorem clearLatched_of_standing (state : (s.record i).state = .standing) (key : (s.record i).key = some k) :
    clearLatched i s = issueCleared i k (advance 1 (putLinkedState .cleared k
      (toCleared i (putRecord i { s.record i with state := .cleared, clearTime := some s.tb.hutTime } s)))) := by
  simp only [clearLatched, state, key]

theorem clearLatched_of_acknowledged (state : (s.record i).state = .acknowledged) (key : (s.record i).key = some k) :
    clearLatched i s = retire i (issueCleared i k s) := by
  simp only [clearLatched, state, key]

theorem rt_clearLatched_of_standing (state : (s.record i).state = .standing) (key : (s.record i).key = some k) :
    (clearLatched i s).rt =
      { s.rt with
        records := vset s.rt.records i { s.record i with state := .cleared, clearTime := some s.tb.hutTime }
        standing := s.rt.standing.erase i
        acknowledged := s.rt.acknowledged.erase i
        cleared := s.rt.cleared.erase i ++ [i]
        changeCount := s.rt.changeCount + 1#16 } := by
  rw [clearLatched_of_standing state key, issueCleared, rt_issue]
  cases k <;> rfl

theorem key_putLinkedState (x : KeyState) (k : Key) (s : State) (k' : PointKey) :
    (putLinkedState x k s).key k' = if k = .point k' then { s.key k' with state := x } else s.key k' := by
  cases k with
  | storm g => rfl
  | point k =>
    show (putKey k { s.key k with state := x } s).key k' = _
    rw [key_putKey]
    by_cases same : k = k'
    · subst same
      simp
    · simp [same]

theorem key_clearLatched_of_standing (state : (s.record i).state = .standing) (key : (s.record i).key = some k) (k' : PointKey) :
    (clearLatched i s).key k' = if k = .point k' then { s.key k' with state := .cleared } else s.key k' := by
  rw [clearLatched_of_standing state key, issueCleared, key_issue, key_advance, key_putLinkedState]
  rfl

theorem sg_putLinkedState (x : KeyState) (k : Key) (s : State) : (putLinkedState x k s).sg = s.sg := by cases k <;> rfl

@[simp] theorem sg_issueCleared (i : RecordIx) (k : Key) (s : State) : (issueCleared i k s).sg = s.sg := sg_issue _ _

@[simp] theorem rt_issueCleared (i : RecordIx) (k : Key) (s : State) : (issueCleared i k s).rt = s.rt := rt_issue _ _

@[simp] theorem record_issueCleared (i : RecordIx) (k : Key) (s : State) (j : RecordIx) : (issueCleared i k s).record j = s.record j :=
  record_issue _ _ _

@[simp] theorem key_issueCleared (i : RecordIx) (k : Key) (s : State) (k' : PointKey) : (issueCleared i k s).key k' = s.key k' :=
  key_issue _ _ _

@[simp] theorem sg_clearLatched (i : RecordIx) (s : State) : (clearLatched i s).sg = s.sg := by
  unfold clearLatched
  dsimp only
  split
  · rw [sg_issueCleared, sg_advance, sg_putLinkedState]
    rfl
  · rw [sg_retire, sg_issueCleared]
  · rfl

@[simp] theorem sg_clearSelfRetiring (i : RecordIx) (s : State) : (clearSelfRetiring i s).sg = s.sg := by
  unfold clearSelfRetiring
  split
  · rw [sg_retire, sg_issueCleared]
  · rw [sg_retire, sg_issueCleared]
  · rfl

/-- The record of a re-raise (R16). -/
def Record.reRaised (r : Record) : Record :=
  { r with state := .standing, clearTime := none, repeats := if r.repeats = 255#8 then 255#8 else r.repeats + 1#8 }

theorem reRaise_of_cleared (state : (s.record i).state = .cleared) (key : (s.record i).key = some k) :
    reRaise i s =
      let u := advance 1 (putLinkedState .raised k (toStanding i (putRecord i (s.record i).reRaised s)))
      issue (recordEvent .raised k i (s.record i).severity none u) u := by
  unfold reRaise
  dsimp only
  split
  · next k' _ found =>
    obtain rfl := Option.some.inj (found.symm.trans key)
    rfl
  · next other => exact absurd key (other k state)

theorem rt_reRaise_of_cleared (state : (s.record i).state = .cleared) (key : (s.record i).key = some k) :
    (reRaise i s).rt =
      { s.rt with
        records := vset s.rt.records i (s.record i).reRaised
        standing := s.rt.standing.erase i ++ [i]
        acknowledged := s.rt.acknowledged.erase i
        cleared := s.rt.cleared.erase i
        changeCount := s.rt.changeCount + 1#16 } := by
  rw [reRaise_of_cleared state key, rt_issue]
  cases k <;> rfl

theorem key_reRaise_of_cleared (state : (s.record i).state = .cleared) (key : (s.record i).key = some k) (k' : PointKey) :
    (reRaise i s).key k' = if k = .point k' then { s.key k' with state := .raised } else s.key k' := by
  rw [reRaise_of_cleared state key, key_issue, key_advance, key_putLinkedState]
  rfl

@[simp] theorem sg_reRaise (i : RecordIx) (s : State) : (reRaise i s).sg = s.sg := by
  unfold reRaise
  dsimp only
  split
  · rw [sg_issue, sg_advance, sg_putLinkedState]
    rfl
  · rfl

/-- The record of a storm raise (R12). -/
def Governor.stormRecord (x : Governor) (g : GroupId) (now : Quad) : Record :=
  { state := .standing, key := some (.storm g), severity := x.defn.stormSeverity, raiseTime := now, repeats := 0#8
    peak := some (BitVec.ofNat 16 x.folded.length), clearTime := none, ack := none }

theorem stormRaise_of_idle {g : GroupId} (state : (s.record (stormIx g)).state = .idle) :
    stormRaise g s =
      let u := advance 1 (toStanding (stormIx g) (putRecord (stormIx g) ((s.governor g).stormRecord g s.tb.hutTime) s))
      issue (recordEvent .raised (.storm g) (stormIx g) (s.governor g).defn.stormSeverity none u) u := by
  simp only [stormRaise, state]
  rfl

theorem stormRaise_of_other {g : GroupId} (state : (s.record (stormIx g)).state ≠ .idle) : stormRaise g s = s := by
  unfold stormRaise
  dsimp only
  split
  · next idle => exact absurd idle state
  · rfl

theorem rt_stormRaise_of_idle {g : GroupId} (state : (s.record (stormIx g)).state = .idle) :
    (stormRaise g s).rt =
      { s.rt with
        records := vset s.rt.records (stormIx g) ((s.governor g).stormRecord g s.tb.hutTime)
        standing := s.rt.standing.erase (stormIx g) ++ [stormIx g]
        acknowledged := s.rt.acknowledged.erase (stormIx g)
        cleared := s.rt.cleared.erase (stormIx g)
        changeCount := s.rt.changeCount + 1#16 } := by
  rw [stormRaise_of_idle state, rt_issue]
  rfl

@[simp] theorem key_stormRaise (g : GroupId) (s : State) (k : PointKey) : (stormRaise g s).key k = s.key k := by
  by_cases state : (s.record (stormIx g)).state = .idle
  · rw [stormRaise_of_idle state, key_issue]
    rfl
  · rw [stormRaise_of_other state]

@[simp] theorem sg_stormRaise (g : GroupId) (s : State) : (stormRaise g s).sg = s.sg := by
  by_cases state : (s.record (stormIx g)).state = .idle
  · rw [stormRaise_of_idle state, sg_issue]
    rfl
  · rw [stormRaise_of_other state]

/-- The acknowledgement that a record is given (R5, R13). -/
def Record.acked (r : Record) (who : AckBy) (tag : Half) (now : Quad) : Record := { r with ack := some { taker := who, tag, time := now } }

theorem acknowledgeRecord_of_cleared (state : (s.record i).state = .cleared) (key : (s.record i).key = some k) (who : AckBy) (tag : Half) :
    acknowledgeRecord i who tag s =
      let u := putRecord i ((s.record i).acked who tag s.tb.hutTime) s
      retire i (issue (recordEvent .acknowledged k i (s.record i).severity none u) u) := by
  unfold acknowledgeRecord
  dsimp only
  split
  · next standing _ => exact RecordState.noConfusion (standing.symm.trans state)
  · next k' _ found =>
    obtain rfl := Option.some.inj (found.symm.trans key)
    rfl
  · next other => exact absurd key (other k state)

theorem acknowledgeRecord_of_other (who : AckBy) (tag : Half) (notStanding : (s.record i).state ≠ .standing)
    (notCleared : (s.record i).state ≠ .cleared) : acknowledgeRecord i who tag s = s := by
  unfold acknowledgeRecord
  dsimp only
  split
  · next standing _ => exact absurd standing notStanding
  · next cleared _ => exact absurd cleared notCleared
  · rfl

@[simp] theorem sg_acknowledgeRecord (i : RecordIx) (who : AckBy) (tag : Half) (s : State) : (acknowledgeRecord i who tag s).sg = s.sg := by
  unfold acknowledgeRecord
  dsimp only
  split
  · rw [sg_issue]
    rfl
  · rw [sg_retire, sg_issue]
    rfl
  · rfl

/-! ## Peaks (R4) -/

/-- A peak update writes at most the peak of its record. -/
theorem peakUpdate_eq (i : RecordIx) (v : Half) (s : State) :
    peakUpdate i v s = s ∨ ∃ p, (s.record i).peak = some p ∧ peakUpdate i v s = putRecord i { s.record i with peak := some v } s := by
  unfold peakUpdate
  dsimp only
  split
  · next k p _ _ peak =>
    split
    · exact .inr ⟨p, peak, rfl⟩
    · exact .inl rfl
  · exact .inl rfl

@[simp] theorem sg_peakUpdate (i : RecordIx) (v : Half) (s : State) : (peakUpdate i v s).sg = s.sg := by
  rcases peakUpdate_eq i v s with same | ⟨p, -, written⟩
  · rw [same]
  · rw [written]
    rfl

@[simp] theorem key_peakUpdate (i : RecordIx) (v : Half) (s : State) (k : PointKey) : (peakUpdate i v s).key k = s.key k := by
  rcases peakUpdate_eq i v s with same | ⟨p, -, written⟩
  · rw [same]
  · rw [written]
    rfl

end Records

end Sys2Proof.Machine
end

