-- ==== Sys2Proof/Proofs/RecordTableLaw.lean ====
section
/-! PROOF. Every step keeps the law of the record table (O56): each transition moves one record to the tail of the list of its new state. -/

namespace Sys2Proof.Machine

/-! ## One record moved -/

/-- The law of the record table but for the fields of one record, while a transition writes them. -/
structure TableLawBut (i : RecordIx) (s : State) : Prop where
  records : ∀ j, j ≠ i → RecordLaw j (s.record j)
  lists : ListLaw s

theorem TableLaw.but {s : State} (h : TableLaw s) (i : RecordIx) : TableLawBut i s := ⟨fun j _ => h.records j, h.lists⟩

/-- A list of records with record `i` taken off, and put at the tail when its new state is that of the list. -/
def movedList (i : RecordIx) (r : Record) (state : RecordState) (l : List RecordIx) : List RecordIx :=
  l.erase i ++ if r.state = state then [i] else []

theorem mem_movedList {s : State} {l : List RecordIx} {state : RecordState} (holds : ∀ j, j ∈ l ↔ (s.record j).state = state) (once : l.Nodup)
    (i : RecordIx) (r : Record) (j : RecordIx) : j ∈ movedList i r state l ↔ (vget (vset s.rt.records i r) j).state = state := by
  rw [movedList, List.mem_append, once.mem_erase_iff]
  by_cases same : i = j
  · subst same
    rw [vget_vset_self]
    by_cases fits : r.state = state <;> simp [fits]
  · rw [vget_vset_of_ne _ _ same]
    have none : j ∉ (if r.state = state then [i] else []) := by
      split
      · exact fun m => same (List.mem_singleton.1 m).symm
      · exact List.not_mem_nil
    simp only [none, or_false, holds j, ne_eq, Ne.symm same, not_false_eq_true, true_and]
    rfl

theorem nodup_movedList {l : List RecordIx} (once : l.Nodup) (i : RecordIx) (r : Record) (state : RecordState) :
    (movedList i r state l).Nodup := by
  unfold movedList
  split
  · exact (once.erase i).append (List.nodup_singleton i) fun j m m' => by
      rw [List.mem_singleton.1 m'] at m
      exact once.not_mem_erase m
  · rw [List.append_nil]
    exact once.erase i

theorem TableLawBut.move {s t : State} {i : RecordIx} {r : Record} (h : TableLawBut i s) (law : RecordLaw i r) {x : RecordTable} (rt : t.rt = x)
    (records : x.records = vset s.rt.records i r)
    (free : x.free = movedList i r .free s.rt.free)
    (standing : x.standing = movedList i r .standing s.rt.standing)
    (acknowledged : x.acknowledged = movedList i r .acknowledged s.rt.acknowledged)
    (cleared : x.cleared = movedList i r .cleared s.rt.cleared) : TableLaw t := by
  subst rt
  have record (j : RecordIx) : t.record j = vget (vset s.rt.records i r) j := by rw [State.record, records]
  refine ⟨fun j => ?_, ?_⟩
  · rw [record]
    by_cases same : i = j
    · subst same
      rwa [vget_vset_self]
    · rw [vget_vset_of_ne _ _ same]
      exact h.records j (Ne.symm same)
  · constructor
    · exact fun j => by rw [free, record, mem_movedList h.lists.free h.lists.freeOnce]
    · exact fun j => by rw [standing, record, mem_movedList h.lists.standing h.lists.standingOnce]
    · exact fun j => by rw [acknowledged, record, mem_movedList h.lists.acknowledged h.lists.acknowledgedOnce]
    · exact fun j => by rw [cleared, record, mem_movedList h.lists.cleared h.lists.clearedOnce]
    · exact free ▸ nodup_movedList h.lists.freeOnce _ _ _
    · exact standing ▸ nodup_movedList h.lists.standingOnce _ _ _
    · exact acknowledged ▸ nodup_movedList h.lists.acknowledgedOnce _ _ _
    · exact cleared ▸ nodup_movedList h.lists.clearedOnce _ _ _

/-! ## The records of the transitions -/

section Records

variable {i : RecordIx}

theorem recordLaw_newRecord (pool : i.val < 160) (k : PointKey) (v : Pending) (now : Quad) : RecordLaw i (newRecord k v now) where
  poolNotIdle _ := nofun
  stormNotFree _ := nofun
  keyWhileLive := rfl
  keyOfClass := pool
  clearTimeWhileCleared := rfl
  ackWhileAcknowledged := rfl

theorem recordLaw_endLife (r : Record) : RecordLaw i (r.endLife (if isPool i then .free else .idle)) := by
  unfold isPool
  by_cases pool : i.val < 160
  · rw [decide_eq_true pool]
    exact ⟨fun _ => nofun, fun storm => absurd storm (by omega), rfl, trivial, rfl, rfl⟩
  · rw [decide_eq_false pool]
    exact ⟨fun p => absurd p pool, fun _ => nofun, rfl, trivial, rfl, rfl⟩

theorem RecordLaw.reRaised {r : Record} (h : RecordLaw i r) (state : r.state = .cleared) : RecordLaw i r.reRaised where
  poolNotIdle _ := nofun
  stormNotFree _ := nofun
  keyWhileLive := by
    have := h.keyWhileLive
    rw [state] at this
    exact this
  keyOfClass := h.keyOfClass
  clearTimeWhileCleared := rfl
  ackWhileAcknowledged := by
    have := h.ackWhileAcknowledged
    rw [state] at this
    exact this

theorem RecordLaw.clears {r : Record} (h : RecordLaw i r) (state : r.state = .standing) (now : Quad) :
    RecordLaw i { r with state := .cleared, clearTime := some now } where
  poolNotIdle _ := nofun
  stormNotFree _ := nofun
  keyWhileLive := by
    have := h.keyWhileLive
    rw [state] at this
    exact this
  keyOfClass := h.keyOfClass
  clearTimeWhileCleared := rfl
  ackWhileAcknowledged := by
    have := h.ackWhileAcknowledged
    rw [state] at this
    exact this

theorem RecordLaw.acknowledges {r : Record} (h : RecordLaw i r) (state : r.state = .standing) (who : AckBy) (tag : Half) (now : Quad) :
    RecordLaw i { r.acked who tag now with state := .acknowledged } where
  poolNotIdle _ := nofun
  stormNotFree _ := nofun
  keyWhileLive := by
    have := h.keyWhileLive
    rw [state] at this
    exact this
  keyOfClass := h.keyOfClass
  clearTimeWhileCleared := by
    have := h.clearTimeWhileCleared
    rw [state] at this
    exact this
  ackWhileAcknowledged := rfl

theorem recordLaw_stormRecord (g : GroupId) (x : Governor) (now : Quad) : RecordLaw (stormIx g) (x.stormRecord g now) where
  poolNotIdle _ := nofun
  stormNotFree _ := nofun
  keyWhileLive := rfl
  keyOfClass := rfl
  clearTimeWhileCleared := rfl
  ackWhileAcknowledged := rfl

theorem RecordLaw.withPeak {r : Record} (h : RecordLaw i r) (peak : Option Half) : RecordLaw i { r with peak } :=
  ⟨h.poolNotIdle, h.stormNotFree, h.keyWhileLive, h.keyOfClass, h.clearTimeWhileCleared, h.ackWhileAcknowledged⟩

/-- A live record has a key, and a record with a key is live (R2). -/
theorem TableLaw.key_of_live {s : State} (h : TableLaw s) (live : (s.record i).state.live = true) : ∃ k, (s.record i).key = some k :=
  Option.isSome_iff_exists.1 ((h.records i).keyWhileLive.trans live)

theorem isPool_of_point {s : State} (h : TableLaw s) {k : PointKey} (key : (s.record i).key = some (.point k)) : isPool i = true := by
  have fits := (h.records i).keyOfClass
  rw [key] at fits
  exact decide_eq_true fits

theorem eq_stormIx_of_storm {s : State} (h : TableLaw s) {g : GroupId} (key : (s.record i).key = some (.storm g)) : i = stormIx g := by
  have fits := (h.records i).keyOfClass
  rw [key] at fits
  exact fits

/-- A live storm record carries the storm key of its group. -/
theorem TableLaw.key_stormIx {s : State} (h : TableLaw s) (g : GroupId) (live : (s.record (stormIx g)).state.live = true) :
    (s.record (stormIx g)).key = some (.storm g) := by
  obtain ⟨k, key⟩ := h.key_of_live live
  cases k with
  | point k => exact absurd (isPool_of_point h key) (by rw [stormIx_not_pool]; decide)
  | storm g' => rw [key, stormIx_injective (eq_stormIx_of_storm h key)]

end Records

/-! ## Every transition -/

section Transitions

variable {s : State} {i : RecordIx}

theorem movedList_of_notMem {l : List RecordIx} (off : i ∉ l) {r : Record} {state : RecordState} (other : r.state ≠ state) :
    movedList i r state l = l := by
  rw [movedList, if_neg other, List.append_nil, List.erase_of_not_mem off]

theorem movedList_of_state {l : List RecordIx} {r : Record} {state : RecordState} (same : r.state = state) :
    movedList i r state l = l.erase i ++ [i] := by
  rw [movedList, if_pos same]

theorem movedList_of_ne {l : List RecordIx} {r : Record} {state : RecordState} (other : r.state ≠ state) :
    movedList i r state l = l.erase i := by
  rw [movedList, if_neg other, List.append_nil]

theorem ListLaw.notMem_free (h : ListLaw s) (state : (s.record i).state ≠ .free) : i ∉ s.rt.free := fun m => state ((h.free i).1 m)

theorem TableLaw.allocateOrWait (h : TableLaw s) (k : PointKey) (v : Pending) : TableLaw (allocateOrWait k v s) := by
  cases free : s.rt.free with
  | nil =>
    rw [allocateOrWait_of_none_free free]
    refine tableLaw_congr ?_ ?_ ?_ ?_ ?_ h <;> rw [rt_joinPoolWait]
  | cons i rest =>
    have state : (s.record i).state = .free := (h.lists.free i).1 (by rw [free]; exact List.mem_cons_self)
    have pool : i.val < 160 := by
      by_contra storm
      exact (h.records i).stormNotFree (by omega) state
    have rt := rt_allocateOrWait_of_free free k v
    refine (h.but i).move (recordLaw_newRecord pool k v s.tb.hutTime) rt rfl ?_ ?_ ?_ ?_
    · exact ((movedList_of_ne (by nofun)).trans (by rw [free, List.erase_cons_head])).symm
    · exact (movedList_of_state rfl).symm
    · exact (movedList_of_ne (by nofun)).symm
    · exact (movedList_of_ne (by nofun)).symm

/-- A retirement, whatever has been written in the record that it ends (R17, R76). -/
theorem TableLawBut.retire (h : TableLawBut i s) (live : (s.record i).state.live = true) {k : Key} (key : (s.record i).key = some k)
    (fits : keyFits i (some k)) : TableLaw (retire i s) := by
  have off : i ∉ s.rt.free := h.lists.notMem_free fun free => by rw [free] at live; cases live
  have law := recordLaw_endLife (i := i) (s.record i)
  cases k with
  | storm g =>
    have storm : isPool i = false := by rw [show i = stormIx g from fits]; exact stormIx_not_pool g
    have rt := rt_retire_of_storm live key storm
    rw [storm] at law
    refine h.move law rt rfl ?_ ?_ ?_ ?_
    · exact (movedList_of_notMem off (by nofun)).symm
    all_goals exact (movedList_of_ne (by nofun)).symm
  | point k =>
    have pool : isPool i = true := decide_eq_true fits
    rw [pool] at law
    cases waits : s.rt.poolWait with
    | nil =>
      have rt := rt_retire_of_none_waits live key pool waits
      refine h.move law rt rfl ?_ ?_ ?_ ?_
      · exact ((movedList_of_state rfl).trans (by rw [List.erase_of_not_mem off])).symm
      all_goals exact (movedList_of_ne (by nofun)).symm
    | cons w rest =>
      have rt := rt_retire_of_waits live key pool waits
      refine h.move (recordLaw_newRecord fits w ((givenUp i k s).pendingOf w) s.tb.hutTime) rt rfl ?_ ?_ ?_ ?_
      · exact (movedList_of_notMem off (by nofun)).symm
      · exact ((movedList_of_state rfl).trans (by rw [List.erase_of_not_mem h.lists.standingOnce.not_mem_erase])).symm
      · exact ((movedList_of_ne (by nofun)).trans (List.erase_of_not_mem h.lists.acknowledgedOnce.not_mem_erase).symm).symm
      · exact ((movedList_of_ne (by nofun)).trans (List.erase_of_not_mem h.lists.clearedOnce.not_mem_erase).symm).symm

theorem TableLaw.retire (h : TableLaw s) (i : RecordIx) : TableLaw (retire i s) := by
  cases live : (s.record i).state.live with
  | false => rwa [retire_of_dead i s live]
  | true =>
    obtain ⟨k, key⟩ := h.key_of_live live
    exact (h.but i).retire live key (key ▸ (h.records i).keyOfClass)

theorem TableLaw.issueCleared (h : TableLaw s) (i : RecordIx) (k : Key) : TableLaw (issueCleared i k s) :=
  tableLaw_of_rt (rt_issueCleared i k s) h

theorem TableLaw.clearLatched (h : TableLaw s) (i : RecordIx) : TableLaw (clearLatched i s) := by
  by_cases standing : (s.record i).state = .standing
  · obtain ⟨k, key⟩ := h.key_of_live (i := i) (by rw [standing]; rfl)
    have off : i ∉ s.rt.free := h.lists.notMem_free (by rw [standing]; nofun)
    have rt := rt_clearLatched_of_standing standing key
    refine (h.but i).move ((h.records i).clears standing s.tb.hutTime) rt rfl ?_ ?_ ?_ ?_
    · exact (movedList_of_notMem off (by nofun)).symm
    · exact (movedList_of_ne (by nofun)).symm
    · exact (movedList_of_ne (by nofun)).symm
    · exact (movedList_of_state rfl).symm
  · by_cases acknowledged : (s.record i).state = .acknowledged
    · obtain ⟨k, key⟩ := h.key_of_live (i := i) (by rw [acknowledged]; rfl)
      rw [clearLatched_of_acknowledged acknowledged key]
      exact (h.issueCleared i k).retire i
    · rwa [clearLatched_of_other i s standing acknowledged]

theorem TableLaw.clearSelfRetiring (h : TableLaw s) (i : RecordIx) : TableLaw (clearSelfRetiring i s) := by
  unfold Machine.clearSelfRetiring
  split
  · exact (h.issueCleared i _).retire i
  · exact (h.issueCleared i _).retire i
  · exact h

theorem TableLaw.reRaise (h : TableLaw s) (i : RecordIx) : TableLaw (reRaise i s) := by
  by_cases cleared : (s.record i).state = .cleared
  · obtain ⟨k, key⟩ := h.key_of_live (i := i) (by rw [cleared]; rfl)
    have off : i ∉ s.rt.free := h.lists.notMem_free (by rw [cleared]; nofun)
    have rt := rt_reRaise_of_cleared cleared key
    refine (h.but i).move ((h.records i).reRaised cleared) rt rfl ?_ ?_ ?_ ?_
    · exact (movedList_of_notMem off (by nofun)).symm
    · exact (movedList_of_state rfl).symm
    · exact (movedList_of_ne (by nofun)).symm
    · exact (movedList_of_ne (by nofun)).symm
  · rwa [reRaise_of_other i s cleared]

theorem TableLaw.stormRaise (h : TableLaw s) (g : GroupId) : TableLaw (stormRaise g s) := by
  by_cases idle : (s.record (stormIx g)).state = .idle
  · have off : stormIx g ∉ s.rt.free := h.lists.notMem_free (by rw [idle]; nofun)
    have rt := rt_stormRaise_of_idle idle
    refine (h.but (stormIx g)).move (recordLaw_stormRecord g (s.governor g) s.tb.hutTime) rt rfl ?_ ?_ ?_ ?_
    · exact (movedList_of_notMem off (by nofun)).symm
    · exact (movedList_of_state rfl).symm
    · exact (movedList_of_ne (by nofun)).symm
    · exact (movedList_of_ne (by nofun)).symm
  · rwa [stormRaise_of_other idle]

/-- A record rewritten in its place. -/
theorem ListLaw.putRecord (h : ListLaw s) {r : Record} (state : r.state = (s.record i).state) : ListLaw (putRecord i r s) := by
  have same (j : RecordIx) : ((Machine.putRecord i r s).record j).state = (s.record j).state := by
    rw [record_putRecord]
    split
    · next e => rw [state, e]
    · rfl
  constructor
  · exact fun j => (h.free j).trans (by rw [same])
  · exact fun j => (h.standing j).trans (by rw [same])
  · exact fun j => (h.acknowledged j).trans (by rw [same])
  · exact fun j => (h.cleared j).trans (by rw [same])
  · exact h.freeOnce
  · exact h.standingOnce
  · exact h.acknowledgedOnce
  · exact h.clearedOnce

theorem TableLaw.putRecord (h : TableLaw s) {r : Record} (law : RecordLaw i r) (state : r.state = (s.record i).state) :
    TableLaw (putRecord i r s) := by
  refine ⟨fun j => ?_, h.lists.putRecord state⟩
  rw [record_putRecord]
  split
  · next e => exact e ▸ law
  · exact h.records j

theorem TableLaw.putRecord_but (h : TableLaw s) {r : Record} (state : r.state = (s.record i).state) :
    TableLawBut i (Machine.putRecord i r s) := by
  refine ⟨fun j other => ?_, h.lists.putRecord state⟩
  rw [record_putRecord, if_neg (Ne.symm other)]
  exact h.records j

theorem TableLawBut.issue (h : TableLawBut i s) (e : TableEvent) : TableLawBut i (issue e s) := by
  refine ⟨fun j other => ?_, ?_⟩
  · rw [record_issue]
    exact h.records j other
  · obtain ⟨a, b, c, d, a', b', c', d'⟩ := h.lists
    constructor <;> rw [rt_issue] <;> simpa only [record_issue]

theorem TableLaw.peakUpdate (h : TableLaw s) (i : RecordIx) (v : Half) : TableLaw (peakUpdate i v s) := by
  rcases peakUpdate_eq i v s with same | ⟨p, -, written⟩
  · rwa [same]
  · rw [written]
    exact h.putRecord ((h.records i).withPeak _) rfl

theorem TableLaw.acknowledgeRecord (h : TableLaw s) (i : RecordIx) (who : AckBy) (tag : Half) : TableLaw (acknowledgeRecord i who tag s) := by
  by_cases standing : (s.record i).state = .standing
  · obtain ⟨k, key⟩ := h.key_of_live (i := i) (by rw [standing]; rfl)
    have off : i ∉ s.rt.free := h.lists.notMem_free (by rw [standing]; nofun)
    obtain ⟨rt, -⟩ := acknowledged_acknowledgeRecord standing key who tag
    refine (h.but i).move ((h.records i).acknowledges standing who tag s.tb.hutTime) rt rfl ?_ ?_ ?_ ?_
    · exact (movedList_of_notMem off (by nofun)).symm
    · exact (movedList_of_ne (by nofun)).symm
    · exact (movedList_of_state rfl).symm
    · exact (movedList_of_ne (by nofun)).symm
  · by_cases cleared : (s.record i).state = .cleared
    · obtain ⟨k, key⟩ := h.key_of_live (i := i) (by rw [cleared]; rfl)
      rw [acknowledgeRecord_of_cleared cleared key]
      refine ((h.putRecord_but (r := (s.record i).acked who tag s.tb.hutTime) rfl).issue _).retire (k := k) ?_ ?_ (key ▸ (h.records i).keyOfClass)
      · rw [record_issue, record_putRecord, if_pos rfl]
        exact congrArg RecordState.live cleared
      · rw [record_issue, record_putRecord, if_pos rfl]
        exact key
    · rwa [acknowledgeRecord_of_other who tag standing cleared]

end Transitions

/-! ## Governors, conditions and withdrawals -/

section Mechanisms

variable {s : State}

theorem TableLaw.of_rt {t : State} (h : TableLaw s) (same : t.rt = s.rt) : TableLaw t := tableLaw_of_rt same h

/-- A change of the pool wait list and of the change count, which the law does not name. -/
theorem TableLaw.of_waits {t : State} (h : TableLaw s) {wait : List PointKey} {count : Half}
    (same : t.rt = { s.rt with poolWait := wait, changeCount := count }) : TableLaw t :=
  tableLaw_congr (by rw [same]) (by rw [same]) (by rw [same]) (by rw [same]) (by rw [same]) h

theorem TableLaw.holdKey (h : TableLaw s) (k : PointKey) (v : Pending) : TableLaw (holdKey k v s) := h.of_waits (rt_holdKey k v s)

theorem TableLaw.stormFold (h : TableLaw s) (g : GroupId) : TableLaw (stormFold g s) :=
  ((h.stormRaise g).reRaise _).peakUpdate _ _

theorem TableLaw.foldKey (h : TableLaw s) (k : PointKey) (sev : Severity) : TableLaw (foldKey k sev s) := by
  unfold Machine.foldKey
  refine TableLaw.stormFold (h.of_rt ?_) _
  rw [rt_issue]
  rfl

theorem TableLaw.divert (h : TableLaw s) (k : PointKey) (v : Pending) : TableLaw (divert k v s) := by
  unfold Machine.divert
  split
  · exact h.holdKey k v
  · exact h.foldKey k v.severity

theorem TableLaw.closeGovernor (h : TableLaw s) (g : GroupId) : TableLaw (closeGovernor g s) := h.of_rt (rt_issue _ _)

theorem TableLaw.putGovernor (h : TableLaw s) (g : GroupId) (x : Governor) : TableLaw (putGovernor g x s) := h.of_rt rfl

theorem TableLaw.governAttempt (h : TableLaw s) (k : PointKey) (v : Pending) : TableLaw (governAttempt k v s) := by
  unfold Machine.governAttempt
  dsimp only
  split
  · exact h.holdKey k v
  · split
    · split
      · exact (h.putGovernor _ _).allocateOrWait k v
      · exact (h.closeGovernor _).divert k v
    · exact h.divert k v

theorem TableLaw.stormClearIfDue (h : TableLaw s) (g : GroupId) : TableLaw (stormClearIfDue g s) := by
  unfold Machine.stormClearIfDue
  dsimp only
  split
  · exact h.clearLatched _
  · exact h

theorem TableLaw.releasing (h : TableLaw s) (g : GroupId) (rest : List PointKey) : TableLaw (releasing g rest s) := h.of_waits rfl

theorem TableLaw.releaseKey (h : TableLaw s) (g : GroupId) (k : PointKey) (rest : List PointKey) : TableLaw (releaseKey g k rest s) := by
  cases free : s.rt.free with
  | nil =>
    rw [releaseKey_of_none_free free]
    exact (h.releasing g rest).allocateOrWait k _
  | cons i l =>
    rw [releaseKey_of_free free]
    refine TableLaw.allocateOrWait ?_ k _
    exact (h.releasing g rest).of_rt rfl

theorem TableLaw.releaseLoop (h : TableLaw s) (g : GroupId) (n : Nat) : TableLaw (releaseLoop g n s) := by
  induction n generalizing s with
  | zero => exact h
  | succ n ih =>
    unfold Machine.releaseLoop
    split
    · split
      · exact ih (h.releaseKey g _ _)
      · exact h
    · exact h

theorem TableLaw.reopen (h : TableLaw s) (g : GroupId) : TableLaw (reopen g s) := by
  unfold Machine.reopen
  dsimp only
  split
  · split
    · refine TableLaw.clearLatched ?_ _
      exact h.of_rt rfl
    · exact h.of_rt rfl
  · exact h

theorem TableLaw.releaseIfOpen (h : TableLaw s) (g : GroupId) : TableLaw (releaseIfOpen g s) := by
  unfold Machine.releaseIfOpen
  dsimp only
  split
  · exact h.releaseLoop g _
  · exact h

theorem TableLaw.refillGovernor (h : TableLaw s) (g : GroupId) : TableLaw (refillGovernor g s) :=
  ((h.putGovernor _ _).reopen g).releaseIfOpen g

theorem TableLaw.raiseAttempt (h : TableLaw s) (k : PointKey) (v : Pending) : TableLaw (raiseAttempt k v s) := by
  unfold Machine.raiseAttempt
  split
  · exact h.allocateOrWait k v
  · exact h.governAttempt k v

theorem TableLaw.beginCondition (h : TableLaw s) (k : PointKey) (d : Definition) (v : Option Half) : TableLaw (beginCondition k d v s) := by
  unfold Machine.beginCondition
  dsimp only
  split
  · exact h.raiseAttempt k _
  · split
    · exact h.reRaise _
    · exact h
  all_goals exact h

theorem TableLaw.absorbHeld (h : TableLaw s) (k : PointKey) : TableLaw (absorbHeld k s) := h.of_waits (rt_issue _ _)

theorem TableLaw.absorbWaiting (h : TableLaw s) (k : PointKey) : TableLaw (absorbWaiting k s) := h.of_waits (rt_issue _ _)

theorem TableLaw.absorbFolded (h : TableLaw s) (k : PointKey) (d : Definition) : TableLaw (absorbFolded k d s) := by
  unfold Machine.absorbFolded
  refine TableLaw.stormClearIfDue (h.of_rt ?_) _
  rw [rt_issue]
  rfl

theorem TableLaw.clearEvent (h : TableLaw s) (k : PointKey) (d : Definition) : TableLaw (clearEvent k d s) := by
  unfold Machine.clearEvent
  dsimp only
  split
  · split
    · split
      · exact h.clearSelfRetiring _
      · exact h.clearLatched _
    · exact h
  · exact h.absorbHeld k
  · exact h.absorbWaiting k
  · exact h.absorbFolded k d
  all_goals exact h

theorem TableLaw.offerPeak (h : TableLaw s) (k : PointKey) (v : Half) : TableLaw (offerPeak k v s) := by
  unfold Machine.offerPeak
  dsimp only
  split
  · exact h.peakUpdate _ v
  · exact h.peakUpdate _ v
  · exact h

theorem TableLaw.verdict (h : TableLaw s) (k : PointKey) (d : Definition) (b : Band) (n : Nat) (v : Half) : TableLaw (verdict k d b n v s) := by
  unfold Machine.verdict
  split
  · split
    · exact h.beginCondition k d _
    · exact h
  · split
    · exact h.clearEvent k d
    · exact h
  · exact h

theorem TableLaw.applySample (h : TableLaw s) (k : PointKey) (v : Half) : TableLaw (applySample k v s) := by
  unfold Machine.applySample
  dsimp only
  split
  · exact h
  · split
    · exact h
    · refine TableLaw.offerPeak (TableLaw.verdict ?_ k _ _ _ v) k v
      exact h.of_rt rfl

theorem TableLaw.dropPending (h : TableLaw s) (p : PointId) (kind : Kind) : TableLaw (dropPending p s kind) := by
  unfold Machine.dropPending
  dsimp only
  split
  · exact h.of_waits rfl
  · exact h.of_waits rfl
  · refine TableLaw.stormClearIfDue ?_ _
    exact h.of_rt rfl
  all_goals exact h

theorem TableLaw.retireLinked {acc : State × Nat} (h : TableLaw acc.1) (p : PointId) (kind : Kind) : TableLaw (retireLinked p acc kind).1 := by
  unfold Machine.retireLinked
  dsimp only
  split
  · exact h.retire _
  · exact h.retire _
  · exact h

theorem withdraw_fst (p : PointId) (s : State) :
    (withdraw p s).1 = Machine.putPoint p .vacant (allKinds.foldl (retireLinked p) (allKinds.foldl (dropPending p) s, 0)).1 := rfl

theorem TableLaw.withdraw (h : TableLaw s) (p : PointId) : TableLaw (withdraw p s).1 := by
  have dropped (l : List Kind) : TableLaw (l.foldl (Machine.dropPending p) s) := by
    induction l using List.reverseRecOn with
    | nil => exact h
    | append_singleton l kind ih =>
      rw [List.foldl_append]
      exact ih.dropPending p kind
  have retired (l : List Kind) : TableLaw (l.foldl (Machine.retireLinked p) (allKinds.foldl (Machine.dropPending p) s, 0)).1 := by
    induction l using List.reverseRecOn with
    | nil => exact dropped allKinds
    | append_singleton l kind ih =>
      rw [List.foldl_append]
      exact ih.retireLinked p kind
  rw [withdraw_fst]
  exact (retired allKinds).of_rt (rt_putPoint _ _ _)

theorem TableLaw.defineGroup (h : TableLaw s) (r : RawGroup) : TableLaw (serveDefineGroup r s).1 := by
  unfold serveDefineGroup
  split
  · exact h
  · split
    · exact h
    · exact (h.putGovernor _ _).clearLatched _

theorem TableLaw.definePoint (h : TableLaw s) (r : RawPoint) : TableLaw (serveDefinePoint r s).1 := by
  unfold serveDefinePoint
  split
  · exact h
  · split
    · exact h
    · split
      · exact h
      · split
        · exact h
        · exact h.of_rt rfl

theorem TableLaw.staleExpire (h : TableLaw s) (p : PointId) : TableLaw (staleExpire p s) := by
  unfold Machine.staleExpire
  dsimp only
  split
  · refine TableLaw.beginCondition ?_ _ _ _
    exact h.of_rt rfl
  · exact h

theorem TableLaw.staleStep (h : TableLaw s) (p : PointId) (d : Definition) : TableLaw (staleStep p d s) := by
  unfold Machine.staleStep
  refine TableLaw.clearEvent ?_ _ _
  exact h.of_rt rfl

theorem TableLaw.faultStep (h : TableLaw s) (p : PointId) (d : Definition) (marked : Bool) : TableLaw (faultStep p d marked s) := by
  unfold Machine.faultStep
  split
  · exact h.beginCondition _ d _
  · exact h.clearEvent _ d

end Mechanisms

/-- Every operation on the tables keeps the law of the record table. -/
theorem tableLaw_tableOps : TableOps TableLaw where
  congr h rt _ _ := h.of_rt rt
  enterWatch h := h.of_rt rfl
  applySample k v h := h.applySample k v
  staleStep _ h := h.staleStep _ _
  faultStep marked _ h := h.faultStep _ _ marked
  staleExpire p h := h.staleExpire p
  lowerStale _ h := h.of_rt rfl
  setShelve _ h := h.of_rt rfl
  definePoint r h := h.definePoint r
  withdraw _ h := h.withdraw _
  defineGroup r h := h.defineGroup r
  acknowledge i who tag h := h.acknowledgeRecord i who tag
  refill g h := h.refillGovernor g
  lowerRefill _ h := h.of_rt rfl
  restart _ := (inv_afterPowerOn { straps := 0#8, westCarrier := true, eastCarrier := true }).table.of_rt rfl
  reset pins := (inv_afterPowerOn pins).table

/-- Settles O56: each transition moves one record to the tail of the list of its new state, and no other operation touches records or
their lists. -/
theorem stepsKeepTheRecordTable : Obligations.StepsKeepTheRecordTable := by
  unfold Obligations.StepsKeepTheRecordTable
  exact fun s t law ran => tableLaw_tableOps.step law ran

end Sys2Proof.Machine
end

