-- ==== Sys2Proof/Proofs/GovernorNumbers.lean ====
section
/-! PROOF. Every step keeps the numbers of every governor (O57): a token is spent where one is left, a governor closes at 0, and a refill
that reaches the reopen level opens. -/

namespace Sys2Proof.Machine

/-! ## The governors after each transition -/

theorem sg_stormFold (g : GroupId) (s : State) : (stormFold g s).sg = s.sg := by
  unfold stormFold
  dsimp only
  rw [sg_peakUpdate, sg_reRaise, sg_stormRaise]

theorem sg_foldKey (k : PointKey) (sev : Severity) (s : State) :
    (foldKey k sev s).sg =
      vset s.sg (s.groupOf k) { s.governor (s.groupOf k) with folded := (s.governor (s.groupOf k)).folded ++ [k] } := by
  unfold foldKey
  dsimp only
  rw [sg_stormFold, sg_issue]
  rfl

theorem sg_holdKey (k : PointKey) (v : Pending) (s : State) :
    (holdKey k v s).sg = vset s.sg (s.groupOf k) { s.governor (s.groupOf k) with held := (s.governor (s.groupOf k)).held ++ [k] } := by
  unfold holdKey
  dsimp only
  rw [sg_issue]
  rfl

theorem sg_closeGovernor (g : GroupId) (s : State) : (closeGovernor g s).sg = vset s.sg g { s.governor g with gate := .closed } := by
  unfold closeGovernor
  dsimp only
  rw [sg_issue]
  rfl

theorem sg_stormClearIfDue (g : GroupId) (s : State) : (stormClearIfDue g s).sg = s.sg := by
  unfold stormClearIfDue
  dsimp only
  split
  · exact sg_clearLatched _ _
  · rfl

theorem sg_absorbHeld (k : PointKey) (s : State) :
    (absorbHeld k s).sg = vset s.sg (s.groupOf k) { s.governor (s.groupOf k) with held := (s.governor (s.groupOf k)).held.erase k } := by
  unfold absorbHeld
  dsimp only
  rw [sg_issue]
  rfl

theorem sg_absorbWaiting (k : PointKey) (s : State) : (absorbWaiting k s).sg = s.sg := by
  unfold absorbWaiting
  dsimp only
  rw [sg_issue]
  rfl

theorem sg_absorbFolded (k : PointKey) (d : Definition) (s : State) :
    (absorbFolded k d s).sg =
      vset s.sg (s.groupOf k) { s.governor (s.groupOf k) with folded := (s.governor (s.groupOf k)).folded.erase k } := by
  unfold absorbFolded
  dsimp only
  rw [sg_stormClearIfDue, sg_issue]
  rfl

theorem sg_releaseKey (g : GroupId) (k : PointKey) (rest : List PointKey) (s : State) :
    (releaseKey g k rest s).sg = vset s.sg g { s.governor g with tokens := (s.governor g).tokens - 1, held := rest } := by
  cases free : s.rt.free with
  | nil =>
    rw [releaseKey_of_none_free free, sg_allocateOrWait]
    rfl
  | cons i l =>
    rw [releaseKey_of_free free, sg_allocateOrWait]
    rfl

theorem sg_offerPeak (k : PointKey) (v : Half) (s : State) : (offerPeak k v s).sg = s.sg := by
  unfold offerPeak
  dsimp only
  split
  · exact sg_peakUpdate _ _ _
  · exact sg_peakUpdate _ _ _
  · rfl

/-! ## The numbers of one governor -/

section Numbers

variable {x : Governor}

theorem GovernorNumbers.withLists (h : GovernorNumbers x) (held folded : List PointKey) : GovernorNumbers { x with held, folded } :=
  ⟨h.depth, h.reopen, h.exponent, h.tokens, h.refill, h.closedBelow⟩

theorem GovernorNumbers.spend (h : GovernorNumbers x) (held : List PointKey) : GovernorNumbers { x with tokens := x.tokens - 1, held } :=
  ⟨h.depth, h.reopen, h.exponent, (Nat.sub_le _ _).trans h.tokens, h.refill, fun closed => (Nat.sub_le _ _).trans_lt (h.closedBelow closed)⟩

/-- A governor closes only with no token left, which is below every reopen level (R93, R97). -/
theorem GovernorNumbers.close (h : GovernorNumbers x) (spent : x.tokens = 0) : GovernorNumbers { x with gate := .closed } :=
  ⟨h.depth, h.reopen, h.exponent, h.tokens, h.refill, fun _ => by
    have := h.reopen.1
    show x.tokens < x.defn.reopen
    omega⟩

theorem one_le_period (d : GovernorDef) : 1 ≤ d.period := Nat.one_le_two_pow

/-- A governor that its definition, its countdown or a restart has filled. -/
theorem GovernorNumbers.full {d : GovernorDef} (depth : 1 ≤ d.depth ∧ d.depth ≤ 15) (reopen : 1 ≤ d.reopen ∧ d.reopen ≤ d.depth)
    (exponent : d.refillExponent ≤ 7) (held folded : List PointKey) :
    GovernorNumbers { defn := d, gate := .opened, tokens := d.depth, refill := d.period, held, folded } :=
  ⟨depth, reopen, exponent, le_rfl, ⟨one_le_period d, le_rfl⟩, nofun⟩

theorem GovernorNumbers.refilled (h : GovernorNumbers x) (gate : Gate)
    (closed : gate = .closed → x.refilled.tokens < x.defn.reopen) : GovernorNumbers { x.refilled with gate } :=
  ⟨h.depth, h.reopen, h.exponent, by
    have := h.tokens
    show (if x.tokens < x.defn.depth then x.tokens + 1 else x.tokens) ≤ x.defn.depth
    split <;> omega, ⟨one_le_period x.defn, le_rfl⟩, closed⟩

theorem GovernorNumbers.lower (h : GovernorNumbers x) (running : 1 < x.refill) : GovernorNumbers { x with refill := x.refill - 1 } :=
  ⟨h.depth, h.reopen, h.exponent, h.tokens, ⟨by show 1 ≤ x.refill - 1; omega, (Nat.sub_le _ _).trans h.refill.2⟩, h.closedBelow⟩

end Numbers

/-! ## Every transition -/

section Transitions

variable {s t : State}

theorem GovernorLaw.of_sg (h : GovernorLaw s) (same : t.sg = s.sg) : GovernorLaw t := by
  intro g
  rw [State.governor, same]
  exact h g

theorem GovernorLaw.write (h : GovernorLaw s) {g : GroupId} {x : Governor} (numbers : GovernorNumbers x) (written : t.sg = vset s.sg g x) :
    GovernorLaw t := by
  intro g'
  rw [State.governor, written, vget_vset]
  split
  · exact numbers
  · exact h g'

theorem GovernorLaw.holdKey (h : GovernorLaw s) (k : PointKey) (v : Pending) : GovernorLaw (holdKey k v s) :=
  h.write ((h _).withLists _ _) (sg_holdKey k v s)

theorem GovernorLaw.foldKey (h : GovernorLaw s) (k : PointKey) (sev : Severity) : GovernorLaw (foldKey k sev s) :=
  h.write ((h _).withLists _ _) (sg_foldKey k sev s)

theorem GovernorLaw.divert (h : GovernorLaw s) (k : PointKey) (v : Pending) : GovernorLaw (divert k v s) := by
  unfold Machine.divert
  split
  · exact h.holdKey k v
  · exact h.foldKey k v.severity

theorem GovernorLaw.allocateOrWait (h : GovernorLaw s) (k : PointKey) (v : Pending) : GovernorLaw (allocateOrWait k v s) :=
  h.of_sg (sg_allocateOrWait k v s)

theorem GovernorLaw.governAttempt (h : GovernorLaw s) (k : PointKey) (v : Pending) : GovernorLaw (governAttempt k v s) := by
  unfold Machine.governAttempt
  dsimp only
  split
  · exact h.holdKey k v
  · split
    · split
      · refine GovernorLaw.allocateOrWait ?_ k v
        exact h.write ((h _).spend _) rfl
      · next spent =>
        refine GovernorLaw.divert ?_ k v
        exact h.write ((h _).close (by omega)) (sg_closeGovernor _ s)
    · exact h.divert k v

theorem GovernorLaw.beginCondition (h : GovernorLaw s) (k : PointKey) (d : Definition) (v : Option Half) : GovernorLaw (beginCondition k d v s) := by
  unfold Machine.beginCondition
  dsimp only
  split
  · unfold raiseAttempt
    split
    · exact h.allocateOrWait k _
    · exact h.governAttempt k _
  · split
    · exact h.of_sg (sg_reRaise _ s)
    · exact h
  all_goals exact h

theorem GovernorLaw.clearEvent (h : GovernorLaw s) (k : PointKey) (d : Definition) : GovernorLaw (clearEvent k d s) := by
  unfold Machine.clearEvent
  dsimp only
  split
  · split
    · split
      · exact h.of_sg (sg_clearSelfRetiring _ s)
      · exact h.of_sg (sg_clearLatched _ s)
    · exact h
  · exact h.write ((h _).withLists _ _) (sg_absorbHeld k s)
  · exact h.of_sg (sg_absorbWaiting k s)
  · exact h.write ((h _).withLists _ _) (sg_absorbFolded k d s)
  all_goals exact h

theorem GovernorLaw.verdict (h : GovernorLaw s) (k : PointKey) (d : Definition) (b : Band) (n : Nat) (v : Half) :
    GovernorLaw (verdict k d b n v s) := by
  unfold Machine.verdict
  split
  · split
    · exact h.beginCondition k d _
    · exact h
  · split
    · exact h.clearEvent k d
    · exact h
  · exact h

theorem GovernorLaw.applySample (h : GovernorLaw s) (k : PointKey) (v : Half) : GovernorLaw (applySample k v s) := by
  unfold Machine.applySample
  dsimp only
  split
  · exact h
  · split
    · exact h
    · refine GovernorLaw.of_sg (GovernorLaw.verdict ?_ k _ _ _ v) (sg_offerPeak k v _)
      exact h.of_sg rfl

theorem GovernorLaw.releaseLoop (h : GovernorLaw s) (g : GroupId) (n : Nat) : GovernorLaw (releaseLoop g n s) := by
  induction n generalizing s with
  | zero => exact h
  | succ n ih =>
    unfold Machine.releaseLoop
    split
    · split
      · exact ih (h.write ((h g).spend _) (sg_releaseKey g _ _ s))
      · exact h
    · exact h

/-- The first three steps of a refill: the countdown, the token, the gate (R102). -/
theorem GovernorLaw.reopen_refilled (h : GovernorLaw s) (g : GroupId) : GovernorLaw (reopen g (putGovernor g (s.governor g).refilled s)) := by
  unfold reopen
  dsimp only
  rw [governor_putGovernor, if_pos rfl]
  split
  · have opened : GovernorLaw (setNotice .reopened (putGovernor g { (s.governor g).refilled with gate := .opened }
        (putGovernor g (s.governor g).refilled s))) :=
      h.write ((h g).refilled .opened nofun) (vset_vset_self _ _ _ _)
    split
    · exact opened.of_sg (sg_clearLatched _ _)
    · exact opened
  · next stays =>
    refine h.write ((h g).refilled (s.governor g).gate fun closed => ?_) rfl
    by_contra full
    exact stays ⟨closed, not_lt.1 full⟩

theorem GovernorLaw.refillGovernor (h : GovernorLaw s) (g : GroupId) : GovernorLaw (refillGovernor g s) := by
  unfold Machine.refillGovernor releaseIfOpen
  dsimp only
  split
  · exact (h.reopen_refilled g).releaseLoop g _
  · exact h.reopen_refilled g

theorem GovernorLaw.dropPending (h : GovernorLaw s) (p : PointId) (kind : Kind) : GovernorLaw (dropPending p s kind) := by
  unfold Machine.dropPending
  dsimp only
  split
  · exact h.write ((h _).withLists _ _) rfl
  · exact h.of_sg rfl
  · exact h.write ((h _).withLists _ _) (sg_stormClearIfDue _ _)
  all_goals exact h

theorem sg_retireLinked (p : PointId) (acc : State × Nat) (kind : Kind) : (retireLinked p acc kind).1.sg = acc.1.sg := by
  unfold retireLinked
  dsimp only
  split
  · exact sg_retire _ _
  · exact sg_retire _ _
  · rfl

theorem GovernorLaw.withdraw (h : GovernorLaw s) (p : PointId) : GovernorLaw (withdraw p s).1 := by
  have dropped (l : List Kind) : GovernorLaw (l.foldl (Machine.dropPending p) s) := by
    induction l using List.reverseRecOn with
    | nil => exact h
    | append_singleton l kind ih =>
      rw [List.foldl_append]
      exact ih.dropPending p kind
  have retired (l : List Kind) (acc : State × Nat) : (l.foldl (retireLinked p) acc).1.sg = acc.1.sg := by
    induction l generalizing acc with
    | nil => rfl
    | cons kind l ih => exact (ih _).trans (sg_retireLinked p acc kind)
  rw [withdraw_fst]
  exact (dropped allKinds).of_sg ((sg_putPoint _ _ _).trans (retired allKinds (_, 0)))

theorem GovernorLaw.defineGroup (h : GovernorLaw s) (r : RawGroup) : GovernorLaw (serveDefineGroup r s).1 := by
  unfold serveDefineGroup
  split
  · exact h
  · next g d found =>
    split
    · exact h
    · obtain ⟨-, written, range⟩ := governorDefOf_eq_some_iff.1 found
      have numbers : GovernorNumbers ((s.governor g).opened d) :=
        GovernorNumbers.full (written.depth ▸ range.depth) (written.reopen ▸ written.depth ▸ range.reopen) (written.exponent ▸ range.exponent)
          _ _
      exact h.write numbers ((congrArg State.sg (defineGovernor_eq g d s)).trans (sg_clearLatched _ _))

theorem GovernorLaw.definePoint (h : GovernorLaw s) (r : RawPoint) : GovernorLaw (serveDefinePoint r s).1 := by
  unfold serveDefinePoint
  split
  · exact h
  · split
    · exact h
    · split
      · exact h
      · split
        · exact h
        · exact h.of_sg rfl

theorem GovernorLaw.staleExpire (h : GovernorLaw s) (p : PointId) : GovernorLaw (staleExpire p s) := by
  unfold Machine.staleExpire
  dsimp only
  split
  · refine GovernorLaw.beginCondition ?_ _ _ _
    exact h.of_sg rfl
  · exact h

theorem GovernorLaw.staleStep (h : GovernorLaw s) (p : PointId) (d : Definition) : GovernorLaw (staleStep p d s) := by
  unfold Machine.staleStep
  refine GovernorLaw.clearEvent ?_ _ _
  exact h.of_sg rfl

theorem GovernorLaw.faultStep (h : GovernorLaw s) (p : PointId) (d : Definition) (marked : Bool) : GovernorLaw (faultStep p d marked s) := by
  unfold Machine.faultStep
  split
  · exact h.beginCondition _ d _
  · exact h.clearEvent _ d

theorem GovernorLaw.restart (h : GovernorLaw s) : GovernorLaw (restartBlocks s) := by
  intro g
  rw [State.governor, restartBlocks, vget_vmap]
  exact GovernorNumbers.full (h g).depth (h g).reopen (h g).exponent _ _

end Transitions

/-- Every operation on the tables keeps the numbers of every governor. -/
theorem governorLaw_tableOps : TableOps GovernorLaw where
  congr h _ _ sg := h.of_sg sg
  enterWatch h := h.of_sg rfl
  applySample k v h := h.applySample k v
  staleStep _ h := h.staleStep _ _
  faultStep marked _ h := h.faultStep _ _ marked
  staleExpire p h := h.staleExpire p
  lowerStale _ h := h.of_sg rfl
  setShelve _ h := h.of_sg rfl
  definePoint r h := h.definePoint r
  withdraw _ h := h.withdraw _
  defineGroup r h := h.defineGroup r
  acknowledge i who tag h := h.of_sg (sg_acknowledgeRecord i who tag _)
  refill g h := h.refillGovernor g
  lowerRefill running h := h.write ((h _).lower running) rfl
  restart h := h.restart
  reset pins := (inv_afterPowerOn pins).governors

/-- Settles O57: only a spent token, a close at 0, a refill and a definition write the numbers of a governor. -/
theorem stepsKeepTheGovernors : Obligations.StepsKeepTheGovernors := by
  unfold Obligations.StepsKeepTheGovernors
  exact fun s t law ran => governorLaw_tableOps.step law ran

end Sys2Proof.Machine
end

