-- ==== Sys2Proof/Proofs/PointEntries.lean ====
section
/-! PROOF. Every step keeps the points in order (O58): a bucket stays within its capacity, a countdown within its load, and a definition
is one that Define Point has examined. -/

namespace Sys2Proof.Machine

/-! ## What an entry may become -/

/-- An entry that has kept its definition, its buckets and its shelving, and whose stale countdown, where it has one, is no more than its
load (R64, R66). -/
structure Lives (e e' : PointEntry) : Prop where
  defn : e'.defn = e.defn
  lowBucket : e'.lowBucket = e.lowBucket
  highBucket : e'.highBucket = e.highBucket
  shelve : e'.shelve = e.shelve
  staleVacant : e.defn = none → e.stale = none → e'.stale = none
  stalePresent : e'.stale.isSome = e.stale.isSome
  staleBound : ∀ d n, e.defn = some d → (∀ m, e.stale = some m → m ≤ d.staleInterval) → e'.stale = some n → n ≤ d.staleInterval

theorem Lives.of_stale {e e' : PointEntry} (defn : e'.defn = e.defn) (low : e'.lowBucket = e.lowBucket) (high : e'.highBucket = e.highBucket)
    (shelve : e'.shelve = e.shelve) (stale : e'.stale = e.stale) : Lives e e' where
  defn := defn
  lowBucket := low
  highBucket := high
  shelve := shelve
  staleVacant _ none := stale.trans none
  stalePresent := by rw [stale]
  staleBound _ _ _ bound found := bound _ (stale ▸ found)

theorem lives_reloadStale (e : PointEntry) : Lives e e.reloadStale := by
  obtain ⟨defn, -, low, high, shelve⟩ := reloadStale_rest e
  refine ⟨defn, low, high, shelve, fun _ stale => ?_, ?_, fun d n defn bound found => ?_⟩
  · rw [reloadStale_stale, stale]
    split
    · next running => cases running
    · rfl
  · rw [reloadStale_stale]
    split
    · next running => rw [running]; rfl
    · rfl
  · rw [reloadStale_stale, defn] at found
    split at found
    · next same _ => cases same; cases found; exact le_rfl
    · exact bound n found

theorem bucket_congr {e e' : PointEntry} (low : e'.lowBucket = e.lowBucket) (high : e'.highBucket = e.highBucket) (kind : Kind) :
    e'.bucket kind = e.bucket kind := by
  cases kind
  · exact low
  · exact high
  · rfl
  · rfl

theorem EntryLaw.lives {e e' : PointEntry} {d : Definition} (h : EntryLaw e d) (defn : e.defn = some d) (l : Lives e e') : EntryLaw e' d where
  definition := h.definition
  buckets := by rw [l.lowBucket, l.highBucket]; exact h.buckets
  unevaluatedEmpty kind none := (bucket_congr l.lowBucket l.highBucket kind).trans (h.unevaluatedEmpty kind none)
  stalePresent := l.stalePresent.trans h.stalePresent
  staleBound n found := l.staleBound d n defn h.staleBound found
  shelveBound := l.shelve ▸ h.shelveBound

/-! ## States whose points follow -/

section Points

variable {s t : State}

theorem PointLaw.of_lives (h : PointLaw s) (lives : ∀ p, Lives (s.point p) (t.point p)) : PointLaw t where
  inService p d found :=
    have before : (s.point p).defn = some d := (lives p).defn ▸ found
    (h.inService p d before).lives before (lives p)
  vacant p missing := by
    have before : (s.point p).defn = none := (lives p).defn.symm.trans missing
    obtain ⟨low, high, stale, shelve⟩ := h.vacant p before
    exact ⟨(lives p).lowBucket.trans low, (lives p).highBucket.trans high, (lives p).staleVacant before stale, (lives p).shelve.trans shelve⟩
  linesApart p q a b apart found found' := h.linesApart p q a b apart ((lives p).defn ▸ found) ((lives q).defn ▸ found')

theorem PointLaw.of_pt (h : PointLaw s) (same : t.pt = s.pt) : PointLaw t :=
  h.of_lives fun p => by
    rw [show t.point p = s.point p by rw [State.point, State.point, same]]
    exact .of_stale rfl rfl rfl rfl rfl

theorem lives_of_pointsKept (kept : pointsKept s t) (p : PointId) : Lives (s.point p) (t.point p) := by
  obtain ⟨defn, low, high, shelve, stale⟩ := kept p
  split at stale
  · have l := lives_reloadStale (s.point p)
    refine ⟨defn, low, high, shelve, fun vacant none => ?_, ?_, fun d n found bound running => ?_⟩
    · exact stale.trans (l.staleVacant vacant none)
    · exact (congrArg Option.isSome stale).trans l.stalePresent
    · exact l.staleBound d n found bound (stale ▸ running)
  · exact .of_stale defn low high shelve stale

theorem PointLaw.kept (h : PointLaw s) (kept : Kept s t) : PointLaw t := h.of_lives (lives_of_pointsKept kept.points)

/-- One entry written in its definition's bounds. -/
theorem PointLaw.putPoint (h : PointLaw s) {p : PointId} {e : PointEntry} (defn : e.defn = (s.point p).defn)
    (law : ∀ d, (s.point p).defn = some d → EntryLaw e d)
    (vacant : (s.point p).defn = none → e.lowBucket = 0 ∧ e.highBucket = 0 ∧ e.stale = none ∧ e.shelve = 0) :
    PointLaw (putPoint p e s) := by
  have defns (q : PointId) : ((Machine.putPoint p e s).point q).defn = (s.point q).defn := defn_putPoint defn q
  refine ⟨fun q d found => ?_, fun q none => ?_, fun q q' a b apart found found' => ?_⟩
  · rw [defns] at found
    rw [point_putPoint]
    split
    · next same => exact law d (same ▸ found)
    · exact h.inService q d found
  · rw [defns] at none
    rw [point_putPoint]
    split
    · next same => exact vacant (same ▸ none)
    · exact h.vacant q none
  · rw [defns] at found found'
    exact h.linesApart q q' a b apart found found'

/-! ## Buckets -/

theorem newLevel_le {kind : Kind} {ev : Evaluation} {capacity level : Nat} (within : level ≤ capacity) (v : Int) :
    newLevel kind ev capacity level v ≤ capacity := by
  unfold newLevel
  split
  · exact min_le_left _ _
  · exact (Nat.sub_le _ _).trans within
  · exact within

theorem EntryLaw.bucket_le {e : PointEntry} {d : Definition} (h : EntryLaw e d) (kind : Kind) : e.bucket kind ≤ d.capacity := by
  cases kind
  · exact h.buckets.1
  · exact h.buckets.2
  all_goals exact Nat.zero_le _

theorem bucket_setBucket (e : PointEntry) (kind kind' : Kind) (level : Nat) :
    (e.setBucket kind level).bucket kind' = if kind = kind' ∧ kind.hasValue = true then level else e.bucket kind' := by
  cases kind <;> cases kind' <;> rfl

/-- A bucket of an evaluated kind written within the capacity. -/
theorem EntryLaw.setBucket {e : PointEntry} {d : Definition} (h : EntryLaw e d) {kind : Kind} {level : Nat} (evaluated : d.evaluation kind ≠ none)
    (within : level ≤ d.capacity) : EntryLaw (e.setBucket kind level) d := by
  have other (kind' : Kind) (none : d.evaluation kind' = none) : (e.setBucket kind level).bucket kind' = 0 := by
    rw [bucket_setBucket, if_neg fun same : kind = kind' ∧ _ => evaluated (same.1 ▸ none), h.unevaluatedEmpty kind' none]
  cases kind with
  | low => exact ⟨h.definition, ⟨within, h.buckets.2⟩, other, h.stalePresent, h.staleBound, h.shelveBound⟩
  | high => exact ⟨h.definition, ⟨h.buckets.1, within⟩, other, h.stalePresent, h.staleBound, h.shelveBound⟩
  | stale => exact h
  | fault => exact h

theorem PointLaw.setBucket (h : PointLaw s) {p : PointId} {d : Definition} (defn : (s.point p).defn = some d) {kind : Kind} {level : Nat}
    (evaluated : d.evaluation kind ≠ none) (within : level ≤ d.capacity) :
    PointLaw (Machine.putPoint p ((s.point p).setBucket kind level) s) := by
  refine h.putPoint (defn_setBucket _ _ _) (fun d' found => ?_) (fun none => by rw [defn] at none; cases none)
  obtain rfl := Option.some.inj (found.symm.trans defn)
  exact (h.inService p _ defn).setBucket evaluated within

theorem PointLaw.applySample (h : PointLaw s) (k : PointKey) (v : Half) : PointLaw (applySample k v s) := by
  unfold Machine.applySample
  dsimp only
  split
  · exact h
  · next d defn =>
    split
    · exact h
    · next ev evaluated =>
      have bucket := h.setBucket (p := k.point) (kind := k.kind)
        (level := newLevel k.kind ev d.capacity ((s.point k.point).bucket k.kind) v.toInt) defn (by rw [evaluated]; nofun)
        (newLevel_le ((h.inService k.point d defn).bucket_le k.kind) _)
      exact bucket.kept (Kept.refl _).verdict.offerPeak

/-! ## Countdowns -/

/-- A stale countdown that runs, set to a value within its load. -/
theorem PointLaw.setStale (h : PointLaw s) {p : PointId} {n m : Nat} (running : (s.point p).stale = some m)
    (within : ∀ d, (s.point p).defn = some d → n ≤ d.staleInterval) :
    PointLaw (Machine.putPoint p { s.point p with stale := some n } s) := by
  refine h.putPoint rfl (fun d defn => ?_) (fun none => ?_)
  · have law := h.inService p d defn
    refine ⟨law.definition, law.buckets, law.unevaluatedEmpty, ?_, fun k found => ?_, law.shelveBound⟩
    · rw [← law.stalePresent, running]
      rfl
    · obtain rfl := Option.some.inj found
      exact within d defn
  · obtain ⟨-, -, stale, -⟩ := h.vacant p none
    rw [running] at stale
    cases stale

theorem PointLaw.setShelve (h : PointLaw s) {p : PointId} {n : Nat}
    (within : n ≤ (s.point p).shelve ∨ ((s.point p).defn ≠ none ∧ n ≤ 86400)) :
    PointLaw (Machine.putPoint p { s.point p with shelve := n } s) := by
  refine h.putPoint rfl (fun d defn => ?_) (fun none => ?_)
  · have law := h.inService p d defn
    exact ⟨law.definition, law.buckets, law.unevaluatedEmpty, law.stalePresent, law.staleBound,
      within.elim (fun le => le.trans law.shelveBound) And.right⟩
  · obtain ⟨low, high, stale, shelve⟩ := h.vacant p none
    refine ⟨low, high, stale, ?_⟩
    rcases within with le | ⟨inService, -⟩
    · exact Nat.le_zero.1 (shelve ▸ le)
    · exact absurd none inService

theorem PointLaw.staleStep (h : PointLaw s) {p : PointId} {d : Definition} (defn : (s.point p).defn = some d) : PointLaw (staleStep p d s) := by
  refine PointLaw.kept ?_ ((Kept.refl _).clearEvent)
  split
  · next m running => exact h.setStale running fun d' found => by rw [Option.some.inj (found.symm.trans defn)]
  · refine h.of_lives fun q => ?_
    rw [point_putPoint]
    split
    · next same => rw [same]; exact .of_stale rfl rfl rfl rfl rfl
    · exact .of_stale rfl rfl rfl rfl rfl

theorem PointLaw.staleExpire (h : PointLaw s) (p : PointId) : PointLaw (staleExpire p s) := by
  unfold Machine.staleExpire
  dsimp only
  split
  · next running => exact (h.setStale running fun _ _ => Nat.zero_le _).kept ((Kept.refl _).beginCondition)
  · exact h

theorem PointLaw.lowerStale (h : PointLaw s) {p : PointId} {n : Nat} (running : (s.point p).stale = some (n + 2)) :
    PointLaw (Machine.putPoint p { s.point p with stale := some (n + 1) } s) :=
  h.setStale running fun d defn => by
    have := (h.inService p d defn).staleBound _ running
    omega

/-! ## Definition, withdrawal, restart -/

theorem conflicts_comm (a b : Source) : a.conflicts b = b.conflicts a := by
  cases a <;> cases b <;> simp only [Source.conflicts, eq_comm]

/-- A definition that Define Point has examined (R31, R33). -/
theorem definitionLaw_of_definitionOf {r : RawPoint} {p : PointId} {d : Definition} (found : definitionOf r = some (p, d))
    (bands : d.thresholdsOk = true) : DefinitionLaw d := by
  obtain ⟨point, written, range⟩ := definitionOf_eq_some_iff.1 found
  obtain ⟨⟨drain, shift⟩, -, form⟩ := (fieldsInRange_iff_of_written point written).1 range
  refine ⟨form, bands, written.hysteresis ▸ range.hysteresis, written.capacity ▸ range.capacity, ?_, ?_⟩
  · rw [written.staleInterval]
    have := r.staleInterval.isLt
    omega
  · have weight := written.weighting
    have bound := r.weight.isLt
    split
    · next n same =>
      rw [same] at weight
      obtain ⟨count, rfl⟩ := weight
      have nonzero : r.weight.toNat ≠ 0 := fun zero => drain count (BitVec.eq_of_toNat_eq zero)
      omega
    · next n same =>
      rw [same] at weight
      obtain ⟨magnitude, rfl⟩ := weight
      exact shift magnitude

theorem entryLaw_defined {d : Definition} (law : DefinitionLaw d) : EntryLaw (.defined d) d where
  definition := law
  buckets := ⟨Nat.zero_le _, Nat.zero_le _⟩
  unevaluatedEmpty kind _ := by cases kind <;> rfl
  stalePresent := by
    unfold PointEntry.defined
    dsimp only
    split
    · next running => rw [decide_eq_true running]; rfl
    · next none => rw [decide_eq_false none]; rfl
  staleBound n found := by
    unfold PointEntry.defined at found
    dsimp only at found
    split at found
    · cases found; exact le_rfl
    · cases found
  shelveBound := Nat.zero_le _

theorem PointLaw.define (h : PointLaw s) {p : PointId} {d : Definition} (law : DefinitionLaw d) (apart : s.lineInUse d.source = false) :
    PointLaw (Machine.putPoint p (.defined d) s) := by
  have free (q : PointId) (e : Definition) (found : (s.point q).defn = some e) : d.source.conflicts e.source = false := by
    by_contra taken
    rw [Bool.not_eq_false] at taken
    have inUse : s.lineInUse d.source = true := lineInUse_iff.2 ⟨q, e, found, conflicts_iff.1 taken⟩
    rw [apart] at inUse
    cases inUse
  refine ⟨fun q e found => ?_, fun q none => ?_, fun q q' a b other found found' => ?_⟩
  · rw [point_putPoint] at found ⊢
    split at found
    · next same =>
      rw [if_pos same]
      cases found
      exact entryLaw_defined law
    · next different =>
      rw [if_neg different]
      exact h.inService q e found
  · rw [point_putPoint] at none ⊢
    split at none
    · cases none
    · next different =>
      rw [if_neg different]
      exact h.vacant q none
  · rw [point_putPoint] at found found'
    split at found <;> split at found'
    · next same same' => exact absurd (same.symm.trans same') other
    · cases found
      exact free q' b found'
    · cases found'
      rw [conflicts_comm]
      exact free q a found
    · exact h.linesApart q q' a b other found found'

theorem PointLaw.definePoint (h : PointLaw s) (r : RawPoint) : PointLaw (serveDefinePoint r s).1 := by
  unfold serveDefinePoint
  split
  · exact h
  · next p d found =>
    split
    · exact h
    · split
      · exact h
      · next apart =>
        split
        · exact h
        · next bands =>
          exact h.define (definitionLaw_of_definitionOf found (by simpa using bands)) (by simpa using apart)

theorem PointLaw.vacate (h : PointLaw s) (p : PointId) : PointLaw (Machine.putPoint p .vacant s) := by
  refine ⟨fun q e found => ?_, fun q none => ?_, fun q q' a b other found found' => ?_⟩
  · rw [point_putPoint] at found ⊢
    split at found
    · cases found
    · next different =>
      rw [if_neg different]
      exact h.inService q e found
  · rw [point_putPoint] at none ⊢
    split at none
    · next same => rw [if_pos same]; exact ⟨rfl, rfl, rfl, rfl⟩
    · next different =>
      rw [if_neg different]
      exact h.vacant q none
  · rw [point_putPoint] at found found'
    split at found
    · cases found
    · split at found'
      · cases found'
      · exact h.linesApart q q' a b other found found'

/-- Both stages of a withdrawal, before the entry goes Vacant. -/
theorem kept_withdrawing (p : PointId) (s : State) :
    Kept s (allKinds.foldl (retireLinked p) (allKinds.foldl (dropPending p) s, 0)).1 := by
  have dropped (l : List Kind) : Kept s (l.foldl (Machine.dropPending p) s) := Kept.foldl (fun _ _ => (Kept.refl _).dropPending) l (.refl s)
  have retired (l : List Kind) : Kept s (l.foldl (Machine.retireLinked p) (allKinds.foldl (Machine.dropPending p) s, 0)).1 := by
    induction l using List.reverseRecOn with
    | nil => exact dropped allKinds
    | append_singleton l kind ih =>
      rw [List.foldl_append]
      exact ih.retireLinked
  exact retired allKinds

theorem PointLaw.withdraw (h : PointLaw s) (p : PointId) : PointLaw (withdraw p s).1 := by
  rw [withdraw_fst]
  exact (h.kept (kept_withdrawing p s)).vacate p

theorem PointLaw.defineGroup (h : PointLaw s) (r : RawGroup) : PointLaw (serveDefineGroup r s).1 := by
  unfold serveDefineGroup
  split
  · exact h
  · split
    · exact h
    · exact h.kept (Kept.refl s).defineGovernor

theorem PointLaw.restart (h : PointLaw s) : PointLaw (restartBlocks s) := by
  have point (p : PointId) : (restartBlocks s).point p = (s.point p).restarted := vget_vmap _ _ _
  have defn (p : PointId) : ((restartBlocks s).point p).defn = (s.point p).defn := by
    rw [point, PointEntry.restarted]
    split
    · next found => exact found.symm
    · next none => exact none.symm
  refine ⟨fun p d found => ?_, fun p none => ?_, fun p q a b apart found found' => ?_⟩
  · rw [defn] at found
    rw [point, PointEntry.restarted, found]
    exact entryLaw_defined (h.inService p d found).definition
  · rw [defn] at none
    rw [point, PointEntry.restarted, none]
    exact ⟨rfl, rfl, rfl, rfl⟩
  · rw [defn] at found found'
    exact h.linesApart p q a b apart found found'

end Points

/-- Every operation on the tables keeps the points in order. -/
theorem pointLaw_tableOps : TableOps PointLaw where
  congr h _ pt _ := h.of_pt pt
  enterWatch h := h.of_lives fun p => by
    rw [point_enterWatch]
    exact lives_reloadStale _
  applySample k v h := h.applySample k v
  staleStep defn h := h.staleStep defn
  faultStep _ _ h := h.kept (Kept.refl _).faultStep
  staleExpire p h := h.staleExpire p
  lowerStale running h := h.lowerStale running
  setShelve within h := h.setShelve within
  definePoint r h := h.definePoint r
  withdraw _ h := h.withdraw _
  defineGroup r h := h.defineGroup r
  acknowledge _ _ _ h := h.kept (Kept.refl _).acknowledgeRecord
  refill _ h := h.kept (Kept.refl _).refillGovernor
  lowerRefill _ h := h.of_pt rfl
  restart h := h.restart
  reset pins := (inv_afterPowerOn pins).points

/-- Settles O58: the mechanisms keep every entry but for its keys and the reload of its stale countdown; samples, countdowns, definitions
and withdrawals write within the bounds. -/
theorem stepsKeepThePoints : Obligations.StepsKeepThePoints := by
  unfold Obligations.StepsKeepThePoints
  exact fun s t law ran => pointLaw_tableOps.step law ran

end Sys2Proof.Machine
end

