-- ==== Sys2Proof/Proofs/OwnersFollow.lean ====
section
/-! PROOF. What the requests on the tables, the ticks and the expiries keep outside the table: they follow, as the mechanisms do. -/

namespace Sys2Proof.Machine

section Owners

variable {s t : State}

theorem Follows.putPoint {p : PointId} {e : PointEntry} (h : Follows s t) : Follows s (putPoint p e t) :=
  h.trans ⟨rfl, .inl ⟨rfl, rfl⟩, fun _ set => set, .inl, fun _ _ => le_rfl⟩

theorem Follows.foldl {α : Type} {f : State → α → State} (step : ∀ s a, Follows s (f s a)) (l : List α) (h : Follows s t) :
    Follows s (l.foldl f t) := by
  induction l generalizing t with
  | nil => exact h
  | cons a l ih => exact ih (h.trans (step t a))

theorem follows_applySample (k : PointKey) (v : Half) (s : State) : Follows s (applySample k v s) := by
  unfold applySample
  dsimp only
  split
  · exact .refl s
  · split
    · exact .refl s
    · exact (Follows.refl s).putPoint.trans (Kept.refl _).verdict.offerPeak.toFollows

theorem follows_staleStep (p : PointId) (d : Definition) (s : State) : Follows s (staleStep p d s) := by
  unfold staleStep
  exact (Follows.refl s).putPoint.trans (Kept.refl _).clearEvent.toFollows

theorem follows_applyReading (p : PointId) (d : Definition) (marked : Bool) (v : Half) (s : State) :
    Follows s (applyReading p d marked v s) := by
  have steps : Follows s (faultStep p d marked (staleStep p d s)) := (follows_staleStep p d s).trans (Kept.refl _).faultStep.toFollows
  unfold applyReading
  dsimp only
  split
  · exact steps
  · exact steps.trans ((follows_applySample _ _ _).trans (follows_applySample _ _ _))

theorem follows_takeReadings (l : List (PointId × Bool × Half)) (acc : State × Nat × Nat) : Follows acc.1 (l.foldl takeReading acc).1 := by
  induction l generalizing acc with
  | nil => exact .refl _
  | cons r l ih =>
    refine Follows.trans ?_ (ih _)
    unfold takeReading
    split
    · exact follows_applyReading _ _ _ _ _
    · exact .refl _

theorem follows_serveReading (rs : List RawReading) (s : State) : Follows s (serveReading rs s).1 := by
  unfold serveReading
  split
  · exact .refl s
  · next l _ =>
    split
    · exact follows_takeReadings l (s, 0, 0)
    · exact .refl s

theorem follows_scan (lines : BitVec 16) (s : State) : Follows { s with cs := lines } (scan lines s) := by
  refine Follows.foldl (fun u p => ?_) _ (.refl _)
  unfold scanPoint
  split
  · exact follows_applySample _ _ _
  · exact .refl u

theorem follows_staleExpire (p : PointId) (s : State) : Follows s (staleExpire p s) := by
  unfold staleExpire
  dsimp only
  split
  · exact (Follows.refl s).putPoint.trans (Kept.refl _).beginCondition.toFollows
  · exact .refl s

theorem follows_unshelve (p : PointId) (s : State) : Follows s (unshelve p s) :=
  (Follows.refl s).putPoint.trans (Kept.refl _).unshelveOffers.toFollows

theorem follows_shelveExpire (p : PointId) (s : State) : Follows s (shelveExpire p s) :=
  (Follows.refl s).putPoint.setNotice.trans (Kept.refl _).unshelveOffers.toFollows

theorem follows_lowerStale (p : PointId) (s : State) : Follows s (lowerStale p s) := by
  unfold lowerStale
  dsimp only
  split
  · exact follows_staleExpire p s
  · exact (Follows.refl s).putPoint
  · exact .refl s

theorem follows_lowerShelve (p : PointId) (s : State) : Follows s (lowerShelve p s) := by
  unfold lowerShelve
  split
  · exact .refl s
  · exact follows_shelveExpire p s
  · exact (Follows.refl s).putPoint

theorem follows_withdraw (p : PointId) (s : State) : Follows s (withdraw p s).1 := by
  rw [withdraw_fst]
  exact (kept_withdrawing p s).toFollows.putPoint

theorem follows_serveDefinePoint (r : RawPoint) (s : State) : Follows s (serveDefinePoint r s).1 := by
  unfold serveDefinePoint
  split
  · exact .refl s
  · split
    · exact .refl s
    · split
      · exact .refl s
      · split
        · exact .refl s
        · exact (Follows.refl s).putPoint

theorem follows_serveWithdrawPoint (b : Byte) (s : State) : Follows s (serveWithdrawPoint b s).1 := by
  unfold serveWithdrawPoint
  split
  · exact .refl s
  · next p _ =>
    split
    · exact follows_withdraw p s
    · exact .refl s

theorem follows_serveShelvePoint (b : Byte) (m : Half) (s : State) : Follows s (serveShelvePoint b m s).1 := by
  unfold serveShelvePoint
  split
  · exact .refl s
  · split
    · split
      · exact (Follows.refl s).putPoint
      · exact .refl s
    · exact .refl s

theorem follows_serveUnshelvePoint (b : Byte) (s : State) : Follows s (serveUnshelvePoint b s).1 := by
  unfold serveUnshelvePoint
  split
  · exact .refl s
  · split
    · dsimp only
      split
      · exact follows_unshelve _ s
      · exact .refl s
    · exact .refl s

theorem follows_serveDefineGroup (r : RawGroup) (s : State) : Follows s (serveDefineGroup r s).1 := by
  unfold serveDefineGroup
  split
  · exact .refl s
  · split
    · exact .refl s
    · exact (Kept.refl s).defineGovernor.toFollows

theorem follows_acknowledgeIndex (i : RecordIx) (who : AckBy) (tag : Half) (s : State) : Follows s (acknowledgeIndex i who tag s).1 := by
  unfold acknowledgeIndex
  split
  · exact (Kept.refl s).acknowledgeRecord.toFollows
  · exact (Kept.refl s).acknowledgeRecord.toFollows
  all_goals exact .refl s

theorem follows_serveAcknowledge (form : Byte) (k : RawKey) (tag : Half) (who : AckBy) (s : State) :
    Follows s (serveAcknowledge form k tag who s).1 := by
  unfold serveAcknowledge
  split
  · split
    · exact .refl s
    · exact follows_acknowledgeIndex _ _ _ _
  · split
    · exact .refl s
    · split
      · exact follows_acknowledgeIndex _ _ _ _
      all_goals exact .refl s

theorem follows_serveAcknowledgeGroup (g m : Byte) (tag : Half) (who : AckBy) (s : State) :
    Follows s (serveAcknowledgeGroup g m tag who s).1 := by
  unfold serveAcknowledgeGroup
  split
  · exact Follows.foldl (fun _ _ => (Kept.refl _).acknowledgeRecord.toFollows) _ (.refl s)
  · exact .refl s

/-- The requests on the notices, the modes, the counters, the links and the settings, with Restart: they write what no request on the
tables writes. -/
def besideTables : Request → Bool
  | .setCounterSelection _ _ _ _ _ => true
  | .clearCounters _ => true
  | .readLinkCounters _ => true
  | .setTime _ => true
  | .readNotices => true
  | .setNoticeEnables _ => true
  | .setHutSettings _ _ => true
  | .enterDormant => true
  | .restart => true
  | _ => false

/-- A request on the tables follows. -/
theorem follows_serveOwner (t : Taker) (r : Request) (s : State) (tables : besideTables r = false) : Follows s (serveOwner t r s).1 := by
  cases r with
  | reading rs => exact follows_serveReading rs s
  | definePoint b => exact follows_serveDefinePoint b s
  | withdrawPoint p => exact follows_serveWithdrawPoint p s
  | readPoint p =>
    show Follows s (serveReadPoint p s).1
    unfold serveReadPoint
    split
    · exact .refl s
    · split <;> exact .refl s
  | shelvePoint p m => exact follows_serveShelvePoint p m s
  | unshelvePoint p => exact follows_serveUnshelvePoint p s
  | defineGroup b => exact follows_serveDefineGroup b s
  | readGroup g =>
    show Follows s (serveReadGroup g s).1
    unfold serveReadGroup
    split <;> exact .refl s
  | lookUp k =>
    show Follows s (serveLookUp k s).1
    rw [state_serveLookUp]
    exact .refl s
  | readRecord i =>
    show Follows s (serveReadRecord i s).1
    rw [state_serveReadRecord]
    exact .refl s
  | listWalk w =>
    show Follows s (serveListWalk w s).1
    rw [state_serveListWalk]
    exact .refl s
  | summary => exact .refl s
  | acknowledge f k tag => exact follows_serveAcknowledge f k tag t.ackBy s
  | acknowledgeGroup g m tag => exact follows_serveAcknowledgeGroup g m tag t.ackBy s
  | readCounters g =>
    show Follows s (serveReadCounters g s).1
    rw [state_serveReadCounters]
    exact .refl s
  | wakeHut =>
    cases t with
    | localPort => exact .refl s
    | routeLink source => exact (Kept.refl s).wakeCause.toFollows
  | peekNotices => exact .refl s
  | _ => exact absurd tables nofun

/-- The ticks of the stale, the shelve and the refill countdowns follow. -/
theorem follows_ownerTick (s : State) (o : TickOwner) (notSettle : o ≠ .settle) : Follows s (ownerTick s o) := by
  cases o with
  | stale =>
    show Follows s (staleTick s)
    unfold staleTick
    split
    · exact Follows.foldl (fun u p => follows_lowerStale p u) _ (.refl s)
    all_goals exact .refl s
  | shelve => exact Follows.foldl (fun u p => follows_lowerShelve p u) _ (.refl s)
  | refill => exact Follows.foldl (fun u g => ((Kept.refl u).lowerRefill).toFollows) _ (.refl s)
  | settle => exact absurd rfl notSettle

end Owners

end Sys2Proof.Machine
end

