-- ==== Sys2Proof/Proofs/Replies.lean ====
section
/-! PROOF. Every reply fits a message: no owner answers with more than 48 bytes (11 sections 11.2, 11.3 and 11.7). -/

namespace Sys2Proof.Machine

/-! ## The fields of replies -/

theorem length_keyBytes (k : Key) : k.bytes.length = 2 := by cases k <;> rfl

theorem length_recordBytes (i : RecordIx) (r : Record) : (recordBytes i r).length = 24 := by
  have ack : (ackBytes r.ack).length = 7 := by
    unfold ackBytes
    split <;> simp
  unfold recordBytes optQuad
  split
  · simp [length_keyBytes, ack]
  · simp [ack]

theorem length_recordEntry (s : State) (i : RecordIx) : (recordEntry s i).length = 4 := by
  unfold recordEntry
  split <;> simp [length_keyBytes]

theorem length_keyListEntry (s : State) (k : PointKey) : (keyListEntry s k).length = 3 := by
  simp [keyListEntry, length_keyBytes]

theorem length_flatMap_of_entry {α : Type} {entry : α → List Byte} {n : Nat} (width : ∀ x, (entry x).length = n) (l : List α) :
    (l.flatMap entry).length = l.length * n := by
  simp [List.length_flatMap, width]

theorem length_walkReply_le {α : Type} {entry : α → List Byte} {n : Nat} (width : ∀ x, (entry x).length = n) (narrow : n ≤ 4) {count : Nat}
    (few : count ≤ 8) (start : Option (List α)) : (walkReply entry count start).body.length ≤ 48 := by
  unfold walkReply
  split
  · exact Nat.zero_le _
  · next l =>
    simp only [Reply.done, List.length_append, length_flatMap_of_entry width, List.length_cons, List.length_nil, List.length_take]
    have : min count l.length * n ≤ 8 * 4 := Nat.mul_le_mul ((min_le_left _ _).trans few) narrow
    omega

theorem length_linkCounterBytes (v : Quad) : (linkCounterBytes v).length = 3 := rfl

theorem length_linkCountersBytes (c : LinkCounters) : c.bytes.length = 21 := rfl

theorem length_pointBytes (p : PointId) (e : PointEntry) (d : Definition) : (pointBytes p e d).length = 43 := by
  have source : d.source.bytes.length = 3 := by
    rcases d.source with _ | _ | side
    · rfl
    · rfl
    · cases side <;> rfl
  have weighting : d.weighting.bytes.length = 2 := by cases d.weighting <;> rfl
  simp only [pointBytes, definitionBytes, keyEntryBytes, natHalf, natQuad, List.length_append, length_halfBytes, length_quadBytes, source,
    weighting, List.length_cons, List.length_nil]

theorem length_governorBytes (x : Governor) (state : RecordState) : (governorBytes x state).length = 14 := by
  simp [governorBytes, natHalf]

theorem length_counterBytes (c : Counter) : (counterBytes c).length = 8 := rfl

theorem length_wakeRecordBytes (w : Option WakeRecord) : (wakeRecordBytes w).length = 7 := by
  unfold wakeRecordBytes
  split <;> simp

theorem length_noticeBytes (s : State) : (noticeBytes s).length = 11 := by
  simp [noticeBytes, length_wakeRecordBytes]

/-! ## Every reply -/

theorem length_bare (status : Status) : (Reply.bare status).body.length ≤ 48 := Nat.zero_le _

theorem length_done {body : List Byte} (short : body.length ≤ 48) : (Reply.done body).body.length ≤ 48 := short

theorem length_acknowledgeIndex (i : RecordIx) (who : AckBy) (tag : Half) (s : State) :
    (acknowledgeIndex i who tag s).2.body.length ≤ 48 := by
  unfold acknowledgeIndex
  split
  · exact length_done (by simp)
  · exact length_done (by simp)
  all_goals exact length_bare _

theorem length_serveListWalk (w : RawWalk) (s : State) : (serveListWalk w s).2.body.length ≤ 48 := by
  unfold serveListWalk
  split
  · next count =>
    split
    · exact length_bare _
    · split
      · exact length_bare _
      · exact length_walkReply_le (length_recordEntry s) le_rfl count.2 _
    · split
      · exact length_bare _
      · exact length_walkReply_le (length_keyListEntry s) (by decide) count.2 _
  · exact length_bare _

theorem length_serveReading (rs : List RawReading) (s : State) : (serveReading rs s).2.body.length ≤ 48 := by
  unfold serveReading
  split
  · exact length_bare _
  · split
    · exact length_done (by simp)
    · exact length_bare _

theorem length_serveDefinePoint (r : RawPoint) (s : State) : (serveDefinePoint r s).2.body.length ≤ 48 := by
  unfold serveDefinePoint
  split
  · exact length_bare _
  · split
    · exact length_bare _
    · split
      · exact length_bare _
      · split
        · exact length_bare _
        · exact length_done (by decide)

theorem length_serveWithdrawPoint (b : Byte) (s : State) : (serveWithdrawPoint b s).2.body.length ≤ 48 := by
  unfold serveWithdrawPoint
  split
  · exact length_bare _
  · split
    · exact length_done (by simp)
    · exact length_bare _

theorem length_serveReadPoint (b : Byte) (s : State) : (serveReadPoint b s).2.body.length ≤ 48 := by
  unfold serveReadPoint
  split
  · exact length_bare _
  · split
    · exact length_done (by rw [length_pointBytes]; decide)
    · exact length_bare _

theorem length_serveLookUp (k : RawKey) (s : State) : (serveLookUp k s).2.body.length ≤ 48 := by
  unfold serveLookUp
  split
  · exact length_bare _
  · split
    · exact length_done (by rw [length_recordBytes]; decide)
    · simp [pendingReply]
    · exact length_bare _

theorem length_serveAcknowledge (form : Byte) (k : RawKey) (tag : Half) (who : AckBy) (s : State) :
    (serveAcknowledge form k tag who s).2.body.length ≤ 48 := by
  unfold serveAcknowledge
  split
  · split
    · exact length_bare _
    · exact length_acknowledgeIndex _ _ _ _
  · split
    · exact length_bare _
    · split
      · exact length_acknowledgeIndex _ _ _ _
      · simp [pendingReply]
      · exact length_bare _

/-- No owner answers with a body that does not fit a message. -/
theorem length_serveOwner (t : Taker) (r : Request) (s : State) : (serveOwner t r s).2.body.length ≤ 48 := by
  cases r with
  | reading rs => exact length_serveReading rs s
  | definePoint b => exact length_serveDefinePoint b s
  | withdrawPoint p => exact length_serveWithdrawPoint p s
  | readPoint p => exact length_serveReadPoint p s
  | shelvePoint p m =>
    show (serveShelvePoint p m s).2.body.length ≤ 48
    unfold serveShelvePoint
    split
    · exact length_bare _
    · split
      · split
        · exact length_done (by decide)
        · exact length_bare _
      · exact length_bare _
  | unshelvePoint p =>
    show (serveUnshelvePoint p s).2.body.length ≤ 48
    unfold serveUnshelvePoint
    split
    · exact length_bare _
    · split
      · exact length_done (by decide)
      · exact length_bare _
  | defineGroup b =>
    show (serveDefineGroup b s).2.body.length ≤ 48
    unfold serveDefineGroup
    split
    · exact length_bare _
    · split
      · exact length_bare _
      · exact length_done (by decide)
  | readGroup g =>
    show (serveReadGroup g s).2.body.length ≤ 48
    unfold serveReadGroup
    split
    · exact length_bare _
    · exact length_done (by rw [length_governorBytes]; decide)
  | lookUp k => exact length_serveLookUp k s
  | readRecord i =>
    show (serveReadRecord i s).2.body.length ≤ 48
    unfold serveReadRecord
    split
    · exact length_bare _
    · exact length_done (by rw [length_recordBytes]; decide)
  | listWalk w => exact length_serveListWalk w s
  | summary => exact length_done (by simp [summaryBytes, severityCounts])
  | acknowledge f k tag => exact length_serveAcknowledge f k tag t.ackBy s
  | acknowledgeGroup g m tag =>
    show (serveAcknowledgeGroup g m tag t.ackBy s).2.body.length ≤ 48
    unfold serveAcknowledgeGroup
    split
    · exact length_done (by simp)
    · exact length_bare _
  | setCounterSelection g j e v m =>
    show (serveSetCounterSelection g j e v m s).2.body.length ≤ 48
    unfold serveSetCounterSelection
    split
    · exact length_done (by decide)
    · exact length_bare _
  | readCounters g =>
    show (serveReadCounters g s).2.body.length ≤ 48
    unfold serveReadCounters
    split
    · exact length_bare _
    · exact length_done (by simp [length_counterBytes, allCounters])
  | clearCounters g =>
    show (serveClearCounters g s).2.body.length ≤ 48
    unfold serveClearCounters
    split
    · exact length_bare _
    · exact length_done (by simp [allCounters])
  | readLinkCounters c => exact length_done (by simp [length_linkCountersBytes])
  | setTime time => exact length_done (by simp)
  | wakeHut =>
    cases t
    · exact length_bare _
    · exact length_done (by decide)
  | readNotices => exact length_done (by rw [length_noticeBytes]; decide)
  | peekNotices => exact length_done (by rw [length_noticeBytes]; decide)
  | setNoticeEnables e => exact length_done (by decide)
  | setHutSettings n w =>
    show (serveSetHutSettings n w s).2.body.length ≤ 48
    unfold serveSetHutSettings
    split
    · exact length_done (by decide)
    · exact length_bare _
  | enterDormant =>
    show (serveEnterDormant s).2.body.length ≤ 48
    unfold serveEnterDormant
    split
    · exact length_bare _
    · exact length_done (by decide)
  | restart => exact length_done (by decide)

theorem length_serve (t : Taker) (r : Request) (s : State) : (serve t r s).2.body.length ≤ 48 := by
  unfold serve
  split
  · exact length_serveOwner t r s
  · exact length_bare _

theorem length_serveMessage (t : Taker) (code : Byte) (body : List Byte) (s : State) : (serveMessage t code body s).2.body.length ≤ 48 := by
  unfold serveMessage
  split
  · exact length_serve t _ s
  · exact length_bare _

end Sys2Proof.Machine
end

