-- ==== Sys2Proof/Proofs/ModesAndLinks.lean ====
section
/-! PROOF. What every command keeps beside the tables: the queue of commands (O2), the counter values (O37), the settle countdown, hut time
in a hold, the level flags, the sides of the route link and the reply slot (O59). -/

namespace Sys2Proof.Machine

section Steps

variable {s t : State}

/-- A second tick keeps what hut time outside power-on and each owner keep. -/
theorem second_keeps {P : State → Prop} (advance : ∀ u : State, u.powerHold = false → P u → P (advanceTime u))
    (tick : ∀ (u : State) (o : TickOwner), P u → P (ownerTick u o)) (order : List TickOwner) (start : P s) : P (second order s) := by
  unfold second
  split
  · exact start
  · next power =>
    have time := advance s (Bool.eq_false_iff.2 power) start
    split
    · exact time
    · generalize tickOrder order = owners
      generalize advanceTime s = u at time
      induction owners generalizing u with
      | nil => exact time
      | cons o rest ih => exact ih _ (tick u o time)

/-! ## The queue of commands (O2) -/

theorem exec_answers (c : Instr) (s : State) : ∃ t, exec c s = .next t := by
  cases c <;> exact ⟨_, rfl⟩

theorem pending_commandOps (q : List Instr) : CommandOps (fun _ => True) fun s => s.pending = q where
  port _ _ same := same
  side d x _ same := (pending_putSide d x _).trans same
  enterWatch same := same
  wake c same := (pending_of_outside (outside_wakeCause c _)).trans same
  serve t r _ _ same := (pending_of_untouched (untouched_serveOwner t r _)).trans same
  carrier d x same := (pending_putSide d x _).trans same
  scan lines same := (pending_of_outside (follows_scan lines _).outside).trans same
  second order same := second_keeps (P := fun s => s.pending = q) (fun _ _ before => before)
    (fun u o before => (pending_of_outside (outside_ownerTick u o)).trans before) order same
  staleExpire p same := (pending_of_outside (outside_staleExpire p _)).trans same
  shelveExpire p same := (pending_of_outside (outside_shelveExpire p _)).trans same
  refill g same := (pending_of_outside (outside_refillGovernor g _)).trans same
  settleExpire same := (pending_of_outside (outside_settleExpire _)).trans same
  powerOn same := same
  powerEnds same := same
  pinFalls same := same
  pinRises same := same

theorem pending_exec {c : Instr} (ran : exec c s = .next t) : t.pending = s.pending :=
  (pending_commandOps s.pending).exec_all (fun _ _ _ same => same) rfl ran

/-- Settles O2: no arm of the dispatcher faults or refuses, and nothing that an arm does writes the queue. -/
theorem everyCommandAnswersAndKeepsTheQueue : Obligations.EveryCommandAnswersAndKeepsTheQueue := by
  unfold Obligations.EveryCommandAnswersAndKeepsTheQueue
  intro c s
  obtain ⟨t, ran⟩ := exec_answers c s
  exact ⟨t, ran, pending_exec ran⟩

/-! ## The counter values (O37) -/

/-- No counter value is below those given. -/
def CountersAtLeast (v : GroupId → Fin 4 → Nat) (s : State) : Prop := ∀ g j, v g j ≤ (s.counter g j).value.toNat

theorem CountersAtLeast.follows {v : GroupId → Fin 4 → Nat} (h : CountersAtLeast v s) (after : Follows s t) : CountersAtLeast v t :=
  fun g j => (h g j).trans (after.counters g j)

theorem CountersAtLeast.of_gc {v : GroupId → Fin 4 → Nat} (h : CountersAtLeast v s) (same : t.gc = s.gc) : CountersAtLeast v t := by
  intro g j
  rw [State.counter, State.counters, same]
  exact h g j

theorem value_putCounter {g : GroupId} {j : Fin 4} {c : Counter} (value : c.value = (s.counter g j).value) (g' : GroupId) (j' : Fin 4) :
    ((putCounter g j c s).counter g' j').value = (s.counter g' j').value := by
  rw [State.counter, State.counters, putCounter]
  dsimp only
  rw [vget_vset]
  split
  · next same =>
    subst same
    rw [vget_vset]
    split
    · next same => rw [← same, value]
    · rfl
  · rfl

theorem CountersAtLeast.select {v : GroupId → Fin 4 → Nat} (h : CountersAtLeast v s) {g : GroupId} {j : Fin 4} {c : Counter}
    (value : c.value = (s.counter g j).value) : CountersAtLeast v (putCounter g j c s) :=
  fun g' j' => (h g' j').trans (congrArg BitVec.toNat (value_putCounter value g' j')).ge

theorem CountersAtLeast.serveOwner {v : GroupId → Fin 4 → Nat} (h : CountersAtLeast v s) (t : Taker) (r : Request) (notClear : r.code ≠ 17#8) :
    CountersAtLeast v (serveOwner t r s).1 := by
  cases beside : besideTables r with
  | false => exact h.follows (follows_serveOwner t r s beside)
  | true =>
    cases r with
    | setCounterSelection g j e m n =>
      show CountersAtLeast v (serveSetCounterSelection g j e m n s).1
      unfold serveSetCounterSelection
      split
      · refine CountersAtLeast.select h ?_
        rfl
      · exact h
    | clearCounters g => exact (notClear rfl).elim
    | readLinkCounters c =>
      show CountersAtLeast v (serveReadLinkCounters c s).1
      unfold serveReadLinkCounters
      dsimp only
      split
      · exact h
      · exact h.of_gc rfl
    | setHutSettings n w =>
      show CountersAtLeast v (serveSetHutSettings n w s).1
      unfold serveSetHutSettings
      split
      · exact h.of_gc rfl
      · exact h
    | enterDormant =>
      show CountersAtLeast v (serveEnterDormant s).1
      unfold serveEnterDormant
      split
      · exact h
      · exact h.of_gc rfl
    | setTime time => exact h.of_gc rfl
    | readNotices => exact h.of_gc rfl
    | setNoticeEnables e => exact h.of_gc rfl
    | restart => exact h.of_gc rfl
    | _ => exact absurd beside nofun

theorem gc_settleExpire (s : State) : (settleExpire s).gc = s.gc := by
  unfold settleExpire
  split <;> rfl

theorem CountersAtLeast.ownerTick {v : GroupId → Fin 4 → Nat} (h : CountersAtLeast v s) (o : TickOwner) : CountersAtLeast v (ownerTick s o) := by
  by_cases settle : o = .settle
  · subst settle
    show CountersAtLeast v (settleTick s)
    unfold settleTick
    split
    · exact h.of_gc rfl
    · exact h.of_gc (gc_settleExpire s)
    · exact h
  · exact h.follows (follows_ownerTick s o settle)

theorem countersAtLeast_commandOps (v : GroupId → Fin 4 → Nat) : CommandOps (· ≠ 17#8) (CountersAtLeast v) where
  port _ _ h := h.of_gc rfl
  side d x _ h := h.of_gc (gc_putSide d x _)
  enterWatch h := h.of_gc rfl
  wake _ h := h.follows (Kept.refl _).wakeCause.toFollows
  serve t r _ notClear h := h.serveOwner t r notClear
  carrier d x h := h.of_gc (gc_putSide d x _)
  scan {s} lines h := CountersAtLeast.follows (s := { s with cs := lines }) (h.of_gc rfl) (follows_scan lines s)
  second order h := second_keeps (fun _ _ before => before.of_gc rfl) (fun _ o before => before.ownerTick o) order h
  staleExpire p h := h.follows (follows_staleExpire p _)
  shelveExpire p h := h.follows (follows_shelveExpire p _)
  refill _ h := h.follows (Kept.refl _).refillGovernor.toFollows
  settleExpire h := h.of_gc (gc_settleExpire _)
  powerOn h := h.of_gc rfl
  powerEnds h := h.of_gc rfl
  pinFalls h := h.of_gc rfl
  pinRises h := h.of_gc rfl

/-- Settles O37: an event raises a counter and saturates it; only Clear Counters and the completion of a reset write a value down. -/
theorem counterValuesNeverFall : Obligations.CounterValuesNeverFall := by
  unfold Obligations.CounterValuesNeverFall
  intro c s t g j ran notClear transactions frames noPowerOn noPin
  refine (countersAtLeast_commandOps fun g j => (s.counter g j).value.toNat).exec (s := s) (fun _ _ => le_rfl) (fun o r row code => ?_)
    (fun bits code body which message clear => transactions bits body which (clear ▸ message))
    (fun d bytes before b after sync inside f which split reception good => frames d bytes which before b after sync inside f split
      reception good)
    (fun pins u which => ?_) ran g j
  · cases c <;> simp only [Instr.request?, reduceCtorEq, Option.some.injEq, Prod.mk.injEq] at row <;> obtain ⟨-, rfl⟩ := row <;>
      simp only [Request.code, BitVec.reduceEq] at code
    exact notClear _ _ rfl
  · exact which.elim (fun e => absurd e (noPowerOn pins)) fun e => absurd e (noPin pins)

end Steps

end Sys2Proof.Machine
end

