-- ==== Sys2Proof/Proofs/LevelsAndSides.lean ====
section
/-! PROOF. Every step keeps the route link, the reply slot, the settle countdown and the level flags in order (O59). -/

namespace Sys2Proof.Machine

section Steps

variable {s t : State}

/-! ## The settle countdown and the level flags -/

theorem noticeSet_poolFull_iff : s.noticeSet .poolFull = true ↔ s.nu.flags.getLsbD 4 = true := by
  have bits : ∀ b : BitVec 8, decide (b &&& 0x10#8 ≠ 0#8) = true ↔ b.getLsbD 4 = true := by decide
  exact bits s.nu.flags

theorem noticeSet_link_iff : s.noticeSet .link = true ↔ s.nu.flags.getLsbD 6 = true := by
  have bits : ∀ b : BitVec 8, decide (b &&& 0x40#8 ≠ 0#8) = true ↔ b.getLsbD 6 = true := by decide
  exact bits s.nu.flags

theorem TimeLaw.follows (h : TimeLaw s) (after : Follows s t) : TimeLaw t := by
  have settle := h.settle
  refine ⟨?_, fun held => ?_⟩
  · rcases after.mode with ⟨mode, same⟩ | ⟨-, mode, none⟩ | ⟨before, mode, same⟩
    · rwa [same, mode]
    · rw [none, mode]
      nofun
    · rw [before] at settle
      rw [same, mode]
      split at settle
      · next none => nofun
      · exact absurd settle.1 nofun
  · rw [hutTime_of_outside after.outside]
    exact h.held ((powerHold_of_outside after.outside).symm.trans held)

theorem NoticeLaw.follows (h : NoticeLaw s) (after : Follows s t) : NoticeLaw t where
  poolFull waits := by
    rw [noticeSet_poolFull_iff]
    exact (after.full waits).elim (fun before => after.flags 4 (noticeSet_poolFull_iff.1 (h.poolFull before))) id
  link lost := by
    rw [noticeSet_link_iff]
    exact after.flags 6 (noticeSet_link_iff.1 (h.link ((carrierLost_of_outside after.outside).symm.trans lost)))

/-- The law of the modes and the law of the notices, which the requests beside the tables keep together. -/
structure LevelsLaw (s : State) : Prop where
  time : TimeLaw s
  notices : NoticeLaw s

theorem LevelsLaw.follows (h : LevelsLaw s) (after : Follows s t) : LevelsLaw t := ⟨h.time.follows after, h.notices.follows after⟩

/-- A change of nothing that the two laws name. -/
theorem LevelsLaw.of_same (h : LevelsLaw s) (tb : t.tb.mode = s.tb.mode ∧ t.tb.settle = s.tb.settle)
    (time : t.powerHold = true → t.tb.hutTime = 0#32) (waits : t.rt.poolWait = s.rt.poolWait) (flags : t.nu.flags = s.nu.flags)
    (carriers : t.carrierLost = s.carrierLost) : LevelsLaw t := by
  obtain ⟨mode, settle⟩ := tb
  refine ⟨⟨?_, time⟩, ⟨fun wait => ?_, fun lost => ?_⟩⟩
  · rw [settle, mode]
    exact h.time.settle
  · rw [waits] at wait
    rw [State.noticeSet, flags]
    exact h.notices.poolFull wait
  · rw [carriers] at lost
    rw [State.noticeSet, flags]
    exact h.notices.link lost

/-- The part in Watch without a settle countdown, the flags and the waiting keys as they were or as a reset leaves them. -/
theorem timeLaw_of_watch (mode : t.tb.mode = .watch) (settle : t.tb.settle = none) (held : t.powerHold = true → t.tb.hutTime = 0#32) :
    TimeLaw t := by
  refine ⟨?_, held⟩
  rw [settle, mode]
  nofun

theorem carrierLost_putSide {d : Side} {x : SideState} (same : x.carrier = (s.side d).carrier) :
    (putSide d x s).carrierLost = s.carrierLost := by
  cases d <;> simp only [State.carrierLost, putSide, same] <;> rfl

/-- Read Notices keeps a level flag while its condition holds (R164, R167). -/
theorem NoticeLaw.readNotices (h : NoticeLaw s) : NoticeLaw (readNotices s) := by
  refine ⟨fun waits => ?_, fun lost => ?_⟩
  · rw [noticeSet_poolFull_iff]
    have set := noticeSet_poolFull_iff.1 (h.poolFull waits)
    have empty : s.rt.poolWait.isEmpty = false := List.isEmpty_eq_false_iff.2 waits
    show (s.nu.flags &&& s.standingConditions).getLsbD 4 = true
    rw [BitVec.getLsbD_and, set, State.standingConditions, empty]
    cases s.carrierLost <;> rfl
  · rw [noticeSet_link_iff]
    have lost' : s.carrierLost = true := lost
    have set := noticeSet_link_iff.1 (h.link lost')
    show (s.nu.flags &&& s.standingConditions).getLsbD 6 = true
    rw [BitVec.getLsbD_and, set, State.standingConditions, lost']
    cases s.rt.poolWait.isEmpty <;> rfl

theorem LevelsLaw.restart (h : LevelsLaw s) : LevelsLaw (serveRestart s).1 := by
  refine ⟨timeLaw_of_watch rfl rfl h.time.held, ⟨fun waits => absurd rfl waits, fun lost => ?_⟩⟩
  rw [noticeSet_link_iff]
  have lost' : s.carrierLost = true := lost
  show (resetFlags s).getLsbD 6 = true
  rw [resetFlags, lost']
  rfl

theorem LevelsLaw.serveOwner (h : LevelsLaw s) (noHold : s.inHold = false) (t : Taker) (r : Request) : LevelsLaw (serveOwner t r s).1 := by
  cases beside : besideTables r with
  | false => exact h.follows (follows_serveOwner t r s beside)
  | true =>
    cases r with
    | setCounterSelection g j e m n =>
      show LevelsLaw (serveSetCounterSelection g j e m n s).1
      unfold serveSetCounterSelection
      split
      · exact h.of_same ⟨rfl, rfl⟩ h.time.held rfl rfl rfl
      · exact h
    | clearCounters g =>
      show LevelsLaw (serveClearCounters g s).1
      unfold serveClearCounters
      split
      · exact h
      · exact h.of_same ⟨rfl, rfl⟩ h.time.held rfl rfl rfl
    | readLinkCounters c =>
      show LevelsLaw (serveReadLinkCounters c s).1
      unfold serveReadLinkCounters
      dsimp only
      split
      · exact h
      · exact h.of_same ⟨rfl, rfl⟩ h.time.held rfl rfl rfl
    | setHutSettings n w =>
      show LevelsLaw (serveSetHutSettings n w s).1
      unfold serveSetHutSettings
      split
      · exact h.of_same ⟨rfl, rfl⟩ h.time.held rfl rfl rfl
      · exact h
    | enterDormant =>
      show LevelsLaw (serveEnterDormant s).1
      unfold serveEnterDormant
      split
      · exact h
      · exact ⟨⟨⟨rfl, by decide, le_rfl⟩, h.time.held⟩, ⟨h.notices.poolFull, h.notices.link⟩⟩
    | setTime time =>
      have power : s.powerHold = false := (Bool.or_eq_false_iff.1 noHold).1
      exact h.of_same ⟨rfl, rfl⟩ (fun held => absurd (held.symm.trans power) nofun) rfl rfl rfl
    | readNotices => exact ⟨⟨h.time.settle, h.time.held⟩, h.notices.readNotices⟩
    | setNoticeEnables e => exact h.of_same ⟨rfl, rfl⟩ h.time.held rfl rfl rfl
    | restart => exact h.restart
    | _ => exact absurd beside nofun

theorem LevelsLaw.settleExpire (h : LevelsLaw s) : LevelsLaw (settleExpire s) := by
  unfold Machine.settleExpire
  split
  · exact ⟨⟨nofun, h.time.held⟩, ⟨h.notices.poolFull, h.notices.link⟩⟩
  all_goals exact h

theorem LevelsLaw.ownerTick (h : LevelsLaw s) (o : TickOwner) : LevelsLaw (ownerTick s o) := by
  by_cases settle : o = .settle
  · subst settle
    show LevelsLaw (settleTick s)
    unfold settleTick
    split
    · next n running =>
      have before := h.time.settle
      rw [running] at before
      obtain ⟨mode, -, bound⟩ := before
      exact ⟨⟨⟨mode, by omega, by omega⟩, h.time.held⟩, ⟨h.notices.poolFull, h.notices.link⟩⟩
    · exact h.settleExpire
    · exact h
  · exact h.follows (follows_ownerTick s o settle)

/-- A change of a carrier sets Link (R153, R154, R164). -/
theorem LevelsLaw.carrier (h : LevelsLaw s) (d : Side) (x : SideState) : LevelsLaw (setNotice .link (putSide d x s)) := by
  have flags : (setNotice .link (putSide d x s)).nu.flags = s.nu.flags ||| 0x40#8 := by rw [flags_setNotice, nu_putSide]; rfl
  refine ⟨⟨?_, ?_⟩, ⟨fun waits => ?_, fun _ => ?_⟩⟩
  · rw [tb_setNotice, tb_putSide]
    exact h.time.settle
  · rw [tb_setNotice, tb_putSide, powerHold_setNotice, powerHold_putSide]
    exact h.time.held
  · rw [rt_setNotice, rt_putSide] at waits
    rw [noticeSet_poolFull_iff, flags, BitVec.getLsbD_or, noticeSet_poolFull_iff.1 (h.notices.poolFull waits), Bool.true_or]
  · rw [noticeSet_link_iff, flags, BitVec.getLsbD_or]
    exact Bool.or_true _

theorem LevelsLaw.completeReset (pins : ResetPins) (power : s.powerHold = false) : LevelsLaw (completeReset pins s) := by
  have reset := inv_afterPowerOn pins
  exact ⟨timeLaw_of_watch rfl rfl fun held => absurd (held.symm.trans power) nofun, ⟨reset.notices.poolFull, reset.notices.link⟩⟩

theorem levelsLaw_commandOps : CommandOps (fun _ => True) LevelsLaw where
  port _ _ h := h.of_same ⟨rfl, rfl⟩ h.time.held rfl rfl rfl
  side {s} d x carrier h := h.of_same (by rw [tb_putSide]; exact ⟨rfl, rfl⟩) (by rw [tb_putSide, powerHold_putSide]; exact h.time.held)
    (by rw [rt_putSide]) (by rw [nu_putSide]) (carrierLost_putSide carrier)
  enterWatch h := ⟨timeLaw_of_watch rfl rfl h.time.held, ⟨h.notices.poolFull, h.notices.link⟩⟩
  wake _ h := h.follows (Kept.refl _).wakeCause.toFollows
  serve t r noHold _ h := h.serveOwner noHold t r
  carrier d x h := h.carrier d x
  scan {s} lines h := LevelsLaw.follows (s := { s with cs := lines }) (h.of_same ⟨rfl, rfl⟩ h.time.held rfl rfl rfl) (follows_scan lines s)
  second order h := second_keeps
    (fun _ power before => before.of_same ⟨rfl, rfl⟩ (fun held => absurd (held.symm.trans power) nofun) rfl rfl rfl)
    (fun _ o before => before.ownerTick o) order h
  staleExpire p h := h.follows (follows_staleExpire p _)
  shelveExpire p h := h.follows (follows_shelveExpire p _)
  refill _ h := h.follows (Kept.refl _).refillGovernor.toFollows
  settleExpire h := h.settleExpire
  powerOn h := h.of_same ⟨rfl, rfl⟩ (fun _ => rfl) rfl rfl rfl
  powerEnds h := h.of_same ⟨rfl, rfl⟩ nofun rfl rfl rfl
  pinFalls h := h.of_same ⟨rfl, rfl⟩ h.time.held rfl rfl rfl
  pinRises h := h.of_same ⟨rfl, rfl⟩ h.time.held rfl rfl rfl

/-! ## The sides and the reply slot -/

theorem SideLaw.congr {x y : SideState} (h : SideLaw x) (carrier : y.carrier = x.carrier) (queue : y.queue = x.queue)
    (reception : y.reception = x.reception) : SideLaw y := by
  obtain ⟨room, bodies, lost, sync, unfinished⟩ := h
  constructor
  · rwa [queue]
  · rwa [queue]
  · rwa [carrier, queue, reception]
  · rwa [reception]
  · rwa [reception]

theorem SideLaw.hunts {x : SideState} (h : SideLaw x) : SideLaw { x with reception := [] } :=
  ⟨h.room, h.bodies, fun lost => ⟨(h.lost lost).1, rfl⟩, nofun, nofun⟩

theorem LinkLaw.of_untouched (h : LinkLaw s) (same : t.untouched = s.untouched) : LinkLaw t where
  sides d := (h.sides d).congr (carrier_of_untouched same d) (queue_of_untouched same d) (reception_of_untouched same d)
  slot := by
    rw [lp_of_untouched same]
    exact h.slot

theorem LinkLaw.of_outside (h : LinkLaw s) (same : t.outside = s.outside) : LinkLaw t := h.of_untouched (untouched_of_outside same)

theorem LinkLaw.putSide (h : LinkLaw s) {d : Side} {x : SideState} (law : SideLaw x) : LinkLaw (putSide d x s) where
  sides d' := by
    rw [side_putSide]
    split
    · exact law
    · exact h.sides d'
  slot := by
    rw [lp_putSide]
    exact h.slot

theorem LinkLaw.putSlot (h : LinkLaw s) {slot : Option Reply} (short : ∀ r, slot = some r → r.body.length ≤ 48) : LinkLaw (putSlot slot s) :=
  ⟨fun d => h.sides d, short⟩

theorem LinkLaw.setNotice (h : LinkLaw s) (n : Notice) : LinkLaw (setNotice n s) := ⟨fun d => h.sides d, h.slot⟩

theorem LinkLaw.countLink (h : LinkLaw s) (d : Side) (w : LinkCounter) (n : Nat) : LinkLaw (countLink d w n s) :=
  h.putSide ((h.sides d).congr rfl rfl rfl)

theorem LinkLaw.hunt (h : LinkLaw s) (d : Side) : LinkLaw (hunt d s) := h.putSide (h.sides d).hunts

theorem LinkLaw.place (h : LinkLaw s) (d : Side) {f : Frame} (short : f.body.length ≤ 48) : LinkLaw (place d f s) := by
  unfold Machine.place
  split
  · next present =>
    split
    · next room =>
      have law := h.sides d
      refine h.putSide ⟨?_, fun f' queued => ?_, fun lost => absurd (lost.symm.trans present) nofun, law.sync, law.unfinished⟩
      · rw [List.length_append]
        exact room
      · rcases List.mem_append.1 queued with before | last
        · exact law.bodies f' before
        · rwa [List.mem_singleton.1 last]
    · exact h.countLink d _ _
  · exact h.countLink d _ _

theorem LinkLaw.forward (h : LinkLaw s) (d : Side) {f : Frame} (short : f.body.length ≤ 48) : LinkLaw (forward d f s) := by
  have placed : LinkLaw (Machine.place (opposite d) { f with hop := f.hop - 1#6 } s) := h.place _ short
  unfold Machine.forward
  dsimp only
  split
  · exact placed.countLink d _ _
  · exact placed

theorem LinkLaw.passOn (h : LinkLaw s) (d : Side) {f : Frame} (short : f.body.length ≤ 48) : LinkLaw (passOn d f s) := by
  unfold Machine.passOn
  split
  · exact h.countLink d _ _
  · exact h.forward d short

/-- What a port hands a request to: it leaves the link and answers with a reply that fits. -/
structure Answers (served : State → State × Reply) : Prop where
  untouched : ∀ u, (served u).1.untouched = u.untouched
  short : ∀ u, (served u).2.body.length ≤ 48

theorem answers_serve (t : Taker) (r : Request) : Answers (serve t r) := ⟨untouched_serve t r, length_serve t r⟩

theorem answers_serveMessage (t : Taker) (code : Byte) (body : List Byte) : Answers (serveMessage t code body) :=
  ⟨untouched_serveMessage t code body, length_serveMessage t code body⟩

theorem LinkLaw.takeFrame (h : LinkLaw s) (d : Side) {f : Frame} (short : f.body.length ≤ 48) {served : State → State × Reply}
    (answers : Answers served) : LinkLaw (takeFrame d f served s) := by
  have counted := h.countLink d .received 1
  have after : LinkLaw (served (Machine.countLink d .taken 1 (Machine.countLink d .received 1 s))).1 :=
    (counted.countLink d .taken 1).of_untouched (answers.untouched _)
  have addressed : LinkLaw (takeAddressed d f served (Machine.countLink d .received 1 s)) := after.place d (answers.short _)
  have broadcast : LinkLaw (takeBroadcast d f served (Machine.countLink d .received 1 s)) := by
    unfold takeBroadcast
    dsimp only
    split
    · exact after
    · exact after.forward d short
  unfold Machine.takeFrame
  dsimp only
  split
  · split
    · exact addressed
    · exact counted
  · split
    · split
      · exact broadcast
      · exact counted.passOn d short
    · exact counted.passOn d short

theorem LinkLaw.transact (h : LinkLaw s) {served : State → State} (keeps : ∀ u : State, LinkLaw u → LinkLaw (served u)) :
    LinkLaw (transact served s) := by
  unfold Machine.transact
  split
  · exact keeps s h
  · exact keeps _ (h.of_outside (outside_enterWatch s))
  all_goals exact LinkLaw.putSlot (h.of_outside (outside_wakeCause _ s)) fun r found => by cases found; exact length_bare _

theorem LinkLaw.shifted (h : LinkLaw s) (bits : List Bool) (n : Nat) :
    LinkLaw { s with lp := { s.lp with lsdo := bits }, freeDraws := n } := ⟨fun d => h.sides d, h.slot⟩

theorem LinkLaw.takeServed {x : State × Reply} (h : LinkLaw x.1) (short : x.2.body.length ≤ 48) : LinkLaw (takeServed x) :=
  h.putSlot fun r found => by cases found; exact short

theorem LinkLaw.takeRequest (h : LinkLaw s) (o : Origin) {r : Request} (short : r.body.length ≤ 48) : LinkLaw (takeRequest o r s) := by
  cases o with
  | localPort =>
    show LinkLaw (takeLocal r s)
    unfold takeLocal
    split
    · exact h.shifted _ s.freeDraws
    · exact LinkLaw.transact (h.shifted _ s.freeDraws) fun u before =>
        (before.of_untouched ((answers_serve _ _).untouched u)).takeServed ((answers_serve _ _).short u)
  | route header =>
    show LinkLaw (takeRoute header r s)
    unfold takeRoute
    split
    · exact h
    · split
      · exact (h.hunt header.side).takeFrame _ short (answers_serve _ _)
      · exact h

theorem LinkLaw.localTransaction (h : LinkLaw s) (bits : List Bool) (cut : Option HoldCut) : LinkLaw (localTransaction bits cut s) := by
  unfold Machine.localTransaction
  split
  · exact h.shifted _ _
  · split
    · exact h.shifted _ s.freeDraws
    · refine LinkLaw.transact (h.shifted _ s.freeDraws) fun u before => ?_
      unfold judgeTransaction
      split
      · exact before.putSlot nofun
      · exact before.putSlot fun r found => by cases found; exact length_bare _
      · exact (before.of_untouched ((answers_serveMessage _ _ _).untouched u)).takeServed ((answers_serveMessage _ _ _).short u)

/-! ## Bytes that arrive -/

/-- The body of a good frame is what its length byte says. -/
theorem length_body_of_goodFrame {bytes : List Byte} {f : Frame} (good : goodFrame bytes = some f) : f.body.length + 8 = bytes.length := by
  unfold goodFrame at good
  dsimp only at good
  split at good
  · unfold frameOf at good
    split at good
    · next len destination source control tag code body covered =>
      have length := congrArg List.length covered
      split at good
      · cases good
      · cases good
        simp only [List.length_take, List.length_cons] at length
        show body.length + 8 = bytes.length
        omega
    · cases good
  · cases good

theorem SideLaw.receives {x : SideState} (h : SideLaw x) (present : x.carrier = true) {bytes : List Byte}
    (sync : ∀ b ∈ bytes.head?, b = syncByte) (unfinished : ∀ a len rest, bytes = a :: len :: rest → len.toNat ≤ 48 ∧ rest.length < len.toNat + 7) :
    SideLaw { x with reception := bytes } :=
  ⟨h.room, h.bodies, fun lost => absurd (lost.symm.trans present) nofun, sync, unfinished⟩

theorem LinkLaw.receiveInside (h : LinkLaw s) (d : Side) (present : (s.side d).carrier = true) (b : Byte) : LinkLaw (receiveInside d b s) := by
  have law := h.sides d
  unfold Machine.receiveInside
  split
  · exact h
  · next sync reception =>
    split
    · exact (h.hunt d).countLink d _ _
    · next len =>
      have head := law.sync
      rw [reception] at head
      refine h.putSide (law.receives present head fun a len' rest same => ?_)
      cases same
      exact ⟨by omega, by simp only [List.length_nil]; omega⟩
  · next sync len rest reception =>
    obtain ⟨short, unfinished⟩ := law.unfinished sync len rest reception
    have head := law.sync
    rw [reception] at head
    split
    · next complete =>
      unfold takeArrival
      split
      · next f good =>
        have length := length_body_of_goodFrame good
        simp only [List.length_append, List.length_cons, List.length_nil] at length
        exact (h.hunt d).takeFrame d (by omega) (answers_serveMessage _ _ _)
      · exact (h.hunt d).countLink d _ _
    · next incomplete =>
      refine h.putSide (law.receives present head fun a len' rest' same => ?_)
      cases same
      refine ⟨short, ?_⟩
      show (rest ++ [b]).length < len.toNat + 7
      rw [List.length_append]
      simp only [List.length_cons, List.length_nil]
      omega

theorem LinkLaw.receiveByte (h : LinkLaw s) (d : Side) (b : Byte) : LinkLaw (receiveByte d s b) := by
  unfold Machine.receiveByte
  split
  · next present =>
    split
    · split
      · next sync =>
        exact h.putSide ((h.sides d).receives present (fun b' head => by cases head; exact sync) fun a len rest same => by cases same)
      · exact h
    · exact h.receiveInside d present b
  · exact h

theorem LinkLaw.arrive (h : LinkLaw s) (d : Side) (bytes : List Byte) : LinkLaw (arrive d bytes s) := by
  unfold Machine.arrive
  split
  · exact h
  · have fold (l : List Byte) : LinkLaw (l.foldl (Machine.receiveByte d) s) := by
      induction l using List.reverseRecOn with
      | nil => exact h
      | append_singleton l b ih =>
        rw [List.foldl_append]
        exact ih.receiveByte d b
    exact fold bytes

/-! ## Every command -/

theorem sideLaw_lost (c : LinkCounters) : SideLaw { carrier := false, queue := [], reception := [], counters := c } :=
  ⟨Nat.zero_le _, nofun, fun _ => ⟨rfl, rfl⟩, nofun, nofun⟩

theorem SideLaw.returns {x : SideState} (h : SideLaw x) : SideLaw { x with carrier := true, reception := [] } :=
  ⟨h.room, h.bodies, nofun, nofun, nofun⟩

theorem LinkLaw.second (h : LinkLaw s) (order : List TickOwner) : LinkLaw (second order s) :=
  second_keeps (fun _ _ before => ⟨fun d => before.sides d, before.slot⟩) (fun u o before => before.of_outside (outside_ownerTick u o)) order h

theorem LinkLaw.beginHold (h : LinkLaw s) : LinkLaw (beginHold s) where
  sides d := by
    cases d
    · exact (h.sides .west).hunts
    · exact (h.sides .east).hunts
  slot := h.slot

theorem LinkLaw.completeReset (pins : ResetPins) : LinkLaw (completeReset pins s) :=
  ⟨fun d => (inv_afterPowerOn pins).links.sides d, nofun⟩

theorem LinkLaw.exec (h : LinkLaw s) {c : Instr} (wf : c.wf = true) (ran : exec c s = .next t) : LinkLaw t := by
  cases row : c.request? with
  | some x =>
    rw [exec_request c x.1 x.2 row] at ran
    cases ran
    exact h.takeRequest _ (length_body_le (wf_of_row row wf))
  | none =>
    cases c <;> simp only [Instr.request?, reduceCtorEq] at row <;> obtain rfl := Host.Outcome.next.inj ran
    case localTransaction bits cut => exact h.localTransaction bits cut
    case frameArrival d bytes => exact h.arrive d bytes
    case transmissionCompletion d =>
      split
      · exact h
      · unfold completeTransmission
        split
        · next present =>
          have law := h.sides d
          exact h.putSide ⟨(by rw [List.length_tail]; exact (Nat.sub_le _ _).trans law.room), fun f queued => law.bodies f (List.mem_of_mem_tail queued),
            fun lost => absurd (lost.symm.trans present) nofun, law.sync, law.unfinished⟩
        · exact h
    case carrierLoss d =>
      split
      · exact h
      · unfold loseCarrier
        dsimp only
        split
        · exact LinkLaw.setNotice (h.putSide (sideLaw_lost _)) _
        · exact h
    case carrierReturn d =>
      split
      · exact h
      · unfold returnCarrier
        dsimp only
        split
        · exact h
        · exact LinkLaw.setNotice (h.putSide (h.sides d).returns) _
    case scanTick lines =>
      split
      · exact h
      · exact LinkLaw.of_outside (s := { s with cs := lines }) ⟨fun d => h.sides d, h.slot⟩ (follows_scan lines s).outside
    case secondTick order => exact h.second order
    case staleCountdownExpiry p =>
      split
      · exact h.of_outside (outside_staleExpire p s)
      · exact h
    case shelveExpiry p =>
      split
      · exact h.of_outside (outside_shelveExpire p s)
      · exact h
    case refill g =>
      split
      · exact h
      · exact h.of_outside (outside_refillGovernor g s)
    case settleExpiry =>
      split
      · exact h
      · exact h.of_outside (outside_settleExpire s)
    case powerOn => exact LinkLaw.beginHold ⟨fun d => h.sides d, h.slot⟩
    case powerOnCompletion pins =>
      split
      · split
        · exact ⟨fun d => h.sides d, h.slot⟩
        · exact .completeReset pins
      · exact h
    case resetPinAssert =>
      split
      · exact h
      · exact LinkLaw.beginHold ⟨fun d => h.sides d, h.slot⟩
    case resetPinRelease pins =>
      split
      · split
        · exact ⟨fun d => h.sides d, h.slot⟩
        · exact .completeReset pins
      · exact h

/-- Settles O59: the commands that wait lose their head; the carriers and the flags go together; a frame and a reply fit a frame. -/
theorem stepsKeepLinksModesAndNotices : Obligations.StepsKeepLinksModesAndNotices := by
  unfold Obligations.StepsKeepLinksModesAndNotices
  intro s t queue links time notices ran
  unfold step at ran
  split at ran
  · cases ran
    exact ⟨queue, links, time, notices⟩
  · next c rest waiting =>
    have levels : LevelsLaw { s with pending := rest } := ⟨⟨time.settle, time.held⟩, ⟨notices.poolFull, notices.link⟩⟩
    have after := levelsLaw_commandOps.exec_all (fun pins _ power _ => LevelsLaw.completeReset pins power) levels ran
    have wf : c.wf = true := queue c (by rw [waiting]; exact List.mem_cons_self)
    refine ⟨fun c' waits => queue c' ?_, LinkLaw.exec (s := { s with pending := rest }) ⟨fun d => links.sides d, links.slot⟩ wf ran,
      after.time, after.notices⟩
    rw [pending_exec ran] at waits
    rw [waiting]
    exact List.mem_cons_of_mem c waits

end Steps

end Sys2Proof.Machine
end

