-- ==== Sys2Proof/Proofs/Conditions.lean ====
section
/-! PROOF. The laws that tie keys, records, waiting lists and governors together, said of one key, one record and one group at a time; and
the frame of a transition, which changes a few keys and a few records that are linked among themselves alone. -/

namespace Sys2Proof.Machine

/-! ## The laws of one key, one record, one group -/

/-- What a transition in the middle of a command may leave undone: a full bucket whose key has not been asked, a governor that may still
release, a storm record that has still to be raised or cleared. -/
structure Slack where
  key : PointKey → Prop
  release : GroupId → Prop
  storm : GroupId → Prop

/-- Nothing is left undone. -/
def Slack.none : Slack := ⟨fun _ => False, fun _ => False, fun _ => False⟩

/-- What KeyLaw, WaitLaw and DivertedLaw say of one key (R36 to R38, R59, R74, R98, R100). -/
structure KeyOk (sl : Slack) (s : State) (k : PointKey) : Prop where
  vacant : (s.point k.point).defn = none → s.key k = .quiet
  linked : ∀ i, (s.key k).link = some i → (s.record i).key = some (.point k) ∧
    ((s.key k).state = .cleared ↔ (s.record i).state = .cleared) ∧
    ∀ d, (s.point k.point).defn = some d → (s.record i).severity = d.severity k.kind
  linkByState : (s.key k).link.isSome = decide ((s.key k).state = .raised ∨ (s.key k).state = .cleared)
  pendingByState : (s.key k).pending.isSome = decide ((s.key k).state = .held ∨ (s.key k).state = .waiting)
  pendingSeverity : ∀ v d, (s.key k).pending = some v → (s.point k.point).defn = some d →
    v.severity = d.severity k.kind ∧ v.value.isSome = k.kind.hasValue
  clearedLatched : ∀ d, (s.key k).state = .cleared → (s.point k.point).defn = some d → d.retirement = .latched
  unevaluatedQuiet : ∀ d, (s.point k.point).defn = some d → k.kind.hasValue = true → d.evaluation k.kind = none → (s.key k).state = .quiet
  fullAsksOnce : ∀ d, ¬ sl.key k → (s.point k.point).defn = some d → k.kind.hasValue = true → (s.point k.point).bucket k.kind = d.capacity →
    (s.key k).state ≠ .quiet ∧ (s.key k).state ≠ .cleared
  waiting : k ∈ s.rt.poolWait ↔ (s.key k).state = .waiting
  held : ∀ g, k ∈ (s.governor g).held ↔ (s.key k).state = .held ∧ s.groupOf k = g
  folded : ∀ g, k ∈ (s.governor g).folded ↔ (s.key k).state = .folded ∧ s.groupOf k = g

/-- What KeyLaw says of one record (R4, R36). -/
structure RecordOk (s : State) (i : RecordIx) : Prop where
  linked : ∀ k, (s.record i).key = some (.point k) → (s.key k).link = some i
  peak : (s.record i).peak.isSome = keyHasPeak (s.record i).key

/-- The lists of keys: each key once, the pool wait list by severity and only while no record is Free (R74, R98, R100). -/
structure ListsOk (s : State) : Prop where
  waitOnce : s.rt.poolWait.Nodup
  bySeverity : s.rt.poolWait.Pairwise fun a b => (s.pendingOf b).severity.level ≤ (s.pendingOf a).severity.level
  noneFree : s.rt.poolWait ≠ [] → s.rt.free = []
  heldOnce : ∀ g, (s.governor g).held.Nodup
  foldedOnce : ∀ g, (s.governor g).folded.Nodup

/-- What StormLaw says of one governor and the state of its storm record (R104, R107). -/
structure StormFits (release storm : Prop) (x : Governor) (state : RecordState) : Prop where
  held : x.held ≠ [] → x.defn.mode = .hold ∧ (release ∨ x.gate = .closed ∨ x.tokens = 0)
  folded : x.folded ≠ [] → x.defn.mode = .fold ∧ (storm ∨ state = .standing ∨ state = .acknowledged)
  holdCleared : ¬ storm → x.defn.mode = .hold → state = .idle ∨ state = .cleared
  openEmptyCleared : ¬ storm → x.folded = [] → x.gate = .opened → state = .idle ∨ state = .cleared

/-- The laws together, but for the slack of a transition. -/
structure Conditions (sl : Slack) (s : State) : Prop where
  table : TableLaw s
  keys : ∀ k, KeyOk sl s k
  records : ∀ i, RecordOk s i
  lists : ListsOk s
  storms : ∀ g, StormFits (sl.release g) (sl.storm g) (s.governor g) (s.record (stormIx g)).state

/-! ## To and from the laws of Safety.lean -/

section Laws

variable {s : State}

theorem conditions_of_laws (table : TableLaw s) (keys : KeyLaw s) (waits : WaitLaw s) (diverted : DivertedLaw s) (storms : StormLaw s) :
    Conditions .none s where
  table := table
  keys k :=
    { vacant := fun vacant => by
        rw [State.key, keys.vacantQuiet k.point vacant]
        cases k.kind <;> rfl
      linked := fun i link =>
        ⟨(keys.linkedTogether k i).1 link, keys.clearedTogether k i link, fun d defn => keys.recordSeverity k i d link defn⟩
      linkByState := keys.linkByState k
      pendingByState := keys.pendingByState k
      pendingSeverity := keys.pendingSeverity k
      clearedLatched := keys.clearedLatched k
      unevaluatedQuiet := keys.unevaluatedQuiet k
      fullAsksOnce := fun d _ => keys.fullAsksOnce k d
      waiting := waits.waiting k
      held := fun g => diverted.held g k
      folded := fun g => diverted.folded g k }
  records i := ⟨fun k key => (keys.linkedTogether k i).2 key, keys.peakByKind i⟩
  lists := ⟨waits.once, waits.bySeverity, waits.noneFree, diverted.heldOnce, diverted.foldedOnce⟩
  storms g :=
    { held := fun held => (storms.heldOnlyInHold g held).imp_right .inr
      folded := fun folded => (storms.foldedOnlyInFold g folded).imp_right .inr
      holdCleared := fun _ => storms.holdCleared g
      openEmptyCleared := fun _ => storms.openEmptyCleared g }

theorem Conditions.keyLaw (h : Conditions .none s) (points : PointLaw s) : KeyLaw s where
  linkedTogether k i := ⟨fun link => ((h.keys k).linked i link).1, (h.records i).linked k⟩
  linkByState k := (h.keys k).linkByState
  peakByKind i := (h.records i).peak
  clearedTogether k i link := ((h.keys k).linked i link).2.1
  pendingByState k := (h.keys k).pendingByState
  vacantQuiet p vacant := by
    obtain ⟨low, high, stale, shelve⟩ := points.vacant p vacant
    have quiet (kind : Kind) : (s.point p).keys.get kind = .quiet := (h.keys ⟨p, kind⟩).vacant vacant
    have keys : (s.point p).keys = .quiet := by
      have := quiet .low; have := quiet .high; have := quiet .stale; have := quiet .fault
      rcases keys : (s.point p).keys with ⟨a, b, c, d⟩
      simp_all [Keys.get, Keys.quiet]
    rcases entry : s.point p with ⟨a, b, c, d, e, f⟩
    rw [entry] at vacant low high stale shelve keys
    simp_all [PointEntry.vacant]
  pendingSeverity k := (h.keys k).pendingSeverity
  recordSeverity k i d link := ((h.keys k).linked i link).2.2 d
  clearedLatched k := (h.keys k).clearedLatched
  unevaluatedQuiet k := (h.keys k).unevaluatedQuiet
  fullAsksOnce k d := (h.keys k).fullAsksOnce d id

theorem Conditions.waitLaw (h : Conditions .none s) : WaitLaw s :=
  ⟨fun k => (h.keys k).waiting, h.lists.waitOnce, h.lists.bySeverity, h.lists.noneFree⟩

theorem Conditions.divertedLaw (h : Conditions .none s) : DivertedLaw s :=
  ⟨fun g k => (h.keys k).held g, h.lists.heldOnce, fun g k => (h.keys k).folded g, h.lists.foldedOnce⟩

theorem Conditions.stormLaw (h : Conditions .none s) : StormLaw s where
  heldOnlyInHold g held := ((h.storms g).held held).imp_right fun x => x.resolve_left id
  foldedOnlyInFold g folded := ((h.storms g).folded folded).imp_right fun x => x.resolve_left id
  holdCleared g := (h.storms g).holdCleared id
  openEmptyCleared g := (h.storms g).openEmptyCleared id

end Laws

/-! ## The frame of a transition -/

/-- A transition that changes the keys of `K` and the records of `R`: every other key keeps its entry, its place, the definition of its
point and its bucket, every other record its fields. -/
structure Changes (K : PointKey → Prop) (R : RecordIx → Prop) (s t : State) : Prop where
  defn : ∀ k, ¬ K k → (t.point k.point).defn = (s.point k.point).defn
  bucket : ∀ k, ¬ K k → (t.point k.point).bucket k.kind = (s.point k.point).bucket k.kind
  keys : ∀ k, ¬ K k → t.key k = s.key k
  records : ∀ i, ¬ R i → t.record i = s.record i
  waiting : ∀ k, ¬ K k → (k ∈ t.rt.poolWait ↔ k ∈ s.rt.poolWait)
  held : ∀ g k, ¬ K k → (k ∈ (t.governor g).held ↔ k ∈ (s.governor g).held)
  folded : ∀ g k, ¬ K k → (k ∈ (t.governor g).folded ↔ k ∈ (s.governor g).folded)

section Frames

variable {K : PointKey → Prop} {R : RecordIx → Prop} {s t : State} {sl : Slack}

theorem KeyOk.frame {k : PointKey} (h : KeyOk sl s k) (f : Changes K R s t) (closed : ∀ k i, (s.record i).key = some (.point k) → (K k ↔ R i))
    (other : ¬ K k) : KeyOk sl t k := by
  have key := f.keys k other
  have defn := f.defn k other
  have group : t.groupOf k = s.groupOf k := by rw [State.groupOf, State.groupOf, defn]
  constructor
  case linked =>
    rw [key, defn]
    intro i link
    have before := h.linked i link
    rw [f.records i fun r => other ((closed k i before.1).2 r)]
    exact before
  case waiting => rw [key, f.waiting k other]; exact h.waiting
  case held => intro g; rw [key, f.held g k other, group]; exact h.held g
  case folded => intro g; rw [key, f.folded g k other, group]; exact h.folded g
  case fullAsksOnce => rw [key, defn, f.bucket k other]; exact h.fullAsksOnce
  case vacant => rw [key, defn]; exact h.vacant
  case linkByState => rw [key]; exact h.linkByState
  case pendingByState => rw [key]; exact h.pendingByState
  case pendingSeverity => rw [key, defn]; exact h.pendingSeverity
  case clearedLatched => rw [key, defn]; exact h.clearedLatched
  case unevaluatedQuiet => rw [key, defn]; exact h.unevaluatedQuiet

theorem RecordOk.frame {i : RecordIx} (h : RecordOk s i) (f : Changes K R s t)
    (closed : ∀ k i, (s.record i).key = some (.point k) → (K k ↔ R i)) (other : ¬ R i) : RecordOk t i := by
  have record := f.records i other
  refine ⟨fun k key => ?_, by rw [record]; exact h.peak⟩
  rw [record] at key
  rw [f.keys k fun c => other ((closed k i key).1 c)]
  exact h.linked k key

/-- A transition keeps the laws when the keys and the records that it changes keep them, the lists keep theirs, and the storm records fit
their governors. -/
theorem Conditions.step (h : Conditions sl s) (f : Changes K R s t) (closed : ∀ k i, (s.record i).key = some (.point k) → (K k ↔ R i))
    {sl' : Slack} (same : sl'.key = sl.key) (table : TableLaw t) (keys : ∀ k, K k → KeyOk sl' t k) (records : ∀ i, R i → RecordOk t i)
    (lists : ListsOk t) (storms : ∀ g, StormFits (sl'.release g) (sl'.storm g) (t.governor g) (t.record (stormIx g)).state) :
    Conditions sl' t where
  table := table
  keys k := by
    by_cases changed : K k
    · exact keys k changed
    · have kept := (h.keys k).frame f closed changed
      exact { kept with fullAsksOnce := fun d asked => kept.fullAsksOnce d (same ▸ asked) }
  records i := by
    by_cases changed : R i
    · exact records i changed
    · exact (h.records i).frame f closed changed
  lists := lists
  storms := storms

end Frames

end Sys2Proof.Machine
end

