-- ==== Sys2Proof/Proofs/KeyMoves.lean ====
section
/-! PROOF. The transitions of a key that take it to a record, to a waiting list, or back to Quiet, keep the conditions of Conditions.lean. -/

namespace Sys2Proof.Machine

/-! ## The place on the pool wait list (R73) -/

/-- A key takes its place behind every key of its severity or more and, on a list in order, ahead of every key of less. -/
theorem insertBySeverity_place (f : PointKey → Severity) (k : PointKey) (sev : Severity) (l : List PointKey) :
    ∃ a b, l = a ++ b ∧ insertBySeverity f k sev l = a ++ k :: b ∧ (∀ w ∈ a, sev.level ≤ (f w).level) ∧
      ((l.Pairwise fun x y => (f y).level ≤ (f x).level) → ∀ w ∈ b, (f w).level < sev.level) := by
  induction l with
  | nil => exact ⟨[], [], rfl, rfl, nofun, fun _ => nofun⟩
  | cons x rest ih =>
    unfold insertBySeverity
    split
    · next meets =>
      obtain ⟨a, b, split, placed, ahead, behind⟩ := ih
      refine ⟨x :: a, b, by rw [split]; rfl, by rw [placed]; rfl, fun w m => ?_, fun sorted => behind (List.pairwise_cons.1 sorted).2⟩
      rcases List.mem_cons.1 m with same | m
      · rw [same]
        exact of_decide_eq_true meets
      · exact ahead w m
    · next less =>
      have less : (f x).level < sev.level := not_le.1 fun le => less (decide_eq_true le)
      refine ⟨[], x :: rest, rfl, rfl, nofun, fun sorted w m => ?_⟩
      rcases List.mem_cons.1 m with same | m
      · rwa [same]
      · exact ((List.pairwise_cons.1 sorted).1 w m).trans_lt less

/-- The list stays in order, each key once. -/
theorem insertBySeverity_keeps {f f' : PointKey → Severity} {k : PointKey} {sev : Severity} {l : List PointKey} (once : l.Nodup) (new : k ∉ l)
    (sorted : l.Pairwise fun x y => (f y).level ≤ (f x).level) (severity : f' k = sev) (same : ∀ w ∈ l, f' w = f w) :
    (insertBySeverity f k sev l).Nodup ∧ (insertBySeverity f k sev l).Pairwise fun x y => (f' y).level ≤ (f' x).level := by
  obtain ⟨a, b, split, placed, ahead, behind⟩ := insertBySeverity_place f k sev l
  replace behind := behind sorted
  subst split
  have perm : List.Perm (a ++ k :: b) (k :: (a ++ b)) := List.perm_middle
  rw [placed]
  refine ⟨perm.nodup_iff.2 (List.nodup_cons.2 ⟨new, once⟩), ?_⟩
  have before : (a ++ b).Pairwise fun x y => (f' y).level ≤ (f' x).level :=
    sorted.imp_of_mem fun mx my le => by rwa [same _ mx, same _ my]
  obtain ⟨pa, pb, pab⟩ := List.pairwise_append.1 before
  refine List.pairwise_append.2 ⟨pa, List.pairwise_cons.2 ⟨fun w m => ?_, pb⟩, fun x mx y my => ?_⟩
  · rw [severity, same w (List.mem_append_right a m)]
    exact (behind w m).le
  · rcases List.mem_cons.1 my with rfl | my
    · rw [severity, same x (List.mem_append_left b mx)]
      exact ahead x mx
    · exact pab x mx y my

/-! ## One key -/

section Key

variable {sl : Slack} {s t : State} {k : PointKey}

/-- A key that stands on no list. -/
structure Absent (k : PointKey) (s : State) : Prop where
  waiting : k ∉ s.rt.poolWait
  held : ∀ g, k ∉ (s.governor g).held
  folded : ∀ g, k ∉ (s.governor g).folded

theorem KeyOk.absent (h : KeyOk sl s k) (waiting : (s.key k).state ≠ .waiting) (held : (s.key k).state ≠ .held)
    (folded : (s.key k).state ≠ .folded) : Absent k s :=
  ⟨fun m => waiting (h.waiting.1 m), fun g m => held ((h.held g).1 m).1, fun g m => folded ((h.folded g).1 m).1⟩

theorem KeyOk.link_none (h : KeyOk sl s k) (raised : (s.key k).state ≠ .raised) (cleared : (s.key k).state ≠ .cleared) :
    (s.key k).link = none := by
  have link := h.linkByState
  rw [decide_eq_false (not_or.2 ⟨raised, cleared⟩)] at link
  exact Option.not_isSome_iff_eq_none.1 (by rw [link]; decide)

/-- A key without a link is linked to no record. -/
theorem Conditions.unlinked (h : Conditions sl s) (link : (s.key k).link = none) (i : RecordIx) : (s.record i).key ≠ some (.point k) :=
  fun key => by
    have linked := (h.records i).linked k key
    rw [link] at linked
    cases linked

theorem keyOk_of_quiet (key : t.key k = .quiet) (absent : Absent k t)
    (notFull : ∀ d, ¬ sl.key k → (t.point k.point).defn = some d → k.kind.hasValue = true → (t.point k.point).bucket k.kind ≠ d.capacity) :
    KeyOk sl t k := by
  constructor <;> rw [key]
  case fullAsksOnce => exact fun d asked defn value full => absurd full (notFull d asked defn value)
  case waiting => exact iff_of_false absent.waiting nofun
  case held => exact fun g => iff_of_false (absent.held g) fun x => nomatch x.1
  case folded => exact fun g => iff_of_false (absent.folded g) fun x => nomatch x.1
  case vacant => exact fun _ => rfl
  case linked => exact fun _ link => nomatch link
  case linkByState => rfl
  case pendingByState => rfl
  case pendingSeverity => exact fun _ _ pending => nomatch pending
  case clearedLatched => exact fun _ clear => nomatch clear
  case unevaluatedQuiet => exact fun _ _ _ _ => rfl

/-- A key linked to a record, Raised, or Cleared under Latched policy with its bucket not full. -/
theorem keyOk_of_linked {i : RecordIx} {d : Definition} {cleared : Bool}
    (key : t.key k = { state := if cleared then .cleared else .raised, link := some i, pending := none })
    (defn : (t.point k.point).defn = some d) (record : (t.record i).key = some (.point k))
    (state : cleared = decide ((t.record i).state = .cleared)) (severity : (t.record i).severity = d.severity k.kind)
    (evaluated : k.kind.hasValue = true → d.evaluation k.kind ≠ none) (absent : Absent k t)
    (latched : cleared = true → d.retirement = .latched)
    (notFull : cleared = true → ¬ sl.key k → k.kind.hasValue = true → (t.point k.point).bucket k.kind ≠ d.capacity) : KeyOk sl t k := by
  have same {e : Definition} (found : (t.point k.point).defn = some e) : e = d := Option.some.inj (found.symm.trans defn)
  constructor <;> rw [key]
  case vacant => exact fun vacant => absurd (defn.symm.trans vacant) nofun
  case linked =>
    intro j link
    obtain rfl := Option.some.inj link
    refine ⟨record, ?_, fun e found => same found ▸ severity⟩
    cases cleared
    · exact iff_of_false nofun (of_decide_eq_false state.symm)
    · exact iff_of_true rfl (of_decide_eq_true state.symm)
  case linkByState => cases cleared <;> rfl
  case pendingByState => cases cleared <;> rfl
  case pendingSeverity => exact fun _ _ pending => nomatch pending
  case clearedLatched =>
    intro e clear found
    rw [same found]
    cases cleared
    · cases clear
    · exact latched rfl
  case unevaluatedQuiet => exact fun e found value none => absurd (same found ▸ none) (evaluated value)
  case fullAsksOnce =>
    intro e asked found value full
    cases cleared
    · exact ⟨nofun, nofun⟩
    · exact absurd (same found ▸ full) (notFull rfl asked value)
  case waiting => cases cleared <;> exact iff_of_false absent.waiting nofun
  case held => intro g; cases cleared <;> exact iff_of_false (absent.held g) fun x => nomatch x.1
  case folded => intro g; cases cleared <;> exact iff_of_false (absent.folded g) fun x => nomatch x.1

/-- A key that waits with its pending value, on the pool wait list or on the storm-held list of its group. -/
theorem keyOk_of_pending {d : Definition} {v : Pending} {held : Bool}
    (key : t.key k = { state := if held then .held else .waiting, link := none, pending := some v })
    (defn : (t.point k.point).defn = some d) (severity : v.severity = d.severity k.kind) (value : v.value.isSome = k.kind.hasValue)
    (evaluated : k.kind.hasValue = true → d.evaluation k.kind ≠ none) (waiting : k ∈ t.rt.poolWait ↔ held = false)
    (onHeld : ∀ g, k ∈ (t.governor g).held ↔ held = true ∧ t.groupOf k = g) (folded : ∀ g, k ∉ (t.governor g).folded) : KeyOk sl t k := by
  have same {e : Definition} (found : (t.point k.point).defn = some e) : e = d := Option.some.inj (found.symm.trans defn)
  constructor <;> rw [key]
  case vacant => exact fun vacant => absurd (defn.symm.trans vacant) nofun
  case linked => exact fun _ link => nomatch link
  case linkByState => cases held <;> rfl
  case pendingByState => cases held <;> rfl
  case pendingSeverity =>
    intro w e pending found
    obtain rfl := Option.some.inj pending
    exact same found ▸ ⟨severity, value⟩
  case clearedLatched => cases held <;> exact fun _ clear => nomatch clear
  case unevaluatedQuiet => exact fun e found value none => absurd (same found ▸ none) (evaluated value)
  case fullAsksOnce => cases held <;> exact fun _ _ _ _ _ => ⟨nofun, nofun⟩
  case waiting => rw [waiting]; cases held <;> simp
  case held => intro g; rw [onHeld]; cases held <;> simp
  case folded => intro g; cases held <;> exact iff_of_false (folded g) fun x => nomatch x.1

theorem keyOk_of_folded {d : Definition} (key : t.key k = { state := .folded, link := none, pending := none })
    (defn : (t.point k.point).defn = some d) (evaluated : k.kind.hasValue = true → d.evaluation k.kind ≠ none) (waiting : k ∉ t.rt.poolWait)
    (held : ∀ g, k ∉ (t.governor g).held) (folded : ∀ g, k ∈ (t.governor g).folded ↔ t.groupOf k = g) : KeyOk sl t k := by
  have same {e : Definition} (found : (t.point k.point).defn = some e) : e = d := Option.some.inj (found.symm.trans defn)
  constructor <;> rw [key]
  case vacant => exact fun vacant => absurd (defn.symm.trans vacant) nofun
  case linked => exact fun _ link => nomatch link
  case linkByState => rfl
  case pendingByState => rfl
  case pendingSeverity => exact fun _ _ pending => nomatch pending
  case clearedLatched => exact fun _ clear => nomatch clear
  case unevaluatedQuiet => exact fun e found value none => absurd (same found ▸ none) (evaluated value)
  case fullAsksOnce => exact fun _ _ _ _ _ => ⟨nofun, nofun⟩
  case waiting => exact iff_of_false waiting nofun
  case held => exact fun g => iff_of_false (held g) fun x => nomatch x.1
  case folded => exact fun g => by rw [folded]; simp

/-- A pool record that has just been allocated, or that nothing holds. -/
theorem recordOk_newRecord {i : RecordIx} {v : Pending} {now : Quad} (record : t.record i = newRecord k v now)
    (value : v.value.isSome = k.kind.hasValue) (link : (t.key k).link = some i) : RecordOk t i := by
  constructor <;> rw [record]
  · intro k' key
    obtain rfl := Key.point.inj (Option.some.inj key)
    exact link
  · show (if k.kind.hasValue then v.value else none).isSome = k.kind.hasValue
    split
    · exact value
    · next none => rw [Bool.not_eq_true] at none; rw [none]; rfl

theorem recordOk_ended {i : RecordIx} {r : Record} {state : RecordState} (record : t.record i = r.endLife state) : RecordOk t i := by
  constructor <;> rw [record]
  · exact fun _ key => nomatch key
  · rfl

/-- The severity and the value with which a key waits or is raised are those of its point (R28, R36, R69). -/
structure Carries (k : PointKey) (v : Pending) (s : State) : Prop where
  defined : ∃ d, (s.point k.point).defn = some d ∧ v.severity = d.severity k.kind ∧ (k.kind.hasValue = true → d.evaluation k.kind ≠ none)
  value : v.value.isSome = k.kind.hasValue

/-- A key that is not Quiet is of a point In Service and of a kind that is evaluated. -/
theorem KeyOk.defined (h : KeyOk sl s k) (busy : (s.key k).state ≠ .quiet) :
    ∃ d, (s.point k.point).defn = some d ∧ (k.kind.hasValue = true → d.evaluation k.kind ≠ none) := by
  cases defn : (s.point k.point).defn with
  | none => exact absurd (congrArg KeyEntry.state (h.vacant defn)) busy
  | some d => exact ⟨d, rfl, fun value none => busy (h.unevaluatedQuiet d defn value none)⟩

/-- A key that waits carries what its point says. -/
theorem KeyOk.carries (h : KeyOk sl s k) (waits : (s.key k).state = .held ∨ (s.key k).state = .waiting) : Carries k (s.pendingOf k) s := by
  have some' := h.pendingByState
  rw [decide_eq_true waits] at some'
  obtain ⟨v, pending⟩ := Option.isSome_iff_exists.1 some'
  have same : s.pendingOf k = v := by rw [State.pendingOf, pending]
  obtain ⟨d, defn, evaluated⟩ := h.defined (by rcases waits with e | e <;> rw [e] <;> nofun)
  obtain ⟨severity, value⟩ := h.pendingSeverity v d pending defn
  exact ⟨⟨d, defn, same ▸ severity, evaluated⟩, same ▸ value⟩

end Key

end Sys2Proof.Machine
end

