-- ==== Sys2Proof/Proofs/ConditionMoves.lean ====
section
/-! PROOF. The transitions of records, waiting lists and governors, each said by what it changes, keep the conditions of Conditions.lean. -/

namespace Sys2Proof.Machine

/-- Every point keeps its definition and its buckets. -/
def SamePoints (s t : State) : Prop :=
  ∀ p, (t.point p).defn = (s.point p).defn ∧ ∀ kind, (t.point p).bucket kind = (s.point p).bucket kind

section Points

variable {s t u : State}

theorem SamePoints.refl (s : State) : SamePoints s s := fun _ => ⟨rfl, fun _ => rfl⟩

theorem SamePoints.trans (h : SamePoints s t) (h' : SamePoints t u) : SamePoints s u := fun p =>
  ⟨(h' p).1.trans (h p).1, fun kind => ((h' p).2 kind).trans ((h p).2 kind)⟩

theorem SamePoints.symm (h : SamePoints s t) : SamePoints t s := fun p => ⟨(h p).1.symm, fun kind => ((h p).2 kind).symm⟩

theorem Kept.samePoints (h : Kept s t) : SamePoints s t := fun p => by
  obtain ⟨defn, low, high, -⟩ := h.points p
  exact ⟨defn, fun kind => bucket_congr low high kind⟩

theorem SamePoints.groupOf (h : SamePoints s t) (k : PointKey) : t.groupOf k = s.groupOf k := by
  rw [State.groupOf, State.groupOf, (h _).1]

theorem Carries.of_points {k : PointKey} {v : Pending} (h : Carries k v s) (points : SamePoints s t) : Carries k v t :=
  ⟨by rw [(points _).1]; exact h.defined, h.value⟩

theorem pendingOf_congr {w : PointKey} (key : t.key w = s.key w) : t.pendingOf w = s.pendingOf w := by
  rw [State.pendingOf, State.pendingOf, key]

/-- The lists are kept by a transition that leaves every list of keys and what waits on it. -/
theorem ListsOk.of_same (h : ListsOk s) (waits : t.rt.poolWait = s.rt.poolWait) (keys : ∀ w ∈ s.rt.poolWait, t.key w = s.key w)
    (free : s.rt.poolWait ≠ [] → t.rt.free = []) (held : ∀ g, (t.governor g).held = (s.governor g).held)
    (folded : ∀ g, (t.governor g).folded = (s.governor g).folded) : ListsOk t where
  waitOnce := by rw [waits]; exact h.waitOnce
  bySeverity := by
    rw [waits]
    refine h.bySeverity.imp_of_mem fun mx my le => ?_
    rwa [pendingOf_congr (keys _ mx), pendingOf_congr (keys _ my)]
  noneFree := by rw [waits]; exact free
  heldOnce g := by rw [held]; exact h.heldOnce g
  foldedOnce g := by rw [folded]; exact h.foldedOnce g

end Points

/-- The storm records and their governors fit, but for a slack. -/
def StormsFit (sl : Slack) (s : State) : Prop :=
  ∀ g, StormFits (sl.release g) (sl.storm g) (s.governor g) (s.record (stormIx g)).state

section Storms

variable {sl : Slack} {s t : State}

theorem StormsFit.of_same (h : StormsFit sl s) (governors : ∀ g, t.governor g = s.governor g)
    (records : ∀ g, (t.record (stormIx g)).state = (s.record (stormIx g)).state) : StormsFit sl t := fun g => by
  rw [governors g, records g]
  exact h g

/-- A change of one pool record leaves the storm records. -/
theorem StormsFit.of_pool (h : StormsFit sl s) (governors : ∀ g, t.governor g = s.governor g) {i : RecordIx} {r : Record}
    (pool : isPool i = true) (records : ∀ j, t.record j = if i = j then r else s.record j) : StormsFit sl t :=
  h.of_same governors fun g => by
    rw [records, if_neg]
    rintro rfl
    rw [stormIx_not_pool] at pool
    cases pool

end Storms

section Moves

variable {sl : Slack} {s t : State} {k : PointKey} {v : Pending} {i : RecordIx}

/-- The keys of a record: the point key that it carries, if any. -/
def Record.holds (r : Record) (k : PointKey) : Prop := r.key = some (.point k)

theorem Conditions.linked_iff (h : Conditions sl s) (k : PointKey) (i : RecordIx) : (s.record i).holds k ↔ (s.key k).link = some i :=
  ⟨(h.records i).linked k, fun link => ((h.keys k).linked i link).1⟩

/-- A key that a record carries is Raised or Cleared, and on no list. -/
theorem Conditions.of_holds (h : Conditions sl s) (holds : (s.record i).holds k) :
    (s.key k).state = .raised ∨ (s.key k).state = .cleared := by
  have link := (h.keys k).linkByState
  rw [(h.linked_iff k i).1 holds] at link
  exact of_decide_eq_true link.symm

theorem Conditions.absent_of_holds (h : Conditions sl s) (holds : (s.record i).holds k) : Absent k s := by
  rcases h.of_holds holds with state | state <;> exact (h.keys k).absent (by rw [state]; nofun) (by rw [state]; nofun) (by rw [state]; nofun)

theorem Conditions.absent_of_quiet (h : Conditions sl s) (quiet : s.key k = .quiet) : Absent k s :=
  (h.keys k).absent (by rw [quiet]; nofun) (by rw [quiet]; nofun) (by rw [quiet]; nofun)

theorem Conditions.not_holds_of_quiet (h : Conditions sl s) (quiet : s.key k = .quiet) (i : RecordIx) : ¬ (s.record i).holds k :=
  h.unlinked (by rw [quiet]; rfl) i

theorem Conditions.ne_of_waits (h : Conditions sl s) {w : PointKey} (waits : w ∈ s.rt.poolWait) (quiet : s.key k = .quiet) : k ≠ w := by
  rintro rfl
  exact (h.absent_of_quiet quiet).waiting waits

theorem Conditions.not_holds_of_waits (h : Conditions sl s) {w : PointKey} (waits : w ∈ s.rt.poolWait) (i : RecordIx) :
    ¬ (s.record i).holds w := fun holds => (h.absent_of_holds holds).waiting waits

theorem Absent.of_same (h : Absent k s) (waits : t.rt.poolWait = s.rt.poolWait) (governors : ∀ g, t.governor g = s.governor g) : Absent k t :=
  ⟨by rw [waits]; exact h.waiting, fun g => by rw [governors]; exact h.held g, fun g => by rw [governors]; exact h.folded g⟩

/-- Nothing but governors has changed. -/
theorem Conditions.regovern (h : Conditions sl s) (points : SamePoints s t) (rt : t.rt = s.rt) (keys : ∀ k, t.key k = s.key k)
    (held : ∀ g, (t.governor g).held = (s.governor g).held) (folded : ∀ g, (t.governor g).folded = (s.governor g).folded) {sl' : Slack}
    (same : sl'.key = sl.key) (storms : StormsFit sl' t) : Conditions sl' t := by
  have records (i : RecordIx) : t.record i = s.record i := by rw [State.record, State.record, rt]
  exact h.step (K := fun _ => False) (R := fun _ => False)
    { defn := fun k _ => (points k.point).1, bucket := fun k _ => (points k.point).2 k.kind, keys := fun k _ => keys k, records := fun i _ => records i
      waiting := fun _ _ => by rw [rt], held := fun g _ _ => by rw [held], folded := fun g _ _ => by rw [folded] }
    (fun _ _ _ => .rfl) same (h.table.of_rt rt) (fun _ => False.elim) (fun _ => False.elim)
    (h.lists.of_same (by rw [rt]) (fun w _ => keys w) (by rw [rt]; exact h.lists.noneFree) held folded) storms

/-- A slack is taken back from a key that has been asked, or whose bucket is not full. -/
theorem Conditions.narrow {sl' : Slack} (h : Conditions sl s) (release : sl'.release = sl.release) (storm : sl'.storm = sl.storm)
    (asked : ∀ k d, sl.key k → ¬ sl'.key k → (s.point k.point).defn = some d → k.kind.hasValue = true →
      (s.point k.point).bucket k.kind = d.capacity → (s.key k).state ≠ .quiet ∧ (s.key k).state ≠ .cleared) : Conditions sl' s where
  table := h.table
  keys k := { h.keys k with
    fullAsksOnce := fun d narrow defn value full => by
      by_cases slack : sl.key k
      · exact asked k d slack narrow defn value full
      · exact (h.keys k).fullAsksOnce d slack defn value full }
  records := h.records
  lists := h.lists
  storms := by rw [release, storm]; exact h.storms

/-! ## A key leaves its list -/

/-- The slack of a key that has gone Quiet. -/
def Slack.asking (sl : Slack) (k : PointKey) : Slack := { sl with key := fun k' => sl.key k' ∨ k' = k }

/-- A key that waits, on whatever list, goes Quiet and off its list. -/
theorem Conditions.unlist (h : Conditions sl s) (link : (s.key k).link = none) (points : SamePoints s t) {count : Half}
    (rt : t.rt = { s.rt with poolWait := s.rt.poolWait.erase k, changeCount := count })
    (keys : ∀ k', t.key k' = if k = k' then .quiet else s.key k') (held : ∀ g, (t.governor g).held = (s.governor g).held.erase k)
    (folded : ∀ g, (t.governor g).folded = (s.governor g).folded.erase k) {sl' : Slack} (same : sl'.key = (sl.asking k).key)
    (storms : StormsFit sl' t) : Conditions sl' t := by
  have records (i : RecordIx) : t.record i = s.record i := by rw [State.record, State.record, rt]
  have wait : t.rt.poolWait = s.rt.poolWait.erase k := by rw [rt]
  have other {k' : PointKey} (ne : k' ≠ k) : t.key k' = s.key k' := by rw [keys, if_neg (Ne.symm ne)]
  have absent : Absent k t :=
    ⟨by rw [wait]; exact h.lists.waitOnce.not_mem_erase, fun g => by rw [held]; exact (h.lists.heldOnce g).not_mem_erase,
      fun g => by rw [folded]; exact (h.lists.foldedOnce g).not_mem_erase⟩
  have frame : Changes (· = k) (fun _ => False) s t :=
    { defn := fun k _ => (points k.point).1, bucket := fun k _ => (points k.point).2 k.kind, keys := fun _ => other, records := fun i _ => records i
      waiting := fun k' ne => by rw [wait, List.mem_erase_of_ne ne]
      held := fun g k' ne => by rw [held, List.mem_erase_of_ne ne]
      folded := fun g k' ne => by rw [folded, List.mem_erase_of_ne ne] }
  have wide : Conditions (sl.asking k) s := { h with
    keys := fun k' => { h.keys k' with fullAsksOnce := fun d asked => (h.keys k').fullAsksOnce d fun slack => asked (.inl slack) } }
  refine wide.step frame (fun k' i key => iff_of_false ?_ id) same (h.table.of_waits rt) ?_ (fun _ => False.elim) ?_ storms
  · rintro rfl
    exact h.unlinked link i key
  · rintro _ rfl
    refine keyOk_of_quiet (by rw [keys, if_pos rfl]) absent fun d asked => absurd (.inr rfl) (same ▸ asked)
  · constructor
    · rw [wait]
      exact h.lists.waitOnce.erase k
    · rw [wait]
      refine (h.lists.bySeverity.sublist List.erase_sublist).imp_of_mem fun mx my le => ?_
      rwa [pendingOf_congr (other (h.lists.waitOnce.mem_erase_iff.1 mx).1), pendingOf_congr (other (h.lists.waitOnce.mem_erase_iff.1 my).1)]
    · intro waits
      have before : s.rt.poolWait ≠ [] := fun none => waits (by rw [wait, none]; rfl)
      rw [rt]
      exact h.lists.noneFree before
    · intro g
      rw [held]
      exact (h.lists.heldOnce g).erase k
    · intro g
      rw [folded]
      exact (h.lists.foldedOnce g).erase k

/-! ## A Quiet key joins a list -/

/-- A Quiet key joins the pool wait list, which is only while no record is Free. -/
theorem Conditions.wait (h : Conditions sl s) (quiet : s.key k = .quiet) (carries : Carries k v s) (full : s.rt.free = [])
    (points : SamePoints s t) {f : PointKey → Severity} (severities : ∀ w ∈ s.rt.poolWait, f w = (s.pendingOf w).severity) {count : Half}
    (rt : t.rt = { s.rt with poolWait := insertBySeverity f k v.severity s.rt.poolWait, changeCount := count })
    (keys : ∀ k', t.key k' = if k = k' then { state := .waiting, link := none, pending := some v } else s.key k')
    (governors : ∀ g, t.governor g = s.governor g) : Conditions sl t := by
  have records (i : RecordIx) : t.record i = s.record i := by rw [State.record, State.record, rt]
  have wait : t.rt.poolWait = insertBySeverity f k v.severity s.rt.poolWait := by rw [rt]
  have mem (w : PointKey) : w ∈ t.rt.poolWait ↔ w = k ∨ w ∈ s.rt.poolWait := by
    rw [wait, mem_insertBySeverity]
  have other {k' : PointKey} (ne : k' ≠ k) : t.key k' = s.key k' := by rw [keys, if_neg (Ne.symm ne)]
  have absent := h.absent_of_quiet quiet
  have pending : t.pendingOf k = v := by rw [State.pendingOf, keys, if_pos rfl]
  obtain ⟨d, defn, severity, evaluated⟩ := carries.defined
  have frame : Changes (· = k) (fun _ => False) s t :=
    { defn := fun k _ => (points k.point).1, bucket := fun k _ => (points k.point).2 k.kind, keys := fun _ => other, records := fun i _ => records i
      waiting := fun k' ne => by rw [mem, or_iff_right ne]
      held := fun g k' ne => by rw [governors]
      folded := fun g k' ne => by rw [governors] }
  refine h.step frame (fun k' i key => iff_of_false ?_ id) rfl (h.table.of_waits rt) ?_ (fun _ => False.elim) ?_
    (StormsFit.of_same h.storms governors fun g => by rw [records])
  · rintro rfl
    exact h.not_holds_of_quiet quiet i key
  · rintro _ rfl
    refine keyOk_of_pending (d := d) (v := v) (held := false) (by rw [keys, if_pos rfl]; rfl) ((points _).1.trans defn) severity carries.value
      evaluated (iff_of_true ((mem _).2 (.inl rfl)) rfl) (fun g => iff_of_false ?_ nofun) fun g => ?_
    · rw [governors]
      exact absent.held g
    · rw [governors]
      exact absent.folded g
  · have sorted : s.rt.poolWait.Pairwise fun x y => (f y).level ≤ (f x).level :=
      h.lists.bySeverity.imp_of_mem fun mx my le => by rwa [severities _ mx, severities _ my]
    have kept := insertBySeverity_keeps (f := f) (f' := fun w => (t.pendingOf w).severity) (k := k) (sev := v.severity) h.lists.waitOnce
      absent.waiting sorted (congrArg Pending.severity pending) fun w m => by
        rw [severities w m, pendingOf_congr (other (h.ne_of_waits m quiet).symm)]
    refine ⟨by rw [wait]; exact kept.1, by rw [wait]; exact kept.2, fun _ => by rw [rt]; exact full, ?_, ?_⟩
    · intro g
      rw [governors]
      exact h.lists.heldOnce g
    · intro g
      rw [governors]
      exact h.lists.foldedOnce g

/-- A Quiet key joins the storm-held tail of its group. -/
theorem Conditions.hold (h : Conditions sl s) (quiet : s.key k = .quiet) (carries : Carries k v s) (points : SamePoints s t) {count : Half}
    (rt : t.rt = { s.rt with changeCount := count })
    (keys : ∀ k', t.key k' = if k = k' then { state := .held, link := none, pending := some v } else s.key k')
    (held : ∀ g, (t.governor g).held = if s.groupOf k = g then (s.governor g).held ++ [k] else (s.governor g).held)
    (folded : ∀ g, (t.governor g).folded = (s.governor g).folded) (storms : StormsFit sl t) : Conditions sl t := by
  have records (i : RecordIx) : t.record i = s.record i := by rw [State.record, State.record, rt]
  have other {k' : PointKey} (ne : k' ≠ k) : t.key k' = s.key k' := by rw [keys, if_neg (Ne.symm ne)]
  have absent := h.absent_of_quiet quiet
  have mem (g : GroupId) (k' : PointKey) : k' ∈ (t.governor g).held ↔ (k' = k ∧ s.groupOf k = g) ∨ k' ∈ (s.governor g).held := by
    rw [held]
    split
    · next same => simp [same, or_comm]
    · next ne => simp [ne]
  obtain ⟨d, defn, severity, evaluated⟩ := carries.defined
  have frame : Changes (· = k) (fun _ => False) s t :=
    { defn := fun k _ => (points k.point).1, bucket := fun k _ => (points k.point).2 k.kind, keys := fun _ => other, records := fun i _ => records i
      waiting := fun k' ne => by rw [rt]
      held := fun g k' ne => by rw [mem, or_iff_right fun x => ne x.1]
      folded := fun g k' ne => by rw [folded] }
  refine h.step frame (fun k' i key => iff_of_false ?_ id) rfl (h.table.of_waits rt) ?_ (fun _ => False.elim) ?_ storms
  · rintro rfl
    exact h.not_holds_of_quiet quiet i key
  · rintro _ rfl
    refine keyOk_of_pending (d := d) (v := v) (held := true) (by rw [keys, if_pos rfl]; rfl) ((points _).1.trans defn) severity carries.value
      evaluated (iff_of_false (by rw [rt]; exact absent.waiting) nofun) (fun g => ?_) fun g => by rw [folded]; exact absent.folded g
    rw [mem, points.groupOf, or_iff_left (absent.held g)]
    exact and_congr_left' (iff_of_true rfl rfl)
  · refine ⟨by rw [rt]; exact h.lists.waitOnce, ?_, by rw [rt]; exact h.lists.noneFree, fun g => ?_, fun g => ?_⟩
    · rw [rt]
      refine h.lists.bySeverity.imp_of_mem fun mx my le => ?_
      rwa [pendingOf_congr (other (h.ne_of_waits mx quiet).symm), pendingOf_congr (other (h.ne_of_waits my quiet).symm)]
    · rw [held]
      split
      · exact (h.lists.heldOnce g).append (List.nodup_singleton k) fun w m m' => absent.held g (List.mem_singleton.1 m' ▸ m)
      · exact h.lists.heldOnce g
    · rw [folded]
      exact h.lists.foldedOnce g

/-- A Quiet key joins the folded set of its group. -/
theorem Conditions.fold (h : Conditions sl s) (quiet : s.key k = .quiet) (carries : Carries k v s) (points : SamePoints s t)
    (rt : t.rt = s.rt) (keys : ∀ k', t.key k' = if k = k' then { state := .folded, link := none, pending := none } else s.key k')
    (held : ∀ g, (t.governor g).held = (s.governor g).held)
    (folded : ∀ g, (t.governor g).folded = if s.groupOf k = g then (s.governor g).folded ++ [k] else (s.governor g).folded)
    {sl' : Slack} (same : sl'.key = sl.key) (storms : StormsFit sl' t) : Conditions sl' t := by
  have records (i : RecordIx) : t.record i = s.record i := by rw [State.record, State.record, rt]
  have other {k' : PointKey} (ne : k' ≠ k) : t.key k' = s.key k' := by rw [keys, if_neg (Ne.symm ne)]
  have absent := h.absent_of_quiet quiet
  have mem (g : GroupId) (k' : PointKey) : k' ∈ (t.governor g).folded ↔ (k' = k ∧ s.groupOf k = g) ∨ k' ∈ (s.governor g).folded := by
    rw [folded]
    split
    · next same => simp [same, or_comm]
    · next ne => simp [ne]
  obtain ⟨d, defn, -, evaluated⟩ := carries.defined
  have frame : Changes (· = k) (fun _ => False) s t :=
    { defn := fun k _ => (points k.point).1, bucket := fun k _ => (points k.point).2 k.kind, keys := fun _ => other, records := fun i _ => records i
      waiting := fun k' ne => by rw [rt]
      held := fun g k' ne => by rw [held]
      folded := fun g k' ne => by rw [mem, or_iff_right fun x => ne x.1] }
  refine h.step frame (fun k' i key => iff_of_false ?_ id) same (h.table.of_rt rt) ?_ (fun _ => False.elim) ?_ storms
  · rintro rfl
    exact h.not_holds_of_quiet quiet i key
  · rintro _ rfl
    refine keyOk_of_folded (d := d) (by rw [keys, if_pos rfl]) ((points _).1.trans defn) evaluated (by rw [rt]; exact absent.waiting)
      (fun g => by rw [held]; exact absent.held g) fun g => ?_
    rw [mem, points.groupOf, or_iff_left (absent.folded g)]
    exact and_iff_right rfl
  · refine ⟨by rw [rt]; exact h.lists.waitOnce, ?_, by rw [rt]; exact h.lists.noneFree, fun g => ?_, fun g => ?_⟩
    · rw [rt]
      refine h.lists.bySeverity.imp_of_mem fun mx my le => ?_
      rwa [pendingOf_congr (other (h.ne_of_waits mx quiet).symm), pendingOf_congr (other (h.ne_of_waits my quiet).symm)]
    · rw [held]
      exact h.lists.heldOnce g
    · rw [folded]
      split
      · exact (h.lists.foldedOnce g).append (List.nodup_singleton k) fun w m m' => absent.folded g (List.mem_singleton.1 m' ▸ m)
      · exact h.lists.foldedOnce g

/-! ## A record takes a key, loses it, or moves -/

section Record

variable (points : SamePoints s t) (table : TableLaw t) {r : Record}
  (records : ∀ j, t.record j = if i = j then r else s.record j) (waits : t.rt.poolWait = s.rt.poolWait)
  (free : s.rt.poolWait ≠ [] → t.rt.free = []) (governors : ∀ g, t.governor g = s.governor g)

include points records waits governors in
/-- The frame of a change of record `i` and of the keys of `K`, among which stands the key that it carried. -/
theorem changes_record {K : PointKey → Prop} (keys : ∀ k, ¬ K k → t.key k = s.key k) :
    Changes K (· = i) s t :=
  { defn := fun k _ => (points k.point).1, bucket := fun k _ => (points k.point).2 k.kind, keys
    records := fun j ne => by rw [records, if_neg (Ne.symm ne)]
    waiting := fun _ _ => by rw [waits]
    held := fun _ _ _ => by rw [governors]
    folded := fun _ _ _ => by rw [governors] }

include points table records waits free governors in
/-- The life of a record ends, and the key that it carried goes Quiet: its bucket must not be full. -/
theorem Conditions.endLife (h : Conditions sl s) {state : RecordState} (ended : r = (s.record i).endLife state)
    (keys : ∀ k, ((s.record i).holds k → t.key k = .quiet) ∧ (¬ (s.record i).holds k → t.key k = s.key k))
    (notFull : ∀ k d, (s.record i).holds k → ¬ sl.key k → (s.point k.point).defn = some d → k.kind.hasValue = true →
      (s.point k.point).bucket k.kind ≠ d.capacity)
    (storms : StormsFit sl t) : Conditions sl t := by
  have frame := changes_record points records waits governors (K := (s.record i).holds) fun k => (keys k).2
  refine h.step frame (fun k j key => ?_) rfl table (fun k holds => ?_) ?_ ?_ storms
  · refine ⟨fun holds => ?_, fun same => same ▸ key⟩
    have link := (h.linked_iff k i).1 holds
    rw [(h.linked_iff k j).1 key] at link
    exact Option.some.inj link
  · refine keyOk_of_quiet ((keys k).1 holds) ((h.absent_of_holds holds).of_same waits governors) fun d asked defn value => ?_
    rw [(points _).2]
    exact notFull k d holds asked ((points _).1.symm.trans defn) value
  · rintro _ rfl
    exact recordOk_ended (by rw [records, if_pos rfl, ended])
  · exact h.lists.of_same waits (fun w m => (keys w).2 (h.not_holds_of_waits m i)) free (fun g => by rw [governors]) fun g => by rw [governors]

include points table records waits free governors in
/-- A record begins a new life for a Quiet key; the key that it carried before, if any, goes Quiet. -/
theorem Conditions.newLife (h : Conditions sl s) {w : PointKey} {now : Quad} (quiet : s.key w = .quiet) (carries : Carries w v s) (new : r = newRecord w v now)
    (raised : t.key w = { state := .raised, link := some i, pending := none })
    (keys : ∀ k, k ≠ w → ((s.record i).holds k → t.key k = .quiet) ∧ (¬ (s.record i).holds k → t.key k = s.key k))
    (notFull : ∀ k d, (s.record i).holds k → ¬ sl.key k → (s.point k.point).defn = some d → k.kind.hasValue = true →
      (s.point k.point).bucket k.kind ≠ d.capacity)
    (storms : StormsFit sl t) : Conditions sl t := by
  have record : t.record i = newRecord w v now := by rw [records, if_pos rfl, new]
  have unheld := h.not_holds_of_quiet quiet
  have frame := changes_record points records waits governors (K := fun k => k = w ∨ (s.record i).holds k) fun k other =>
    (keys k fun same => other (.inl same)).2 fun holds => other (.inr holds)
  obtain ⟨d, defn, severity, evaluated⟩ := carries.defined
  refine h.step frame (fun k j key => ?_) rfl table (fun k changed => ?_) ?_ ?_ storms
  · constructor
    · rintro (rfl | holds)
      · exact absurd key (unheld j)
      · have link := (h.linked_iff k i).1 holds
        rw [(h.linked_iff k j).1 key] at link
        exact Option.some.inj link
    · rintro rfl
      exact .inr key
  · by_cases same : k = w
    · subst same
      exact keyOk_of_linked (cleared := false) (by rw [raised]; rfl) ((points _).1.trans defn) (by rw [record]; rfl) (by rw [record]; rfl)
        (by rw [record]; exact severity) evaluated ((h.absent_of_quiet quiet).of_same waits governors) nofun nofun
    · have holds := changed.resolve_left same
      refine keyOk_of_quiet ((keys k same).1 holds) ((h.absent_of_holds holds).of_same waits governors) fun d asked defn value => ?_
      rw [(points _).2]
      exact notFull k d holds asked ((points _).1.symm.trans defn) value
  · rintro _ rfl
    exact recordOk_newRecord record carries.value (by rw [raised])
  · exact h.lists.of_same waits (fun x m => (keys x (h.ne_of_waits m quiet).symm).2 (h.not_holds_of_waits m i)) free
      (fun g => by rw [governors]) fun g => by rw [governors]

include points table records waits free governors in
/-- A live record changes its state and keeps its key, its severity and whether it has a peak; its key follows it, Raised or Cleared: a
key is Cleared under Latched policy alone, and while its bucket is not full. -/
theorem Conditions.restate (h : Conditions sl s) (key : r.key = (s.record i).key) (severity : r.severity = (s.record i).severity)
    (peak : r.peak.isSome = (s.record i).peak.isSome)
    (keys : ∀ k, ((s.record i).holds k → t.key k = { s.key k with state := if r.state = .cleared then .cleared else .raised }) ∧
      (¬ (s.record i).holds k → t.key k = s.key k))
    (clears : ∀ k d, r.state = .cleared → (s.record i).holds k → (s.point k.point).defn = some d →
      d.retirement = .latched ∧ (¬ sl.key k → k.kind.hasValue = true → (s.point k.point).bucket k.kind ≠ d.capacity))
    {sl' : Slack} (same : sl'.key = sl.key) (storms : StormsFit sl' t) : Conditions sl' t := by
  have record : t.record i = r := by rw [records, if_pos rfl]
  have frame := changes_record points records waits governors (K := (s.record i).holds) fun k => (keys k).2
  have link {k : PointKey} (holds : (s.record i).holds k) : (t.key k).link = some i := by
    rw [(keys k).1 holds]
    exact (h.linked_iff k i).1 holds
  refine h.step frame (fun k j key => ?_) same table (fun k holds => ?_) ?_ ?_ storms
  · refine ⟨fun holds => ?_, fun same => same ▸ key⟩
    have link := (h.linked_iff k i).1 holds
    rw [(h.linked_iff k j).1 key] at link
    exact Option.some.inj link
  · have before := (h.linked_iff k i).1 holds
    have busy : (s.key k).state ≠ .quiet := by rcases h.of_holds holds with state | state <;> rw [state] <;> nofun
    have pending : (s.key k).pending = none := by
      have := (h.keys k).pendingByState
      rw [decide_eq_false (by rcases h.of_holds holds with state | state <;> rw [state] <;> nofun)] at this
      exact Option.not_isSome_iff_eq_none.1 (by rw [this]; decide)
    obtain ⟨d, defn, evaluated⟩ := (h.keys k).defined busy
    refine keyOk_of_linked (i := i) (d := d) (cleared := decide (r.state = .cleared)) ?_ ((points _).1.trans defn)
      (by rw [record, key]; exact holds) (by rw [record]) ?_ evaluated ((h.absent_of_holds holds).of_same waits governors) ?_ ?_
    · rw [(keys k).1 holds]
      simp only [decide_eq_true_eq, before, pending]
    · rw [record, severity]
      exact ((h.keys k).linked i before).2.2 d defn
    · exact fun cleared => (clears k d (of_decide_eq_true cleared) holds defn).1
    · intro cleared asked value
      rw [(points _).2]
      exact (clears k d (of_decide_eq_true cleared) holds defn).2 (same ▸ asked) value
  · rintro _ rfl
    refine ⟨fun k holds => link ?_, ?_⟩
    · rw [record, key] at holds
      exact holds
    · rw [record, peak, key]
      exact (h.records _).peak
  · exact h.lists.of_same waits (fun w m => (keys w).2 (h.not_holds_of_waits m i)) free (fun g => by rw [governors]) fun g => by rw [governors]

end Record

end Moves

end Sys2Proof.Machine
end

