-- ==== Sys2Proof/Proofs/ConditionsBegin.lean ====
section
/-! PROOF. The beginning of a condition keeps the conditions: a Quiet key takes a record, waits, is held or folded; a Cleared key is
re-raised (chapters 4 and 5). -/

namespace Sys2Proof.Machine

variable {sl : Slack} {s u : State} {k : PointKey} {v : Pending} {g : GroupId}

/-! ## Slack given and taken -/

/-- The slack of a group whose storm record has still to be raised or cleared. -/
def Slack.storming (sl : Slack) (g : GroupId) : Slack := { sl with storm := fun g' => sl.storm g' ∨ g' = g }

/-- The slack of a group that may still release keys. -/
def Slack.releasing (sl : Slack) (g : GroupId) : Slack := { sl with release := fun g' => sl.release g' ∨ g' = g }

theorem StormFits.mono {release storm release' storm' : Prop} {x : Governor} {state : RecordState} (h : StormFits release storm x state)
    (moreRelease : release → release') (moreStorm : storm → storm') : StormFits release' storm' x state :=
  ⟨fun held => (h.held held).imp_right (Or.imp_left moreRelease), fun folded => (h.folded folded).imp_right (Or.imp_left moreStorm),
    fun settled => h.holdCleared (mt moreStorm settled), fun settled => h.openEmptyCleared (mt moreStorm settled)⟩

/-- With more slack the conditions are less. -/
theorem Conditions.mono {sl' : Slack} (h : Conditions sl s) (key : ∀ k, sl.key k → sl'.key k) (release : ∀ g, sl.release g → sl'.release g)
    (storm : ∀ g, sl.storm g → sl'.storm g) : Conditions sl' s where
  table := h.table
  keys k := { h.keys k with fullAsksOnce := fun d asked => (h.keys k).fullAsksOnce d (mt (key k) asked) }
  records := h.records
  lists := h.lists
  storms g := (h.storms g).mono (release g) (storm g)

theorem Conditions.asking (h : Conditions sl s) (k : PointKey) : Conditions (sl.asking k) s := h.mono (fun _ => .inl) (fun _ => id) fun _ => id

theorem Conditions.storming (h : Conditions sl s) (g : GroupId) : Conditions (sl.storming g) s :=
  h.mono (fun _ => id) (fun _ => id) fun _ => .inl

theorem Conditions.releasing (h : Conditions sl s) (g : GroupId) : Conditions (sl.releasing g) s :=
  h.mono (fun _ => id) (fun _ => .inl) fun _ => id

/-- A key that has been asked, or whose bucket is not full, needs no slack. -/
theorem Conditions.asked (h : Conditions (sl.asking k) s)
    (asked : ∀ d, (s.point k.point).defn = some d → k.kind.hasValue = true → (s.point k.point).bucket k.kind = d.capacity →
      (s.key k).state ≠ .quiet ∧ (s.key k).state ≠ .cleared) : Conditions sl s :=
  h.narrow rfl rfl fun k' d slack narrow => by
    obtain rfl := slack.resolve_left narrow
    exact asked d

/-- A group whose storm record has become what its governor requires needs no slack. -/
theorem Conditions.stormed (h : Conditions (sl.storming g) s)
    (fits : StormFits (sl.release g) (sl.storm g) (s.governor g) (s.record (stormIx g)).state) : Conditions sl s where
  table := h.table
  keys k := { h.keys k with fullAsksOnce := (h.keys k).fullAsksOnce }
  records := h.records
  lists := h.lists
  storms g' := by
    by_cases same : g' = g
    · subst same
      exact fits
    · exact (h.storms g').mono id fun slack => slack.resolve_right same

/-! ## Allocation and the pool wait list (R11, R72, R73) -/

/-- An attempt that is admitted or bypasses, in a state that differs from one in which the key is Quiet at that key alone. -/
theorem Conditions.allocates (h : Conditions (sl.asking k) u) (quiet : u.key k = .quiet) (carries : Carries k v u) (points : SamePoints u s)
    {count : Half} (rt : s.rt = { u.rt with changeCount := count }) (keys : ∀ k', k ≠ k' → s.key k' = u.key k')
    (governors : ∀ g, s.governor g = u.governor g) : Conditions sl (allocateOrWait k v s) := by
  have records (j : RecordIx) : s.record j = u.record j := by rw [State.record, State.record, rt]
  have samePoints : SamePoints u (allocateOrWait k v s) := points.trans (Kept.refl s).allocateOrWait.samePoints
  have governors' (g : GroupId) : (allocateOrWait k v s).governor g = u.governor g :=
    (congrArg (fun sg => vget sg g) (sg_allocateOrWait k v s)).trans (governors g)
  cases free : u.rt.free with
  | cons i rest =>
    have found : s.rt.free = i :: rest := by rw [rt, free]
    have state : (u.record i).state = .free := (h.table.lists.free i).1 (by rw [free]; exact List.mem_cons_self)
    have unheld (k' : PointKey) : ¬ (u.record i).holds k' := fun key => by
      have live := (h.table.records i).keyWhileLive
      rw [show (u.record i).key = _ from key, state] at live
      cases live
    have pool : isPool i = true := decide_eq_true (not_le.1 fun storm => (h.table.records i).stormNotFree storm state)
    have table : TableLaw s := h.table.of_waits (wait := u.rt.poolWait) (count := count) (by rw [rt])
    have keys' := key_allocateOrWait_of_free found k v
    have records' (j : RecordIx) : (allocateOrWait k v s).record j = if i = j then newRecord k v s.tb.hutTime else u.record j := by
      rw [State.record, rt_allocateOrWait_of_free found, vget_vset]
      exact if_congr Iff.rfl rfl (records j)
    have waits : (allocateOrWait k v s).rt.poolWait = u.rt.poolWait := by rw [rt_allocateOrWait_of_free found, rt]
    have after := h.newLife samePoints (table.allocateOrWait k v) records' waits
      (fun waits => absurd (h.lists.noneFree waits) (by rw [free]; exact List.cons_ne_nil _ _)) governors' quiet carries rfl
      (by rw [keys', if_pos rfl])
      (fun k' other => ⟨fun holds => absurd holds (unheld k'), fun _ => by rw [keys', if_neg (Ne.symm other), keys k' (Ne.symm other)]⟩)
      (fun k' _ holds => absurd holds (unheld k')) (StormsFit.of_pool h.storms governors' pool records')
    exact after.asked fun _ _ _ _ => by
      rw [keys', if_pos rfl]
      exact ⟨nofun, nofun⟩
  | nil =>
    have full : s.rt.free = [] := by rw [rt, free]
    have waits : (allocateOrWait k v s).rt =
        { u.rt with
          poolWait := insertBySeverity (fun x => (s.pendingOf x).severity) k v.severity u.rt.poolWait
          changeCount := s.rt.changeCount + 1#16 } := by
      rw [allocateOrWait_of_none_free full, rt_joinPoolWait, rt]
    have keys' (k' : PointKey) : (allocateOrWait k v s).key k' =
        if k = k' then { state := .waiting, link := none, pending := some v } else s.key k' := by
      rw [allocateOrWait_of_none_free full, key_joinPoolWait]
    have after := h.wait quiet carries free samePoints
      (fun w m => by rw [pendingOf_congr (keys w (h.ne_of_waits m quiet))]) waits
      (fun k' => by
        rw [keys']
        split
        · rfl
        · next other => exact keys k' other) governors'
    exact after.asked fun _ _ _ _ => by
      rw [keys', if_pos rfl]
      exact ⟨nofun, nofun⟩

theorem Conditions.allocateOrWait (h : Conditions (sl.asking k) s) (quiet : s.key k = .quiet) (carries : Carries k v s) :
    Conditions sl (allocateOrWait k v s) :=
  h.allocates quiet carries (.refl s) rfl (fun _ _ => rfl) fun _ => rfl

/-! ## A governor changes, and its lists stay -/

/-- A governor is written again with the lists that it had. -/
theorem Conditions.writeGovernor (h : Conditions sl s) {t : State} {x : Governor} (points : SamePoints s t) (rt : t.rt = s.rt)
    (keys : ∀ k, t.key k = s.key k) (sg : t.sg = vset s.sg g x) (held : x.held = (s.governor g).held)
    (folded : x.folded = (s.governor g).folded) {sl' : Slack} (same : sl'.key = sl.key)
    (release : ∀ g', g' ≠ g → sl.release g' → sl'.release g') (storm : ∀ g', g' ≠ g → sl.storm g' → sl'.storm g')
    (fits : StormFits (sl'.release g) (sl'.storm g) x (s.record (stormIx g)).state) : Conditions sl' t := by
  have governor (g' : GroupId) : t.governor g' = if g = g' then x else s.governor g' := by
    rw [State.governor, sg, vget_vset]
    rfl
  refine h.regovern points rt keys (fun g' => ?_) (fun g' => ?_) same fun g' => ?_
  · rw [governor]
    split
    · next e => rw [held, e]
    · rfl
  · rw [governor]
    split
    · next e => rw [folded, e]
    · rfl
  · have record : t.record (stormIx g') = s.record (stormIx g') := by rw [State.record, State.record, rt]
    rw [governor, record]
    split
    · next e => exact e ▸ fits
    · next other => exact (h.storms g').mono (release g' (Ne.symm other)) (storm g' (Ne.symm other))

/-- A token is spent by a governor that holds no key. -/
theorem Conditions.spend (h : Conditions sl s) (held : (s.governor g).held = []) {n : Nat} :
    Conditions sl (putGovernor g { s.governor g with tokens := n } s) := by
  have points : SamePoints s (putGovernor g { s.governor g with tokens := n } s) := .refl s
  refine h.writeGovernor points rfl (fun _ => rfl) rfl rfl rfl rfl (fun _ _ => id) (fun _ _ => id) ?_
  have before := h.storms g
  exact ⟨fun some => absurd held some, before.folded, before.holdCleared, before.openEmptyCleared⟩

theorem Conditions.closeGovernor (h : Conditions sl s) (g : GroupId) : Conditions sl (closeGovernor g s) := by
  refine h.writeGovernor (Kept.refl s).closeGovernor.samePoints (rt_issue _ _) (fun k => key_issue _ _ k) (sg_closeGovernor g s) rfl rfl rfl
    (fun _ _ => id) (fun _ _ => id) ?_
  have before := h.storms g
  exact ⟨fun held => ⟨(before.held held).1, .inr (.inl rfl)⟩, before.folded, before.holdCleared, fun _ _ => nofun⟩

/-! ## A storm holds the key or folds it (R98, R100) -/

theorem Conditions.holdKey (h : Conditions (sl.asking k) s) (quiet : s.key k = .quiet) (carries : Carries k v s)
    (mode : (s.governor (s.groupOf k)).defn.mode = .hold)
    (closed : sl.release (s.groupOf k) ∨ (s.governor (s.groupOf k)).gate = .closed ∨ (s.governor (s.groupOf k)).tokens = 0) :
    Conditions sl (holdKey k v s) := by
  have governor := governor_holdKey k v s
  have rt := rt_holdKey k v s
  have after := h.hold quiet carries (Kept.refl s).holdKey.samePoints rt (key_holdKey k v s)
    (fun g => by
      rw [governor]
      split <;> rfl)
    (fun g => by
      rw [governor]
      split <;> rfl) fun g => by
      have before := h.storms g
      rw [governor, show (Machine.holdKey k v s).record (stormIx g) = s.record (stormIx g) by rw [State.record, State.record, rt]]
      split
      · next same =>
        subst same
        exact ⟨fun _ => ⟨mode, closed⟩, before.folded, before.holdCleared, before.openEmptyCleared⟩
      · exact before
  exact after.asked fun _ _ _ _ => by
    rw [key_holdKey, if_pos rfl]
    exact ⟨nofun, nofun⟩

/-! ## The storm record (R12, R16, R100) -/

section Storm

variable {i : RecordIx}

/-- With its slack given, a storm record may be in any state. -/
theorem StormFits.restate {release storm : Prop} {x : Governor} {state : RecordState} (h : StormFits release storm x state) (slack : storm)
    (state' : RecordState) : StormFits release storm x state' :=
  ⟨h.held, fun folded => ⟨(h.folded folded).1, .inl slack⟩, fun no => absurd slack no, fun no => absurd slack no⟩

theorem StormsFit.of_storm {t : State} (h : StormsFit sl s) (governors : ∀ g, t.governor g = s.governor g) {r : Record}
    (records : ∀ j, t.record j = if i = j then r else s.record j) (slack : ∀ g, i = stormIx g → sl.storm g) : StormsFit sl t := fun g => by
  rw [governors, records]
  split
  · next same => exact (h g).restate (slack g same) _
  · exact h g

/-- The key of a record is Cleared while the record is, and else Raised. -/
theorem Conditions.key_of_holds (h : Conditions sl s) (holds : (s.record i).holds k) :
    s.key k = { s.key k with state := if (s.record i).state = .cleared then .cleared else .raised } := by
  have together := ((h.keys k).linked i ((h.linked_iff k i).1 holds)).2.1
  have state : (s.key k).state = if (s.record i).state = .cleared then .cleared else .raised := by
    split
    · next cleared => exact together.2 cleared
    · next other => exact (h.of_holds holds).resolve_right (mt together.1 other)
  rw [← state]

theorem Conditions.reRaise (h : Conditions sl s) (slack : ∀ g, i = stormIx g → sl.storm g) : Conditions sl (reRaise i s) := by
  by_cases cleared : (s.record i).state = .cleared
  · obtain ⟨k, key⟩ := h.table.key_of_live (i := i) (by rw [cleared]; rfl)
    have rt := rt_reRaise_of_cleared cleared key
    have keys := key_reRaise_of_cleared cleared key
    have records (j : RecordIx) : (Machine.reRaise i s).record j = if i = j then (s.record i).reRaised else s.record j := by
      rw [State.record, rt, vget_vset]
      rfl
    have governors (g : GroupId) : (Machine.reRaise i s).governor g = s.governor g := by rw [State.governor, sg_reRaise]; rfl
    refine h.restate (Kept.refl s).reRaise.samePoints (h.table.reRaise i) records (by rw [rt])
      (fun waits => by rw [rt]; exact h.lists.noneFree waits) governors rfl rfl rfl (fun k' => ⟨fun holds => ?_, fun other => ?_⟩) (fun _ _ cleared => nomatch cleared) rfl
      (StormsFit.of_storm h.storms governors records slack)
    · rw [keys, if_pos (Option.some.inj (key.symm.trans holds))]
      rfl
    · rw [keys, if_neg fun same => other (key.trans (congrArg some same))]
  · rwa [reRaise_of_other _ _ cleared]

theorem Conditions.peakUpdate (h : Conditions sl s) (i : RecordIx) (v : Half) : Conditions sl (peakUpdate i v s) := by
  rcases peakUpdate_eq i v s with same | ⟨p, peak, written⟩
  · rwa [same]
  · have points : SamePoints s (Machine.peakUpdate i v s) := (Kept.refl s).peakUpdate.samePoints
    have table := h.table.peakUpdate i v
    rw [written] at points table ⊢
    have records (j : RecordIx) : (putRecord i { s.record i with peak := some v } s).record j =
        if i = j then { s.record i with peak := some v } else s.record j := record_putRecord _ _ _ _
    refine h.restate points table records rfl h.lists.noneFree (fun _ => rfl) rfl rfl (by rw [peak]; rfl)
      (fun k => ⟨fun holds => h.key_of_holds holds, fun _ => rfl⟩) (fun k d cleared holds defn => ?_) rfl ?_
    · have state : (s.key k).state = .cleared := ((h.keys k).linked i ((h.linked_iff k i).1 holds)).2.1.2 cleared
      exact ⟨(h.keys k).clearedLatched d state defn, fun asked value full => ((h.keys k).fullAsksOnce d asked defn value full).2 state⟩
    · refine StormsFit.of_same h.storms (fun _ => rfl) fun g => ?_
      rw [records]
      split
      · next same => rw [same]
      · rfl

theorem Conditions.stormRaise (h : Conditions sl s) (slack : sl.storm g) : Conditions sl (stormRaise g s) := by
  by_cases idle : (s.record (stormIx g)).state = .idle
  · have rt := rt_stormRaise_of_idle idle
    have records (j : RecordIx) : (Machine.stormRaise g s).record j =
        if stormIx g = j then (s.governor g).stormRecord g s.tb.hutTime else s.record j := by
      rw [State.record, rt, vget_vset]
      rfl
    have governors (g' : GroupId) : (Machine.stormRaise g s).governor g' = s.governor g' := by rw [State.governor, sg_stormRaise]; rfl
    have waits : (Machine.stormRaise g s).rt.poolWait = s.rt.poolWait := by rw [rt]
    have noKey (k : PointKey) : (s.record (stormIx g)).key ≠ some (.point k) := fun key => by
      have live := (h.table.records (stormIx g)).keyWhileLive
      rw [key, idle] at live
      cases live
    refine h.step (changes_record (K := fun _ => False) (Kept.refl s).stormRaise.samePoints records waits governors fun k _ => key_stormRaise g s k)
      (fun k i key => iff_of_false id ?_) rfl (h.table.stormRaise g) (fun _ => False.elim) ?_
      (h.lists.of_same waits (fun k _ => key_stormRaise g s k) (fun some => by rw [rt]; exact h.lists.noneFree some)
        (fun g' => by rw [governors]) fun g' => by rw [governors]) (StormsFit.of_storm h.storms governors records fun g' same => ?_)
    · rintro rfl
      exact noKey k key
    · rintro _ rfl
      constructor
      · intro k key
        rw [records, if_pos rfl] at key
        cases key
      · rw [records, if_pos rfl]
        rfl
    · exact stormIx_injective same ▸ slack
  · rwa [stormRaise_of_other idle]

/-- A fold leaves the storm record Standing or Acknowledged. -/
theorem state_stormFold (table : TableLaw s) (g : GroupId) :
    ((stormFold g s).record (stormIx g)).state = .standing ∨ ((stormFold g s).record (stormIx g)).state = .acknowledged := by
  have peak (u : State) (v : Half) : ((peakUpdate (stormIx g) v u).record (stormIx g)).state = (u.record (stormIx g)).state := by
    rcases peakUpdate_eq (stormIx g) v u with same | ⟨p, -, written⟩
    · rw [same]
    · rw [written, record_putRecord, if_pos rfl]
  unfold stormFold
  dsimp only
  rw [peak]
  by_cases idle : (s.record (stormIx g)).state = .idle
  · have raised : ((stormRaise g s).record (stormIx g)).state = .standing := by
      rw [State.record, rt_stormRaise_of_idle idle, vget_vset, if_pos rfl]
      rfl
    rw [reRaise_of_other _ _ (by rw [raised]; nofun)]
    exact .inl raised
  · rw [stormRaise_of_other idle]
    by_cases cleared : (s.record (stormIx g)).state = .cleared
    · obtain ⟨k, key⟩ := table.key_of_live (i := stormIx g) (by rw [cleared]; rfl)
      rw [State.record, rt_reRaise_of_cleared cleared key, vget_vset, if_pos rfl]
      exact .inl rfl
    · rw [reRaise_of_other _ _ cleared]
      have notFree := (table.records (stormIx g)).stormNotFree (Nat.le_add_right 160 g.val)
      cases state : (s.record (stormIx g)).state with
      | standing => exact .inl rfl
      | acknowledged => exact .inr rfl
      | free => exact absurd state notFree
      | idle => exact absurd state idle
      | cleared => exact absurd state cleared

theorem Conditions.stormFold (h : Conditions (sl.storming g) s) (mode : (s.governor g).defn.mode = .fold) (some : (s.governor g).folded ≠ []) :
    Conditions sl (stormFold g s) := by
  have after : Conditions (sl.storming g) (Machine.stormFold g s) :=
    ((h.stormRaise (.inr rfl)).reRaise fun g' same => .inr (stormIx_injective same.symm)).peakUpdate _ _
  have governor : (Machine.stormFold g s).governor g = s.governor g := by rw [State.governor, sg_stormFold]; rfl
  refine after.stormed ?_
  rw [governor]
  exact ⟨(h.storms g).held, fun _ => ⟨mode, .inr (state_stormFold h.table g)⟩, fun _ hold => GovernorMode.noConfusion (hold.symm.trans mode),
    fun _ none => absurd none some⟩

end Storm

/-! ## The attempt and the beginning of a condition (R59, R62, R65, R69 to R72, R96) -/

theorem Conditions.foldKey (h : Conditions (sl.asking k) s) (quiet : s.key k = .quiet) (carries : Carries k v s)
    (mode : (s.governor (s.groupOf k)).defn.mode = .fold) : Conditions sl (foldKey k v.severity s) := by
  let g := s.groupOf k
  let y : Governor := { s.governor g with folded := (s.governor g).folded ++ [k] }
  let x := putKey k { state := .folded, link := none, pending := none } (putGovernor g y s)
  let u := issue (keyEvent .folded k v.severity none x) x
  have governor (g' : GroupId) : u.governor g' = if g = g' then y else s.governor g' :=
    (governor_issue _ _ _).trans (governor_putGovernor _ _ _ _)
  have rt : u.rt = s.rt := rt_issue _ _
  have key (k' : PointKey) : u.key k' = if k = k' then { state := .folded, link := none, pending := none } else s.key k' :=
    (key_issue _ _ _).trans (key_putKey _ _ _ _)
  have after : Conditions ((sl.asking k).storming g) u := by
    refine h.fold quiet carries (Kept.refl s).putGovernor.putKey.issue.samePoints rt key (fun g' => ?_) (fun g' => ?_) rfl fun g' => ?_
    · rw [governor]
      split
      · next same => rw [← same]
      · rfl
    · rw [governor]
      split
      · next same => rw [← same]
      · rfl
    · have before := h.storms g'
      rw [governor, show u.record (stormIx g') = s.record (stormIx g') by rw [State.record, State.record, rt]]
      split
      · next same =>
        subst same
        exact ⟨before.held, fun _ => ⟨mode, .inl (.inr rfl)⟩, fun no => absurd (.inr rfl) no, fun no => absurd (.inr rfl) no⟩
      · exact before.mono id .inl
  have asked : Conditions (sl.storming g) u := Conditions.asked (sl := sl.storming g) after fun _ _ _ _ => by
    rw [key, if_pos rfl]
    exact ⟨nofun, nofun⟩
  refine asked.stormFold ?_ ?_
  · rw [governor, if_pos rfl]
    exact mode
  · rw [governor, if_pos rfl]
    exact List.append_ne_nil_of_right_ne_nil _ (List.cons_ne_nil _ _)

/-- A storm diverts an attempt, by the governor's mode (R96 case 4). -/
theorem Conditions.divert (h : Conditions (sl.asking k) s) (quiet : s.key k = .quiet) (carries : Carries k v s)
    (closed : (s.governor (s.groupOf k)).gate = .closed) : Conditions sl (divert k v s) := by
  unfold Machine.divert
  split
  · next mode => exact h.holdKey quiet carries mode (.inr (.inl closed))
  · next mode => exact h.foldKey quiet carries mode

theorem Conditions.governAttempt (h : Conditions (sl.asking k) s) (quiet : s.key k = .quiet) (carries : Carries k v s) :
    Conditions sl (governAttempt k v s) := by
  unfold Machine.governAttempt
  dsimp only
  split
  · next holds => exact h.holdKey quiet carries holds.1 ((h.storms _).held holds.2).2
  · next notHeld =>
    have held : (s.governor (s.groupOf k)).held = [] := by
      by_contra some
      exact notHeld ⟨((h.storms _).held some).1, some⟩
    split
    · split
      · exact (h.spend held).allocateOrWait quiet (carries.of_points (.refl s))
      · have points : SamePoints s (Machine.closeGovernor (s.groupOf k) s) := (Kept.refl s).closeGovernor.samePoints
        refine (h.closeGovernor (s.groupOf k)).divert ((key_issue _ _ _).trans quiet) (carries.of_points points) ?_
        rw [points.groupOf, State.governor, sg_closeGovernor, vget_vset, if_pos rfl]
    · next closed => exact h.divert quiet carries closed

theorem Conditions.raiseAttempt (h : Conditions (sl.asking k) s) (quiet : s.key k = .quiet) (carries : Carries k v s) :
    Conditions sl (raiseAttempt k v s) := by
  unfold Machine.raiseAttempt
  split
  · exact h.allocateOrWait quiet carries
  · exact h.governAttempt quiet carries

/-- A key in state Quiet has neither link nor pending value. -/
theorem KeyOk.eq_quiet (h : KeyOk sl s k) (state : (s.key k).state = .quiet) : s.key k = .quiet := by
  have link := h.link_none (by rw [state]; nofun) (by rw [state]; nofun)
  have pending := h.pendingByState
  rw [state] at pending
  have pending : (s.key k).pending = none := Option.not_isSome_iff_eq_none.1 (by rw [pending]; decide)
  rcases entry : s.key k with ⟨a, b, c⟩
  rw [entry] at state link pending
  simp_all [KeyEntry.quiet]

/-- A key that is Cleared is linked to a record that is. -/
theorem Conditions.link_of_cleared (h : Conditions sl s) (state : (s.key k).state = .cleared) :
    ∃ i, (s.key k).link = some i ∧ (s.record i).holds k ∧ (s.record i).state = .cleared := by
  have link := (h.keys k).linkByState
  rw [decide_eq_true (.inr state)] at link
  obtain ⟨i, link⟩ := Option.isSome_iff_exists.1 link
  exact ⟨i, link, (h.linked_iff k i).2 link, ((h.keys k).linked i link).2.1.1 state⟩

theorem Conditions.not_stormIx_of_holds (h : Conditions sl s) {i : RecordIx} (holds : (s.record i).holds k) (g : GroupId) : i ≠ stormIx g := by
  rintro rfl
  have pool := isPool_of_point h.table holds
  rw [stormIx_not_pool] at pool
  cases pool

theorem Conditions.beginCondition (h : Conditions (sl.asking k) s) {d : Definition} {value : Option Half}
    (defn : (s.point k.point).defn = some d) (evaluated : k.kind.hasValue = true → d.evaluation k.kind ≠ none)
    (carried : value.isSome = k.kind.hasValue) : Conditions sl (beginCondition k d value s) := by
  unfold Machine.beginCondition
  dsimp only
  split
  · next state => exact h.raiseAttempt ((h.keys k).eq_quiet state) ⟨⟨d, defn, rfl, evaluated⟩, carried⟩
  · next state =>
    obtain ⟨i, link, holds, cleared⟩ := h.link_of_cleared state
    split
    · next j found =>
      obtain rfl := Option.some.inj (found.symm.trans link)
      refine Conditions.asked (h.reRaise fun g same => absurd same (h.not_stormIx_of_holds holds g)) fun _ _ _ _ => ?_
      rw [key_reRaise_of_cleared cleared holds, if_pos rfl]
      exact ⟨nofun, nofun⟩
    · next none => cases none.symm.trans link
  all_goals
    next state =>
    exact h.asked fun _ _ _ _ => by
      rw [state]
      exact ⟨nofun, nofun⟩

end Sys2Proof.Machine
end

