-- ==== Sys2Proof/Proofs/ConditionsEnd.lean ====
section
/-! PROOF. The end of a condition, an acknowledgement and a retirement keep the conditions (R13 to R15, R17, R76, R81 to R87, R104). -/

namespace Sys2Proof.Machine

variable {sl : Slack} {s t : State} {k : PointKey} {g : GroupId} {i : RecordIx}

/-- The bucket of a key, if its fullness is asked at all, is not full. -/
def NotFull (sl : Slack) (s : State) (k : PointKey) : Prop :=
  ∀ d, ¬ sl.key k → (s.point k.point).defn = some d → k.kind.hasValue = true → (s.point k.point).bucket k.kind ≠ d.capacity

theorem NotFull.of_points (h : NotFull sl s k) (points : SamePoints s t) : NotFull sl t k := fun d asked defn value => by
  rw [(points _).2]
  exact h d asked ((points _).1.symm.trans defn) value

/-- The conditions speak of records, keys, lists and governors alone. -/
theorem Conditions.congr (h : Conditions sl s) (points : SamePoints s t) (rt : t.rt = s.rt) (keys : ∀ k, t.key k = s.key k)
    (sg : t.sg = s.sg) : Conditions sl t := by
  have governors (g : GroupId) : t.governor g = s.governor g := by rw [State.governor, sg]; rfl
  exact h.regovern points rt keys (fun g => by rw [governors]) (fun g => by rw [governors]) rfl
    (StormsFit.of_same h.storms governors fun g => by rw [State.record, State.record, rt])

theorem Conditions.issue (h : Conditions sl s) (e : TableEvent) : Conditions sl (issue e s) :=
  h.congr (Kept.refl s).issue.samePoints (rt_issue e s) (key_issue e s) (sg_issue e s)

theorem Conditions.issueCleared (h : Conditions sl s) (i : RecordIx) (k : Key) : Conditions sl (issueCleared i k s) := h.issue _

/-! ## Retirement (R17, R76) -/

theorem Conditions.live_of_holds (h : Conditions sl s) (holds : (s.record i).holds k) : (s.record i).state.live = true := by
  rw [← (h.table.records i).keyWhileLive, show (s.record i).key = _ from holds]
  rfl

/-- The head of the pool wait list leaves it. -/
theorem Conditions.headLeaves (h : Conditions sl s) {w : PointKey} {rest : List PointKey} (waits : s.rt.poolWait = w :: rest) :
    Conditions (sl.asking w) (putKey w .quiet { s with rt := { s.rt with poolWait := rest } }) := by
  have waiting : (s.key w).state = .waiting := (h.keys w).waiting.1 (by rw [waits]; exact List.mem_cons_self)
  have link := (h.keys w).link_none (by rw [waiting]; nofun) (by rw [waiting]; nofun)
  have points : SamePoints s (putKey w .quiet { s with rt := { s.rt with poolWait := rest } }) :=
    ((Kept.refl s).withRt (fun _ => by rw [waits]; nofun)).putKey.samePoints
  refine h.unlist (count := s.rt.changeCount) link points ?_ (fun k' => key_putKey _ _ _ _) (fun g => ?_) (fun g => ?_) rfl (StormsFit.of_same h.storms (fun _ => rfl) fun _ => rfl)
  · rw [waits, List.erase_cons_head]
    rfl
  · rw [List.erase_of_not_mem fun m => ?_]
    · rfl
    · cases waiting.symm.trans (((h.keys w).held g).1 m).1
  · rw [List.erase_of_not_mem fun m => ?_]
    · rfl
    · cases waiting.symm.trans (((h.keys w).folded g).1 m).1

theorem Conditions.retire (h : Conditions sl s) (holds : (s.record i).holds k) (notFull : NotFull sl s k) : Conditions sl (retire i s) := by
  have live := h.live_of_holds holds
  have pool := isPool_of_point h.table holds
  have points : SamePoints s (Machine.retire i s) := (Kept.refl s).retire.samePoints
  have governors (g : GroupId) : (Machine.retire i s).governor g = s.governor g := by rw [State.governor, sg_retire]; rfl
  have sole {k' : PointKey} (holds' : (s.record i).holds k') : k = k' := Key.point.inj (Option.some.inj (holds.symm.trans holds'))
  have notFull' (k' : PointKey) (d : Definition) (holds' : (s.record i).holds k') := sole holds' ▸ notFull d
  cases waits : s.rt.poolWait with
  | nil =>
    have rt := rt_retire_of_none_waits live holds pool waits
    have keys := key_retire_of_none_waits live holds pool waits
    have records (j : RecordIx) : (Machine.retire i s).record j = if i = j then (s.record i).endLife .free else s.record j := by
      rw [State.record, rt, vget_vset]
      rfl
    exact h.endLife points (h.table.retire i) records (by rw [rt]) (fun some => absurd waits some) governors rfl
      (fun k' => ⟨fun holds' => by rw [keys, if_pos (sole holds')], fun other => by rw [keys, if_neg fun same : k = k' => other (same ▸ holds)]⟩)
      notFull' (StormsFit.of_pool h.storms governors pool records)
  | cons w rest =>
    let u := putKey w .quiet { s with rt := { s.rt with poolWait := rest } }
    have left : Conditions (sl.asking w) u := h.headLeaves waits
    have waiting : w ∈ s.rt.poolWait := by rw [waits]; exact List.mem_cons_self
    have other : k ≠ w := fun same => h.not_holds_of_waits waiting i (same ▸ holds)
    have rt := rt_retire_of_waits live holds pool waits
    have keys := key_retire_of_waits live holds pool waits
    have keyU (k' : PointKey) : u.key k' = if w = k' then .quiet else s.key k' := key_putKey _ _ _ _
    have pointsU : SamePoints s u := ((Kept.refl s).withRt fun _ => by rw [waits]; nofun).putKey.samePoints
    have records (j : RecordIx) : (Machine.retire i s).record j = if i = j then newRecord w (s.pendingOf w) s.tb.hutTime else u.record j := by
      rw [State.record, rt, vget_vset, pendingOf_givenUp other]
      rfl
    have carries : Carries w (s.pendingOf w) u := ((h.keys w).carries (.inr ((h.keys w).waiting.1 waiting))).of_points pointsU
    have after := left.newLife (pointsU.symm.trans points) (h.table.retire i) records (by rw [rt]; rfl)
      (fun _ => by rw [rt]; exact h.lists.noneFree (by rw [waits]; exact List.cons_ne_nil _ _)) governors (by rw [keyU, if_pos rfl]) carries rfl
      (by rw [keys, if_pos rfl])
      (fun k' ne => by
        rw [keys, if_neg (Ne.symm ne), keyU, if_neg (Ne.symm ne)]
        exact ⟨fun holds' => by rw [if_pos (sole holds')], fun other => by rw [if_neg fun same : k = k' => other (same ▸ holds)]⟩)
      (fun k' d holds' asked defn => by
        rw [(pointsU _).2]
        exact notFull' k' d holds' (fun slack => asked (.inl slack)) ((pointsU _).1.symm.trans defn))
      (StormsFit.of_pool left.storms governors pool records)
    exact after.asked fun _ _ _ _ => by
      rw [keys, if_pos rfl]
      exact ⟨nofun, nofun⟩

/-- A storm record is retired to Idle when its governor folds no key, or has its slack. -/
theorem Conditions.retireStorm (h : Conditions sl s) (live : (s.record (stormIx g)).state.live = true)
    (fits : StormFits (sl.release g) (sl.storm g) (s.governor g) .idle) : Conditions sl (Machine.retire (stormIx g) s) := by
  have key := h.table.key_stormIx g live
  have storm := stormIx_not_pool g
  have rt := rt_retire_of_storm live key storm
  have keys := key_retire_of_storm live key storm
  have governors (g' : GroupId) : (Machine.retire (stormIx g) s).governor g' = s.governor g' := by rw [State.governor, sg_retire]; rfl
  have records (j : RecordIx) : (Machine.retire (stormIx g) s).record j =
      if stormIx g = j then (s.record (stormIx g)).endLife .idle else s.record j := by
    rw [State.record, rt, vget_vset]
    rfl
  have unheld (k : PointKey) : ¬ (s.record (stormIx g)).holds k := fun holds => Key.noConfusion (Option.some.inj (key.symm.trans holds))
  refine h.endLife (Kept.refl s).retire.samePoints (h.table.retire _) records (by rw [rt]) (fun some => by rw [rt]; exact h.lists.noneFree some)
    governors rfl (fun k => ⟨fun holds => absurd holds (unheld k), fun _ => keys k⟩) (fun k _ holds => absurd holds (unheld k)) fun g' => ?_
  rw [governors, records]
  split
  · next same => exact stormIx_injective same ▸ fits
  · exact h.storms g'

/-! ## The clear of a record (R14, R15) -/

theorem Conditions.clearLatched (h : Conditions sl s) (holds : (s.record i).holds k) (notFull : NotFull sl s k)
    (latched : ∀ d, (s.point k.point).defn = some d → d.retirement = .latched) : Conditions sl (clearLatched i s) := by
  by_cases standing : (s.record i).state = .standing
  · have rt := rt_clearLatched_of_standing standing holds
    have keys := key_clearLatched_of_standing standing holds
    have sole {k' : PointKey} (holds' : (s.record i).holds k') : k = k' := Key.point.inj (Option.some.inj (holds.symm.trans holds'))
    have records (j : RecordIx) : (Machine.clearLatched i s).record j =
        if i = j then { s.record i with state := .cleared, clearTime := some s.tb.hutTime } else s.record j := by
      rw [State.record, rt, vget_vset]
      rfl
    have governors (g : GroupId) : (Machine.clearLatched i s).governor g = s.governor g := by rw [State.governor, sg_clearLatched]; rfl
    refine h.restate (Kept.refl s).clearLatched.samePoints (h.table.clearLatched i) records (by rw [rt])
      (fun some => by rw [rt]; exact h.lists.noneFree some) governors rfl rfl rfl (fun k' => ⟨fun holds' => ?_, fun other => ?_⟩)
      (fun k' d _ holds' defn => ?_) rfl (StormsFit.of_pool h.storms governors (isPool_of_point h.table holds) records)
    · rw [keys, if_pos (congrArg Key.point (sole holds'))]
      rfl
    · rw [keys, if_neg fun same => other (holds.trans (congrArg some same))]
    · obtain rfl := sole holds'
      exact ⟨latched d defn, fun asked => notFull d asked defn⟩
  · by_cases acknowledged : (s.record i).state = .acknowledged
    · rw [clearLatched_of_acknowledged acknowledged holds]
      exact (h.issueCleared i _).retire (k := k) (by rw [Record.holds, record_issueCleared]; exact holds)
        (notFull.of_points (Kept.refl s).issueCleared.samePoints)
    · rwa [clearLatched_of_other i s standing acknowledged]

theorem Conditions.clearSelfRetiring (h : Conditions sl s) (holds : (s.record i).holds k) (notFull : NotFull sl s k) :
    Conditions sl (clearSelfRetiring i s) := by
  have retired (k' : Key) : Conditions sl (Machine.retire i (Machine.issueCleared i k' s)) :=
    (h.issueCleared i k').retire (k := k) (by rw [Record.holds, record_issueCleared]; exact holds)
      (notFull.of_points (Kept.refl s).issueCleared.samePoints)
  unfold Machine.clearSelfRetiring
  split
  · exact retired _
  · exact retired _
  · exact h

/-- A storm record that is Idle or Cleared fits a governor that folds no key. -/
theorem StormFits.settled {release storm storm' : Prop} {x : Governor} {state state' : RecordState} (h : StormFits release storm x state)
    (none : x.folded = []) (settled : state' = .idle ∨ state' = .cleared) : StormFits release storm' x state' :=
  ⟨h.held, fun some => absurd none some, fun _ _ => settled, fun _ _ _ => settled⟩

/-- A governor that folds no key has its storm record cleared (R104). -/
theorem Conditions.clearStorm (h : Conditions (sl.storming g) s) (none : (s.governor g).folded = []) :
    Conditions sl (Machine.clearLatched (stormIx g) s) := by
  have fits {state : RecordState} (settled : state = .idle ∨ state = .cleared) : StormFits (sl.release g) (sl.storm g) (s.governor g) state :=
    (h.storms g).settled none settled
  by_cases standing : (s.record (stormIx g)).state = .standing
  · have key := h.table.key_stormIx g (by rw [standing]; rfl)
    have rt := rt_clearLatched_of_standing standing key
    have keys (k : PointKey) : (Machine.clearLatched (stormIx g) s).key k = s.key k := by
      rw [key_clearLatched_of_standing standing key, if_neg nofun]
    have records (j : RecordIx) : (Machine.clearLatched (stormIx g) s).record j =
        if stormIx g = j then { s.record (stormIx g) with state := .cleared, clearTime := some s.tb.hutTime } else s.record j := by
      rw [State.record, rt, vget_vset]
      rfl
    have governors (g' : GroupId) : (Machine.clearLatched (stormIx g) s).governor g' = s.governor g' := by
      rw [State.governor, sg_clearLatched]; rfl
    have unheld (k : PointKey) : ¬ (s.record (stormIx g)).holds k := fun holds => Key.noConfusion (Option.some.inj (key.symm.trans holds))
    have after : Conditions (sl.storming g) (Machine.clearLatched (stormIx g) s) :=
      h.restate (Kept.refl s).clearLatched.samePoints (h.table.clearLatched _) records (by rw [rt])
        (fun some => by rw [rt]; exact h.lists.noneFree some) governors rfl rfl rfl (fun k => ⟨fun holds => absurd holds (unheld k), fun _ => keys k⟩)
        (fun k _ _ holds => absurd holds (unheld k)) rfl
        (StormsFit.of_storm h.storms governors records fun g' same => .inr (stormIx_injective same.symm))
    refine after.stormed ?_
    rw [governors, records, if_pos rfl]
    exact fits (.inr rfl)
  · by_cases acknowledged : (s.record (stormIx g)).state = .acknowledged
    · have key := h.table.key_stormIx g (by rw [acknowledged]; rfl)
      rw [clearLatched_of_acknowledged acknowledged key]
      have u := h.issueCleared (stormIx g) (.storm g)
      have same : (Machine.issueCleared (stormIx g) (.storm g) s).governor g = s.governor g := governor_issue _ _ _
      have live : ((Machine.issueCleared (stormIx g) (.storm g) s).record (stormIx g)).state.live = true := by
        rw [record_issueCleared, acknowledged]
        rfl
      refine (u.retireStorm live ?_).stormed ?_
      · exact same ▸ (h.storms g).restate (.inr rfl) .idle
      · rw [State.governor, sg_retire, ← State.governor, same, State.record,
          rt_retire_of_storm live (u.table.key_stormIx g live) (stormIx_not_pool g), vget_vset, if_pos rfl]
        exact fits (.inl rfl)
    · rw [clearLatched_of_other _ s standing acknowledged]
      refine h.stormed (fits ?_)
      have notFree := (h.table.records (stormIx g)).stormNotFree (Nat.le_add_right 160 g.val)
      cases state : (s.record (stormIx g)).state with
      | standing => exact absurd state standing
      | acknowledged => exact absurd state acknowledged
      | free => exact absurd state notFree
      | idle => exact .inl rfl
      | cleared => exact .inr rfl

/-! ## Absorption (R84 to R87) -/

theorem Conditions.notAsked (h : Conditions (sl.asking k) s) (notFull : NotFull sl s k) : Conditions sl s :=
  h.narrow rfl rfl fun k' d slack narrow defn value full => by
    obtain rfl := slack.resolve_left narrow
    exact absurd full (notFull d narrow defn value)

theorem Conditions.link_of_waits (h : Conditions sl s)
    (waits : (s.key k).state = .held ∨ (s.key k).state = .waiting ∨ (s.key k).state = .folded) : (s.key k).link = none :=
  (h.keys k).link_none (by rcases waits with e | e | e <;> rw [e] <;> nofun) (by rcases waits with e | e | e <;> rw [e] <;> nofun)

/-- A list on which the key does not stand is the same without it. -/
theorem Conditions.erase_held (h : Conditions sl s) (g : GroupId) (other : (s.key k).state ≠ .held ∨ s.groupOf k ≠ g) :
    (s.governor g).held.erase k = (s.governor g).held :=
  List.erase_of_not_mem fun m => other.elim (fun ne => ne (((h.keys k).held g).1 m).1) fun ne => ne (((h.keys k).held g).1 m).2

theorem Conditions.erase_folded (h : Conditions sl s) (g : GroupId) (other : (s.key k).state ≠ .folded ∨ s.groupOf k ≠ g) :
    (s.governor g).folded.erase k = (s.governor g).folded :=
  List.erase_of_not_mem fun m => other.elim (fun ne => ne (((h.keys k).folded g).1 m).1) fun ne => ne (((h.keys k).folded g).1 m).2

theorem Conditions.erase_poolWait (h : Conditions sl s) (other : (s.key k).state ≠ .waiting) : s.rt.poolWait.erase k = s.rt.poolWait :=
  List.erase_of_not_mem fun m => other ((h.keys k).waiting.1 m)

/-- A Held key goes Quiet and off the storm-held list of its group. -/
theorem Conditions.unhold (h : Conditions sl s) (state : (s.key k).state = .held) (points : SamePoints s t) {count : Half}
    (rt : t.rt = { s.rt with changeCount := count }) (keys : ∀ k', t.key k' = if k = k' then .quiet else s.key k') {x : Governor}
    (sg : t.sg = vset s.sg (s.groupOf k) x) (held : x.held = (s.governor (s.groupOf k)).held.erase k)
    (folded : x.folded = (s.governor (s.groupOf k)).folded) {sl' : Slack} (same : sl'.key = (sl.asking k).key) (release : sl'.release = sl.release)
    (storm : sl'.storm = sl.storm)
    (fits : StormFits (sl.release (s.groupOf k)) (sl.storm (s.groupOf k)) x (s.record (stormIx (s.groupOf k))).state) : Conditions sl' t := by
  have governor (g : GroupId) : t.governor g = if s.groupOf k = g then x else s.governor g := by
    rw [State.governor, sg, vget_vset]
    rfl
  refine h.unlist (count := count) (h.link_of_waits (.inl state)) points ?_ keys (fun g => ?_) (fun g => ?_) same fun g => ?_
  · rw [rt, h.erase_poolWait (by rw [state]; nofun)]
  · rw [governor]
    split
    · next e => rw [held, e]
    · next other => rw [h.erase_held g (.inr other)]
  · rw [governor, h.erase_folded g (.inl (by rw [state]; nofun))]
    split
    · next e => rw [folded, e]
    · rfl
  · rw [governor, show t.record (stormIx g) = s.record (stormIx g) by rw [State.record, State.record, rt], release, storm]
    split
    · next e => exact e ▸ fits
    · exact h.storms g

theorem Conditions.absorbHeld (h : Conditions sl s) (state : (s.key k).state = .held) (notFull : NotFull sl s k) :
    Conditions sl (absorbHeld k s) := by
  have points : SamePoints s (Machine.absorbHeld k s) := (Kept.refl s).absorbHeld.samePoints
  have before := h.storms (s.groupOf k)
  have after : Conditions (sl.asking k) (Machine.absorbHeld k s) :=
    h.unhold state points (rt_issue _ _) (fun k' => (key_issue _ _ _).trans (key_putKey _ _ _ _)) (sg_absorbHeld k s) rfl rfl rfl rfl rfl
      ⟨fun some => before.held fun none => some (by rw [none]; rfl), before.folded, before.holdCleared, before.openEmptyCleared⟩
  exact after.notAsked (notFull.of_points points)

theorem Conditions.absorbWaiting (h : Conditions sl s) (state : (s.key k).state = .waiting) (notFull : NotFull sl s k) :
    Conditions sl (absorbWaiting k s) := by
  have points : SamePoints s (Machine.absorbWaiting k s) := (Kept.refl s).absorbWaiting.samePoints
  have governor (g : GroupId) : (Machine.absorbWaiting k s).governor g = s.governor g := by rw [State.governor, sg_absorbWaiting]; rfl
  have rt : (Machine.absorbWaiting k s).rt = { s.rt with poolWait := s.rt.poolWait.erase k, changeCount := s.rt.changeCount + 1#16 } :=
    rt_issue _ _
  have after : Conditions (sl.asking k) (Machine.absorbWaiting k s) :=
    h.unlist (h.link_of_waits (.inr (.inl state))) points rt (fun k' => (key_issue _ _ _).trans (key_putKey _ _ _ _))
      (fun g => by rw [governor, h.erase_held g (.inl (by rw [state]; nofun))])
      (fun g => by rw [governor, h.erase_folded g (.inl (by rw [state]; nofun))]) rfl
      (StormsFit.of_same h.storms governor fun g => by rw [State.record, State.record, rt])
  exact after.notAsked (notFull.of_points points)

/-- A Folded key goes Quiet and out of the folded set of its group, whose storm record is then asked to clear if it is due. -/
theorem Conditions.unfold (h : Conditions sl s) (state : (s.key k).state = .folded) (points : SamePoints s t) (rt : t.rt = s.rt)
    (keys : ∀ k', t.key k' = if k = k' then .quiet else s.key k')
    (sg : t.sg = vset s.sg (s.groupOf k) { s.governor (s.groupOf k) with folded := (s.governor (s.groupOf k)).folded.erase k })
    (notFull : NotFull sl s k) : Conditions sl (stormClearIfDue (s.groupOf k) t) := by
  let x : Governor := { s.governor (s.groupOf k) with folded := (s.governor (s.groupOf k)).folded.erase k }
  have governor (g : GroupId) : t.governor g = if s.groupOf k = g then x else s.governor g := by
    rw [State.governor, sg, vget_vset]
    rfl
  have own : t.governor (s.groupOf k) = x := by rw [governor, if_pos rfl]
  have record (g : GroupId) : t.record (stormIx g) = s.record (stormIx g) := by rw [State.record, State.record, rt]
  have before := h.storms (s.groupOf k)
  have folded : (s.governor (s.groupOf k)).folded ≠ [] := List.ne_nil_of_mem (((h.keys k).folded _).2 ⟨state, rfl⟩)
  have after : Conditions ((sl.asking k).storming (s.groupOf k)) t := by
    refine h.unlist (count := s.rt.changeCount) (h.link_of_waits (.inr (.inr state))) points ?_ keys (fun g => ?_) (fun g => ?_) rfl fun g => ?_
    · rw [rt, h.erase_poolWait (by rw [state]; nofun)]
    · rw [governor, h.erase_held g (.inl (by rw [state]; nofun))]
      split
      · next e => rw [← e]
      · rfl
    · rw [governor]
      split
      · next e => rw [← e]
      · next other => rw [h.erase_folded g (.inr other)]
    · rw [governor, record]
      split
      · next e =>
        subst e
        exact ⟨before.held, fun _ => ⟨(before.folded folded).1, .inl (.inr rfl)⟩, fun no => absurd (.inr rfl) no, fun no => absurd (.inr rfl) no⟩
      · exact (h.storms g).mono id .inl
  have after : Conditions (sl.storming (s.groupOf k)) t := Conditions.notAsked (sl := sl.storming (s.groupOf k)) after (notFull.of_points points)
  unfold stormClearIfDue
  dsimp only
  split
  · next due => exact after.clearStorm due.2
  · next notDue =>
    refine after.stormed ?_
    rw [own, record]
    exact ⟨before.held, fun _ => before.folded folded, before.holdCleared, fun _ none opened => absurd ⟨own ▸ opened, own ▸ none⟩ notDue⟩

theorem Conditions.absorbFolded (h : Conditions sl s) (state : (s.key k).state = .folded) (notFull : NotFull sl s k) (d : Definition) :
    Conditions sl (absorbFolded k d s) :=
  h.unfold state (Kept.refl s).putGovernor.putKey.issue.samePoints (rt_issue _ _) (fun _ => (key_issue _ _ _).trans (key_putKey _ _ _ _))
    (sg_issue _ _) notFull

/-! ## Clear events and acknowledgements (R13 to R15, R60, R81 to R87) -/

theorem Conditions.clearEvent (h : Conditions sl s) {d : Definition} (defn : (s.point k.point).defn = some d) (notFull : NotFull sl s k) :
    Conditions sl (clearEvent k d s) := by
  unfold Machine.clearEvent
  dsimp only
  split
  · split
    · next i link =>
      have holds := (h.linked_iff k i).2 link
      split
      · exact h.clearSelfRetiring holds notFull
      · next latched => exact h.clearLatched holds notFull fun e found => Option.some.inj (defn.symm.trans found) ▸ latched
    · exact h
  · next state => exact h.absorbHeld state notFull
  · next state => exact h.absorbWaiting state notFull
  · next state => exact h.absorbFolded state notFull d
  all_goals exact h

/-- A key that is Cleared has a bucket that is not full. -/
theorem Conditions.notFull_of_cleared (h : Conditions sl s) (state : (s.key k).state = .cleared) : NotFull sl s k := fun d asked defn value full =>
  ((h.keys k).fullAsksOnce d asked defn value full).2 state

/-- A retirement does not depend on the fields that end with the life. -/
theorem retire_congr {u : State} {r : Record} {key : Key} (table : TableLaw s) (live : (s.record i).state.live = true)
    (found : (s.record i).key = some key) (rt : u.rt = { s.rt with records := vset s.rt.records i r }) (state : r.state = (s.record i).state)
    (same : r.key = (s.record i).key) (ends : ∀ x, r.endLife x = (s.record i).endLife x) (keys : ∀ k, u.key k = s.key k)
    (time : u.tb.hutTime = s.tb.hutTime) :
    (Machine.retire i u).rt = (Machine.retire i s).rt ∧ ∀ k, (Machine.retire i u).key k = (Machine.retire i s).key k := by
  have record : u.record i = r := by rw [State.record, rt, vget_vset, if_pos rfl]
  have live' : (u.record i).state.live = true := by rw [record, state, live]
  have found' : (u.record i).key = some key := by rw [record, same, found]
  cases key with
  | storm g =>
    have storm : isPool i = false := by rw [eq_stormIx_of_storm table found, stormIx_not_pool]
    refine ⟨?_, fun k => ?_⟩
    · rw [rt_retire_of_storm live' found' storm, rt_retire_of_storm live found storm, record, rt, ends, vset_vset_self]
    · rw [key_retire_of_storm live' found' storm, key_retire_of_storm live found storm, keys]
  | point k =>
    have pool := isPool_of_point table found
    cases waits : s.rt.poolWait with
    | nil =>
      have waits' : u.rt.poolWait = [] := by rw [rt, waits]
      refine ⟨?_, fun k' => ?_⟩
      · rw [rt_retire_of_none_waits live' found' pool waits', rt_retire_of_none_waits live found pool waits, record, rt, ends, vset_vset_self]
      · rw [key_retire_of_none_waits live' found' pool waits', key_retire_of_none_waits live found pool waits, keys]
    | cons w rest =>
      have waits' : u.rt.poolWait = w :: rest := by rw [rt, waits]
      have pending : (givenUp i k u).pendingOf w = (givenUp i k s).pendingOf w :=
        pendingOf_congr (by rw [key_givenUp, key_givenUp, keys])
      refine ⟨?_, fun k' => ?_⟩
      · rw [rt_retire_of_waits live' found' pool waits', rt_retire_of_waits live found pool waits, pending, time, rt, vset_vset_self]
      · rw [key_retire_of_waits live' found' pool waits', key_retire_of_waits live found pool waits, keys]

/-- The acknowledgement of a Cleared record changes the tables as its retirement does: the acknowledgement goes with the life. -/
theorem Conditions.acknowledgeCleared (h : Conditions sl s) (cleared : (s.record i).state = .cleared) (who : AckBy) (tag : Half)
    (retired : Conditions sl (Machine.retire i s)) : Conditions sl (Machine.acknowledgeRecord i who tag s) := by
  obtain ⟨key, found⟩ := h.table.key_of_live (i := i) (by rw [cleared]; rfl)
  have points : SamePoints s (Machine.acknowledgeRecord i who tag s) := (Kept.refl s).acknowledgeRecord.samePoints
  rw [acknowledgeRecord_of_cleared cleared found] at points ⊢
  dsimp only at points ⊢
  obtain ⟨rt, keys⟩ := retire_congr (u := Machine.issue (recordEvent .acknowledged key i (s.record i).severity none
      (putRecord i ((s.record i).acked who tag s.tb.hutTime) s)) (putRecord i ((s.record i).acked who tag s.tb.hutTime) s))
    (r := (s.record i).acked who tag s.tb.hutTime) h.table (by rw [cleared]; rfl) found (rt_issue _ _) rfl rfl (fun _ => rfl)
    (fun k => key_issue _ _ k) (hutTime_issue _ _)
  exact retired.congr ((Kept.refl s).retire.samePoints.symm.trans points) rt keys (by rw [sg_retire, sg_issue, sg_retire]; rfl)

/-- A storm record that is Standing may be Acknowledged; one that is Cleared may be Idle. -/
theorem StormFits.acknowledges {release storm : Prop} {x : Governor} (h : StormFits release storm x .standing) :
    StormFits release storm x .acknowledged :=
  ⟨h.held, fun some => (h.folded some).imp_right (Or.imp_right fun _ => .inr rfl),
    fun settled mode => (h.holdCleared settled mode).elim nofun nofun,
    fun settled none opened => (h.openEmptyCleared settled none opened).elim nofun nofun⟩

theorem StormFits.idles {release storm : Prop} {x : Governor} (h : StormFits release storm x .cleared) : StormFits release storm x .idle :=
  ⟨h.held, fun some => (h.folded some).imp_right (Or.imp_right (Or.rec nofun nofun)), fun _ _ => .inl rfl, fun _ _ _ => .inl rfl⟩

/-- An acknowledgement of a Standing record (R13). -/
theorem Conditions.acknowledgeStanding (h : Conditions sl s) (standing : (s.record i).state = .standing) (who : AckBy) (tag : Half) :
    Conditions sl (Machine.acknowledgeRecord i who tag s) := by
  obtain ⟨key, found⟩ := h.table.key_of_live (i := i) (by rw [standing]; rfl)
  obtain ⟨rt, pt, sg, -⟩ := acknowledged_acknowledgeRecord standing found who tag
  have records (j : RecordIx) : (Machine.acknowledgeRecord i who tag s).record j =
      if i = j then { s.record i with state := .acknowledged, ack := some { taker := who, tag, time := s.tb.hutTime } } else s.record j := by
    rw [State.record, rt, vget_vset]
    rfl
  have governors (g : GroupId) : (Machine.acknowledgeRecord i who tag s).governor g = s.governor g := by rw [State.governor, sg]; rfl
  have keys (k : PointKey) : (Machine.acknowledgeRecord i who tag s).key k = s.key k := by rw [State.key, State.point, pt]; rfl
  refine h.restate (Kept.refl s).acknowledgeRecord.samePoints (h.table.acknowledgeRecord i who tag) records (by rw [rt])
    (fun some => by rw [rt]; exact h.lists.noneFree some) governors rfl rfl rfl (fun k => ⟨fun holds => ?_, fun _ => keys k⟩)
    (fun _ _ cleared => nomatch cleared) rfl fun g => ?_
  · rw [keys, h.key_of_holds holds, standing]
    rfl
  · rw [governors, records]
    split
    · next same =>
      have fits := h.storms g
      rw [← same, standing] at fits
      exact fits.acknowledges
    · exact h.storms g

theorem Conditions.acknowledgeRecord (h : Conditions sl s) (i : RecordIx) (who : AckBy) (tag : Half) :
    Conditions sl (Machine.acknowledgeRecord i who tag s) := by
  by_cases standing : (s.record i).state = .standing
  · exact h.acknowledgeStanding standing who tag
  · by_cases cleared : (s.record i).state = .cleared
    · refine h.acknowledgeCleared cleared who tag ?_
      have live : (s.record i).state.live = true := by rw [cleared]; rfl
      obtain ⟨key, found⟩ := h.table.key_of_live live
      cases key with
      | point k =>
        have state : (s.key k).state = .cleared := ((h.keys k).linked i ((h.linked_iff k i).1 found)).2.1.2 cleared
        exact h.retire found (h.notFull_of_cleared state)
      | storm g =>
        obtain rfl := eq_stormIx_of_storm h.table found
        have fits := h.storms g
        rw [cleared] at fits
        exact h.retireStorm live fits.idles
    · rwa [acknowledgeRecord_of_other who tag standing cleared]

end Sys2Proof.Machine
end

