-- ==== Sys2Proof/Proofs/ConditionsGovern.lean ====
section
/-! PROOF. A refill with its release step, and a definition of a group, keep the conditions (R94, R95, R102 to R104). -/

namespace Sys2Proof.Machine

variable {sl : Slack} {s t : State} {k : PointKey} {g : GroupId}

/-! ## The release step (R103) -/

/-- The release of the head of a storm-held list: whatever the free list, it is the allocation of the key. -/
theorem releaseKey_eq (g : GroupId) (k : PointKey) (rest : List PointKey) (s : State) :
    ∃ e : Option TableEvent, releaseKey g k rest s =
      allocateOrWait k (s.pendingOf k) (e.elim (releasing g rest s) fun e => countEvent e (releasing g rest s)) := by
  cases free : s.rt.free with
  | nil => exact ⟨none, releaseKey_of_none_free free k rest⟩
  | cons i l => exact ⟨some (releasedEvent i k s), releaseKey_of_free free k rest⟩

theorem Conditions.releaseKey (h : Conditions sl s) (slack : sl.release g) {rest : List PointKey} (head : (s.governor g).held = k :: rest) :
    Conditions sl (releaseKey g k rest s) := by
  obtain ⟨state, group⟩ := ((h.keys k).held g).1 (by rw [head]; exact List.mem_cons_self)
  subst group
  have carries := (h.keys k).carries (.inl state)
  have before := h.storms (s.groupOf k)
  let u := putKey k .quiet (Machine.releasing (s.groupOf k) rest s)
  have pointsU : SamePoints s u := (Kept.refl s).putGovernor.advance.putKey.samePoints
  have keyU (k' : PointKey) : u.key k' = if k = k' then .quiet else s.key k' := key_putKey _ _ _ _
  have left : Conditions (sl.asking k) u :=
    h.unhold (x := { s.governor (s.groupOf k) with tokens := (s.governor (s.groupOf k)).tokens - 1, held := rest }) state pointsU rfl keyU rfl
      (by rw [head, List.erase_cons_head]) rfl rfl rfl rfl
      ⟨fun _ => ⟨(before.held (by rw [head]; nofun)).1, .inl slack⟩, before.folded, before.holdCleared, before.openEmptyCleared⟩
  have admitted (x : State) (rt : x.rt = u.rt) (points : SamePoints u x) (keys : ∀ k', x.key k' = s.key k') (sg : x.sg = u.sg) :
      Conditions sl (Machine.allocateOrWait k (s.pendingOf k) x) :=
    left.allocates (by rw [keyU, if_pos rfl]) (carries.of_points pointsU) points (count := x.rt.changeCount) (by rw [rt])
      (fun k' other => by rw [keys, keyU, if_neg other]) fun g' => by rw [State.governor, sg]; rfl
  obtain ⟨e, eq⟩ := releaseKey_eq (s.groupOf k) k rest s
  rw [eq]
  have back : SamePoints u (Machine.releasing (s.groupOf k) rest s) := (Kept.refl _).putKey.samePoints.symm
  cases e with
  | none => exact admitted (Machine.releasing (s.groupOf k) rest s) rfl back (fun _ => rfl) rfl
  | some e => exact admitted (countEvent e (Machine.releasing (s.groupOf k) rest s)) rfl back (fun _ => rfl) rfl

theorem governor_releaseKey (g : GroupId) (k : PointKey) (rest : List PointKey) (s : State) (g' : GroupId) :
    (releaseKey g k rest s).governor g' =
      if g = g' then { s.governor g with tokens := (s.governor g).tokens - 1, held := rest } else s.governor g' := by
  rw [State.governor, sg_releaseKey, vget_vset]
  rfl

/-- The release step spends a token for each key that it takes from the head of the list, and ends when either is used up. -/
theorem governor_releaseLoop (g : GroupId) (n : Nat) (s : State) (g' : GroupId) :
    (releaseLoop g n s).governor g' =
      if g = g' then
        { s.governor g with
          tokens := (s.governor g).tokens - min n (min (s.governor g).tokens (s.governor g).held.length)
          held := (s.governor g).held.drop (min n (min (s.governor g).tokens (s.governor g).held.length)) }
      else s.governor g' := by
  have same (s : State) : s.governor g' = if g = g' then s.governor g else s.governor g' := by
    split
    · next e => rw [e]
    · rfl
  induction n generalizing s with
  | zero =>
    rw [Nat.zero_min]
    exact same s
  | succ n ih =>
    unfold releaseLoop
    split
    · next k rest head =>
      split
      · next some =>
        rw [ih, governor_releaseKey, governor_releaseKey, if_pos rfl, head]
        split
        · have taken : min (n + 1) (min (s.governor g).tokens (rest.length + 1)) = min n (min ((s.governor g).tokens - 1) rest.length) + 1 := by
            omega
          rw [List.length_cons, taken, List.drop_succ_cons, Nat.sub_sub, Nat.add_comm 1]
        · rfl
      · next spent =>
        rw [show min (n + 1) (min (s.governor g).tokens (s.governor g).held.length) = 0 by omega]
        exact same s
    · next empty =>
      rw [show min (n + 1) (min (s.governor g).tokens (s.governor g).held.length) = 0 by rw [empty, List.length_nil]; omega]
      exact same s

theorem Conditions.releaseLoop (h : Conditions sl s) (slack : sl.release g) (n : Nat) : Conditions sl (releaseLoop g n s) := by
  induction n generalizing s with
  | zero => exact h
  | succ n ih =>
    unfold Machine.releaseLoop
    split
    · next head =>
      split
      · exact ih (h.releaseKey slack head)
      · exact h
    · exact h

/-- A governor that may not release any more needs no slack. -/
theorem Conditions.released (h : Conditions (sl.releasing g) s)
    (done : (s.governor g).held ≠ [] → (s.governor g).gate = .closed ∨ (s.governor g).tokens = 0) : Conditions sl s where
  table := h.table
  keys k := { h.keys k with fullAsksOnce := (h.keys k).fullAsksOnce }
  records := h.records
  lists := h.lists
  storms g' := by
    have before := h.storms g'
    by_cases same : g' = g
    · subst same
      exact ⟨fun some => ⟨(before.held some).1, .inr (done some)⟩, before.folded, before.holdCleared, before.openEmptyCleared⟩
    · exact before.mono (fun slack => slack.resolve_right same) id

/-- After the release step no key is held, or no token is left. -/
theorem Conditions.releaseStep (h : Conditions (sl.releasing g) s) : Conditions sl (releaseStep g s) := by
  refine (h.releaseLoop (.inr rfl) _).released fun some => ?_
  rw [governor_releaseLoop, if_pos rfl, min_eq_right (min_le_left _ _)] at some ⊢
  have : min (s.governor g).tokens (s.governor g).held.length < (s.governor g).held.length := by
    by_contra all
    exact some (List.drop_eq_nil_of_le (not_lt.1 all))
  exact .inr (by dsimp only; omega)

theorem Conditions.releaseIfOpen (h : Conditions (sl.releasing g) s) : Conditions sl (releaseIfOpen g s) := by
  unfold Machine.releaseIfOpen
  dsimp only
  split
  · exact h.releaseStep
  · next other =>
    refine h.released fun held => .inl ?_
    have mode := ((h.storms g).held held).1
    cases gate : (s.governor g).gate with
    | closed => rfl
    | opened => exact absurd ⟨gate, mode⟩ other

/-! ## Refill and definition (R94, R95, R102, R104) -/

theorem Conditions.reopen (h : Conditions (sl.releasing g) s) : Conditions (sl.releasing g) (reopen g s) := by
  unfold Machine.reopen
  dsimp only
  have before := h.storms g
  let x : Governor := { s.governor g with gate := .opened }
  have written {sl' : Slack} (key : sl'.key = sl.key) (release : sl'.release = (sl.releasing g).release) (storm : ∀ g, sl.storm g → sl'.storm g)
      (fits : StormFits (sl'.release g) (sl'.storm g) x (s.record (stormIx g)).state) :
      Conditions sl' (setNotice .reopened (putGovernor g x s)) := by
    have points : SamePoints s (setNotice .reopened (putGovernor g x s)) := .refl s
    exact h.writeGovernor points rfl (fun _ => rfl) rfl rfl rfl key (fun _ _ => release ▸ id)
      (fun g _ => storm g) fits
  split
  · split
    · next empty =>
      have opened : Conditions ((sl.releasing g).storming g) (setNotice .reopened (putGovernor g x s)) :=
        written rfl rfl (fun _ => .inl)
          ⟨fun held => ⟨(before.held held).1, .inl (.inr rfl)⟩, fun some => absurd empty.2 some, fun no => absurd (.inr rfl) no,
            fun no => absurd (.inr rfl) no⟩
      exact opened.clearStorm ((congrArg Governor.folded ((governor_putGovernor g g x s).trans (if_pos rfl))).trans empty.2)
    · next notEmpty =>
      refine written rfl rfl (fun _ => id) ⟨fun held => ⟨(before.held held).1, .inl (.inr rfl)⟩, before.folded, before.holdCleared,
        fun settled none _ => ?_⟩
      refine before.holdCleared settled ?_
      cases mode : (s.governor g).defn.mode with
      | hold => rfl
      | fold => exact absurd ⟨mode, none⟩ notEmpty
  · exact h

theorem Conditions.refillGovernor (h : Conditions sl s) (g : GroupId) : Conditions sl (refillGovernor g s) := by
  have before := h.storms g
  have points : SamePoints s (putGovernor g (s.governor g).refilled s) := .refl s
  have refilled : Conditions (sl.releasing g) (putGovernor g (s.governor g).refilled s) :=
    h.writeGovernor points rfl (fun _ => rfl) rfl rfl rfl rfl (fun _ _ => .inl) (fun _ _ => id)
      ⟨fun held => ⟨(before.held held).1, .inl (.inr rfl)⟩, before.folded, before.holdCleared, before.openEmptyCleared⟩
  exact refilled.reopen.releaseIfOpen

theorem Conditions.lowerRefill (h : Conditions sl s) (g : GroupId) (n : Nat) : Conditions sl (putGovernor g { s.governor g with refill := n } s) := by
  have before := h.storms g
  have points : SamePoints s (putGovernor g { s.governor g with refill := n } s) := .refl s
  exact h.writeGovernor points rfl (fun _ => rfl) rfl rfl rfl rfl (fun _ _ => id) (fun _ _ => id)
    ⟨before.held, before.folded, before.holdCleared, before.openEmptyCleared⟩

/-- A group of which no point is In Service holds and folds no key (R94). -/
theorem Conditions.vacantGroup (h : Conditions sl s) (unused : s.groupInUse g = false) :
    (s.governor g).held = [] ∧ (s.governor g).folded = [] := by
  have noDefn {k : PointKey} (busy : (s.key k).state ≠ .quiet) : s.groupOf k ≠ g := fun group => by
    obtain ⟨d, defn, -⟩ := (h.keys k).defined busy
    rw [State.groupOf, defn] at group
    have := groupInUse_iff.2 ⟨k.point, d, defn, group⟩
    rw [unused] at this
    cases this
  refine ⟨List.eq_nil_iff_forall_not_mem.2 fun k m => ?_, List.eq_nil_iff_forall_not_mem.2 fun k m => ?_⟩
  · obtain ⟨state, group⟩ := ((h.keys k).held g).1 m
    exact noDefn (by rw [state]; nofun) group
  · obtain ⟨state, group⟩ := ((h.keys k).folded g).1 m
    exact noDefn (by rw [state]; nofun) group

theorem Conditions.defineGovernor (h : Conditions sl s) (unused : s.groupInUse g = false) (d : GovernorDef) :
    Conditions sl (defineGovernor g d s) := by
  obtain ⟨held, folded⟩ := h.vacantGroup unused
  let x : Governor := { s.governor g with defn := d, gate := .opened, tokens := d.depth, refill := d.period }
  have points : SamePoints s (putGovernor g x s) := .refl s
  have written : Conditions (sl.storming g) (putGovernor g x s) :=
    h.writeGovernor points rfl (fun _ => rfl) rfl rfl rfl rfl (fun _ _ => id) (fun _ _ => .inl)
      ⟨fun some => absurd held some, fun some => absurd folded some, fun no => absurd (.inr rfl) no, fun no => absurd (.inr rfl) no⟩
  exact written.clearStorm ((congrArg Governor.folded ((governor_putGovernor g g x s).trans (if_pos rfl))).trans folded)

theorem Conditions.defineGroup (h : Conditions sl s) (r : RawGroup) : Conditions sl (serveDefineGroup r s).1 := by
  unfold serveDefineGroup
  split
  · exact h
  · split
    · exact h
    · next unused => exact h.defineGovernor (by rwa [Bool.not_eq_true] at unused) _

end Sys2Proof.Machine
end

