-- ==== Sys2Proof/Proofs/ConditionsSample.lean ====
section
/-! PROOF. Samples, readings, countdowns, definitions and withdrawals of points keep the conditions (chapters 2 and 3). -/

namespace Sys2Proof.Machine

variable {sl : Slack} {s t : State} {k : PointKey} {p : PointId} {d : Definition}

/-! ## A point is written -/

/-- A point that has kept what is a definition, a bucket or a key. -/
theorem Conditions.writePoint (h : Conditions sl s) {e : PointEntry} (defn : e.defn = (s.point p).defn) (keys : e.keys = (s.point p).keys)
    (bucket : ∀ kind, e.bucket kind = (s.point p).bucket kind) : Conditions sl (putPoint p e s) := by
  refine h.congr (fun q => ?_) rfl (fun k => ?_) rfl
  · rw [point_putPoint]
    split
    · next same => exact same ▸ ⟨defn, bucket⟩
    · exact ⟨rfl, fun _ => rfl⟩
  · rw [State.key, point_putPoint]
    split
    · next same => rw [keys, same]; rfl
    · rfl

theorem keys_setBucket (e : PointEntry) (kind : Kind) (level : Nat) : (e.setBucket kind level).keys = e.keys := by cases kind <;> rfl

/-- The state with the bucket of a key at a level. -/
def setLevel (k : PointKey) (level : Nat) (s : State) : State := putPoint k.point ((s.point k.point).setBucket k.kind level) s

theorem defn_setLevel (k : PointKey) (level : Nat) (s : State) (p : PointId) : ((setLevel k level s).point p).defn = (s.point p).defn :=
  defn_putPoint (defn_setBucket _ _ _) p

theorem key_setLevel (k : PointKey) (level : Nat) (s : State) (k' : PointKey) : (setLevel k level s).key k' = s.key k' := by
  rw [State.key, setLevel, point_putPoint]
  split
  · next same => rw [keys_setBucket, same]; rfl
  · rfl

theorem bucket_setLevel (k : PointKey) (level : Nat) (s : State) (k' : PointKey) :
    ((setLevel k level s).point k'.point).bucket k'.kind =
      if k = k' ∧ k.kind.hasValue = true then level else (s.point k'.point).bucket k'.kind := by
  rw [setLevel, point_putPoint]
  by_cases same : k.point = k'.point
  · rw [if_pos same, bucket_setBucket, same]
    refine if_congr (and_congr_left' ⟨fun kind => ?_, fun eq => by rw [eq]⟩) rfl rfl
    cases k
    cases k'
    simp_all
  · rw [if_neg same, if_neg fun eq : k = k' ∧ _ => same (by rw [eq.1])]

/-- A bucket is written: its key may have to be asked. -/
theorem Conditions.setLevel (h : Conditions sl s) (k : PointKey) (level : Nat) : Conditions (sl.asking k) (setLevel k level s) where
  table := h.table.of_rt rfl
  keys k' := by
    have before := h.keys k'
    have key := key_setLevel k level s k'
    have defn := defn_setLevel k level s k'.point
    have group : (Machine.setLevel k level s).groupOf k' = s.groupOf k' := by rw [State.groupOf, State.groupOf, defn]
    constructor
    case fullAsksOnce =>
      intro d asked
      rw [key, defn, bucket_setLevel, if_neg fun same => asked (.inr same.1.symm)]
      exact before.fullAsksOnce d fun slack => asked (.inl slack)
    case held => intro g; rw [key, group]; exact before.held g
    case folded => intro g; rw [key, group]; exact before.folded g
    case linked => rw [key, defn]; exact before.linked
    case waiting => rw [key]; exact before.waiting
    case vacant => rw [key, defn]; exact before.vacant
    case linkByState => rw [key]; exact before.linkByState
    case pendingByState => rw [key]; exact before.pendingByState
    case pendingSeverity => rw [key, defn]; exact before.pendingSeverity
    case clearedLatched => rw [key, defn]; exact before.clearedLatched
    case unevaluatedQuiet => rw [key, defn]; exact before.unevaluatedQuiet
  records i := ⟨fun k' holds => by rw [key_setLevel]; exact (h.records i).linked k' holds, (h.records i).peak⟩
  lists := h.lists.of_same rfl (fun w _ => key_setLevel _ _ _ w) h.lists.noneFree (fun _ => rfl) fun _ => rfl
  storms := h.storms

/-- A point whose keys are all Quiet is written anew, its buckets not full; then none of its keys needs slack. -/
theorem Conditions.newPoint (h : Conditions sl s) (quiet : ∀ k : PointKey, k.point = p → s.key k = .quiet) {e : PointEntry}
    (keys : e.keys = .quiet) (notFull : ∀ d kind, e.defn = some d → kind.hasValue = true → e.bucket kind ≠ d.capacity) {sl' : Slack}
    (key : ∀ k : PointKey, sl.key k → sl'.key k ∨ k.point = p) (release : sl'.release = sl.release) (storm : sl'.storm = sl.storm) :
    Conditions sl' (putPoint p e s) := by
  have own {k : PointKey} (of : k.point = p) : (putPoint p e s).key k = .quiet := by
    rw [key_putPoint, if_pos of.symm, keys]
    cases k.kind <;> rfl
  have other {k : PointKey} (ne : k.point ≠ p) : (putPoint p e s).point k.point = s.point k.point := by
    rw [point_putPoint, if_neg (Ne.symm ne)]
  have notFull' {k : PointKey} {d : Definition} (of : k.point = p) (defn : ((putPoint p e s).point k.point).defn = some d)
      (value : k.kind.hasValue = true) : ((putPoint p e s).point k.point).bucket k.kind ≠ d.capacity := by
    rw [point_putPoint, if_pos of.symm] at defn ⊢
    exact notFull d k.kind defn value
  have frame : Changes (fun k => k.point = p) (fun _ => False) s (putPoint p e s) :=
    { defn := fun k ne => by rw [other ne], bucket := fun k ne => by rw [other ne]
      keys := fun k ne => by rw [State.key, other ne]; rfl
      records := fun _ _ => rfl, waiting := fun _ _ => .rfl, held := fun _ _ _ => .rfl, folded := fun _ _ _ => .rfl }
  have written : Conditions sl (putPoint p e s) := by
    refine h.step frame (fun k i holds => iff_of_false (fun of => h.not_holds_of_quiet (quiet k of) i holds) id) rfl (h.table.of_rt rfl)
      (fun k of => ?_) (fun _ => False.elim) (h.lists.of_same rfl (fun w m => ?_) h.lists.noneFree (fun _ => rfl) fun _ => rfl) h.storms
    · have absent := h.absent_of_quiet (quiet k of)
      exact keyOk_of_quiet (own of) ⟨absent.waiting, absent.held, absent.folded⟩ fun d _ defn value => notFull' of defn value
    · exact frame.keys w fun of => (h.absent_of_quiet (quiet w of)).waiting m
  exact written.narrow release storm fun k d slack narrow defn value full =>
    absurd full (notFull' ((key k slack).resolve_left narrow) defn value)

/-! ## Samples (R53 to R61) -/

theorem NotFull.of_lt {k : PointKey} {level : Nat} (bucket : (s.point k.point).bucket k.kind = level)
    (defn : (s.point k.point).defn = some d) (less : level ≠ d.capacity) (sl : Slack) : NotFull sl s k := fun e _ found _ => by
  obtain rfl := Option.some.inj (defn.symm.trans found)
  rwa [bucket]

theorem Conditions.offerPeak (h : Conditions sl s) (k : PointKey) (v : Half) : Conditions sl (offerPeak k v s) := by
  unfold Machine.offerPeak
  dsimp only
  split
  · exact h.peakUpdate _ v
  · exact h.peakUpdate _ v
  · exact h

/-- The weight of a recovered sample is at least 1 (R56, R57). -/
theorem one_le_drainWeight {kind : Kind} {ev : Evaluation} (weighting : ∀ drain, ev.weighting = .count drain → 1 ≤ drain) (v : Int) :
    1 ≤ drainWeight kind ev v := by
  unfold drainWeight
  split
  · next drain eq => exact weighting drain eq
  · unfold magnitudeWeight
    omega

theorem weighting_of_evaluation {kind : Kind} {ev : Evaluation} (found : d.evaluation kind = some ev) : ev.weighting = d.weighting := by
  unfold Definition.evaluation at found
  split at found
  · obtain ⟨t, -, rfl⟩ := Option.map_eq_some_iff.1 found
    rfl
  · obtain ⟨t, -, rfl⟩ := Option.map_eq_some_iff.1 found
    rfl
  · cases found; rfl
  · cases found; rfl
  · cases found

theorem hasValue_of_evaluation {kind : Kind} {ev : Evaluation} (found : d.evaluation kind = some ev) : kind.hasValue = true := by
  unfold Definition.evaluation at found
  split at found
  any_goals rfl
  cases found

theorem Conditions.verdict (h : Conditions .none s) (entry : EntryLaw (s.point k.point) d) (defn : (s.point k.point).defn = some d)
    {ev : Evaluation} (evaluated : d.evaluation k.kind = some ev) (v : Half) {level : Nat}
    (new : level = newLevel k.kind ev d.capacity ((s.point k.point).bucket k.kind) v.toInt) :
    Conditions .none (verdict k d (band k.kind ev v.toInt) level v (Machine.setLevel k level s)) := by
  have value := hasValue_of_evaluation evaluated
  have written := h.setLevel k level
  have defn' : ((Machine.setLevel k level s).point k.point).defn = some d := (defn_setLevel _ _ _ _).trans defn
  have bucket : ((Machine.setLevel k level s).point k.point).bucket k.kind = level := by rw [bucket_setLevel, if_pos ⟨rfl, value⟩]
  have capacity := entry.definition.capacity.1
  have notFull (less : level ≠ d.capacity) : NotFull .none (Machine.setLevel k level s) k := .of_lt bucket defn' less .none
  unfold Machine.verdict
  split
  · split
    · exact written.beginCondition defn' (fun _ => by rw [evaluated]; nofun) value.symm
    · next less => exact written.notAsked (notFull less)
  · next recovered =>
    have less : level ≠ d.capacity := by
      have within := entry.bucket_le k.kind
      have weight := one_le_drainWeight (kind := k.kind) (ev := ev) (fun drain eq => by
        have := entry.definition.weighting
        rw [← weighting_of_evaluation evaluated, eq] at this
        exact this.1) v.toInt
      rw [new, newLevel, recovered]
      dsimp only
      omega
    have settled := written.notAsked (notFull less)
    split
    · exact settled.clearEvent defn' (notFull less)
    · exact settled
  · next holding =>
    refine written.asked fun e found _ full => ?_
    rw [key_setLevel]
    rw [bucket, new, newLevel, holding] at full
    exact (h.keys k).fullAsksOnce e id ((defn_setLevel _ _ _ _).symm.trans found) value full

theorem Conditions.applySample (h : Conditions .none s) (points : PointLaw s) (k : PointKey) (v : Half) :
    Conditions .none (applySample k v s) := by
  unfold Machine.applySample
  dsimp only
  split
  · exact h
  · next d defn =>
    split
    · exact h
    · next ev evaluated => exact (h.verdict (points.inService k.point d defn) defn evaluated v rfl).offerPeak k v

/-! ## Stale and Fault (R62 to R67) -/

/-- A kind without a value has no bucket to fill. -/
theorem NotFull.of_noValue (none : k.kind.hasValue = false) (sl : Slack) (s : State) : NotFull sl s k := fun _ _ _ value => by
  rw [none] at value
  cases value

theorem defn_setStale (p : PointId) (stale : Option Nat) (s : State) (q : PointId) :
    ((putPoint p { s.point p with stale } s).point q).defn = (s.point q).defn :=
  defn_putPoint (e := { s.point p with stale }) rfl q

theorem Conditions.setStale (h : Conditions sl s) (p : PointId) (stale : Option Nat) : Conditions sl (putPoint p { s.point p with stale } s) :=
  h.writePoint rfl rfl fun kind => by cases kind <;> rfl

theorem Conditions.setShelve (h : Conditions sl s) (p : PointId) (n : Nat) : Conditions sl (putPoint p { s.point p with shelve := n } s) :=
  h.writePoint rfl rfl fun kind => by cases kind <;> rfl

theorem Conditions.staleStep (h : Conditions sl s) (defn : (s.point p).defn = some d) : Conditions sl (staleStep p d s) := by
  unfold Machine.staleStep
  dsimp only
  split
  · exact (h.setStale p (some d.staleInterval)).clearEvent ((defn_setStale p _ s p).trans defn) (.of_noValue rfl _ _)
  · exact (h.writePoint rfl rfl fun _ => rfl).clearEvent ((defn_putPoint (e := s.point p) rfl p).trans defn) (.of_noValue rfl _ _)

theorem Conditions.faultStep (h : Conditions sl s) (marked : Bool) (defn : (s.point p).defn = some d) : Conditions sl (faultStep p d marked s) := by
  unfold Machine.faultStep
  split
  · exact (h.asking _).beginCondition defn nofun rfl
  · exact h.clearEvent defn (.of_noValue rfl _ _)

theorem Conditions.staleExpire (h : Conditions sl s) (p : PointId) : Conditions sl (staleExpire p s) := by
  unfold Machine.staleExpire
  dsimp only
  split
  · next defn _ => exact ((h.setStale p (some 0)).asking _).beginCondition ((defn_setStale p _ s p).trans defn) nofun rfl
  · exact h

/-! ## Definition (R31 to R34) -/

theorem Conditions.definePoint (h : Conditions .none s) (r : RawPoint) : Conditions .none (serveDefinePoint r s).1 := by
  unfold serveDefinePoint
  split
  · exact h
  · next p d found =>
    split
    · exact h
    · next vacant =>
      split
      · exact h
      · split
        · exact h
        · next bands =>
          have law := definitionLaw_of_definitionOf found (by simpa using bands)
          have none : (s.point p).defn = none := by simpa [PointEntry.inService] using vacant
          refine h.newPoint (fun k of => (h.keys k).vacant (of ▸ none)) rfl (fun e kind same _ => ?_) (fun _ slack => .inl slack) rfl rfl
          obtain rfl := Option.some.inj same
          have capacity := law.capacity.1
          have empty : (PointEntry.defined d).bucket kind = 0 := by cases kind <;> rfl
          rw [empty]
          omega

end Sys2Proof.Machine
end

