-- ==== Sys2Proof/Proofs/StormClears.lean ====
section
/-! PROOF. What the clear of a storm record does (R15, R17, R104): the equations of the state after it, in every state of the record. -/

namespace Sys2Proof.Machine

section Storm

variable {s t u : State} {g : GroupId}

/-- A storm record is Idle, Standing, Acknowledged or Cleared, never Free (R2). -/
theorem TableLaw.storm_cases (h : TableLaw s) (g : GroupId) :
    ((s.record (stormIx g)).state = .idle ∨ (s.record (stormIx g)).state = .cleared) ∨
      (s.record (stormIx g)).state = .standing ∨ (s.record (stormIx g)).state = .acknowledged := by
  have notFree := (h.records (stormIx g)).stormNotFree (Nat.le_add_right 160 g.val)
  cases state : (s.record (stormIx g)).state with
  | free => exact absurd state notFree
  | idle => exact .inl (.inl rfl)
  | cleared => exact .inl (.inr rfl)
  | standing => exact .inr (.inl rfl)
  | acknowledged => exact .inr (.inr rfl)

/-- The clear of a storm record touches the record table and the counters alone. -/
theorem clearLatched_storm_frame (h : TableLaw s) (g : GroupId) :
    let x := clearLatched (stormIx g) s
    x.outside = s.outside ∧ x.pt = s.pt ∧ x.sg = s.sg ∧ x.nu = s.nu ∧ x.tb = s.tb := by
  rcases h.storm_cases g with left | standing | acknowledged
  · rw [clearLatched_of_idle_or_cleared left]
    exact ⟨rfl, rfl, rfl, rfl, rfl⟩
  · rw [clearLatched_of_storm_standing (h.key_stormIx g (by rw [standing]; rfl)) standing]
    exact ⟨rfl, rfl, rfl, rfl, rfl⟩
  · rw [clearLatched_of_storm_acknowledged (h.key_stormIx g (by rw [acknowledged]; rfl)) acknowledged]
    exact ⟨rfl, rfl, rfl, rfl, rfl⟩

theorem pt_clearLatched_storm (h : TableLaw s) (g : GroupId) : (clearLatched (stormIx g) s).pt = s.pt := (clearLatched_storm_frame h g).2.1

theorem key_clearLatched_storm (h : TableLaw s) (g : GroupId) (k : PointKey) : (clearLatched (stormIx g) s).key k = s.key k := by
  rw [State.key, State.point, pt_clearLatched_storm h]
  rfl

theorem pt_stormClearIfDue (h : TableLaw s) (g : GroupId) : (stormClearIfDue g s).pt = s.pt := by
  unfold stormClearIfDue
  dsimp only
  split
  · exact pt_clearLatched_storm h g
  · rfl

theorem key_stormClearIfDue (h : TableLaw s) (g : GroupId) (k : PointKey) : (stormClearIfDue g s).key k = s.key k := by
  rw [State.key, State.point, pt_stormClearIfDue h]
  rfl

theorem counted_refl (s : State) : counted [] s s := fun _ _ => rfl

/-- The storm record of a group after it has been asked to clear, in a state with the record table in order. -/
theorem stormCleared_clearLatched (h : TableLaw s) (g : GroupId) : StormCleared [] g s (clearLatched (stormIx g) s) := by
  obtain ⟨-, -, -, nu, tb⟩ := clearLatched_storm_frame h g
  have notIn {l : List RecordIx} {state : RecordState} (holds : ∀ i, i ∈ l ↔ (s.record i).state = state)
      (other : (s.record (stormIx g)).state ≠ state) : l.erase (stormIx g) = l := List.erase_of_not_mem fun m => other ((holds _).1 m)
  refine ⟨nu, tb, fun left => ?_, fun standing => ?_, fun acknowledged => ?_⟩
  · rw [clearLatched_of_idle_or_cleared left]
    exact ⟨rfl, counted_refl s⟩
  · have same := notIn h.lists.acknowledged (by rw [standing]; nofun)
    rw [clearLatched_of_storm_standing (h.key_stormIx g (by rw [standing]; rfl)) standing]
    refine ⟨?_, counted_countEvent _ _⟩
    rw [rt_countEvent, same]
  · have same := notIn h.lists.standing (by rw [acknowledged]; nofun)
    have same' := notIn h.lists.cleared (by rw [acknowledged]; nofun)
    rw [clearLatched_of_storm_acknowledged (h.key_stormIx g (by rw [acknowledged]; rfl)) acknowledged]
    refine ⟨?_, counted_append (first := [_]) (counted_countEvent _ _) (counted_countEvent _ _)⟩
    rw [rt_countEvent, rt_countEvent, same, same']

/-- A storm record that is asked to clear after other events. -/
theorem StormCleared.after {before : List (GroupId × EventKind × Option Severity × Nat)} (rt : u.rt = s.rt) (nu : u.nu = s.nu)
    (tb : u.tb = s.tb) (first : counted before s u) (h : StormCleared [] g u t) : StormCleared before g s t := by
  have record : u.record (stormIx g) = s.record (stormIx g) := by rw [State.record, rt]; rfl
  have duration : liveDuration (u.record (stormIx g)) u = liveDuration (s.record (stormIx g)) s := by
    rw [liveDuration, liveDuration, record, tb]
  obtain ⟨nu', tb', left, standing, acknowledged⟩ := h
  rw [record, rt] at left
  rw [record, rt, ← record, duration, record] at standing
  rw [record, rt, ← record, duration, record] at acknowledged
  refine ⟨nu'.trans nu, tb'.trans tb, fun state => ?_, fun state => ?_, fun state => ?_⟩
  · obtain ⟨rt', events⟩ := left state
    exact ⟨rt', by simpa using counted_append first events⟩
  · obtain ⟨rt', events⟩ := standing state
    exact ⟨by rw [rt', tb], counted_append first events⟩
  · obtain ⟨rt', events⟩ := acknowledged state
    exact ⟨rt', counted_append first events⟩

end Storm

end Sys2Proof.Machine
end

