-- ==== Sys2Proof/Proofs/ConditionsWithdraw.lean ====
section
/-! PROOF. A withdrawal keeps the conditions (R40 to R42), and with it every step keeps every law (O60). -/

namespace Sys2Proof.Machine

variable {sl : Slack} {s t : State} {k : PointKey} {p : PointId} {kind : Kind}

/-! ## The first stage: what waits is dropped (R40) -/

/-- Held, Waiting or Folded: the states from which a withdrawal drops a key. -/
def KeyState.pends (x : KeyState) : Prop := x = .held ∨ x = .waiting ∨ x = .folded

theorem dropPending_of_other (other : ¬ (s.key { point := p, kind }).state.pends) : dropPending p s kind = s := by
  unfold dropPending
  dsimp only
  split
  · next state => exact absurd (.inl state) other
  · next state => exact absurd (.inr (.inl state)) other
  · next state => exact absurd (.inr (.inr state)) other
  all_goals rfl

theorem key_dropPending (table : TableLaw s) (p : PointId) (kind : Kind) (k : PointKey) :
    ((s.key { point := p, kind }).state.pends → { point := p, kind } = k → (dropPending p s kind).key k = .quiet) ∧
      ((¬ (s.key { point := p, kind }).state.pends ∨ { point := p, kind } ≠ k) → (dropPending p s kind).key k = s.key k) := by
  by_cases pends : (s.key { point := p, kind }).state.pends
  · have dropped : (dropPending p s kind).key k = if { point := p, kind } = k then .quiet else s.key k := by
      unfold dropPending
      dsimp only
      split
      · exact key_putKey _ _ _ _
      · exact key_putKey _ _ _ _
      · rw [key_stormClearIfDue]
        · exact key_putKey _ _ _ _
        · exact table.of_rt rfl
      · next state => rw [state] at pends; exact absurd pends (by simp [KeyState.pends])
      · next state => rw [state] at pends; exact absurd pends (by simp [KeyState.pends])
      · next state => rw [state] at pends; exact absurd pends (by simp [KeyState.pends])
    exact ⟨fun _ same => by rw [dropped, if_pos same], fun either => by rw [dropped, if_neg (either.resolve_left (not_not_intro pends))]⟩
  · rw [dropPending_of_other pends]
    exact ⟨fun yes => absurd yes pends, fun _ => rfl⟩

theorem Conditions.dropPending (h : Conditions sl s) (p : PointId) (kind : Kind) (slack : sl.key { point := p, kind }) :
    Conditions sl (dropPending p s kind) := by
  have notFull (t : State) : NotFull sl t { point := p, kind } := fun _ asked => absurd slack asked
  unfold Machine.dropPending
  dsimp only
  split
  · next state =>
    have before := h.storms (s.groupOf { point := p, kind })
    let x : Governor :=
      { s.governor (s.groupOf { point := p, kind }) with
        held := (s.governor (s.groupOf { point := p, kind })).held.erase { point := p, kind } }
    have points : SamePoints s (advance 1 (putKey { point := p, kind } .quiet (putGovernor (s.groupOf { point := p, kind }) x s))) :=
      (Kept.refl s).putGovernor.putKey.advance.samePoints
    have after := h.unhold (sl' := sl.asking { point := p, kind }) state points rfl
      (fun _ => key_putKey _ _ _ _) rfl rfl rfl rfl rfl rfl
      ⟨fun some => before.held fun none => some (congrArg (List.erase · _) none), before.folded, before.holdCleared, before.openEmptyCleared⟩
    exact after.notAsked (notFull _)
  · next state =>
    have points : SamePoints s (advance 1 (putKey { point := p, kind } .quiet
        { s with rt := { s.rt with poolWait := s.rt.poolWait.erase { point := p, kind } } })) :=
      ((Kept.refl s).withRt fun waits empty => waits (by rw [empty]; rfl)).putKey.advance.samePoints
    have after := h.unlist (sl' := sl.asking { point := p, kind }) (h.link_of_waits (.inr (.inl state))) points rfl
      (fun _ => key_putKey _ _ _ _) (fun g => (h.erase_held g (.inl (by rw [state]; nofun))).symm)
      (fun g => (h.erase_folded g (.inl (by rw [state]; nofun))).symm) rfl h.storms
    exact after.notAsked (notFull _)
  · next state =>
    exact h.unfold state (Kept.refl s).putGovernor.putKey.samePoints rfl (fun _ => key_putKey _ _ _ _) rfl (notFull _)
  all_goals exact h

/-- The slack of a point that is being withdrawn: its keys are asked no more. -/
def Slack.withdrawing (p : PointId) : Slack := { Slack.none with key := fun k => k.point = p }

/-- After the first stage no key of the point waits. -/
theorem Conditions.dropAll (h : Conditions (.withdrawing p) s) :
    Conditions (.withdrawing p) (allKinds.foldl (Machine.dropPending p) s) ∧
      ∀ kind, ¬ ((allKinds.foldl (Machine.dropPending p) s).key { point := p, kind }).state.pends := by
  have dropped (l : List Kind) : Conditions (.withdrawing p) (l.foldl (Machine.dropPending p) s) ∧
      ∀ kind ∈ l, ¬ ((l.foldl (Machine.dropPending p) s).key { point := p, kind }).state.pends := by
    induction l using List.reverseRecOn with
    | nil => exact ⟨h, nofun⟩
    | append_singleton l kind ih =>
      obtain ⟨before, settled⟩ := ih
      rw [List.foldl_append, List.foldl_cons, List.foldl_nil]
      refine ⟨before.dropPending p kind rfl, fun kind' m => ?_⟩
      obtain ⟨quiet, kept⟩ := key_dropPending before.table p kind { point := p, kind := kind' }
      by_cases own : ((l.foldl (Machine.dropPending p) s).key { point := p, kind }).state.pends ∧ kind = kind'
      · rw [quiet own.1 (by rw [own.2])]
        simp [KeyState.pends, KeyEntry.quiet]
      · rw [kept ((not_and_or.1 own).imp_right fun ne same => ne (PointKey.mk.inj same).2)]
        rcases List.mem_append.1 m with m | m
        · exact settled kind' m
        · obtain rfl := List.mem_singleton.1 m
          exact fun pends => own ⟨pends, rfl⟩
  refine ⟨(dropped allKinds).1, fun kind => (dropped allKinds).2 kind ?_⟩
  cases kind <;> decide

/-! ## The second stage: live records are retired (R41) -/

theorem retireLinked_of_link {acc : State × Nat} {i : RecordIx}
    (state : (acc.1.key { point := p, kind }).state = .raised ∨ (acc.1.key { point := p, kind }).state = .cleared)
    (link : (acc.1.key { point := p, kind }).link = some i) : retireLinked p acc kind = (retire i acc.1, acc.2 + 1) := by
  unfold retireLinked
  dsimp only
  rcases state with state | state <;> simp only [state, link]

theorem retireLinked_of_other {acc : State × Nat} (raised : (acc.1.key { point := p, kind }).state ≠ .raised)
    (cleared : (acc.1.key { point := p, kind }).state ≠ .cleared) : retireLinked p acc kind = acc := by
  unfold retireLinked
  dsimp only
  split
  · next state _ => exact absurd state raised
  · next state _ => exact absurd state cleared
  · rfl

/-- A retirement makes the key of the record Quiet and leaves every other key but the one that waits first. -/
theorem key_retire_of_holds (h : Conditions sl s) {i : RecordIx} (holds : (s.record i).holds k) (k' : PointKey) (notWaiting : k' ∉ s.rt.poolWait) :
    (retire i s).key k' = if k = k' then .quiet else s.key k' := by
  have live := h.live_of_holds holds
  have pool := isPool_of_point h.table holds
  cases waits : s.rt.poolWait with
  | nil => exact key_retire_of_none_waits live holds pool waits k'
  | cons w rest =>
    rw [key_retire_of_waits live holds pool waits, if_neg]
    rintro rfl
    exact notWaiting (by rw [waits]; exact List.mem_cons_self)

/-- A key that waits on no list. -/
theorem Conditions.not_waits (h : Conditions sl s) (settled : ¬ (s.key k).state.pends) : k ∉ s.rt.poolWait := fun m =>
  settled (.inr (.inl ((h.keys k).waiting.1 m)))

theorem Conditions.retireLinked {acc : State × Nat} (h : Conditions sl acc.1) (slack : sl.key { point := p, kind })
    (settled : ∀ kind, ¬ (acc.1.key { point := p, kind }).state.pends) :
    Conditions sl (Machine.retireLinked p acc kind).1 ∧
      ∀ kind', (Machine.retireLinked p acc kind).1.key { point := p, kind := kind' } =
        if kind = kind' then .quiet else acc.1.key { point := p, kind := kind' } := by
  by_cases live : (acc.1.key { point := p, kind }).state = .raised ∨ (acc.1.key { point := p, kind }).state = .cleared
  · have link := (h.keys { point := p, kind }).linkByState
    rw [decide_eq_true live] at link
    obtain ⟨i, link⟩ := Option.isSome_iff_exists.1 link
    have holds := (h.linked_iff { point := p, kind } i).2 link
    rw [retireLinked_of_link live link]
    refine ⟨h.retire holds fun _ asked => absurd slack asked, fun kind' => ?_⟩
    rw [key_retire_of_holds h holds _ (h.not_waits (settled kind'))]
    simp only [PointKey.mk.injEq, true_and]
  · obtain ⟨raised, cleared⟩ := not_or.1 live
    rw [retireLinked_of_other raised cleared]
    refine ⟨h, fun kind' => ?_⟩
    split
    · next same =>
      subst same
      refine (h.keys _).eq_quiet ?_
      have := settled kind
      cases state : (acc.1.key { point := p, kind }).state with
      | quiet => rfl
      | raised => exact absurd state raised
      | cleared => exact absurd state cleared
      | held => exact absurd (.inl state) this
      | waiting => exact absurd (.inr (.inl state)) this
      | folded => exact absurd (.inr (.inr state)) this
    · rfl

/-- After the second stage every key of the point is Quiet. -/
theorem Conditions.retireAll {n : Nat} (h : Conditions (.withdrawing p) s) (settled : ∀ kind, ¬ (s.key { point := p, kind }).state.pends) :
    Conditions (.withdrawing p) (allKinds.foldl (Machine.retireLinked p) (s, n)).1 ∧
      ∀ kind, (allKinds.foldl (Machine.retireLinked p) (s, n)).1.key { point := p, kind } = .quiet := by
  have retired (l : List Kind) : Conditions (.withdrawing p) (l.foldl (Machine.retireLinked p) (s, n)).1 ∧
      ∀ kind, (l.foldl (Machine.retireLinked p) (s, n)).1.key { point := p, kind } =
        if kind ∈ l then .quiet else s.key { point := p, kind } := by
    induction l using List.reverseRecOn with
    | nil => exact ⟨h, fun _ => rfl⟩
    | append_singleton l kind ih =>
      obtain ⟨before, keys⟩ := ih
      have settled' (kind' : Kind) : ¬ ((l.foldl (Machine.retireLinked p) (s, n)).1.key { point := p, kind := kind' }).state.pends := by
        rw [keys]
        split
        · simp [KeyState.pends, KeyEntry.quiet]
        · exact settled kind'
      rw [List.foldl_append, List.foldl_cons, List.foldl_nil]
      obtain ⟨after, keys'⟩ := before.retireLinked (kind := kind) rfl settled'
      refine ⟨after, fun kind' => ?_⟩
      rw [keys', keys]
      by_cases own : kind = kind' <;> simp [own, eq_comm]
  refine ⟨(retired allKinds).1, fun kind => ?_⟩
  rw [(retired allKinds).2, if_pos (by cases kind <;> decide)]

theorem Conditions.withdraw (h : Conditions .none s) (p : PointId) : Conditions .none (withdraw p s).1 := by
  have start : Conditions (.withdrawing p) s := h.mono (fun _ => False.elim) (fun _ => id) fun _ => id
  obtain ⟨dropped, settled⟩ := start.dropAll
  obtain ⟨retired, quiet⟩ := dropped.retireAll (n := 0) settled
  rw [withdraw_fst]
  refine retired.newPoint (fun k of => ?_) rfl (fun d _ (vacant : none = some d) => nomatch vacant) (fun k of => .inr of) rfl rfl
  obtain ⟨q, kind⟩ := k
  obtain rfl : q = p := of
  exact quiet kind

/-! ## Restart and the resets (R44, R110, R182) -/

/-- A reset leaves nothing on a list, nothing linked, and no storm record live. -/
theorem conditions_restart (points : PointLaw s) (table : TableLaw s) : Conditions .none (restartBlocks s) := by
  let power : ResetPins := { straps := 0#8, westCarrier := true, eastCarrier := true }
  have fresh := inv_afterPowerOn power
  have record (i : RecordIx) : (restartBlocks s).record i = (State.afterPowerOn power).record i := rfl
  have governor (g : GroupId) : (restartBlocks s).governor g = (s.governor g).restarted := vget_vmap _ _ _
  have point (p : PointId) : (restartBlocks s).point p = (s.point p).restarted := vget_vmap _ _ _
  have key (k : PointKey) : (restartBlocks s).key k = .quiet := by
    rw [State.key, point, PointEntry.restarted]
    cases k.kind <;> split <;> rfl
  have empty (k : PointKey) : ((restartBlocks s).point k.point).bucket k.kind = 0 := by
    rw [point, PointEntry.restarted]
    cases k.kind <;> split <;> rfl
  refine
    { table := tableLaw_tableOps.restart table
      keys := fun k => keyOk_of_quiet (key k) ⟨nofun, fun g => ?_, fun g => ?_⟩ fun d _ defn _ => ?_
      records := fun i => ⟨fun k linked => ?_, fresh.keys.peakByKind i⟩
      lists := ⟨.nil, .nil, fun some => absurd rfl some, fun g => ?_, fun g => ?_⟩
      storms := fun g => ?_ }
  · rw [governor]
    nofun
  · rw [governor]
    nofun
  · have capacity := (points.restart.inService k.point d defn).definition.capacity.1
    rw [empty]
    omega
  · have link := (fresh.keys.linkedTogether k i).2 linked
    rw [State.key, show (State.afterPowerOn power).point k.point = .vacant from vget_replicate _ _ _] at link
    cases kind : k.kind <;> rw [kind] at link <;> cases link
  · rw [governor]
    exact .nil
  · rw [governor]
    exact .nil
  · have reset : (State.afterPowerOn power).governor g = .reset := vget_replicate _ _ _
    have settled := fresh.storms.openEmptyCleared g (by rw [reset]; rfl) (by rw [reset]; rfl)
    rw [governor]
    exact ⟨fun some => absurd rfl some, fun some => absurd rfl some, fun _ _ => settled, fun _ _ _ => settled⟩

/-! ## Every step (O60) -/

/-- The laws of the record table, the keys, the lists, the governors and the points together. -/
structure TableConditions (s : State) : Prop where
  conditions : Conditions .none s
  governors : GovernorLaw s
  points : PointLaw s

/-- Two laws that every operation on the tables keeps are kept together. -/
theorem tableConditions_tableOps : TableOps TableConditions where
  congr h rt pt sg :=
    ⟨h.conditions.congr (fun p => by rw [State.point, State.point, pt]; exact ⟨rfl, fun _ => rfl⟩) rt
      (fun k => by rw [State.key, State.key, State.point, State.point, pt]) sg, h.governors.of_sg sg, h.points.of_pt pt⟩
  enterWatch {s} h :=
    ⟨h.conditions.congr (fun p => by
        rw [point_enterWatch]
        obtain ⟨defn, -, low, high, -⟩ := reloadStale_rest (s.point p)
        exact ⟨defn, fun kind => bucket_congr low high kind⟩) rfl
      (fun k => by
        rw [State.key, point_enterWatch]
        exact congrArg (Keys.get · k.kind) (reloadStale_rest (s.point k.point)).2.1) rfl,
      governorLaw_tableOps.enterWatch h.governors, pointLaw_tableOps.enterWatch h.points⟩
  applySample k v h := ⟨h.conditions.applySample h.points k v, h.governors.applySample k v, h.points.applySample k v⟩
  staleStep defn h := ⟨h.conditions.staleStep defn, h.governors.staleStep _ _, h.points.staleStep defn⟩
  faultStep marked defn h := ⟨h.conditions.faultStep marked defn, h.governors.faultStep _ _ marked, h.points.kept (Kept.refl _).faultStep⟩
  staleExpire p h := ⟨h.conditions.staleExpire p, h.governors.staleExpire p, h.points.staleExpire p⟩
  lowerStale running h := ⟨h.conditions.setStale _ _, h.governors.of_sg rfl, h.points.lowerStale running⟩
  setShelve within h := ⟨h.conditions.setShelve _ _, h.governors.of_sg rfl, h.points.setShelve within⟩
  definePoint r h := ⟨h.conditions.definePoint r, h.governors.definePoint r, h.points.definePoint r⟩
  withdraw _ h := ⟨h.conditions.withdraw _, h.governors.withdraw _, h.points.withdraw _⟩
  defineGroup r h := ⟨h.conditions.defineGroup r, h.governors.defineGroup r, h.points.defineGroup r⟩
  acknowledge i who tag h :=
    ⟨h.conditions.acknowledgeRecord i who tag, h.governors.of_sg (sg_acknowledgeRecord i who tag _), h.points.kept (Kept.refl _).acknowledgeRecord⟩
  refill g h := ⟨h.conditions.refillGovernor g, h.governors.refillGovernor g, h.points.kept (Kept.refl _).refillGovernor⟩
  lowerRefill running h := ⟨h.conditions.lowerRefill _ _, h.governors.write ((h.governors _).lower running) rfl, h.points.of_pt rfl⟩
  restart h := ⟨conditions_restart h.points h.conditions.table, h.governors.restart, h.points.restart⟩
  reset pins :=
    have inv := inv_afterPowerOn pins
    ⟨conditions_of_laws inv.table inv.keys inv.waits inv.diverted inv.storms, inv.governors, inv.points⟩

/-- Settles O60: every transition leaves each key, each record, each list and each storm record in order, and O57 to O59 do the rest. -/
theorem stepsKeepEveryLaw : Obligations.StepsKeepEveryLaw := by
  unfold Obligations.StepsKeepEveryLaw
  intro s t inv ran
  have start : TableConditions s :=
    ⟨conditions_of_laws inv.table inv.keys inv.waits inv.diverted inv.storms, inv.governors, inv.points⟩
  obtain ⟨conditions, governors, points⟩ := tableConditions_tableOps.step start ran
  obtain ⟨queue, links, time, notices⟩ := stepsKeepLinksModesAndNotices s t inv.queue inv.links inv.time inv.notices ran
  exact ⟨conditions.table, conditions.keyLaw points, conditions.waitLaw, conditions.divertedLaw, governors, conditions.stormLaw, points, links,
    time, notices, queue⟩

end Sys2Proof.Machine
end

