-- ==== Sys2Proof/Proofs/EventEffects.lean ====
section
/-! PROOF. What an event leaves behind, by its kind: the counters of its group, a notice, a wake (R78, R79, R132, R164, R178); and so what an
allocation and a place on the pool wait list leave (R11, R72, R73). -/

namespace Sys2Proof.Machine

/-! ## Events counted -/

abbrev Tally := GroupId × EventKind × Option Severity × Nat

section Counted

variable {s t s' t' : State} {l : List Tally}

/-- The tally of an event. -/
def TableEvent.tally (e : TableEvent) : Tally := (e.group, e.kind, e.severity, e.duration.getD 0)

theorem gc_issue (e : TableEvent) (s : State) : (issue e s).gc = (countEvent e s).gc := by
  rw [issue, gc_wakeEvent, gc_noticeEvent]

/-- What is counted depends on the counters alone. -/
theorem counted_congr (h : counted l s t) (before : s'.gc = s.gc) (after : t'.gc = t.gc) : counted l s' t' := by
  intro g j
  rw [State.counter, State.counters, after, State.counter, State.counters, before]
  exact h g j

theorem counted_issue (e : TableEvent) (s : State) : counted [e.tally] s (issue e s) :=
  counted_congr (counted_countEvent e s) rfl (gc_issue e s)

end Counted

/-! ## Notices and wakes of an event -/

section Notices

variable {s t : State} {i : RecordIx} {sev : Severity}

theorem meetsBar_eq (b : Bar) (sev : Severity) : meetsBar b sev = b.metBy sev := by cases b <;> rfl

theorem judged_congr (nu : t.nu = s.nu) (tb : t.tb = s.tb) (shelved : Bool) : judged i sev shelved t = judged i sev shelved s := by
  rw [judged, judged, nu, tb]

/-- The rule of the Raised notice (R78). -/
theorem raisedNotice_nu_tb (sev : Severity) (shelved : Bool) (s : State) :
    (raisedNotice sev shelved s).nu =
        { s.nu with flags := if s.nu.level.level ≤ sev.level ∧ shelved = false then s.nu.flags ||| 0x02#8 else s.nu.flags } ∧
      (raisedNotice sev shelved s).tb = s.tb := by
  have rule : (sev.meets s.nu.level && !shelved) = true ↔ s.nu.level.level ≤ sev.level ∧ shelved = false := by simp [Severity.meets]
  unfold raisedNotice
  split
  · next yes => exact ⟨by rw [if_pos (rule.1 yes)]; rfl, rfl⟩
  · next no => exact ⟨by rw [if_neg (mt rule.2 no)], rfl⟩

/-- A raise that is judged, or an offer, leaves notices and mode as the word says (R78, R121, R178). -/
theorem judged_offer (i : RecordIx) (sev : Severity) (shelved : Bool) (s : State) :
    ((judgeWake i sev shelved (raisedNotice sev shelved s)).nu, (judgeWake i sev shelved (raisedNotice sev shelved s)).tb) =
      judged i sev shelved s := by
  obtain ⟨nu, tb⟩ := raisedNotice_nu_tb sev shelved s
  generalize raisedNotice sev shelved s = u at nu tb
  have rule : (u.tb.wakeLevel.metBy sev && !shelved) = true ↔ meetsBar s.tb.wakeLevel sev = true ∧ shelved = false := by
    simp [meetsBar_eq, tb]
  unfold judgeWake judged
  by_cases wakes : meetsBar s.tb.wakeLevel sev = true ∧ shelved = false
  · rw [if_pos (rule.2 wakes)]
    cases mode : s.tb.mode with
    | settling =>
      rw [wakeCause_of_settling (by rw [tb, mode])]
      simp [wakes, nu, tb]
    | dormant =>
      rw [wakeCause_of_dormant (by rw [tb, mode])]
      simp [wakes, nu, tb]
    | watch =>
      rw [wakeCause_of_awake (by rw [tb, mode]; exact .inl rfl)]
      simp [nu, tb]
    | waking =>
      rw [wakeCause_of_awake (by rw [tb, mode]; exact .inr rfl)]
      simp [nu, tb]
  · rw [if_neg (mt rule.1 wakes), if_neg fun all => wakes ⟨all.1, all.2.1⟩, if_neg fun all => wakes ⟨all.1, all.2.1⟩, nu, tb]

/-- What a Raised event leaves in the Notice Unit and in TB. -/
theorem judged_issue {e : TableEvent} (kind : e.kind = .raised) (severity : e.severity = some sev) (record : e.record = some i) (s : State) :
    ((issue e s).nu, (issue e s).tb) = judged i sev (s.keyShelved e.key) s := by
  rw [issue_of_raised kind severity record]
  exact (judged_offer i sev (s.keyShelved e.key) (countEvent e s)).trans (judged_congr rfl rfl _)

end Notices

/-! ## Allocation, and a place on the pool wait list (R11, R72, R73, R78) -/

section Attempts

variable {s : State} {k : PointKey} {v : Pending} {i : RecordIx}

theorem judged_allocate (i : RecordIx) (k : PointKey) (v : Pending) (s : State) :
    ((allocate i k v s).nu, (allocate i k v s).tb) = judged i v.severity (decide (0 < (s.point k.point).shelve)) s := by
  unfold allocate
  dsimp only
  refine (judged_issue rfl rfl rfl _).trans ((judged_congr rfl rfl _).trans ?_)
  exact congrArg (judged i v.severity · s) (shelved_putKey _ _ (toStanding i (putRecord i (newRecord k v s.tb.hutTime) s)) k.point)

theorem counted_allocate (i : RecordIx) (k : PointKey) (v : Pending) (s : State) :
    counted [(s.groupOf k, .raised, some v.severity, 0)] s (allocate i k v s) := by
  unfold allocate
  dsimp only
  have group : (putKey k { state := .raised, link := some i, pending := none }
      (toStanding i (putRecord i (newRecord k v s.tb.hutTime) s))).groupOf k = s.groupOf k := groupOf_putKey _ _ _ _
  refine counted_congr (s := advance 1 (putKey k { state := .raised, link := some i, pending := none }
      (toStanding i (putRecord i (newRecord k v s.tb.hutTime) s)))) ?_ rfl rfl
  rw [← group]
  exact counted_issue _ _

/-- A key that has joined the pool wait list (R73). -/
theorem joinsThePoolWait (k : PointKey) (v : Pending) (s : State) : JoinsThePoolWait 1#16 k v.severity v.value s (joinPoolWait k v s) := by
  let u := advance 1 (putKey k { state := .waiting, link := none, pending := some v }
    { s with rt := { s.rt with poolWait := insertBySeverity (fun x => (s.pendingOf x).severity) k v.severity s.rt.poolWait } })
  let e := keyEvent .held k v.severity (some .pool) u
  have joined : joinPoolWait k v s = issue e u := rfl
  have reacts : issue e u = setNotice .poolFull (countEvent e u) := issue_of_pool rfl rfl u
  have group : e.tally = (s.groupOf k, .held, some v.severity, 0) := congrArg (·, _) (groupOf_putKey k _ _ k)
  obtain ⟨front, back, split, placed, ahead, behind⟩ := insertBySeverity_place (fun x => (s.pendingOf x).severity) k v.severity s.rt.poolWait
  have rt := rt_joinPoolWait k v s
  have key := key_joinPoolWait k v s k
  rw [placed] at rt
  rw [if_pos rfl] at key
  rw [joined] at rt key ⊢
  refine ⟨⟨front, back, split, rt, ahead, behind⟩, key, ?_, ?_, ?_⟩
  · rw [reacts]
    rfl
  · rw [reacts]
    rfl
  · rw [← group]
    exact counted_congr (s := u) (counted_issue e u) rfl rfl

/-- The peak of a record that is allocated to a key with the value it carries. -/
theorem newRecord_eq_begun (value : v.value.isSome = k.kind.hasValue) (s : State) :
    newRecord k v s.tb.hutTime = begun (.point k) v.severity v.value s := by
  have peak : (if k.kind.hasValue = true then v.value else none) = v.value := by
    split
    · rfl
    · next noValue => exact (Option.not_isSome_iff_eq_none.1 (by rw [value]; exact noValue)).symm
  rw [newRecord, peak]
  rfl

/-- An attempt that is admitted or bypasses, and what it leaves (R11, R72, R78). -/
theorem takesOrWaits_allocateOrWait {k : PointKey} {v : Pending} (value : v.value.isSome = k.kind.hasValue) (s : State) :
    TakesOrWaits k v.severity v.value s (allocateOrWait k v s) := by
  refine ⟨fun i rest free => ?_, fun none => ?_⟩
  · have taken : allocateOrWait k v s = allocate i k v { s with rt := { s.rt with free := rest } } := by simp only [allocateOrWait, free]
    refine ⟨?_, ?_, ?_, ?_⟩
    · rw [rt_allocateOrWait_of_free free, newRecord_eq_begun value]
      rfl
    · rw [key_allocateOrWait_of_free free, if_pos rfl]
    · rw [taken]
      exact judged_allocate i k v { s with rt := { s.rt with free := rest } }
    · rw [taken]
      exact counted_congr (counted_allocate i k v { s with rt := { s.rt with free := rest } }) rfl rfl
  · rw [allocateOrWait_of_none_free none]
    exact joinsThePoolWait k v s

theorem key_allocateOrWait_other (k : PointKey) (v : Pending) (s : State) {k' : PointKey} (other : k' ≠ k) :
    (allocateOrWait k v s).key k' = s.key k' := by
  cases free : s.rt.free with
  | nil => rw [allocateOrWait_of_none_free free, key_joinPoolWait, if_neg (Ne.symm other)]
  | cons i rest => rw [key_allocateOrWait_of_free free, if_neg (Ne.symm other)]

/-- What a mechanism keeps, when it changes the keys of a list alone. -/
theorem keepsBut_of_kept {s t : State} {keys : List PointKey} (kept : Kept s t) (others : ∀ k, k ∉ keys → t.key k = s.key k) :
    keepsBut keys s t :=
  ⟨kept.outside, kept.points, others⟩

theorem keepsBut_allocateOrWait (k : PointKey) (v : Pending) (s : State) : keepsBut [k] s (allocateOrWait k v s) :=
  keepsBut_of_kept (Kept.refl s).allocateOrWait fun _ other => key_allocateOrWait_other k v s (List.ne_of_not_mem_cons other)

end Attempts

/-! ## Re-raise (R16) -/

/-- A Cleared record of a point key that is re-raised (R16, R78). -/
theorem reRaised_reRaise {i : RecordIx} {k : PointKey} {s : State} (state : (s.record i).state = .cleared)
    (key : (s.record i).key = some (.point k)) : ReRaised i k s (reRaise i s) := by
  let u := advance 1 (putLinkedState .raised (.point k) (toStanding i (putRecord i (s.record i).reRaised s)))
  let e := recordEvent .raised (.point k) i (s.record i).severity none u
  have raised : reRaise i s = issue e u := reRaise_of_cleared state key
  have keys := key_reRaise_of_cleared state key
  have shelved : u.keyShelved (.point k) = decide (0 < (s.point k.point).shelve) :=
    shelved_putKey _ _ (toStanding i (putRecord i (s.record i).reRaised s)) k.point
  have group : e.tally = (s.groupOf k, .raised, some (s.record i).severity, 0) :=
    congrArg (·, _) (groupOf_putKey k _ (toStanding i (putRecord i (s.record i).reRaised s)) k)
  refine ⟨keepsBut_of_kept (Kept.refl s).reRaise fun k' other => ?_, sg_reRaise i s, ?_, ?_, ?_, ?_⟩
  · rw [keys, if_neg fun same => List.ne_of_not_mem_cons other (Key.point.inj same).symm]
  · rw [keys, if_pos rfl]
  · exact rt_reRaise_of_cleared state key
  · rw [raised, judged_issue rfl rfl rfl, show u.keyShelved e.key = _ from shelved]
    exact judged_congr rfl rfl _
  · rw [raised, ← group]
    exact counted_congr (s := u) (counted_issue e u) rfl rfl

end Sys2Proof.Machine
end

