-- ==== Sys2Proof/Proofs/SampleWords.lean ====
section
/-! PROOF. The words of the statements on readings are the steps of the model: bands and weights, a sample, an offered peak, a reading
(R49, R53 to R61). -/

namespace Sys2Proof.Machine

/-! ## Bands and weights (R53 to R58) -/

section Bands

variable {d : Definition} {kind : Kind} {v : Half} {ev : Evaluation}

/-- The weights of a sample are those of the word. -/
theorem weights_eq {v distance' : Int} (same : distance kind ev v = distance'.toNat) :
    fillWeight kind ev v = weight ev.weighting (fun _ => 1) distance' ∧ drainWeight kind ev v = weight ev.weighting (fun drain => drain) distance' := by
  unfold fillWeight drainWeight
  rw [same]
  cases ev.weighting <;> exact ⟨rfl, rfl⟩

/-- How far a value reaches beyond the bounds of its bands. -/
def beyond (kind : Kind) (ev : Evaluation) (v : Int) : Int × Int :=
  match kind with
  | .low => (ev.threshold - v, v - (ev.threshold + ev.hysteresis))
  | _ => (v - ev.threshold, ev.threshold - ev.hysteresis - v)

/-- The kinds that reach are those that are evaluated. -/
theorem reaches_eq (kind : Kind) (d : Definition) (v : Half) :
    reaches kind d v = (d.evaluation kind).map fun ev => beyond kind ev v.toInt := by
  unfold reaches Definition.evaluation
  cases d.source with
  | reading => cases kind <;> simp [beyond, Function.comp_def]
  | contact line level => cases kind <;> simp [beyond]
  | carrier side => cases kind <;> simp [beyond]

/-- The bands by the signs of excess and shortfall. -/
theorem band_eq (value : kind.hasValue = true) (ev : Evaluation) (v : Int) :
    band kind ev v =
      if 0 < (beyond kind ev v).1 then .violating else if 0 ≤ (beyond kind ev v).2 then .recovered else .holding := by
  cases kind with
  | low =>
    have violating : v < ev.threshold ↔ 0 < ev.threshold - v := by omega
    have recovered : ev.threshold + ev.hysteresis ≤ v ↔ 0 ≤ v - (ev.threshold + ev.hysteresis) := by omega
    exact if_congr violating rfl (if_congr recovered rfl rfl)
  | high =>
    have violating : ev.threshold < v ↔ 0 < v - ev.threshold := by omega
    have recovered : v ≤ ev.threshold - ev.hysteresis ↔ 0 ≤ ev.threshold - ev.hysteresis - v := by omega
    exact if_congr violating rfl (if_congr recovered rfl rfl)
  | stale => cases value
  | fault => cases value

/-- The distance of a sample is its excess, or its shortfall. -/
theorem distance_eq (value : kind.hasValue = true) (ev : Evaluation) (v : Int) :
    (band kind ev v = .violating → distance kind ev v = (beyond kind ev v).1.toNat) ∧
      (band kind ev v = .recovered → distance kind ev v = (beyond kind ev v).2.toNat) := by
  cases kind with
  | low => exact ⟨fun b => by simp only [distance, b, beyond], fun b => by simp only [distance, b, beyond]⟩
  | high => exact ⟨fun b => by simp only [distance, b, beyond], fun b => by simp only [distance, b, beyond]⟩
  | stale => cases value
  | fault => cases value

/-- The level after a sample (R56 to R58). -/
theorem newLevel_eq (value : kind.hasValue = true) (ev : Evaluation) (capacity level : Nat) (v : Int) :
    newLevel kind ev capacity level v = bucketAfter ev.weighting capacity level (beyond kind ev v).1 (beyond kind ev v).2 := by
  obtain ⟨excess, shortfall⟩ := distance_eq value ev v
  have bands := band_eq value ev v
  unfold bucketAfter
  split
  · next above =>
    rw [if_pos above] at bands
    rw [newLevel, bands]
    dsimp only
    rw [(weights_eq (excess bands)).1]
  · next notAbove =>
    rw [if_neg notAbove] at bands
    split
    · next recovered =>
      rw [if_pos recovered] at bands
      rw [newLevel, bands]
      dsimp only
      rw [(weights_eq (shortfall bands)).2]
    · next holding =>
      rw [if_neg holding] at bands
      rw [newLevel, bands]

end Bands

/-! ## Peaks and offers (R4, R61) -/

section Peaks

variable {s : State}

theorem putRecord_self (i : RecordIx) (s : State) : putRecord i (s.record i) s = s := by
  rw [putRecord, State.record, vset_vget_self]

theorem extreme_eq (k : Key) (p v : Half) : extreme k p v = if moreExtreme k v p then v else p := by
  cases k with
  | storm g => simp [extreme, moreExtreme]
  | point k =>
    obtain ⟨point, kind⟩ := k
    cases kind <;> simp [extreme, moreExtreme]

/-- An offer writes the more extreme peak. -/
theorem peakUpdate_eq_putRecord (i : RecordIx) (v : Half) (s : State) : peakUpdate i v s = putRecord i (peakAfter (s.record i) v) s := by
  have self := putRecord_self i s
  unfold peakUpdate peakAfter
  generalize s.record i = r at self ⊢
  rcases r with ⟨state, key, severity, raiseTime, repeats, peak, clearTime, ack⟩
  dsimp only
  cases state.live with
  | false => exact self.symm
  | true =>
    cases key with
    | none => exact self.symm
    | some k =>
      cases peak with
      | none => exact self.symm
      | some p =>
        simp only [Option.map_some, extreme_eq]
        split
        · rfl
        · exact self.symm

theorem offerPeak_eq_offered (k : PointKey) (v : Half) (s : State) : offerPeak k v s = offered k v s := by
  unfold offerPeak offered
  dsimp only
  rcases s.key k with ⟨state, link, pending⟩
  cases link with
  | none => cases state <;> rfl
  | some i =>
    have write := peakUpdate_eq_putRecord i v s
    cases state with
    | raised => exact write
    | cleared => exact write
    | quiet => rfl
    | held => rfl
    | waiting => rfl
    | folded => rfl

end Peaks

/-! ## A sample (R58 to R61) -/

section Sample

variable {k : PointKey} {d : Definition} {v : Half} {s : State}

theorem withBucket_eq_setLevel (value : k.kind.hasValue = true) (level : Nat) (s : State) : withBucket k level s = setLevel k level s := by
  obtain ⟨p, kind⟩ := k
  cases kind with
  | low => rfl
  | high => rfl
  | stale => cases value
  | fault => cases value

theorem bucketOf_eq (value : k.kind.hasValue = true) (s : State) : bucketOf k s = (s.point k.point).bucket k.kind := by
  obtain ⟨p, kind⟩ := k
  cases kind with
  | low => rfl
  | high => rfl
  | stale => cases value
  | fault => cases value

theorem applySample_of_unevaluated (defn : (s.point k.point).defn = some d) (none : d.evaluation k.kind = none) : applySample k v s = s := by
  simp only [applySample, defn, none]

theorem applySample_of_evaluated {ev : Evaluation} (defn : (s.point k.point).defn = some d) (found : d.evaluation k.kind = some ev) :
    applySample k v s =
      let level := newLevel k.kind ev d.capacity ((s.point k.point).bucket k.kind) v.toInt
      offerPeak k v (verdict k d (band k.kind ev v.toInt) level v (setLevel k level s)) := by
  simp only [applySample, defn, found]
  rfl

/-- A sample of a point In Service acts as the word says. -/
theorem applySample_eq_sampled (defn : (s.point k.point).defn = some d) (v : Half) : applySample k v s = sampled k d v s := by
  unfold sampled
  rw [reaches_eq]
  cases evaluated : d.evaluation k.kind with
  | none => exact applySample_of_unevaluated defn evaluated
  | some ev =>
    have value := hasValue_of_evaluation evaluated
    rw [Option.map_some, applySample_of_evaluated defn evaluated]
    dsimp only
    rw [offerPeak_eq_offered, withBucket_eq_setLevel value, bucketOf_eq value, ← weighting_of_evaluation evaluated, ← newLevel_eq value,
      band_eq value]
    refine congrArg (offered k v) ?_
    unfold verdict
    by_cases violating : 0 < (beyond k.kind ev v.toInt).1
    · simp only [violating, true_and, if_true, not_le.2 violating, false_and, if_false]
    · simp only [violating, false_and, if_false, not_lt.1 violating, true_and]
      by_cases recovered : 0 ≤ (beyond k.kind ev v.toInt).2
      · simp only [recovered, true_and, if_true]
      · simp only [recovered, false_and, if_false]

end Sample

end Sys2Proof.Machine
end

