-- ==== Sys2Proof/Proofs/ReadingSteps.lean ====
section
/-! PROOF. One reading that is applied (O24), and the readings and the expiry that bring about one beginning or one end of a condition
alone. -/

namespace Sys2Proof.Machine

section One

variable {p : PointId} {d : Definition} {r : RawReading} {s : State}

theorem defn_atReading (q : PointId) : ((atReading p d r s).point q).defn = (s.point q).defn :=
  (defn_setStale p _ (atService .localPort (.reading [r]) s) q).trans (defn_atService_localPort _ s q)

/-- A reading of an In Service Reading point: the row makes its steps on the state at service (R47, R49). -/
theorem exec_one_reading (hs : served .localPort s) (point : p.val = r.point.toNat) (defn : (s.point p).defn = some d)
    (source : d.source = .reading) :
    exec (.reading .localPort [r]) s =
      .next (oneApplied r (applyReading p d (r.fault != 0#8) r.value (atService .localPort (.reading [r]) s))) := by
  let t := atService .localPort (.reading [r]) s
  have found : t.readingDef p = some d := by
    rw [State.readingDef, show (t.point p).defn = some d from (defn_atService_localPort _ s p).trans defn]
    exact if_pos source
  have alone : readAlone t r = applyReading p d (r.fault != 0#8) r.value t := by rw [readAlone_eq point, found]
  have taken' : taken t r = true := by rw [taken_eq_isSome point, found]; rfl
  have answer := serveReading_of_sound (rs := [r]) (List.cons_ne_nil _ _) (Nat.le_add_left 1 7) (fun x m => by
    rw [List.mem_singleton.1 m]
    omega) t
  rw [exec_reading_of_served hs, answered_eq_withReply answer]
  rw [List.foldl_cons, List.foldl_nil, alone, List.countP_cons, List.countP_nil, List.countP_cons, List.countP_nil, taken']
  rfl

/-- The stale step of a reading starts from the state in which its steps find the part (R49, R64, R67). -/
theorem staleStep_atService : staleStep p d (atService .localPort (.reading [r]) s) = clearEvent (staleKey p) d (atReading p d r s) := by
  unfold staleStep atReading
  dsimp only
  refine congrArg (clearEvent (staleKey p) d) ?_
  generalize atService .localPort (.reading [r]) s = t
  cases stale : (t.point p).stale with
  | some n => rfl
  | none =>
    have same : { t.point p with stale := none } = t.point p := by rw [← stale]
    exact congrArg (putPoint p · t) same.symm

/-- A marked reading: the stale countdown, the Stale key, the Fault key (R49, R62). -/
theorem exec_marked_reading (hs : served .localPort s) (point : p.val = r.point.toNat) (defn : (s.point p).defn = some d)
    (source : d.source = .reading) (marked : r.fault ≠ 0#8) :
    exec (.reading .localPort [r]) s =
      .next (oneApplied r (beginCondition (faultKey p) d none (clearEvent (staleKey p) d (atReading p d r s)))) := by
  have flag : (r.fault != 0#8) = true := bne_iff_ne.2 marked
  rw [exec_one_reading hs point defn source, applyReading, flag, staleStep_atService]
  rfl

/-- An unmarked reading: the stale countdown, the Stale key, the Fault key, then a sample of Low and of High (R49, R63). -/
theorem exec_unmarked_applies (hs : served .localPort s) (point : p.val = r.point.toNat) (defn : (s.point p).defn = some d)
    (source : d.source = .reading) (unmarked : r.fault = 0#8) :
    exec (.reading .localPort [r]) s =
      .next (oneApplied r
        (applySample { point := p, kind := .high } r.value
          (applySample { point := p, kind := .low } r.value (clearEvent (faultKey p) d (clearEvent (staleKey p) d (atReading p d r s)))))) := by
  have flag : (r.fault != 0#8) = false := by rw [unmarked]; rfl
  rw [exec_one_reading hs point defn source, applyReading, flag, staleStep_atService]
  rfl

theorem exec_unmarked_reading (hs : served .localPort s) (point : p.val = r.point.toNat) (defn : (s.point p).defn = some d)
    (source : d.source = .reading) (unmarked : r.fault = 0#8) :
    exec (.reading .localPort [r]) s =
      .next (oneApplied r
        (sampled { point := p, kind := .high } d r.value
          (sampled { point := p, kind := .low } d r.value (clearEvent (faultKey p) d (clearEvent (staleKey p) d (atReading p d r s)))))) := by
  let u := clearEvent (faultKey p) d (clearEvent (staleKey p) d (atReading p d r s))
  have kept : Kept (atReading p d r s) u := (Kept.refl _).clearEvent.clearEvent
  have defn' : (u.point p).defn = some d := (kept.points p).1.trans ((defn_atReading p).trans defn)
  have low : applySample { point := p, kind := .low } r.value u = sampled { point := p, kind := .low } d r.value u :=
    applySample_eq_sampled defn' r.value
  have high := applySample_eq_sampled (k := { point := p, kind := .high }) ((defn_applySample { point := p, kind := .low } r.value u p).trans defn')
    r.value
  rw [exec_unmarked_applies hs point defn source unmarked, high, low]

end One

/-! ## Where a sample leaves the points (R53 to R58) -/

/-- The level of a bucket after a sample of its kind. -/
def sampledLevel (kind : Kind) (d : Definition) (v : Half) (level : Nat) : Nat :=
  match reaches kind d v with
  | none => level
  | some (excess, shortfall) => bucketAfter d.weighting d.capacity level excess shortfall

/-- Every point keeps its definition, its shelving and its stale countdown, and outside a return from Settling its bucket but for one. -/
structure Sampled (k : PointKey) (d : Definition) (v : Half) (s t : State) : Prop where
  follows : Follows s t
  defn : ∀ q, (t.point q).defn = (s.point q).defn
  shelve : ∀ q, (t.point q).shelve = (s.point q).shelve
  stale : s.tb.mode ≠ .settling → ∀ q, (t.point q).stale = (s.point q).stale
  bucket : ∀ q kind, (t.point q).bucket kind =
    if k.point = q ∧ k.kind = kind then sampledLevel kind d v ((s.point q).bucket kind) else (s.point q).bucket kind

theorem rest_setLevel (k : PointKey) (level : Nat) (s : State) (q : PointId) :
    ((setLevel k level s).point q).shelve = (s.point q).shelve ∧ ((setLevel k level s).point q).stale = (s.point q).stale := by
  rw [setLevel, point_putPoint]
  split
  · next same =>
    rw [← same]
    cases k.kind <;> exact ⟨rfl, rfl⟩
  · exact ⟨rfl, rfl⟩

/-- A kept stale countdown, outside a return from Settling to Watch (R66). -/
theorem pointsKept.stale {s t : State} (h : pointsKept s t) (mode : s.tb.mode ≠ .settling) (q : PointId) :
    (t.point q).stale = (s.point q).stale := by
  obtain ⟨-, -, -, -, stale⟩ := h q
  rwa [if_neg fun back => mode back.1] at stale

theorem sampledLevel_of_evaluated {kind : Kind} {d : Definition} {ev : Evaluation} (found : d.evaluation kind = some ev) (v : Half) (level : Nat) :
    sampledLevel kind d v level = newLevel kind ev d.capacity level v.toInt := by
  rw [newLevel_eq (hasValue_of_evaluation found), weighting_of_evaluation found, sampledLevel, reaches_eq, found]
  rfl

theorem sampledLevel_of_unevaluated {kind : Kind} {d : Definition} (none : d.evaluation kind = none) (v : Half) (level : Nat) :
    sampledLevel kind d v level = level := by
  rw [sampledLevel, reaches_eq, none]
  rfl

theorem sampled_applySample {k : PointKey} {d : Definition} {s : State} (defn : (s.point k.point).defn = some d) (v : Half) :
    Sampled k d v s (applySample k v s) := by
  cases evaluated : d.evaluation k.kind with
  | none =>
    rw [applySample_of_unevaluated defn evaluated]
    refine ⟨.refl s, fun _ => rfl, fun _ => rfl, fun _ _ => rfl, fun q kind => ?_⟩
    split
    · next same => rw [sampledLevel_of_unevaluated (same.2 ▸ evaluated)]
    · rfl
  | some ev =>
    have value := hasValue_of_evaluation evaluated
    let level := newLevel k.kind ev d.capacity ((s.point k.point).bucket k.kind) v.toInt
    let u := setLevel k level s
    have eq : applySample k v s = offerPeak k v (verdict k d (band k.kind ev v.toInt) level v u) := applySample_of_evaluated defn evaluated
    have kept : Kept u (applySample k v s) := by
      rw [eq]
      exact (Kept.refl u).verdict.offerPeak
    have start : Follows s u := (Follows.refl s).putPoint
    refine ⟨start.trans kept.toFollows, fun q => ?_, fun q => ?_, fun mode q => ?_, fun q kind => ?_⟩
    · exact (kept.points q).1.trans (defn_setLevel k level s q)
    · exact (kept.points q).2.2.2.1.trans (rest_setLevel k level s q).1
    · exact (kept.points.stale mode q).trans (rest_setLevel k level s q).2
    · have bucket := bucket_setLevel k level s { point := q, kind }
      dsimp only at bucket
      rw [bucket_congr (kept.points q).2.1 (kept.points q).2.2.1, bucket]
      refine if_ctx_congr ⟨fun same => ⟨by rw [same.1], by rw [same.1]⟩, fun same => ⟨?_, value⟩⟩ (fun same => ?_) fun _ => rfl
      · rw [← same.1, ← same.2]
      · rw [← same.1, ← same.2, sampledLevel_of_evaluated evaluated]

/-! ## The state in which a reading finds the part -/

section AtReading

variable {p : PointId} {d : Definition} {r : RawReading} {s : State}

theorem mode_atService_localPort (hs : served .localPort s) (r : Request) : (atService .localPort r s).tb.mode = .watch := by
  unfold atService
  dsimp only
  split
  · rfl
  · next notWaking => exact hs.2.resolve_right notWaking

theorem mode_atReading (hs : served .localPort s) : (atReading p d r s).tb.mode = .watch := mode_atService_localPort hs _

/-- The state at service has the points as they stood, or with their stale countdowns reloaded. -/
theorem point_atService_localPort (r : Request) (s : State) (q : PointId) :
    (atService .localPort r s).point q = s.point q ∨ (atService .localPort r s).point q = (s.point q).reloadStale := by
  unfold atService
  dsimp only
  split
  · exact .inr (vget_vmap _ _ _)
  · exact .inl rfl

theorem rest_atReading (q : PointId) :
    ((atReading p d r s).point q).keys = (s.point q).keys ∧ ((atReading p d r s).point q).lowBucket = (s.point q).lowBucket ∧
      ((atReading p d r s).point q).highBucket = (s.point q).highBucket ∧ ((atReading p d r s).point q).shelve = (s.point q).shelve := by
  let t := atService .localPort (.reading [r]) s
  have entry : ((atReading p d r s).point q).keys = (t.point q).keys ∧ ((atReading p d r s).point q).lowBucket = (t.point q).lowBucket ∧
      ((atReading p d r s).point q).highBucket = (t.point q).highBucket ∧ ((atReading p d r s).point q).shelve = (t.point q).shelve := by
    have point : (atReading p d r s).point q = if p = q then { t.point p with stale := (t.point p).stale.map fun _ => d.staleInterval }
        else t.point q := vget_vset _ _ _ _
    rw [point]
    split
    · next same => exact same ▸ ⟨rfl, rfl, rfl, rfl⟩
    · exact ⟨rfl, rfl, rfl, rfl⟩
  have rest := reloadStale_rest (s.point q)
  rcases point_atService_localPort (.reading [r]) s q with same | reloaded
  · rwa [same] at entry
  · rw [reloaded] at entry
    obtain ⟨keys, low, high, shelve⟩ := entry
    exact ⟨keys.trans rest.2.1, low.trans rest.2.2.1, high.trans rest.2.2.2.1, shelve.trans rest.2.2.2.2⟩

theorem key_atReading (k : PointKey) : (atReading p d r s).key k = s.key k := by rw [State.key, (rest_atReading _).1]; rfl

theorem bucket_atReading (q : PointId) (kind : Kind) : ((atReading p d r s).point q).bucket kind = (s.point q).bucket kind :=
  bucket_congr (rest_atReading q).2.1 (rest_atReading q).2.2.1 kind

theorem rt_atService_localPort (r : Request) (s : State) : (atService .localPort r s).rt = s.rt := by
  unfold atService
  dsimp only
  split <;> rfl

theorem rt_atReading : (atReading p d r s).rt = s.rt := rt_atService_localPort _ s

/-- The stale countdown of the point is reloaded, where it has one (R64). -/
theorem stale_atReading : ((atReading p d r s).point p).stale = (s.point p).stale.map fun _ => d.staleInterval := by
  have point : (atReading p d r s).point p = _ := vget_vset_self _ _ _
  rw [point]
  dsimp only
  have present : ((atService .localPort (.reading [r]) s).point p).stale.isSome = (s.point p).stale.isSome := by
    rcases point_atService_localPort (.reading [r]) s p with same | reloaded
    · rw [same]
    · rw [reloaded]
      exact (lives_reloadStale _).stalePresent
  cases before : (s.point p).stale <;> cases after : ((atService .localPort (.reading [r]) s).point p).stale <;> simp_all

end AtReading

/-- The level of a bucket of a Reading point after a sample, by its threshold (R53, R54). -/
theorem sampledLevel_of_reading {d : Definition} (source : d.source = .reading) (v : Half) (level : Nat) :
    (sampledLevel .low d v level = match d.lowThreshold with
      | some lo => bucketAfter d.weighting d.capacity level (lo.toInt - v.toInt) (v.toInt - (lo.toInt + d.hysteresis))
      | none => level) ∧
    sampledLevel .high d v level = match d.highThreshold with
      | some hi => bucketAfter d.weighting d.capacity level (v.toInt - hi.toInt) (hi.toInt - d.hysteresis - v.toInt)
      | none => level := by
  simp only [sampledLevel, reaches, source]
  cases d.lowThreshold <;> cases d.highThreshold <;> exact ⟨rfl, rfl⟩

theorem ModeFollows.watch {s t : State} (h : ModeFollows s t) (watch : s.tb.mode = .watch) : t.tb.mode = .watch := by
  rcases h with ⟨same, -⟩ | ⟨settling, -⟩ | ⟨dormant, -⟩
  · exact same.trans watch
  · cases watch.symm.trans settling
  · cases watch.symm.trans dormant

/-- A mechanism keeps every point, in Watch with its stale countdown too. -/
theorem Kept.point {s t : State} (h : Kept s t) (watch : s.tb.mode = .watch) (q : PointId) :
    (t.point q).defn = (s.point q).defn ∧ (t.point q).lowBucket = (s.point q).lowBucket ∧ (t.point q).highBucket = (s.point q).highBucket ∧
      (t.point q).shelve = (s.point q).shelve ∧ (t.point q).stale = (s.point q).stale := by
  obtain ⟨defn, low, high, shelve, -⟩ := h.points q
  exact ⟨defn, low, high, shelve, h.points.stale (by rw [watch]; nofun) q⟩

/-- The two samples of an unmarked reading, in Watch: they move the two buckets of their point by its thresholds, and nothing else of a
point. -/
theorem point_of_both_samples {p : PointId} {d : Definition} {w : State} (defn : (w.point p).defn = some d)
    (watch : w.tb.mode = .watch) (v : Half) :
    let x := applySample { point := p, kind := .high } v (applySample { point := p, kind := .low } v w)
    (x.point p).lowBucket = sampledLevel .low d v (w.point p).lowBucket ∧ (x.point p).highBucket = sampledLevel .high d v (w.point p).highBucket ∧
      ∀ q, (x.point q).defn = (w.point q).defn ∧ (x.point q).shelve = (w.point q).shelve ∧ (x.point q).stale = (w.point q).stale ∧
        (q ≠ p → (x.point q).lowBucket = (w.point q).lowBucket ∧ (x.point q).highBucket = (w.point q).highBucket) := by
  intro x
  have low := sampled_applySample (k := { point := p, kind := .low }) defn v
  have high := sampled_applySample (k := { point := p, kind := .high }) ((low.defn p).trans defn) v
  have watchL := low.follows.mode.watch watch
  have others (q : PointId) (kind : Kind) (other : q ≠ p) : (x.point q).bucket kind = (w.point q).bucket kind := by
    rw [high.bucket, if_neg fun same => other same.1.symm, low.bucket, if_neg fun same => other same.1.symm]
  have lowLevel : (x.point p).bucket .low = sampledLevel .low d v ((w.point p).bucket .low) := by
    rw [high.bucket, if_neg (by simp), low.bucket, if_pos ⟨rfl, rfl⟩]
  have highLevel : (x.point p).bucket .high = sampledLevel .high d v ((w.point p).bucket .high) := by
    rw [high.bucket, if_pos ⟨rfl, rfl⟩, low.bucket, if_neg (by simp)]
  refine ⟨lowLevel, highLevel, fun q => ⟨?_, ?_, ?_, fun other => ⟨others q .low other, others q .high other⟩⟩⟩
  · exact (high.defn q).trans (low.defn q)
  · exact (high.shelve q).trans (low.shelve q)
  · exact (high.stale (by rw [watchL]; nofun) q).trans (low.stale (by rw [watch]; nofun) q)

/-- Settles O24: the row makes the steps of the reading in their order; only the two samples move a bucket. -/
theorem readingMovesItsBuckets : Obligations.ReadingMovesItsBuckets := by
  unfold Obligations.ReadingMovesItsBuckets
  intro r p d s hs point defn source
  dsimp only
  have watch : (atReading p d r s).tb.mode = .watch := mode_atReading hs
  refine ⟨exec_marked_reading hs point defn source, exec_unmarked_reading hs point defn source, ?_⟩
  by_cases unmarked : r.fault = 0#8
  · have kept : Kept (atReading p d r s) (clearEvent (faultKey p) d (clearEvent (staleKey p) d (atReading p d r s))) :=
      (Kept.refl _).clearEvent.clearEvent
    have ran := exec_unmarked_applies hs point defn source unmarked
    generalize clearEvent (faultKey p) d (clearEvent (staleKey p) d (atReading p d r s)) = w at kept ran
    have entry (q : PointId) := kept.point watch q
    obtain ⟨low, high, rest⟩ := point_of_both_samples ((entry p).1.trans ((defn_atReading p).trans defn)) (kept.mode.watch watch) r.value
    generalize applySample { point := p, kind := .high } r.value (applySample { point := p, kind := .low } r.value w) = x at low high rest ran
    rw [(entry p).2.1, (rest_atReading p).2.1, (sampledLevel_of_reading source r.value _).1] at low
    rw [(entry p).2.2.1, (rest_atReading p).2.2.1, (sampledLevel_of_reading source r.value _).2] at high
    refine ⟨_, ran, low.trans ?_, high.trans ?_, ?_, fun q => ?_⟩
    · rw [unmarked]
      cases d.lowThreshold <;> rfl
    · rw [unmarked]
      cases d.highThreshold <;> rfl
    · exact (rest p).2.2.1.trans ((entry p).2.2.2.2.trans stale_atReading)
    · obtain ⟨defnQ, shelveQ, -, others⟩ := rest q
      refine ⟨defnQ.trans ((entry q).1.trans (defn_atReading q)), shelveQ.trans ((entry q).2.2.2.1.trans (rest_atReading q).2.2.2), fun other => ?_⟩
      exact ⟨(others other).1.trans ((entry q).2.1.trans (rest_atReading q).2.1),
        (others other).2.trans ((entry q).2.2.1.trans (rest_atReading q).2.2.1)⟩
  · have kept : Kept (atReading p d r s) (beginCondition (faultKey p) d none (clearEvent (staleKey p) d (atReading p d r s))) :=
      (Kept.refl _).clearEvent.beginCondition
    have entry (q : PointId) := kept.point watch q
    refine ⟨_, exec_marked_reading hs point defn source unmarked, ?_, ?_, ?_, fun q => ⟨?_, ?_, fun other => ⟨?_, ?_⟩⟩⟩
    · refine ((entry p).2.1.trans (rest_atReading p).2.1).trans ?_
      split
      · next zero => exact absurd zero unmarked
      · rfl
    · refine ((entry p).2.2.1.trans (rest_atReading p).2.2.1).trans ?_
      split
      · next zero => exact absurd zero unmarked
      · rfl
    · exact (entry p).2.2.2.2.trans stale_atReading
    · exact (entry q).1.trans (defn_atReading q)
    · exact (entry q).2.2.2.1.trans (rest_atReading q).2.2.2
    · exact (entry q).2.1.trans (rest_atReading q).2.1
    · exact (entry q).2.2.1.trans (rest_atReading q).2.2.1

end Sys2Proof.Machine
end

