-- ==== Sys2Proof/Proofs/ScanTick.lean ====
section
/-! PROOF. The scan tick samples each Contact and each Carrier point once (O25). -/

namespace Sys2Proof.Machine

theorem allPoints_eq_finRange : allPoints = List.finRange 64 := by decide

section Scan

variable {s t : State} {p : PointId}

/-- What a sample at a scan tick makes of the High bucket of its point. -/
def State.scanLevel (s : State) (p : PointId) (level : Nat) : Nat :=
  match (s.point p).defn, s.scanSample p with
  | some d, some v => sampledLevel .high d v level
  | _, _ => level

/-- What a scan reads of a point: its definition, the sampled line, the carriers. -/
structure SameScan (s t : State) : Prop where
  outside : t.outside = s.outside
  defn : ∀ p, (t.point p).defn = (s.point p).defn

theorem SameScan.scanSample (h : SameScan s t) (p : PointId) : t.scanSample p = s.scanSample p := by
  have cs : t.cs = s.cs := congrArg Outside.cs h.outside
  have rr : t.rr = s.rr := congrArg Outside.rr h.outside
  have carrier (d : Side) : t.sideCarrier d = s.sideCarrier d := by cases d <;> simp only [State.sideCarrier, rr]
  simp only [State.scanSample, h.defn, cs, carrier]

theorem SameScan.scanLevel (h : SameScan s t) (p : PointId) (level : Nat) : t.scanLevel p level = s.scanLevel p level := by
  simp only [State.scanLevel, h.defn, h.scanSample]

/-- The sample of one point moves its High bucket and nothing else of a point. -/
structure ScannedPoints (l : List PointId) (s t : State) : Prop extends SameScan s t where
  shelve : ∀ p, (t.point p).shelve = (s.point p).shelve
  low : ∀ p, (t.point p).lowBucket = (s.point p).lowBucket
  high : ∀ p, (t.point p).highBucket = if p ∈ l then s.scanLevel p (s.point p).highBucket else (s.point p).highBucket

theorem scannedPoints_scanPoint (s : State) (p : PointId) : ScannedPoints [p] s (scanPoint s p) := by
  cases sample : s.scanSample p with
  | none =>
    have same : scanPoint s p = s := by simp only [scanPoint, sample]
    rw [same]
    refine ⟨⟨rfl, fun _ => rfl⟩, fun _ => rfl, fun _ => rfl, fun q => ?_⟩
    by_cases own : q = p
    · subst own
      rw [if_pos List.mem_cons_self, State.scanLevel, sample]
      cases (s.point q).defn <;> rfl
    · rw [if_neg fun m => own (List.mem_singleton.1 m)]
  | some v =>
    cases defn : (s.point p).defn with
    | none => simp only [State.scanSample, defn] at sample; cases sample
    | some d =>
      have step := sampled_applySample (k := { point := p, kind := .high }) defn v
      have eq : scanPoint s p = applySample { point := p, kind := .high } v s := by simp only [scanPoint, sample]
      rw [eq]
      refine ⟨⟨step.follows.outside, step.defn⟩, step.shelve, fun q => ?_, fun q => ?_⟩
      · have bucket := step.bucket q .low
        rwa [if_neg (by simp)] at bucket
      · have bucket := step.bucket q .high
        by_cases own : p = q
        · rw [if_pos ⟨own, rfl⟩] at bucket
          subst own
          rw [if_pos List.mem_cons_self, State.scanLevel, defn, sample]
          exact bucket
        · rw [if_neg fun same => own same.1] at bucket
          rw [if_neg fun m => own (List.mem_singleton.1 m).symm]
          exact bucket

theorem scannedPoints_foldl {l : List PointId} (once : l.Nodup) (s : State) : ScannedPoints l s (l.foldl scanPoint s) := by
  induction l generalizing s with
  | nil => exact ⟨⟨rfl, fun _ => rfl⟩, fun _ => rfl, fun _ => rfl, fun _ => rfl⟩
  | cons p l ih =>
    obtain ⟨new, once⟩ := List.nodup_cons.1 once
    have first := scannedPoints_scanPoint s p
    have rest := ih once (scanPoint s p)
    rw [List.foldl_cons]
    refine ⟨⟨rest.outside.trans first.outside, fun q => (rest.defn q).trans (first.defn q)⟩, fun q => (rest.shelve q).trans (first.shelve q),
      fun q => (rest.low q).trans (first.low q), fun q => ?_⟩
    rw [rest.high, first.toSameScan.scanLevel, first.high]
    by_cases own : q = p
    · subst own
      simp [new]
    · simp [own]

end Scan

/-- The level after the sample 1 or 0 of a point whose High kind has threshold 0 and hysteresis 0 (R30, R51). -/
theorem sampledLevel_scanValue {d : Definition} (other : d.source ≠ .reading) (violating : Bool) (level : Nat) :
    sampledLevel .high d (scanValue violating) level =
      bucketAfter d.weighting d.capacity level (if violating then 1 else 0) (if violating then -1 else 0) := by
  cases source : d.source with
  | reading => exact absurd source other
  | contact line level => cases violating <;> simp only [sampledLevel, reaches, source] <;> rfl
  | carrier side => cases violating <;> simp only [sampledLevel, reaches, source] <;> rfl

/-- Settles O25: each point is sampled once, in ascending order, and a sample moves its own High bucket alone. -/
theorem scanTickSamplesContactsAndCarriers : Obligations.ScanTickSamplesContactsAndCarriers := by
  unfold Obligations.ScanTickSamplesContactsAndCarriers
  intro lines s free one
  have ran : exec (.scanTick lines) s = .next (scan lines s) := by
    show execScanTick lines s = _
    rw [execScanTick, free]
    rfl
  let start : State := { s with cs := lines }
  have once : allPoints.Nodup := by rw [allPoints_eq_finRange]; exact List.nodup_finRange 64
  have whole : scan lines s = allPoints.foldl scanPoint start := by rw [scan]
  have follows : Follows start (scan lines s) := follows_scan lines s
  have scanned := scannedPoints_foldl once start
  rw [← whole] at scanned
  generalize scan lines s = t at ran whole scanned follows
  have cs : t.cs = lines := congrArg Outside.cs follows.outside
  have rest : ({ t with cs := s.cs } : State).outside = s.outside := congrArg (fun o : Outside => { o with cs := s.cs }) follows.outside
  refine ⟨?_, t, ran, cs, rest, fun p => ⟨scanned.defn p, scanned.shelve p, scanned.low p, ?_⟩⟩
  · rw [ran, whole]
    have step (u : State) (p : PointId) (cs : u.cs = lines) : scanPoint u p = one u p := by
      have carrier (d : Side) : u.sideCarrier d = (u.side d).carrier := by cases d <;> rfl
      cases defn : (u.point p).defn with
      | none => simp only [scanPoint, State.scanSample, defn, one]
      | some d =>
        have sample (v : Half) := applySample_eq_sampled (k := { point := p, kind := .high }) defn v
        cases source : d.source with
        | reading => simp only [scanPoint, State.scanSample, defn, source, one]
        | contact line level => simp only [scanPoint, State.scanSample, defn, source, one, sample, scanValue, cs, beq_iff_eq]
        | carrier side =>
          simp only [scanPoint, State.scanSample, defn, source, one, sample, scanValue, carrier]
          cases (u.side side).carrier <;> rfl
    have folds (l : List PointId) (u : State) (cs : u.cs = lines) : l.foldl scanPoint u = l.foldl one u := by
      induction l generalizing u with
      | nil => rfl
      | cons p l ih =>
        rw [List.foldl_cons, List.foldl_cons, ← step u p cs]
        exact ih _ ((congrArg Outside.cs (scannedPoints_scanPoint u p).outside).trans cs)
    rw [folds allPoints start rfl, allPoints_eq_finRange]
  · rw [scanned.high p, if_pos (mem_allPoints p)]
    show start.scanLevel p (s.point p).highBucket = _
    have samePoint : start.point p = s.point p := rfl
    rw [State.scanLevel, State.scanSample, samePoint]
    cases defn : (s.point p).defn with
    | none => rfl
    | some d =>
      dsimp only
      cases source : d.source with
      | reading => rfl
      | contact line level => exact sampledLevel_scanValue (by rw [source]; nofun) _ _
      | carrier side =>
        have carrier : start.sideCarrier side = (s.side side).carrier := by cases side <;> rfl
        dsimp only
        rw [carrier]
        exact sampledLevel_scanValue (by rw [source]; nofun) _ _

end Sys2Proof.Machine
end

