-- ==== Sys2Proof/Proofs/Causes.lean ====
section
/-! PROOF. The commands that bring about one beginning or one end of a condition alone: the expiry of a stale countdown, a marked reading, a
reading that fills or empties a bucket (R60 to R67). -/

namespace Sys2Proof.Machine

section Causes

variable {k : PointKey} {d : Definition} {r : RawReading} {s s0 : State}

/-- A Quiet key begins no end. -/
theorem clearEvent_of_quiet (quiet : (s.key k).state = .quiet) : clearEvent k d s = s := by simp only [clearEvent, quiet]

/-- A kind whose threshold is absent takes no step. -/
theorem sampled_of_absent {kind : Kind} (p : PointId) (source : d.source = .reading)
    (absent : (kind = .low ∧ d.lowThreshold = none) ∨ (kind = .high ∧ d.highThreshold = none)) (v : Half) (s : State) :
    sampled { point := p, kind } d v s = s := by
  rcases absent with ⟨rfl, none⟩ | ⟨rfl, none⟩ <;> simp only [sampled, reaches, source, none, Option.map_none]

/-- The stale step finds nothing to do when the Stale key is Quiet. -/
theorem ReadsAlone.staleStep (h : ReadsAlone k d r s0) (other : k.kind ≠ .stale) :
    clearEvent (staleKey k.point) d (atReading k.point d r s0) = atReading k.point d r s0 :=
  clearEvent_of_quiet (by rw [key_atReading]; exact h.noStale.resolve_left other)

theorem ReadsAlone.faultStep (h : ReadsAlone k d r s0) (other : k.kind ≠ .fault) :
    clearEvent (faultKey k.point) d (atReading k.point d r s0) = atReading k.point d r s0 :=
  clearEvent_of_quiet (by rw [key_atReading]; exact (h.noFault.resolve_left other).1)

/-- The samples of a reading, when one kind at most is evaluated. -/
theorem ReadsAlone.samples (h : ReadsAlone k d r s0) (s : State) :
    sampled { point := k.point, kind := .high } d r.value (sampled { point := k.point, kind := .low } d r.value s) =
      if k.kind.hasValue = true then sampled k d r.value s else s := by
  obtain ⟨p, kind⟩ := k
  have noLow (other : kind ≠ .low) (u : State) : sampled { point := p, kind := .low } d r.value u = u :=
    sampled_of_absent p h.source (.inl ⟨rfl, h.noLow.resolve_left other⟩) r.value u
  have noHigh (other : kind ≠ .high) (u : State) : sampled { point := p, kind := .high } d r.value u = u :=
    sampled_of_absent p h.source (.inr ⟨rfl, h.noHigh.resolve_left other⟩) r.value u
  cases kind with
  | low => exact noHigh nofun _
  | high => exact congrArg (sampled { point := p, kind := .high } d r.value) (noLow nofun s)
  | stale => exact (noHigh nofun _).trans (noLow nofun s)
  | fault => exact (noHigh nofun _).trans (noLow nofun s)

/-- A kind that reaches has a value. -/
theorem hasValue_of_reaches {kind : Kind} {v : Half} {x : Int × Int} (found : reaches kind d v = some x) : kind.hasValue = true := by
  rw [reaches_eq] at found
  obtain ⟨ev, evaluated, -⟩ := Option.map_eq_some_iff.1 found
  exact hasValue_of_evaluation evaluated

theorem bucketOf_atReading (value : k.kind.hasValue = true) : bucketOf k (atReading k.point d r s0) = bucketOf k s0 := by
  rw [bucketOf_eq value, bucketOf_eq value, bucket_atReading]

/-- A sample that fills the bucket begins the condition; the value is then offered (R59, R61). -/
theorem sampled_of_fills (h : fills k d r.value s0) :
    sampled k d r.value (atReading k.point d r s0) =
      offered k r.value (beginCondition k d (some r.value) (withBucket k d.capacity (atReading k.point d r s0))) := by
  obtain ⟨excess, shortfall, reach, above, full⟩ := h
  rw [← bucketOf_atReading (d := d) (r := r) (hasValue_of_reaches reach)] at full
  simp only [sampled, reach, full, above, true_and, if_true]

/-- A sample that empties the bucket ends the condition; the value is then offered (R60, R61). -/
theorem sampled_of_empties (h : empties k d r.value s0) :
    sampled k d r.value (atReading k.point d r s0) =
      offered k r.value (clearEvent k d (withBucket k 0 (atReading k.point d r s0))) := by
  obtain ⟨excess, shortfall, reach, notAbove, recovered, empty⟩ := h
  rw [← bucketOf_atReading (d := d) (r := r) (hasValue_of_reaches reach)] at empty
  simp only [sampled, reach, empty, not_lt.2 notAbove, false_and, if_false, notAbove, recovered, true_and, if_true]

theorem ReadsAlone.exec_unmarked (h : ReadsAlone k d r s0) (unmarked : r.fault = 0#8) (value : k.kind.hasValue = true) :
    exec (.reading .localPort [r]) s0 = .next (oneApplied r (sampled k d r.value (atReading k.point d r s0))) := by
  have notStale : k.kind ≠ .stale := fun same => by rw [same] at value; cases value
  have notFault : k.kind ≠ .fault := fun same => by rw [same] at value; cases value
  rw [exec_unmarked_reading h.atPort h.ofPoint h.defined h.source unmarked, h.staleStep notStale, h.faultStep notFault, h.samples, if_pos value]

/-- A reading that fills the bucket of its one evaluated kind (R59, R61). -/
theorem exec_reading_of_fills (h : ReadsAlone k d r s0) (unmarked : r.fault = 0#8) (full : fills k d r.value s0) :
    exec (.reading .localPort [r]) s0 =
      .next (oneApplied r (offered k r.value
        (beginCondition k d (some r.value) (withBucket k d.capacity (atReading k.point d r s0))))) := by
  have ⟨_, _, reach, _⟩ := full
  rw [h.exec_unmarked unmarked (hasValue_of_reaches reach), sampled_of_fills full]

/-- The operation of PE and each command that brings about the beginning alone do the same. -/
theorem beginsTo (k : PointKey) (d : Definition) (v : Option Half) (s : State) : BeginsTo k d v s (beginCondition k d v s) := by
  refine ⟨rfl, ?_, ?_, ?_⟩
  · rintro s0 stale rfl expires rfl
    obtain ⟨p, kind⟩ := k
    obtain rfl : kind = .stale := stale
    obtain ⟨n, running⟩ := expires.running
    have expired : staleExpire p s0 = beginCondition { point := p, kind := .stale } d none (stopped p s0) := by
      unfold staleExpire
      dsimp only
      split
      · next e m defn _ =>
        obtain rfl := Option.some.inj (defn.symm.trans expires.defined)
        rfl
      · next other => exact absurd running (other d (n + 1) expires.defined)
    show execStaleCountdownExpiry p s0 = _
    rw [execStaleCountdownExpiry, expires.noHold, expires.watch, running, ← expired]
    rfl
  · rintro r s0 fault rfl marked alone rfl
    have key : faultKey k.point = k := by
      obtain ⟨p, kind⟩ := k
      obtain rfl : kind = .fault := fault
      rfl
    rw [exec_marked_reading alone.atPort alone.ofPoint alone.defined alone.source marked, alone.staleStep (by rw [fault]; nofun), key]
  · rintro r s0 rfl unmarked alone full rfl
    exact exec_reading_of_fills alone unmarked full

/-- The operation of RT and each reading that brings about the clear event alone do the same, when that of a Stale key leaves a Fault key
Quiet that is, and that waits nowhere. -/
theorem clearsTo (k : PointKey) (d : Definition) (s : State)
    (others : k.kind = .stale → (s.key (faultKey k.point)).state = .quiet → faultKey k.point ∉ s.rt.poolWait →
      ((clearEvent k d s).key (faultKey k.point)).state = .quiet) : ClearsTo k d s (clearEvent k d s) := by
  refine ⟨rfl, fun r s0 unmarked alone => ⟨?_, ?_⟩⟩
  · rintro kind rfl
    have ran := exec_unmarked_reading (r := r) alone.atPort alone.ofPoint alone.defined alone.source unmarked
    rw [alone.samples, if_neg (by rcases kind with e | e <;> rw [e] <;> nofun)] at ran
    rw [ran]
    rcases kind with stale | fault
    · have key : staleKey k.point = k := by
        obtain ⟨p, kind⟩ := k
        obtain rfl : kind = .stale := stale
        rfl
      obtain ⟨quiet, notWaiting⟩ := alone.noFault.resolve_left (by rw [stale]; nofun)
      rw [key, clearEvent_of_quiet (others stale (by rw [key_atReading]; exact quiet) (by rw [rt_atReading]; exact notWaiting))]
    · have key : faultKey k.point = k := by
        obtain ⟨p, kind⟩ := k
        obtain rfl : kind = .fault := fault
        rfl
      rw [alone.staleStep (by rw [fault]; nofun), key]
  · rintro empty rfl
    have value : k.kind.hasValue = true := by
      obtain ⟨excess, shortfall, reach, -⟩ := empty
      exact hasValue_of_reaches reach
    rw [alone.exec_unmarked unmarked value, sampled_of_empties empty]

end Causes

/-- Settles O47: only a Quiet or a Cleared key acts at the beginning of its condition. -/
theorem staleExpiryOfAKeyInTheTable : Obligations.StaleExpiryOfAKeyInTheTable := by
  unfold Obligations.StaleExpiryOfAKeyInTheTable
  intro k d v s
  have begins := beginsTo k d v s
  refine ⟨fun placed => ?_, fun i cleared link state key => ?_⟩
  · have stays : beginCondition k d v s = s := by
      rcases placed with e | e | e | e <;> simp only [beginCondition, e]
    rwa [stays] at begins
  · have again : beginCondition k d v s = reRaise i s := by simp only [beginCondition, show (s.key k).state = _ from cleared, link]
    exact ⟨_, again ▸ begins, reRaised_reRaise state key⟩

end Sys2Proof.Machine
end

