-- ==== Sys2Proof/Proofs/Attempts.lean ====
section
/-! PROOF. A raise attempt, by what its governor does with it: it bypasses, is admitted, is held (R69 to R73, R96 to R98). -/

namespace Sys2Proof.Machine

section Attempts

variable {k : PointKey} {d : Definition} {v : Option Half} {s : State}

/-- The value with which an attempt is carried: the severity of the point, and the reading (R69). -/
abbrev Definition.carried (d : Definition) (k : PointKey) (v : Option Half) : Pending := { severity := d.severity k.kind, value := v }

theorem Attempt.begins (h : Attempt k d v s) : beginCondition k d v s = raiseAttempt k (d.carried k v) s := by
  simp only [beginCondition, h.quiet]

theorem Attempt.group (h : Attempt k d v s) : s.groupOf k = d.group := by rw [State.groupOf, h.defined]

theorem bypasses_iff (h : Attempt k d v s) :
    bypasses k (d.severity k.kind) s = true ↔
      0 < (s.point k.point).shelve ∨ meetsBar (s.governor d.group).defn.bypass (d.severity k.kind) = true := by
  rw [bypasses, Bool.or_eq_true, h.group, meetsBar_eq, State.shelved, decide_eq_true_eq]

theorem Governed.begins (h : Governed k d v s) : beginCondition k d v s = governAttempt k (d.carried k v) s := by
  have notBypassed : ¬ bypasses k (d.severity k.kind) s = true := by
    rw [bypasses_iff h.toAttempt, h.notShelved, h.noBypass]
    simp
  rw [h.toAttempt.begins, raiseAttempt, if_neg notBypassed]

/-! ## The branches of a governed attempt (R96) -/

section Branches

variable {g : GroupId} {p : Pending}

theorem governAttempt_of_list (group : s.groupOf k = g) (mode : (s.governor g).defn.mode = .hold) (list : (s.governor g).held ≠ []) :
    governAttempt k p s = holdKey k p s := by
  subst group
  exact if_pos ⟨mode, list⟩

theorem governAttempt_of_admitted (group : s.groupOf k = g) (noList : (s.governor g).defn.mode = .hold → (s.governor g).held = [])
    (opened : (s.governor g).gate = .opened) (token : 0 < (s.governor g).tokens) :
    governAttempt k p s = allocateOrWait k p (putGovernor g { s.governor g with tokens := (s.governor g).tokens - 1 } s) := by
  subst group
  simp only [governAttempt, if_neg (fun both : _ ∧ _ ≠ _ => both.2 (noList both.1)), opened, if_pos token]

theorem governAttempt_of_spent (group : s.groupOf k = g) (noList : (s.governor g).defn.mode = .hold → (s.governor g).held = [])
    (opened : (s.governor g).gate = .opened) (spent : (s.governor g).tokens = 0) :
    governAttempt k p s = divert k p (closeGovernor g s) := by
  subst group
  have noToken : ¬ 0 < (s.governor (s.groupOf k)).tokens := by rw [spent]; exact lt_irrefl 0
  simp only [governAttempt, if_neg (fun both : _ ∧ _ ≠ _ => both.2 (noList both.1)), opened, if_neg noToken]

theorem governAttempt_of_closed (group : s.groupOf k = g) (noList : (s.governor g).defn.mode = .hold → (s.governor g).held = [])
    (closed : (s.governor g).gate = .closed) : governAttempt k p s = divert k p s := by
  subst group
  simp only [governAttempt, if_neg (fun both : _ ∧ _ ≠ _ => both.2 (noList both.1)), closed]

theorem divert_of_hold (group : s.groupOf k = g) (mode : (s.governor g).defn.mode = .hold) : divert k p s = holdKey k p s := by
  subst group
  simp only [divert, mode]

theorem divert_of_fold (group : s.groupOf k = g) (mode : (s.governor g).defn.mode = .fold) :
    divert k p s = foldKey k p.severity s := by
  subst group
  simp only [divert, mode]

end Branches

/-- A governor that closes (R97). -/
theorem closeGovernor_eq (g : GroupId) (s : State) :
    ∃ e : TableEvent, e.tally = (g, .stormClosed, none, 0) ∧
      closeGovernor g s = setNotice .storm (countEvent e (putGovernor g { s.governor g with gate := .closed } s)) := by
  refine ⟨_, ?_, issue_of_stormClosed rfl _⟩
  rfl

theorem governor_closeGovernor (g : GroupId) (s : State) : (closeGovernor g s).governor g = { s.governor g with gate := .closed } := by
  rw [State.governor, sg_closeGovernor, vget_vset, if_pos rfl]

theorem key_closeGovernor (g : GroupId) (s : State) (k : PointKey) : (closeGovernor g s).key k = s.key k := key_issue _ _ k

theorem groupOf_closeGovernor (g : GroupId) (s : State) (k : PointKey) : (closeGovernor g s).groupOf k = s.groupOf k := by
  rw [State.groupOf, State.groupOf, defn_closeGovernor]

/-- A key that is held (R98). -/
theorem holdKey_eq (k : PointKey) (p : Pending) (s : State) :
    ∃ e : TableEvent, e.tally = (s.groupOf k, .held, some p.severity, 0) ∧
      holdKey k p s = countEvent e (advance 1 (putKey k { state := .held, link := none, pending := some p }
        (putGovernor (s.groupOf k) { s.governor (s.groupOf k) with held := (s.governor (s.groupOf k)).held ++ [k] } s))) := by
  refine ⟨_, ?_, issue_of_silent (.inr (.inr (.inr (.inr (.inr (.inr ⟨rfl, fun same => nomatch (show some HeldCause.storm = some .pool from same)⟩)))))) _⟩
  exact congrArg (·, _) (groupOf_putKey k _ (putGovernor (s.groupOf k) _ s) k)

/-- What a governor leaves that closes, but for its gate: `StormClosed` is counted and Storm is set (R97). -/
theorem closeGovernor_leaves (g : GroupId) (s : State) :
    (closeGovernor g s).rt = s.rt ∧ (closeGovernor g s).tb = s.tb ∧ (closeGovernor g s).nu = { s.nu with flags := s.nu.flags ||| 0x04#8 } ∧
      counted [(g, .stormClosed, none, 0)] s (closeGovernor g s) := by
  obtain ⟨e, tally, closes⟩ := closeGovernor_eq g s
  rw [closes, ← tally]
  exact ⟨rfl, rfl, rfl, counted_congr (counted_countEvent e (putGovernor g { s.governor g with gate := .closed } s)) rfl rfl⟩

/-- What a key leaves that is held, but for the list and the key itself: `Held` is counted and the change count advanced (R98). -/
theorem holdKey_leaves (k : PointKey) (p : Pending) (s : State) :
    (holdKey k p s).tb = s.tb ∧ (holdKey k p s).nu = s.nu ∧ counted [(s.groupOf k, .held, some p.severity, 0)] s (holdKey k p s) := by
  obtain ⟨e, tally, holds⟩ := holdKey_eq k p s
  rw [holds, ← tally]
  exact ⟨rfl, rfl, counted_congr (counted_countEvent e (advance 1 (putKey k _ (putGovernor (s.groupOf k) _ s)))) rfl rfl⟩

end Attempts

/-- Settles O48: the attempt goes to the allocation past the governor. -/
theorem bypassingAttemptTakesARecordOrWaits : Obligations.BypassingAttemptTakesARecordOrWaits := by
  unfold Obligations.BypassingAttemptTakesARecordOrWaits
  intro k d v s attempt bypass
  have begins := beginsTo k d v s
  rw [attempt.begins, raiseAttempt, if_pos ((bypasses_iff attempt).2 bypass)] at begins
  exact ⟨_, begins, keepsBut_allocateOrWait _ _ s, sg_allocateOrWait _ _ s, takesOrWaits_allocateOrWait (v := d.carried k v) attempt.carries s⟩

/-- Settles O49: the token is spent, and the attempt goes to the allocation. -/
theorem openGovernorAdmitsForAToken : Obligations.OpenGovernorAdmitsForAToken := by
  unfold Obligations.OpenGovernorAdmitsForAToken
  intro k d v s governed opened token noList
  have group := governed.group
  let u := putGovernor d.group { s.governor d.group with tokens := (s.governor d.group).tokens - 1 } s
  have begins := beginsTo k d v s
  rw [governed.begins, governAttempt_of_admitted group noList opened token] at begins
  have kept : Kept s (allocateOrWait k (d.carried k v) u) := (Kept.refl s).putGovernor.allocateOrWait
  exact ⟨_, begins, keepsBut_of_kept kept fun _ other => key_allocateOrWait_other k _ u (List.ne_of_not_mem_cons other),
    sg_allocateOrWait _ _ u, takesOrWaits_allocateOrWait (v := d.carried k v) governed.carries u⟩

/-- Settles O50: a list that holds keys takes the attempt; else the governor, closed first if it was Open, holds it. -/
theorem holdGovernorHoldsTheKey : Obligations.HoldGovernorHoldsTheKey := by
  unfold Obligations.HoldGovernorHoldsTheKey
  intro k d v s governed mode x closes away
  have group : s.groupOf k = d.group := governed.group
  have begins := beginsTo k d v s
  rw [governed.begins] at begins
  by_cases closing : closes
  · let u := closeGovernor d.group s
    have group' : u.groupOf k = d.group := (groupOf_closeGovernor d.group s k).trans group
    have gov : u.governor d.group = { x with gate := .closed } := governor_closeGovernor d.group s
    have spent : x.tokens = 0 := away.elim (absurd closing.1) fun rest => rest.elim (fun closed => nomatch closing.2.symm.trans closed) id
    have mode' : (u.governor d.group).defn.mode = .hold := by rw [gov]; exact mode
    rw [governAttempt_of_spent group (fun _ => closing.1) closing.2 spent, divert_of_hold group' mode'] at begins
    obtain ⟨rt, tb, nu, counts⟩ := closeGovernor_leaves d.group s
    obtain ⟨tb', nu', counts'⟩ := holdKey_leaves k (d.carried k v) u
    have list : x.held ++ [k] = [k] := by rw [closing.1]; rfl
    rw [group'] at counts'
    refine ⟨_, begins, keepsBut_of_kept (Kept.refl s).closeGovernor.holdKey fun k' other => ?_, tb'.trans tb, fun _ => ?_,
      fun not => absurd closing not, ?_, ?_, fun _ => ⟨nu'.trans nu, counted_append counts counts'⟩, fun not => absurd closing not⟩
    · rw [key_holdKey, if_neg fun same => List.ne_of_not_mem_cons other same.symm, key_closeGovernor]
    · rw [sg_holdKey, group', gov, sg_closeGovernor, vset_vset_self, list]
    · rw [rt_holdKey, rt]
    · rw [key_holdKey, if_pos rfl]
  · have holds : governAttempt k (d.carried k v) s = holdKey k (d.carried k v) s := by
      by_cases list : x.held = []
      · have closed : x.gate = .closed := by
          cases gate : x.gate with
          | closed => rfl
          | opened => exact absurd ⟨list, gate⟩ closing
        rw [governAttempt_of_closed group (fun _ => list) closed, divert_of_hold group mode]
      · exact governAttempt_of_list group mode list
    rw [holds] at begins
    obtain ⟨tb, nu, counts⟩ := holdKey_leaves k (d.carried k v) s
    rw [group] at counts
    refine ⟨_, begins, keepsBut_of_kept (Kept.refl s).holdKey fun k' other => ?_, tb, fun yes => absurd yes closing,
      fun _ => ?_, rt_holdKey _ _ s, ?_, fun yes => absurd yes closing, fun _ => ⟨nu, counts⟩⟩
    · rw [key_holdKey, if_neg fun same => List.ne_of_not_mem_cons other same.symm]
    · rw [sg_holdKey, group]
    · rw [key_holdKey, if_pos rfl]

end Sys2Proof.Machine
end

