-- ==== Sys2Proof/Proofs/Folding.lean ====
section
/-! PROOF. A key that its governor folds, and what the storm record of the group makes of it (R12, R16, R96 to R100). -/

namespace Sys2Proof.Machine

theorem rt_putRecord (i : RecordIx) (r : Record) (s : State) : (putRecord i r s).rt = { s.rt with records := vset s.rt.records i r } := rfl

section StormFold

variable {g : GroupId} {v : Half} {r : Record} {s : State}

/-- The peak of a live storm record after a count is offered (R4). -/
theorem peakAfter_storm (live : r.state.live = true) (key : r.key = some (.storm g)) :
    peakAfter r v = { r with peak := r.peak.map fun w => if w.toNat < v.toNat then v else w } := by
  unfold peakAfter
  simp only [live, key, extreme]

theorem stormFold_of_idle (idle : (s.record (stormIx g)).state = .idle) : stormFold g s = stormRaise g s := by
  let r := (s.governor g).stormRecord g s.tb.hutTime
  have record : (stormRaise g s).record (stormIx g) = r := by
    rw [State.record, rt_stormRaise_of_idle idle, vget_vset, if_pos rfl]
  have governor : (stormRaise g s).governor g = s.governor g := by rw [State.governor, sg_stormRaise]; rfl
  have keeps : peakAfter r (BitVec.ofNat 16 (s.governor g).folded.length) = r := by
    rw [peakAfter_storm (g := g) rfl rfl]
    simp [r, Governor.stormRecord]
  have other : reRaise (stormIx g) (stormRaise g s) = stormRaise g s := reRaise_of_other _ _ (by rw [record]; exact fun same => nomatch same)
  unfold stormFold
  dsimp only
  rw [other, peakUpdate_eq_putRecord, record, governor, keeps, ← record, putRecord_self]

theorem stormFold_of_cleared (h : TableLaw s) (cleared : (s.record (stormIx g)).state = .cleared) :
    stormFold g s =
      putRecord (stormIx g)
        { (s.record (stormIx g)).reRaised with
          peak := (s.record (stormIx g)).peak.map fun w =>
            if w.toNat < (BitVec.ofNat 16 (s.governor g).folded.length).toNat then BitVec.ofNat 16 (s.governor g).folded.length else w }
        (reRaise (stormIx g) s) := by
  have key := h.key_stormIx g (by rw [cleared]; rfl)
  have record : (reRaise (stormIx g) s).record (stormIx g) = (s.record (stormIx g)).reRaised := by
    rw [State.record, rt_reRaise_of_cleared cleared key, vget_vset, if_pos rfl]
  have governor : (reRaise (stormIx g) s).governor g = s.governor g := by rw [State.governor, sg_reRaise]; rfl
  have other : stormRaise g s = s := stormRaise_of_other (by rw [cleared]; exact fun same => nomatch same)
  unfold stormFold
  dsimp only
  rw [other, peakUpdate_eq_putRecord, record, governor, peakAfter_storm (g := g) (r := (s.record (stormIx g)).reRaised) rfl key]
  rfl

theorem stormFold_of_open (h : TableLaw s) (opened : (s.record (stormIx g)).state = .standing ∨ (s.record (stormIx g)).state = .acknowledged) :
    stormFold g s =
      putRecord (stormIx g)
        { s.record (stormIx g) with
          peak := (s.record (stormIx g)).peak.map fun w =>
            if w.toNat < (BitVec.ofNat 16 (s.governor g).folded.length).toNat then BitVec.ofNat 16 (s.governor g).folded.length else w }
        s := by
  have live : (s.record (stormIx g)).state.live = true := by rcases opened with state | state <;> rw [state] <;> rfl
  have notIdle : (s.record (stormIx g)).state ≠ .idle := by rcases opened with state | state <;> rw [state] <;> exact fun same => nomatch same
  have notCleared : (s.record (stormIx g)).state ≠ .cleared := by
    rcases opened with state | state <;> rw [state] <;> exact fun same => nomatch same
  unfold stormFold
  dsimp only
  rw [stormRaise_of_other notIdle, reRaise_of_other _ _ notCleared, peakUpdate_eq_putRecord,
    peakAfter_storm live (h.key_stormIx g live)]

/-- A storm record that is raised (R12). -/
theorem stormRaise_leaves (idle : (s.record (stormIx g)).state = .idle) :
    ((stormRaise g s).nu, (stormRaise g s).tb) = judged (stormIx g) (s.governor g).defn.stormSeverity false s ∧
      counted [(g, .raised, some (s.governor g).defn.stormSeverity, 0)] s (stormRaise g s) := by
  let u := advance 1 (toStanding (stormIx g) (putRecord (stormIx g) ((s.governor g).stormRecord g s.tb.hutTime) s))
  let e := recordEvent .raised (.storm g) (stormIx g) (s.governor g).defn.stormSeverity none u
  have raises : stormRaise g s = issue e u := stormRaise_of_idle idle
  rw [raises]
  exact ⟨(judged_issue rfl rfl rfl u).trans (judged_congr rfl rfl _), counted_congr (s := u) (counted_issue e u) rfl rfl⟩

/-- A storm record that is re-raised (R16). -/
theorem reRaise_storm_leaves (h : TableLaw s) (cleared : (s.record (stormIx g)).state = .cleared) :
    ((reRaise (stormIx g) s).nu, (reRaise (stormIx g) s).tb) = judged (stormIx g) (s.record (stormIx g)).severity false s ∧
      counted [(g, .raised, some (s.record (stormIx g)).severity, 0)] s (reRaise (stormIx g) s) := by
  let u := advance 1 (putLinkedState .raised (.storm g) (toStanding (stormIx g) (putRecord (stormIx g) (s.record (stormIx g)).reRaised s)))
  let e := recordEvent .raised (.storm g) (stormIx g) (s.record (stormIx g)).severity none u
  have raises : reRaise (stormIx g) s = issue e u := reRaise_of_cleared cleared (h.key_stormIx g (by rw [cleared]; rfl))
  rw [raises]
  exact ⟨(judged_issue rfl rfl rfl u).trans (judged_congr rfl rfl _), counted_congr (s := u) (counted_issue e u) rfl rfl⟩

/-- What a fold asks of the storm record leaves the keys. -/
theorem key_stormFold (h : TableLaw s) (g : GroupId) (k : PointKey) : (stormFold g s).key k = s.key k := by
  rcases h.storm_cases g with (idle | cleared) | opened
  · rw [stormFold_of_idle idle, key_stormRaise]
  · rw [stormFold_of_cleared h cleared]
    refine (key_reRaise_of_cleared cleared (h.key_stormIx g (by rw [cleared]; rfl)) k).trans ?_
    rw [if_neg fun same => nomatch same]
  · rw [stormFold_of_open h opened]
    rfl

end StormFold

section FoldKey

variable {k : PointKey} {g : GroupId} {p : Pending} {s : State}

/-- The state of a key that is folded, before its storm record hears of it (R100). -/
theorem foldKey_eq (group : s.groupOf k = g) (sev : Severity) :
    ∃ e : TableEvent, e.tally = (g, .folded, some sev, 0) ∧
      foldKey k sev s = stormFold g (countEvent e (putKey k { state := .folded, link := none, pending := none }
        (putGovernor g { s.governor g with folded := (s.governor g).folded ++ [k] } s))) := by
  subst group
  refine ⟨keyEvent .folded k sev none (putKey k { state := .folded, link := none, pending := none }
    (putGovernor (s.groupOf k) { s.governor (s.groupOf k) with folded := (s.governor (s.groupOf k)).folded ++ [k] } s)), ?_, ?_⟩
  · exact congrArg (·, _) (groupOf_putKey k _ (putGovernor (s.groupOf k) _ s) k)
  · rw [← issue_of_silent (.inr (.inr (.inr (.inr (.inr (.inl rfl))))))]
    rfl

/-- An attempt that finds the gate shut, or shuts it for want of a token, is diverted (R96 cases 3 and 4, R97). -/
theorem governAttempt_of_shut (group : s.groupOf k = g) (noList : (s.governor g).defn.mode = .hold → (s.governor g).held = [])
    (away : (s.governor g).gate = .closed ∨ (s.governor g).tokens = 0) :
    ∃ u, governAttempt k p s = divert k p u ∧ Kept s u ∧ u.rt = s.rt ∧ u.tb = s.tb ∧
      u.nu = { s.nu with flags := if (s.governor g).gate = .opened then s.nu.flags ||| 0x04#8 else s.nu.flags } ∧
      u.sg = vset s.sg g { s.governor g with gate := .closed } ∧ (∀ k', u.key k' = s.key k') ∧
      counted (if (s.governor g).gate = .opened then [(g, .stormClosed, none, 0)] else []) s u := by
  cases gate : (s.governor g).gate with
  | closed =>
    refine ⟨s, governAttempt_of_closed group noList gate, Kept.refl s, rfl, rfl, rfl, ?_, fun _ => rfl, counted_refl s⟩
    rw [← gate]
    exact (vset_vget_self s.sg g).symm
  | opened =>
    have spent : (s.governor g).tokens = 0 := away.resolve_left fun closed => nomatch closed.symm.trans gate
    obtain ⟨rt, tb, nu, counts⟩ := closeGovernor_leaves g s
    exact ⟨closeGovernor g s, governAttempt_of_spent group noList gate spent, (Kept.refl s).closeGovernor, rt, tb, nu,
      sg_closeGovernor g s, key_closeGovernor g s, counts⟩

end FoldKey

/-- Settles O51: the gate is closed, the key is folded, and the storm record is raised, re-raised or offered the count. -/
theorem foldGovernorFoldsTheKey : Obligations.FoldGovernorFoldsTheKey := by
  unfold Obligations.FoldGovernorFoldsTheKey
  intro k d v s governed mode table _ x i r count peak away
  have group : s.groupOf k = d.group := governed.group
  have begins := beginsTo k d v s
  obtain ⟨u, attempt, kept, rt, tb, nu, sg, keys, counts⟩ :=
    governAttempt_of_shut (p := d.carried k v) group (fun hold => nomatch hold.symm.trans mode) away
  have gov : u.governor d.group = { x with gate := .closed } := by rw [State.governor, sg, vget_vset, if_pos rfl]
  have group' : u.groupOf k = d.group := by rw [← group, State.groupOf, State.groupOf, (kept.points k.point).1]
  rw [governed.begins, attempt, divert_of_fold group' (by rw [gov]; exact mode)] at begins
  obtain ⟨e, tally, folds⟩ := foldKey_eq group' (d.carried k v).severity
  let w := putKey k { state := .folded, link := none, pending := none }
    (putGovernor d.group { u.governor d.group with folded := (u.governor d.group).folded ++ [k] } u)
  rw [folds] at begins
  let z := countEvent e w
  have table' : TableLaw z := table.of_rt rt
  have sg' : z.sg = vset s.sg d.group { x with gate := .closed, folded := x.folded ++ [k] } := by
    change vset u.sg d.group { u.governor d.group with folded := (u.governor d.group).folded ++ [k] } = _
    rw [gov, sg, vset_vset_self]
  have gov' : z.governor d.group = { x with gate := .closed, folded := x.folded ++ [k] } := by
    rw [State.governor, sg', vget_vset, if_pos rfl]
  have countIs : BitVec.ofNat 16 (z.governor d.group).folded.length = count := by rw [gov', List.length_append]; rfl
  have severityIs : (z.governor d.group).defn.stormSeverity = x.defn.stormSeverity := by rw [gov']
  have rt' : z.rt = s.rt := rt
  have record : z.record i = r := by rw [State.record, rt']; rfl
  have hut : z.tb.hutTime = s.tb.hutTime := congrArg TimeBase.hutTime tb
  have events : counted ((if x.gate = .opened then [(d.group, .stormClosed, none, 0)] else []) ++
      [(d.group, .folded, some (d.severity k.kind), 0)]) s z := by
    have second := counted_countEvent e w
    exact counted_append counts (counted_congr (s := w) (tally ▸ second) rfl rfl)
  have judges (sev : Severity) : judged i sev false z = judged i sev false
      { s with nu := { s.nu with flags := if x.gate = .opened then s.nu.flags ||| 0x04#8 else s.nu.flags } } := by
    rw [judged, judged, show z.nu = _ from nu, show z.tb = _ from tb]
  have key : z.key k = { state := .folded, link := none, pending := none } := (key_putKey k k _ _).trans (if_pos rfl)
  have others (k' : PointKey) (other : k' ≠ k) : z.key k' = s.key k' := (key_putKey k k' _ _).trans ((if_neg other.symm).trans (keys k'))
  have left {l : List RecordIx} {state : RecordState} (holds : ∀ j, j ∈ l ↔ (s.record j).state = state) (not : r.state ≠ state) :
      l.erase i = l := List.erase_of_not_mem fun m => not ((holds _).1 m)
  refine ⟨_, begins, keepsBut_of_kept ?_ fun k' other => ?_, ?_, ?_, fun idle => ?_, fun cleared => ?_, fun opened => ?_⟩
  · exact kept.putGovernor.putKey.countEvent.stormFold
  · rw [key_stormFold table', others k' (List.ne_of_not_mem_cons other)]
  · rw [sg_stormFold, sg']
  · rw [key_stormFold table', key]
  · rw [← record] at idle
    obtain ⟨judges', counts'⟩ := stormRaise_leaves idle
    rw [stormFold_of_idle idle]
    rw [severityIs] at judges' counts'
    refine ⟨?_, judges'.trans (judges _), counted_append events counts'⟩
    rw [record] at idle
    rw [rt_stormRaise_of_idle (record ▸ idle), rt', left table.lists.standing (by rw [idle]; nofun),
      left table.lists.acknowledged (by rw [idle]; nofun), left table.lists.cleared (by rw [idle]; nofun), Governor.stormRecord, countIs, hut,
      severityIs]
    rfl
  · have cleared' : (z.record i).state = .cleared := by rw [record]; exact cleared
    obtain ⟨judges', counts'⟩ := reRaise_storm_leaves table' cleared'
    rw [stormFold_of_cleared table' cleared', countIs]
    rw [record] at judges' counts'
    refine ⟨?_, judges'.trans (judges _), counted_congr (counted_append events counts') rfl rfl⟩
    rw [rt_putRecord, rt_reRaise_of_cleared cleared' (table'.key_stormIx d.group (by rw [cleared']; rfl)), rt', record, vset_vset_self,
      left table.lists.standing (by rw [cleared]; nofun), left table.lists.acknowledged (by rw [cleared]; nofun)]
    rfl
  · have opened' : (z.record i).state = .standing ∨ (z.record i).state = .acknowledged := by rw [record]; exact opened
    rw [stormFold_of_open table' opened', countIs]
    refine ⟨?_, nu, tb, counted_congr events rfl rfl⟩
    rw [rt_putRecord, rt', record]

end Sys2Proof.Machine
end

