-- ==== Sys2Proof/Proofs/Refills.lean ====
section
/-! PROOF. The refill of a governor: the countdown, the token, the gate, and the keys that it releases (R102 to R104). -/

namespace Sys2Proof.Machine

section Release

variable {g : GroupId} {k : PointKey} {rest : List PointKey} {v : Pending} {s : State}

theorem pendingOf_of_pending (pending : (s.key k).pending = some v) : s.pendingOf k = v := by rw [State.pendingOf, pending]

theorem key_releaseKey_other {k' : PointKey} (other : k' ≠ k) : (releaseKey g k rest s).key k' = s.key k' := by
  obtain ⟨e, eq⟩ := releaseKey_eq g k rest s
  rw [eq, key_allocateOrWait_other _ _ _ other]
  cases e <;> rfl

/-- The release of the head of a storm-held list (R103). -/
theorem released_releaseKey (pending : (s.key k).pending = some v) (value : v.value.isSome = k.kind.hasValue) :
    Released g k rest v s (releaseKey g k rest s) := by
  have carried : s.pendingOf k = v := pendingOf_of_pending pending
  have steps : s.rt.changeCount + 1#16 + 1#16 = s.rt.changeCount + 2#16 := BitVec.add_assoc _ _ _
  refine ⟨keepsBut_of_kept (Kept.refl s).releaseKey fun k' other => key_releaseKey_other (List.ne_of_not_mem_cons other),
    sg_releaseKey g k rest s, fun i free found => ?_, fun empty => ?_⟩
  · let u := countEvent (releasedEvent i k s) (releasing g rest s)
    obtain ⟨rt, key, judges, counts⟩ := (takesOrWaits_allocateOrWait value u).1 i free found
    rw [releaseKey_of_free found, carried]
    refine ⟨rt.trans ?_, key, judges.trans (judged_congr rfl rfl _), ?_⟩
    · exact congrArg (fun c => { takenFromFree i free k v.severity v.value s with changeCount := c }) steps
    · have first : counted [(s.groupOf k, .released, some v.severity, 0)] s u := by
        have tally : (releasedEvent i k s).tally = (s.groupOf k, .released, some v.severity, 0) := by
          rw [← carried]
          rfl
        have event := counted_countEvent (releasedEvent i k s) (releasing g rest s)
        exact counted_congr (s := releasing g rest s) (tally ▸ event) rfl rfl
      exact counted_append first counts
  · obtain ⟨⟨front, back, split, rt, ahead, behind⟩, key, nu, tb, counts⟩ := joinsThePoolWait k v (releasing g rest s)
    rw [releaseKey_of_none_free empty, carried, allocateOrWait_of_none_free (s := releasing g rest s) empty]
    refine ⟨⟨front, back, split, rt.trans ?_, ahead, behind⟩, key, nu, tb, counted_congr counts rfl rfl⟩
    exact congrArg (fun c => { s.rt with poolWait := front ++ k :: back, changeCount := c }) steps

/-- The release step is over when the list or the tokens are. -/
theorem releaseStep_of_done (done : (s.governor g).held = [] ∨ (s.governor g).tokens = 0) : releaseStep g s = s := by
  unfold releaseStep
  rcases done with empty | spent
  · cases (s.governor g).tokens with
    | zero => rfl
    | succ n => simp only [releaseLoop, empty]
  · rw [spent, releaseLoop]

/-- The release step releases the head of the list and goes on. -/
theorem releaseStep_of_head (head : (s.governor g).held = k :: rest) (token : 0 < (s.governor g).tokens) :
    releaseStep g s = releaseStep g (releaseKey g k rest s) := by
  obtain ⟨n, tokens⟩ := Nat.exists_eq_add_of_lt token
  rw [Nat.zero_add] at tokens
  have left : ((releaseKey g k rest s).governor g).tokens = n := by
    rw [governor_releaseKey, if_pos rfl, tokens]
    rfl
  rw [releaseStep, releaseStep, left, tokens]
  simp only [releaseLoop, head, if_pos token]

theorem state_allocateOrWait (k : PointKey) (v : Pending) (s : State) :
    ((allocateOrWait k v s).key k).state = .raised ∨ ((allocateOrWait k v s).key k).state = .waiting := by
  cases free : s.rt.free with
  | nil =>
    rw [allocateOrWait_of_none_free free, key_joinPoolWait, if_pos rfl]
    exact .inr rfl
  | cons i rest =>
    rw [key_allocateOrWait_of_free free, if_pos rfl]
    exact .inl rfl

theorem key_releaseLoop_other {n : Nat} {k' : PointKey} (other : k' ∉ (s.governor g).held) : (releaseLoop g n s).key k' = s.key k' := by
  induction n generalizing s with
  | zero => rfl
  | succ n ih =>
    unfold releaseLoop
    split
    · next k rest head =>
      rw [head] at other
      split
      · rw [ih (by rw [governor_releaseKey, if_pos rfl]; exact List.not_mem_of_not_mem_cons other),
          key_releaseKey_other (List.ne_of_not_mem_cons other)]
      · rfl
    · rfl

/-- Every key that a release step takes is Raised or Waiting after it. -/
theorem state_releaseLoop (n : Nat) (once : (s.governor g).held.Nodup) (k : PointKey)
    (taken : k ∈ (s.governor g).held.take (min n (s.governor g).tokens)) :
    ((releaseLoop g n s).key k).state = .raised ∨ ((releaseLoop g n s).key k).state = .waiting := by
  induction n generalizing s with
  | zero =>
    rw [Nat.zero_min] at taken
    cases taken
  | succ n ih =>
    unfold releaseLoop
    split
    · next k' rest head =>
      split
      · next token =>
        have head' : ((releaseKey g k' rest s).governor g).held = rest := by rw [governor_releaseKey, if_pos rfl]
        have tokens : ((releaseKey g k' rest s).governor g).tokens = (s.governor g).tokens - 1 := by rw [governor_releaseKey, if_pos rfl]
        rw [head, show min (n + 1) (s.governor g).tokens = min n ((s.governor g).tokens - 1) + 1 by omega, List.take_succ_cons,
          List.mem_cons] at taken
        rw [head] at once
        obtain ⟨notIn, once⟩ := List.nodup_cons.1 once
        rcases taken with same | later
        · subst same
          rw [key_releaseLoop_other (by rw [head']; exact notIn)]
          obtain ⟨e, eq⟩ := releaseKey_eq g k rest s
          rw [eq]
          exact state_allocateOrWait k _ _
        · exact ih (by rw [head']; exact once) (by rw [head', tokens]; exact later)
      · next spent =>
        rw [show min (n + 1) (s.governor g).tokens = 0 by omega] at taken
        cases taken
    · next empty =>
      rw [empty, List.take_nil] at taken
      cases taken

end Release

section Refill

variable {g : GroupId} {s : State}

/-- A governor that reopens (R102, R104). -/
theorem reopen_of_due (closed : (s.governor g).gate = .closed) (due : (s.governor g).defn.reopen ≤ (s.governor g).tokens) :
    reopen g s =
      let u := setNotice .reopened (putGovernor g { s.governor g with gate := .opened } s)
      if (s.governor g).defn.mode = .fold ∧ (s.governor g).folded = [] then clearLatched (stormIx g) u else u := if_pos ⟨closed, due⟩

theorem reopen_of_not_due (not : ¬ ((s.governor g).gate = .closed ∧ (s.governor g).defn.reopen ≤ (s.governor g).tokens)) :
    reopen g s = s := if_neg not

end Refill

theorem and_eq_of_getLsbD_three {flags : Byte} (set : flags.getLsbD 3 = true) : flags &&& 0x08#8 = 0x08#8 := by
  apply BitVec.eq_of_getLsbD_eq
  intro i small
  rw [BitVec.getLsbD_and]
  interval_cases i <;> simp [set]

/-- Settles O52: a refill is its four steps in order; each key that the last of them takes is released as R103 says. -/
theorem refillReopensAndReleases : Obligations.RefillReopensAndReleases := by
  unfold Obligations.RefillReopensAndReleases
  refine ⟨?_, fun g s table => ?_, fun g s => ⟨releaseStep_of_done, ?_⟩⟩
  · intro g s outOfHold x tokens opens gate released y z
    have done : exec (.refill g) s = .next (refillGovernor g s) :=
      congrArg Host.Outcome.next (if_neg fun held : s.inHold = true => Bool.false_ne_true (outOfHold.symm.trans held))
    let u := putGovernor g x.refilled s
    have governorU : u.governor g = x.refilled := by rw [governor_putGovernor, if_pos rfl]
    have reopens : reopen g u = z := by
      by_cases due : opens
      · have gateIs : gate = .opened := if_neg fun both => absurd both.2 (Nat.not_lt.2 due.2)
        have yIs : setNotice .reopened (putGovernor g { x.refilled with gate := .opened } u) = y := by
          change { s with sg := vset (vset s.sg g x.refilled) g { x.refilled with gate := .opened }
                          nu := { s.nu with flags := s.nu.flags ||| 0x08#8 } } = y
          simp only [y, gateIs, if_pos due, vset_vset_self]
          rfl
        rw [reopen_of_due (by rw [governorU]; exact due.1) (by rw [governorU]; exact due.2), governorU]
        dsimp only [z]
        rw [yIs]
        exact (if_congr (and_iff_right due) rfl rfl).symm
      · have gateIs : gate = x.gate := by
          cases at_ : x.gate with
          | opened => exact if_neg fun both => nomatch both.1.symm.trans at_
          | closed => exact if_pos ⟨at_, Nat.lt_of_not_le fun level => due ⟨at_, level⟩⟩
        rw [reopen_of_not_due (by rw [governorU]; exact due)]
        dsimp only [z]
        rw [if_neg fun all => due all.1]
        simp only [y, gateIs, if_neg due]
        rfl
    have keptZ : Kept y z := by
      dsimp only [z]
      split
      · exact (Kept.refl y).clearLatched
      · exact Kept.refl y
    have sgZ : z.sg = vset s.sg g { x with refill := 2 ^ x.defn.refillExponent, gate, tokens } := by
      dsimp only [z]
      split
      · exact sg_clearLatched _ y
      · rfl
    have governorZ (h : GroupId) : z.governor h =
        if g = h then { x with refill := 2 ^ x.defn.refillExponent, gate, tokens } else s.governor h := by
      rw [State.governor, sgZ, vget_vset]
      rfl
    have release : releaseIfOpen g z = if gate = .opened ∧ x.defn.mode = .hold then releaseStep g z else z := by
      unfold releaseIfOpen
      rw [governorZ, if_pos rfl]
    obtain ⟨fuel, loop, fuelIs⟩ : ∃ fuel, releaseIfOpen g z = releaseLoop g fuel z ∧ released = min fuel (min tokens x.held.length) := by
      by_cases releases : gate = .opened ∧ x.defn.mode = .hold
      · refine ⟨tokens, ?_, ?_⟩
        · rw [release, if_pos releases, releaseStep, governorZ, if_pos rfl]
        · exact (if_pos releases).trans (min_eq_right (min_le_left _ _)).symm
      · exact ⟨0, release.trans (if_neg releases), (if_neg releases).trans (Nat.zero_min _).symm⟩
    have governors (h : GroupId) : (releaseIfOpen g z).governor h =
        if g = h then { x with refill := 2 ^ x.defn.refillExponent, gate, tokens := tokens - released, held := x.held.drop released }
        else s.governor h := by
      rw [loop, governor_releaseLoop, governorZ, if_pos rfl, fuelIs]
      split
      · rfl
      · next other => rw [governorZ, if_neg other]
    have kept : Kept y (releaseIfOpen g z) := loop ▸ keptZ.releaseLoop
    refine ⟨releaseIfOpen g z, done.trans (by rw [refillGovernor, reopens]), release, kept.outside, fun h other => ?_, ?_, fun due => ?_,
      fun once k taken => ?_, fun idle none => ?_⟩
    · rw [governors, if_neg other.symm]
    · rw [governors, if_pos rfl]
    · refine and_eq_of_getLsbD_three (kept.flags 3 ?_)
      dsimp only [y]
      rw [if_pos due]
      simp
    · rw [loop]
      refine state_releaseLoop fuel (by rw [governorZ, if_pos rfl]; exact once) k ?_
      rw [governorZ, if_pos rfl]
      exact (List.take_subset_take_left x.held (by rw [fuelIs]; exact min_le_min_left fuel (min_le_left _ _))) taken
    · have still : releaseIfOpen g z = z := by
        rw [release]
        split
        · next releases =>
          refine releaseStep_of_done ?_
          rw [governorZ, if_pos rfl]
          have out : min tokens x.held.length = 0 := (if_pos releases).symm.trans none
          exact (Nat.min_eq_zero_iff.1 out).symm.imp_left List.eq_nil_of_length_eq_zero
        · rfl
      have zIs : z = y := if_neg fun all => idle all.1
      rw [still, zIs]
      dsimp only [y]
      rw [if_neg idle]
  · obtain ⟨outside, pt, sg, -, -⟩ := clearLatched_storm_frame table g
    exact ⟨outside, pt, sg, stormCleared_clearLatched table g⟩
  · exact fun k rest v head token pending value => ⟨_, released_releaseKey pending value, releaseStep_of_head head token⟩

end Sys2Proof.Machine
end

