-- ==== Sys2Proof/Proofs/Retirement.lean ====
section
/-! PROOF. A retirement, and the clear events that bring it about or absorb a key instead (R14, R15, R17, R76, R81 to R87, R104). -/

namespace Sys2Proof.Machine

section Retire

variable {s x : State} {i : RecordIx} {k w : PointKey} {rest : List PointKey} {v : Pending}

/-- The Retired event of a record. -/
def retiredEvent (i : RecordIx) (k : PointKey) (s : State) : TableEvent :=
  recordEvent .retired (.point k) i (s.record i).severity (some ((s.record i).duration s.tb.hutTime)) s

theorem tally_retiredEvent (i : RecordIx) (k : PointKey) (s : State) :
    (retiredEvent i k s).tally = (s.groupOf k, .retired, some (s.record i).severity, liveDuration (s.record i) s) := by
  rw [← duration_eq_liveDuration]
  rfl

theorem givenUp_eq (i : RecordIx) (k : PointKey) (s : State) :
    givenUp i k s = countEvent (retiredEvent i k s) (advance 1 (putKey k .quiet (putRecord i ((s.record i).endLife .free) (offLists i s)))) :=
  issue_of_silent (.inr (.inl rfl)) _

theorem counted_givenUp (i : RecordIx) (k : PointKey) (s : State) :
    counted [(s.groupOf k, .retired, some (s.record i).severity, liveDuration (s.record i) s)] s (givenUp i k s) := by
  have event := counted_countEvent (retiredEvent i k s)
    (advance 1 (putKey k .quiet (putRecord i ((s.record i).endLife .free) (offLists i s))))
  rw [givenUp_eq, ← tally_retiredEvent]
  exact counted_congr event rfl rfl

theorem shelve_givenUp (i : RecordIx) (k : PointKey) (s : State) (q : PointId) :
    ((givenUp i k s).point q).shelve = (s.point q).shelve := by
  rw [givenUp_eq]
  exact point_putKey_shelve k .quiet (putRecord i ((s.record i).endLife .free) (offLists i s)) q

theorem groupOf_givenUp (i : RecordIx) (k : PointKey) (s : State) (w : PointKey) : (givenUp i k s).groupOf w = s.groupOf w := by
  rw [givenUp_eq]
  exact groupOf_putKey k .quiet (putRecord i ((s.record i).endLife .free) (offLists i s)) w

/-- A record that is handed to the head of the pool wait list (R76): Released before Raised, which is judged. -/
theorem handOver_leaves (i : RecordIx) (rest : List PointKey) (pending : (s.key w).pending = some v) :
    ((handOver i w rest s).nu, (handOver i w rest s).tb) = judged i v.severity (decide (0 < (s.point w.point).shelve)) s ∧
      counted [(s.groupOf w, .released, some v.severity, 0), (s.groupOf w, .raised, some v.severity, 0)] s (handOver i w rest s) := by
  let u := advance 1 { s with rt := { s.rt with poolWait := rest } }
  let e := recordEvent .released (.point w) i v.severity none u
  have hands : handOver i w rest s = allocate i w v (countEvent e u) := by
    unfold handOver
    dsimp only
    rw [pendingOf_of_pending pending, issue_of_silent (.inr (.inr (.inr (.inl rfl))))]
  rw [hands]
  refine ⟨(judged_allocate i w v (countEvent e u)).trans (judged_congr rfl rfl _), ?_⟩
  exact counted_append (counted_congr (s := u) (counted_countEvent e u) rfl rfl) (counted_allocate i w v (countEvent e u))

/-- The retirement of the record of a point key that is not waiting as well (R17, R76). -/
theorem retired_retire (lists : ListLaw s) (pool : isPool i = true) (live : (s.record i).state.live = true)
    (key : (s.record i).key = some (.point k)) (notWaiting : k ∉ s.rt.poolWait) : Retired [] i k s (retire i s) := by
  have once {l : List RecordIx} (nodup : l.Nodup) : (l.erase i).erase i = l.erase i := List.erase_of_not_mem nodup.not_mem_erase
  refine ⟨outside_retire i s, sg_retire i s, (Kept.refl s).retire.points, ?_, fun empty => ?_, fun w rest v waits pending value => ?_⟩
  · cases waits : s.rt.poolWait with
    | nil => rw [key_retire_of_none_waits live key pool waits, if_pos rfl]; rfl
    | cons w rest =>
      rw [waits] at notWaiting
      rw [key_retire_of_waits live key pool waits, if_neg (List.ne_of_not_mem_cons notWaiting).symm, if_pos rfl]
      rfl
  · have gives := retire_of_pool_none_waits live key pool empty
    refine ⟨rt_retire_of_none_waits live key pool empty, fun k' other => ?_, ?_, ?_, ?_⟩
    · rw [key_retire_of_none_waits live key pool empty, if_neg other.symm]
    · rw [gives, givenUp_eq]
      rfl
    · rw [gives, givenUp_eq]
      rfl
    · rw [gives]
      exact counted_congr (counted_givenUp i k s) rfl rfl
  · have gives := retire_of_pool_waits live key pool waits
    have other : k ≠ w := fun same => notWaiting (by rw [waits, same]; exact List.mem_cons_self)
    have pending' : ((givenUp i k s).key w).pending = some v := by rw [key_givenUp, if_neg other, pending]
    obtain ⟨judges, counts⟩ := handOver_leaves i rest pending'
    refine ⟨?_, ?_, fun k' notK notW => ?_, ?_, ?_⟩
    · rw [rt_retire_of_waits live key pool waits, pendingOf_of_pending pending', newRecord_eq_begun value, once lists.standingOnce,
        once lists.acknowledgedOnce, once lists.clearedOnce]
      rfl
    · rw [key_retire_of_waits live key pool waits, if_pos rfl]
    · rw [key_retire_of_waits live key pool waits, if_neg notW.symm, if_neg notK.symm]
    · rw [gives, judges, shelve_givenUp, givenUp_eq]
      exact judged_congr rfl rfl _
    · rw [gives]
      rw [groupOf_givenUp] at counts
      exact counted_append (counted_givenUp i k s) counts

end Retire

section Clears

variable {s x : State} {i : RecordIx} {k : PointKey} {d : Definition} {v : Pending}

/-- The Cleared event of the record of a point key (R14, R15). -/
theorem issueCleared_eq (i : RecordIx) (k : PointKey) (s : State) :
    ∃ e : TableEvent, e.tally = (s.groupOf k, .cleared, some (s.record i).severity, liveDuration (s.record i) s) ∧
      issueCleared i (.point k) s = countEvent e s := by
  refine ⟨_, ?_, issue_of_ending (.inl rfl) s⟩
  rw [← duration_eq_liveDuration]
  rfl

/-- A retirement after an event. -/
theorem Retired.after {e : TableEvent} (h : Retired [] i k (countEvent e s) x) : Retired [e.tally] i k s x := by
  obtain ⟨outside, sg, points, quiet, empty, waits⟩ := h
  have first : counted [e.tally] s (countEvent e s) := counted_countEvent e s
  refine ⟨outside, sg, points, quiet, fun noneWaits => ?_, fun w rest v waiting pending value => ?_⟩
  · obtain ⟨rt, keys, nu, tb, events⟩ := empty noneWaits
    exact ⟨rt, keys, nu, tb, counted_append first events⟩
  · obtain ⟨rt, key, keys, judges, events⟩ := waits w rest v waiting pending value
    exact ⟨rt, key, keys, judges.trans (judged_congr rfl rfl _), counted_append (first := [_]) first events⟩

/-- A record that is retired after its Cleared event. -/
theorem retired_retire_issueCleared (table : TableLaw s) (live : (s.record i).state.live = true)
    (key : (s.record i).key = some (.point k)) (notWaiting : k ∉ s.rt.poolWait) :
    Retired [(s.groupOf k, .cleared, some (s.record i).severity, liveDuration (s.record i) s)] i k s
      (retire i (issueCleared i (.point k) s)) := by
  obtain ⟨e, tally, counts⟩ := issueCleared_eq i k s
  rw [counts, ← tally]
  have table' : TableLaw (countEvent e s) := table.of_rt rfl
  exact (retired_retire table'.lists (isPool_of_point table key) live key notWaiting).after

/-- A Standing record of a point key that is cleared (R15). -/
theorem clearLatched_leaves (standing : (s.record i).state = .standing) (key : (s.record i).key = some (.point k)) :
    (clearLatched i s).nu = s.nu ∧ (clearLatched i s).tb = s.tb ∧
      counted [(s.groupOf k, .cleared, some (s.record i).severity, liveDuration (s.record i) s)] s (clearLatched i s) := by
  let u := advance 1 (putLinkedState .cleared (.point k)
    (toCleared i (putRecord i { s.record i with state := .cleared, clearTime := some s.tb.hutTime } s)))
  obtain ⟨e, tally, counts⟩ := issueCleared_eq i k u
  have record : u.record i = { s.record i with state := .cleared, clearTime := some s.tb.hutTime } :=
    (record_putRecord i i _ s).trans (if_pos rfl)
  have group : u.groupOf k = s.groupOf k := groupOf_putKey k _ (toCleared i (putRecord i _ s)) k
  rw [record, group] at tally
  rw [clearLatched_of_standing standing key, counts]
  exact ⟨rfl, rfl, counted_congr (s := u) (tally ▸ counted_countEvent e u) rfl rfl⟩

/-- What a key leaves that is absorbed from the storm-held list (R84, R87). -/
theorem absorbHeld_leaves (pending : (s.key k).pending = some v) :
    (absorbHeld k s).rt = { s.rt with changeCount := s.rt.changeCount + 1#16 } ∧
      (∀ k', (absorbHeld k s).key k' = if k = k' then .quiet else s.key k') ∧
      (absorbHeld k s).nu = s.nu ∧ (absorbHeld k s).tb = s.tb ∧ counted [(s.groupOf k, .absorbed, some v.severity, 0)] s (absorbHeld k s) := by
  let e := keyEvent .absorbed k (s.pendingOf k).severity none s
  let u := advance 1 (putKey k .quiet (putGovernor (s.groupOf k)
    { s.governor (s.groupOf k) with held := (s.governor (s.groupOf k)).held.erase k } s))
  have absorbs : absorbHeld k s = countEvent e u := issue_of_silent (.inr (.inr (.inr (.inr (.inl rfl))))) u
  have tally : e.tally = (s.groupOf k, .absorbed, some v.severity, 0) := by
    rw [← pendingOf_of_pending pending]
    rfl
  rw [absorbs]
  refine ⟨rfl, fun k' => key_putKey k k' .quiet _, rfl, rfl, ?_⟩
  exact counted_congr (s := u) (tally ▸ counted_countEvent e u) rfl rfl

/-- What a key leaves that is absorbed from the pool wait list (R85, R87). -/
theorem absorbWaiting_leaves (pending : (s.key k).pending = some v) :
    (absorbWaiting k s).rt = { s.rt with poolWait := s.rt.poolWait.erase k, changeCount := s.rt.changeCount + 1#16 } ∧
      (∀ k', (absorbWaiting k s).key k' = if k = k' then .quiet else s.key k') ∧
      (absorbWaiting k s).nu = s.nu ∧ (absorbWaiting k s).tb = s.tb ∧
      counted [(s.groupOf k, .absorbed, some v.severity, 0)] s (absorbWaiting k s) := by
  let e := keyEvent .absorbed k (s.pendingOf k).severity none s
  let u := advance 1 (putKey k .quiet { s with rt := { s.rt with poolWait := s.rt.poolWait.erase k } })
  have absorbs : absorbWaiting k s = countEvent e u := issue_of_silent (.inr (.inr (.inr (.inr (.inl rfl))))) u
  have tally : e.tally = (s.groupOf k, .absorbed, some v.severity, 0) := by
    rw [← pendingOf_of_pending pending]
    rfl
  rw [absorbs]
  refine ⟨rfl, fun k' => key_putKey k k' .quiet _, rfl, rfl, ?_⟩
  exact counted_congr (s := u) (tally ▸ counted_countEvent e u) rfl rfl

end Clears

/-- Settles O53: each state of a key has its clear, and none of them moves the Fault key of the same point. -/
theorem clearEventActsByTheKey : Obligations.ClearEventActsByTheKey := by
  unfold Obligations.ClearEventActsByTheKey
  intro k d s defn
  have group : s.groupOf k = d.group := by rw [State.groupOf, defn]
  have notFault (stale : k.kind = .stale) : faultKey k.point ≠ k := fun same => nomatch (congrArg PointKey.kind same).trans stale
  refine ⟨fun idle => ?_, fun i raised latched link key standing => ?_, fun v held pending => ?_, fun v waiting pending => ?_⟩
  · have clears := clearsTo k d s
    have still : clearEvent k d s = s := by rcases idle with state | state <;> simp only [clearEvent, state]
    rw [still] at clears
    exact clears fun _ quiet _ => quiet
  · have clears := clearsTo k d s
    have acts : clearEvent k d s = clearLatched i s := by simp only [clearEvent, raised, link, latched]
    rw [acts] at clears
    have keys := key_clearLatched_of_standing standing key
    obtain ⟨nu, tb, counts⟩ := clearLatched_leaves standing key
    rw [group] at counts
    refine ⟨_, clears fun stale quiet _ => ?_, keepsBut_of_kept (Kept.refl s).clearLatched fun k' other => ?_, sg_clearLatched i s, nu, tb, ?_,
      rt_clearLatched_of_standing standing key, counts⟩
    · rw [keys, if_neg fun same => notFault stale (Key.point.inj same).symm, quiet]
    · rw [keys, if_neg fun same => List.ne_of_not_mem_cons other (Key.point.inj same).symm]
    · rw [keys, if_pos rfl]
  · have clears := clearsTo k d s
    have acts : clearEvent k d s = absorbHeld k s := by simp only [clearEvent, held]
    rw [acts] at clears
    obtain ⟨rt, keys, nu, tb, counts⟩ := absorbHeld_leaves pending
    have sg := sg_absorbHeld k s
    rw [group] at counts sg
    refine ⟨_, clears fun stale quiet _ => ?_, keepsBut_of_kept (Kept.refl s).absorbHeld fun k' other => ?_, nu, tb, ?_, sg, rt, counts⟩
    · rw [keys, if_neg (notFault stale).symm, quiet]
    · rw [keys, if_neg (List.ne_of_not_mem_cons other).symm]
    · rw [keys, if_pos rfl]
      rfl
  · have clears := clearsTo k d s
    have acts : clearEvent k d s = absorbWaiting k s := by simp only [clearEvent, waiting]
    rw [acts] at clears
    obtain ⟨rt, keys, nu, tb, counts⟩ := absorbWaiting_leaves pending
    rw [group] at counts
    refine ⟨_, clears fun stale quiet _ => ?_, keepsBut_of_kept (Kept.refl s).absorbWaiting fun k' other => ?_, sg_absorbWaiting k s, nu, tb, ?_,
      rt, counts⟩
    · rw [keys, if_neg (notFault stale).symm, quiet]
    · rw [keys, if_neg (List.ne_of_not_mem_cons other).symm]
    · rw [keys, if_pos rfl]
      rfl

section Ends

variable {s : State} {i : RecordIx} {k : PointKey} {d : Definition}

theorem clearSelfRetiring_eq {key : Key} (live : (s.record i).state = .standing ∨ (s.record i).state = .acknowledged)
    (found : (s.record i).key = some key) : clearSelfRetiring i s = retire i (issueCleared i key s) := by
  rcases live with state | state <;> simp only [clearSelfRetiring, state, found]

/-- A retirement leaves every key that is neither the record's nor waits. -/
theorem key_retire_other (table : TableLaw s) (live : (s.record i).state.live = true) (key : (s.record i).key = some (.point k))
    {k' : PointKey} (other : k' ≠ k) (notWaiting : k' ∉ s.rt.poolWait) : (retire i s).key k' = s.key k' := by
  have pool := isPool_of_point table key
  cases waits : s.rt.poolWait with
  | nil => rw [key_retire_of_none_waits live key pool waits, if_neg other.symm]
  | cons w rest =>
    rw [waits] at notWaiting
    rw [key_retire_of_waits live key pool waits, if_neg (List.ne_of_not_mem_cons notWaiting).symm, if_neg other.symm]

/-- The state of a key that is absorbed from the folded set, before its storm record hears of it (R86). -/
theorem absorbFolded_eq {g : GroupId} (group : s.groupOf k = g) (d : Definition) :
    ∃ e : TableEvent, e.tally = (g, .absorbed, some (d.severity k.kind), 0) ∧
      absorbFolded k d s = stormClearIfDue g (countEvent e (putKey k .quiet
        (putGovernor g { s.governor g with folded := (s.governor g).folded.erase k } s))) := by
  subst group
  refine ⟨keyEvent .absorbed k (d.severity k.kind) none s, rfl, ?_⟩
  exact congrArg (stormClearIfDue (s.groupOf k)) (issue_of_silent (.inr (.inr (.inr (.inr (.inl rfl))))) _)

end Ends

/-- Settles O54: the record is retired after its Cleared event; the storm record of an absorbed key is asked to clear when it is due. -/
theorem clearEventRetiresOrAbsorbs : Obligations.ClearEventRetiresOrAbsorbs := by
  unfold Obligations.ClearEventRetiresOrAbsorbs
  intro k d s defn table
  have group : s.groupOf k = d.group := by rw [State.groupOf, defn]
  have notFault (stale : k.kind = .stale) : faultKey k.point ≠ k := fun same => nomatch (congrArg PointKey.kind same).trans stale
  refine ⟨fun i raised link key notWaiting policy => ?_, ?_⟩
  · have clears := clearsTo k d s
    have acts : clearEvent k d s = retire i (issueCleared i (.point k) s) := by
      simp only [clearEvent, raised, link]
      split
      · exact clearSelfRetiring_eq (policy.imp_left And.right) key
      · next latched =>
        exact clearLatched_of_acknowledged (policy.resolve_left fun self => nomatch self.1.symm.trans latched) key
    have live : (s.record i).state.live = true := by
      rcases policy with ⟨-, state⟩ | state <;> rw [state] <;> rfl
    have retires := retired_retire_issueCleared table live key notWaiting
    rw [acts] at clears
    rw [group] at retires
    refine ⟨_, clears fun stale quiet waitsNot => ?_, retires⟩
    rw [key_retire_other (table.of_rt (rt_issueCleared i _ s)) (by rw [record_issueCleared]; exact live) (by rw [record_issueCleared]; exact key)
      (notFault stale) (by rw [rt_issueCleared]; exact waitsNot), key_issueCleared, quiet]
  · intro folded y tally
    have clears := clearsTo k d s
    have acts : clearEvent k d s = absorbFolded k d s := by simp only [clearEvent, folded]
    obtain ⟨e, tallies, absorbs⟩ := absorbFolded_eq group d
    have kept : Kept s (absorbFolded k d s) := (Kept.refl s).absorbFolded
    have sg := sg_absorbFolded k d s
    rw [group] at sg
    rw [acts, absorbs] at clears
    rw [absorbs] at kept sg
    let u := putKey k .quiet (putGovernor d.group { y with folded := y.folded.erase k } s)
    let z := countEvent e u
    have table' : TableLaw z := table.of_rt rfl
    have keys (k' : PointKey) : (stormClearIfDue d.group z).key k' = if k = k' then .quiet else s.key k' :=
      (key_stormClearIfDue table' d.group k').trans (key_putKey k k' .quiet _)
    have governor : z.governor d.group = { y with folded := y.folded.erase k } :=
      (governor_putGovernor d.group d.group _ s).trans (if_pos rfl)
    have event : counted [e.tally] u z := counted_countEvent e u
    have first : counted tally s z := by
      rw [tallies] at event
      exact counted_congr event rfl rfl
    refine ⟨_, clears fun stale quiet _ => ?_, keepsBut_of_kept kept fun k' other => ?_, ?_, sg, fun notDue => ?_, fun opened none => ?_⟩
    · rw [keys, if_neg (notFault stale).symm, quiet]
    · rw [keys, if_neg (List.ne_of_not_mem_cons other).symm]
    · rw [keys, if_pos rfl]
      rfl
    · have still : stormClearIfDue d.group z = z := by
        unfold stormClearIfDue
        dsimp only
        rw [governor]
        exact if_neg fun due => notDue.elim (fun closed => nomatch closed.symm.trans (show y.gate = .opened from due.1)) (absurd due.2)
      rw [still]
      exact ⟨rfl, rfl, rfl, first⟩
    · have asked : stormClearIfDue d.group z = clearLatched (stormIx d.group) z := by
        unfold stormClearIfDue
        dsimp only
        rw [governor]
        exact if_pos ⟨opened, none⟩
      rw [asked]
      exact StormCleared.after (u := z) rfl rfl rfl first (stormCleared_clearLatched table' d.group)

end Sys2Proof.Machine
end

