-- ==== Sys2Proof/Proofs/Offers.lean ====
section
/-! PROOF. A reading that fills its bucket: the condition that it begins, and the peak that it offers (R11, R16, R59, R61). -/

namespace Sys2Proof.Machine

section Offers

variable {s : State} {i : RecordIx} {k : PointKey} {d : Definition} {v : Half}

/-- A value that is offered to the live record of a key. -/
theorem offered_of_linked (state : (s.key k).state = .raised ∨ (s.key k).state = .cleared) (link : (s.key k).link = some i)
    (live : (s.record i).state.live = true) (key : (s.record i).key = some (.point k)) :
    offered k v s = withPeak i ((s.record i).peak.map fun w => extreme (.point k) w v) s := by
  have after : peakAfter (s.record i) v = { s.record i with peak := (s.record i).peak.map fun w => extreme (.point k) w v } := by
    simp only [peakAfter, live, key]
  simp only [offered, if_pos state, link, after, withPeak]

theorem offered_of_unlinked (raised : (s.key k).state ≠ .raised) (cleared : (s.key k).state ≠ .cleared) : offered k v s = s :=
  if_neg fun either => either.elim raised cleared

theorem point_offered (k : PointKey) (v : Half) (s : State) (q : PointId) : (offered k v s).point q = s.point q := by
  unfold offered
  split
  · cases (s.key k).link <;> rfl
  · rfl

theorem outside_offered (k : PointKey) (v : Half) (s : State) : (offered k v s).outside = s.outside := by
  unfold offered
  split
  · cases (s.key k).link <;> rfl
  · rfl

theorem beginCondition_of_cleared (cleared : (s.key k).state = .cleared) (link : (s.key k).link = some i) (v : Option Half) :
    beginCondition k d v s = reRaise i s := by simp only [beginCondition, cleared, link]

theorem beginCondition_of_placed (quiet : (s.key k).state ≠ .quiet) (cleared : (s.key k).state ≠ .cleared) (v : Option Half) :
    beginCondition k d v s = s := by
  cases state : (s.key k).state with
  | quiet => exact absurd state quiet
  | cleared => exact absurd state cleared
  | raised => simp only [beginCondition, state]
  | held => simp only [beginCondition, state]
  | waiting => simp only [beginCondition, state]
  | folded => simp only [beginCondition, state]

theorem bucketOf_offered (k' : PointKey) (v : Half) (s : State) : bucketOf k (offered k' v s) = bucketOf k s := by
  simp only [bucketOf, point_offered]

theorem bucketOf_of_kept {t : State} (kept : Kept s t) (k : PointKey) : bucketOf k t = bucketOf k s := by
  obtain ⟨-, low, high, -⟩ := kept.points k.point
  cases kind : k.kind with
  | low => simp only [bucketOf, kind, low]
  | high => simp only [bucketOf, kind, high]
  | stale => simp only [bucketOf, kind]
  | fault => simp only [bucketOf, kind]

theorem extreme_self (k : Key) (v : Half) : extreme k v v = v := by rw [extreme_eq, ite_self]

/-- The peak with which a record has just begun is no less extreme than the same value. -/
theorem offered_of_begun {t : State} {sev : Severity} (state : (t.key k).state = .raised) (link : (t.key k).link = some i)
    (record : t.record i = begun (.point k) sev (some v) s) : offered k v t = t := by
  have same : (t.record i).peak.map (fun w => extreme (.point k) w v) = (t.record i).peak := by
    rw [record]
    exact congrArg some (extreme_self (.point k) v)
  rw [offered_of_linked (.inl state) link (by rw [record]; rfl) (by rw [record]; rfl), same]
  exact putRecord_self i t

end Offers

/-- Settles O55: the condition begins with the bucket full, and the reading is offered to the record that the key then has. -/
theorem fullBucketRaisesTheCondition : Obligations.FullBucketRaisesTheCondition := by
  unfold Obligations.FullBucketRaisesTheCondition
  intro k d r s0 unmarked alone full s
  have ⟨_, _, reach, _⟩ := full
  have value : k.kind.hasValue = true := hasValue_of_reaches reach
  have level : s = setLevel k d.capacity (atReading k.point d r s0) := withBucket_eq_setLevel value _ _
  let t := beginCondition k d (some r.value) s
  have kept : Kept s t := (Kept.refl s).beginCondition
  have defn : (s.point k.point).defn = some d := by
    rw [level, defn_setLevel, defn_atReading]
    exact alone.defined
  refine ⟨fun t begins => begins.2.2.2 r s0 rfl unmarked alone full rfl, offered k r.value t, exec_reading_of_fills alone unmarked full, ?_, ?_,
    fun i rest quiet bypass free => ?_, fun i cleared link state key => ?_, fun i raised link live key => ?_, fun placed => ?_⟩
  · rw [outside_offered, kept.outside]
  · rw [bucketOf_offered, bucketOf_of_kept kept, bucketOf_eq value, level, bucket_setLevel, if_pos ⟨rfl, value⟩]
  · have attempt : Attempt k d (some r.value) s := ⟨defn, quiet, value.symm⟩
    have begins : t = allocateOrWait k (d.carried k (some r.value)) s :=
      attempt.begins.trans (if_pos ((bypasses_iff attempt).2 bypass))
    have group : s.groupOf k = d.group := attempt.group
    obtain ⟨rt, key, judges, counts⟩ := (takesOrWaits_allocateOrWait (v := d.carried k (some r.value)) attempt.carries s).1 i rest free
    rw [group] at counts
    have still : offered k r.value t = t := by
      rw [begins]
      refine offered_of_begun (s := s) (sev := d.severity k.kind) (by rw [key]) (by rw [key]) ?_
      rw [State.record, rt]
      exact (vget_vset _ _ _ _).trans (if_pos rfl)
    rw [still, begins]
    exact ⟨keepsBut_allocateOrWait k _ s, sg_allocateOrWait _ _ s, rt, key, judges, counts⟩
  · have begins : t = reRaise i s := beginCondition_of_cleared cleared link _
    refine ⟨t, begins ▸ reRaised_reRaise state key, ?_⟩
    have keys : t.key k = { s.key k with state := .raised } := by
      rw [begins, key_reRaise_of_cleared state key, if_pos rfl]
    have record : t.record i = (s.record i).reRaised := by
      rw [begins, State.record, rt_reRaise_of_cleared state key, vget_vset, if_pos rfl]
    rw [offered_of_linked (i := i) (by rw [keys]; exact .inl rfl) (by rw [keys]; exact link) (by rw [record]; rfl) (by rw [record]; exact key), record]
    rfl
  · have begins : t = s := beginCondition_of_placed (by rw [raised]; nofun) (by rw [raised]; nofun) _
    rw [begins, offered_of_linked (.inl raised) link live key]
  · have begins : t = s := by
      refine beginCondition_of_placed ?_ ?_ _ <;> rcases placed with e | e | e <;> rw [e] <;> nofun
    rw [begins]
    refine offered_of_unlinked ?_ ?_ <;> rcases placed with e | e | e <;> rw [e] <;> nofun

end Sys2Proof.Machine
end

