-- ==== Sys2Proof/Proofs/UnshelveOffers.lean ====
section
/-! PROOF. A point that leaves shelving: what its offers do, one after the other (R119 to R121). -/

namespace Sys2Proof.Machine

section Offers

variable {s : State} {i : RecordIx} {l : List RecordIx}

/-- An offer of a Standing record as not shelved (R121). -/
def offer (s : State) (i : RecordIx) : State := judgeWake i (s.record i).severity false (raisedNotice (s.record i).severity false s)

/-- The notice flags after the offers of a list of records. -/
def flagsAfter (l : List RecordIx) (s : State) : Byte :=
  if l.any fun i => decide (s.nu.level.level ≤ (s.record i).severity.level) then s.nu.flags ||| 0x02#8 else s.nu.flags

/-- What the offers of a list of records do: `afterOffers`, of a list that need not be that of a point. -/
def offersOf (l : List RecordIx) (s : State) : State :=
  match s.tb.mode, l.find? (fun i => meetsBar s.tb.wakeLevel (s.record i).severity) with
  | .settling, some i =>
    { inWatch s with
      nu := { s.nu with flags := flagsAfter l s ||| 0x80#8 }
      tb := { s.tb with mode := .watch, settle := none, wakeRecord := some { cause := .raise i, time := s.tb.hutTime } } }
  | .dormant, some i =>
    { s with
      nu := { s.nu with flags := flagsAfter l s ||| 0x80#8 }
      tb := { s.tb with mode := .waking, wakeRecord := some { cause := .raise i, time := s.tb.hutTime } } }
  | _, _ => { s with nu := { s.nu with flags := flagsAfter l s } }

theorem afterOffers_eq (p : PointId) (s : State) : afterOffers p s = offersOf (standingOf p s) s := rfl

theorem unshelveOffers_eq (p : PointId) (s : State) : unshelveOffers p s = (standingOf p s).foldl offer s := rfl

theorem raisedNotice_eq (i : RecordIx) (s : State) :
    raisedNotice (s.record i).severity false s = { s with nu := { s.nu with flags := flagsAfter [i] s } } := by
  unfold raisedNotice flagsAfter
  by_cases meets : s.nu.level.level ≤ (s.record i).severity.level
  · simp [Severity.meets, meets]
    rfl
  · simp [Severity.meets, meets]

theorem judgeWake_eq (i : RecordIx) (sev : Severity) (s : State) :
    judgeWake i sev false s = if meetsBar s.tb.wakeLevel sev = true then wakeCause (.raise i) s else s := by
  simp [judgeWake, meetsBar_eq]

/-- The flags of a list are those of its tail after the flags of its head, whatever else has been set meanwhile. -/
theorem flagsAfter_cons (i : RecordIx) (l : List RecordIx) (more : Byte) (s t : State) (flags : t.nu.flags = flagsAfter [i] s ||| more)
    (level : t.nu.level = s.nu.level) (rt : t.rt = s.rt) : flagsAfter l t = flagsAfter (i :: l) s ||| more := by
  have record (j : RecordIx) : t.record j = s.record j := by rw [State.record, rt]; rfl
  have again (a b : Byte) : a ||| b ||| more ||| b = a ||| b ||| more := by
    rw [BitVec.or_assoc, BitVec.or_comm more b, ← BitVec.or_assoc, BitVec.or_assoc a b b, BitVec.or_self]
  have swap (a b : Byte) : a ||| more ||| b = a ||| b ||| more := by rw [BitVec.or_assoc, BitVec.or_comm more b, ← BitVec.or_assoc]
  have single : flagsAfter [i] s = if s.nu.level.level ≤ (s.record i).severity.level then s.nu.flags ||| 0x02#8 else s.nu.flags := by
    simp [flagsAfter]
  unfold flagsAfter
  rw [List.any_cons, flags, level, single]
  simp only [record]
  by_cases head : s.nu.level.level ≤ (s.record i).severity.level
  · simp only [head, decide_true, Bool.true_or, if_true, again, ite_self]
  · simp only [head, decide_false, Bool.false_or, if_false, swap]
    split <;> rfl

theorem offersOf_of_awake (awake : s.tb.mode = .watch ∨ s.tb.mode = .waking) (l : List RecordIx) :
    offersOf l s = { s with nu := { s.nu with flags := flagsAfter l s } } := by
  rcases awake with mode | mode <;> simp only [offersOf, mode]

theorem offersOf_of_none (none : l.find? (fun i => meetsBar s.tb.wakeLevel (s.record i).severity) = none) :
    offersOf l s = { s with nu := { s.nu with flags := flagsAfter l s } } := by
  unfold offersOf
  rw [none]
  cases s.tb.mode <;> rfl

theorem offer_of_bar (bar : meetsBar s.tb.wakeLevel (s.record i).severity = false) :
    offer s i = { s with nu := { s.nu with flags := flagsAfter [i] s } } := by
  rw [offer, raisedNotice_eq, judgeWake_eq]
  exact if_neg (by rw [bar]; exact Bool.false_ne_true)

theorem offer_of_met (met : meetsBar s.tb.wakeLevel (s.record i).severity = true) :
    offer s i = wakeCause (.raise i) { s with nu := { s.nu with flags := flagsAfter [i] s } } := by
  rw [offer, raisedNotice_eq, judgeWake_eq]
  exact if_pos met

/-- The offers of a list are the offer of its head and then those of its tail. -/
theorem offersOf_cons (i : RecordIx) (l : List RecordIx) (s : State) : offersOf (i :: l) s = offersOf l (offer s i) := by
  let u : State := { s with nu := { s.nu with flags := flagsAfter [i] s } }
  have flagsU : flagsAfter l u = flagsAfter (i :: l) s := by
    simpa using flagsAfter_cons i l 0#8 s u (by simp [u]) rfl rfl
  cases met : meetsBar s.tb.wakeLevel (s.record i).severity with
  | false =>
    rw [offer_of_bar met]
    unfold offersOf
    rw [List.find?_cons_of_neg (by rw [met]; exact Bool.false_ne_true), ← flagsU]
    rfl
  | true =>
    rw [offer_of_met met]
    have found : (i :: l).find? (fun i => meetsBar s.tb.wakeLevel (s.record i).severity) = some i := List.find?_cons_of_pos met
    have rest (t : State) (awake : t.tb.mode = .watch ∨ t.tb.mode = .waking) (set : t.nu.flags = flagsAfter [i] s ||| 0x80#8)
        (level : t.nu.level = s.nu.level) (rt : t.rt = s.rt) :
        offersOf l t = { t with nu := { t.nu with flags := flagsAfter (i :: l) s ||| 0x80#8 } } := by
      rw [offersOf_of_awake awake, flagsAfter_cons i l 0x80#8 s t set level rt]
    cases mode : s.tb.mode with
    | settling =>
      rw [wakeCause_of_settling (s := u) mode, rest]
      · simp only [offersOf, mode, found]
        rfl
      · exact .inl rfl
      · rfl
      · rfl
      · rfl
    | dormant =>
      rw [wakeCause_of_dormant (s := u) mode, rest]
      · simp only [offersOf, mode, found]
        rfl
      · exact .inr rfl
      · rfl
      · rfl
      · rfl
    | watch =>
      rw [wakeCause_of_awake (s := u) (.inl mode), offersOf_of_awake (s := u) (.inl mode), offersOf_of_awake (.inl mode), flagsU]
    | waking =>
      rw [wakeCause_of_awake (s := u) (.inr mode), offersOf_of_awake (s := u) (.inr mode), offersOf_of_awake (.inr mode), flagsU]

theorem foldl_offer (l : List RecordIx) (s : State) : l.foldl offer s = offersOf l s := by
  induction l generalizing s with
  | nil => exact (offersOf_of_none (l := []) (s := s) rfl).symm
  | cons i l ih => rw [List.foldl_cons, ih, offersOf_cons]

theorem unshelveOffers_eq_afterOffers (p : PointId) (s : State) : unshelveOffers p s = afterOffers p s := by
  rw [unshelveOffers_eq, foldl_offer, afterOffers_eq]

end Offers

section Unshelve

variable {b : Byte} {p : PointId} {s : State}

theorem serveUnshelvePoint_of_badField (bad : 63 < b.toNat) (s : State) : serveUnshelvePoint b s = refusing .badField s := by
  simp only [serveUnshelvePoint, pointNumber_eq_none bad]
  rfl

theorem serveUnshelvePoint_of_vacant (point : p.val = b.toNat) (vacant : (s.point p).defn = none) :
    serveUnshelvePoint b s = refusing .pointVacant s := by
  simp only [serveUnshelvePoint, pointNumber_eq_some_iff.2 point, if_neg fun h => inService_iff.1 h vacant]
  rfl

theorem serveUnshelvePoint_of_visible (point : p.val = b.toNat) (inService : (s.point p).defn ≠ none) (visible : (s.point p).shelve = 0) :
    serveUnshelvePoint b s = refusing .done s := by
  have not : ¬ s.shelved p = true := by simp [State.shelved, visible]
  simp only [serveUnshelvePoint, pointNumber_eq_some_iff.2 point, if_pos (inService_iff.2 inService), if_neg not]
  rfl

theorem serveUnshelvePoint_of_shelved (point : p.val = b.toNat) (inService : (s.point p).defn ≠ none) (shelved : 0 < (s.point p).shelve) :
    serveUnshelvePoint b s =
      (afterOffers p { s with pt := vset s.pt p { s.point p with shelve := 0 } }, { status := .done, body := [] }) := by
  have hidden : s.shelved p = true := by simp [State.shelved, shelved]
  simp only [serveUnshelvePoint, pointNumber_eq_some_iff.2 point, if_pos (inService_iff.2 inService), if_pos hidden, unshelve,
    unshelveOffers_eq_afterOffers]
  rfl

end Unshelve

/-- Settles O22: the owner judges the number and the point; the offers of a list are made one after the other. -/
theorem leavingShelvingMakesItsOffers : Obligations.LeavingShelvingMakesItsOffers := by
  unfold Obligations.LeavingShelvingMakesItsOffers
  refine ⟨fun o b s hs => ?_, fun p s outOfHold shelved => ?_⟩
  · intro ends
    have row {f : State → State × Reply}
        (h : serveUnshelvePoint b (atService o (.unshelvePoint b) s) = f (atService o (.unshelvePoint b) s)) : ends f :=
      exec_of_serveOwner rfl rfl Request.noConfusion hs h
    refine ⟨fun bad => row (serveUnshelvePoint_of_badField bad _), fun p point => ?_⟩
    have core := core_atService o (.unshelvePoint b) s
    have shelve : ((atService o (.unshelvePoint b) s).point p).shelve = (s.point p).shelve := congrFun (congrArg Core.shelves core) p
    rw [← defn_of_core core p, ← shelve]
    exact ⟨fun vacant => row (serveUnshelvePoint_of_vacant point vacant),
      fun inService visible => row (serveUnshelvePoint_of_visible point inService visible),
      fun inService shelved => row (serveUnshelvePoint_of_shelved point inService shelved)⟩
  · have runs : (!s.inHold && s.shelved p) = true := by simp [outOfHold, State.shelved, shelved]
    refine (congrArg Host.Outcome.next (if_pos runs)).trans ?_
    rw [shelveExpire, unshelveOffers_eq_afterOffers]
    rfl

end Sys2Proof.Machine
end

