-- ==== Sys2Proof/Proofs/AcknowledgeCleared.lean ====
section
/-! PROOF. An acknowledgement of a Cleared record: the acknowledgement ends with the life of the record (R13, R17, R76). -/

namespace Sys2Proof.Machine

section Cleared

variable {s x : State} {i : RecordIx} {k : PointKey} {g : GroupId} {who : AckBy} {tag : Half}

/-- The acknowledgement of a Cleared record: the record is acknowledged, the event is counted, and the record is retired. -/
theorem acknowledgeRecord_eq {key : Key} (cleared : (s.record i).state = .cleared) (found : (s.record i).key = some key) (who : AckBy)
    (tag : Half) :
    ∃ e : TableEvent, e.tally = (s.keyGroup key, .acknowledged, some (s.record i).severity, 0) ∧
      acknowledgeRecord i who tag s = retire i (countEvent e (putRecord i ((s.record i).acked who tag s.tb.hutTime) s)) := by
  let u := putRecord i ((s.record i).acked who tag s.tb.hutTime) s
  have group : u.keyGroup key = s.keyGroup key := by cases key <;> rfl
  refine ⟨recordEvent .acknowledged key i (s.record i).severity none u, congrArg (·, _) group, ?_⟩
  rw [acknowledgeRecord_of_cleared cleared found]
  exact congrArg (retire i) (issue_of_silent (.inr (.inr (.inl rfl))) u)

/-- A storm record that is retired (R17). -/
theorem retire_storm_leaves (live : (s.record i).state.live = true) (key : (s.record i).key = some (.storm g)) (storm : isPool i = false) :
    (retire i s).nu = s.nu ∧ (retire i s).tb = s.tb ∧
      counted [(g, .retired, some (s.record i).severity, liveDuration (s.record i) s)] s (retire i s) := by
  let u := advance 1 (quietKey (.storm g) (putRecord i ((s.record i).endLife .idle) (offLists i s)))
  let e := recordEvent .retired (.storm g) i (s.record i).severity (some ((s.record i).duration s.tb.hutTime)) s
  have retires : retire i s = countEvent e u := by
    rw [retire_of_live i s _ live key]
    simp only [storm, Bool.false_eq_true, if_false]
    exact issue_of_silent (.inr (.inl rfl)) u
  have tally : e.tally = (g, .retired, some (s.record i).severity, liveDuration (s.record i) s) := by
    rw [← duration_eq_liveDuration]
    rfl
  have event : counted [e.tally] u (countEvent e u) := counted_countEvent e u
  rw [retires, ← tally]
  exact ⟨rfl, rfl, counted_congr event rfl rfl⟩

end Cleared

/-- Settles O33: the retirement of the record, of which its acknowledgement is no part. -/
theorem acknowledgeOfAClearedRecordRetiresIt : Obligations.AcknowledgeOfAClearedRecordRetiresIt := by
  unfold Obligations.AcknowledgeOfAClearedRecordRetiresIt
  intro o target tag s hs inv r t i index cleared
  have core : t.core = s.core := core_atService o r s
  have rt : t.rt = s.rt := rt_of_core core
  have record : t.record i = s.record i := record_of_core core i
  have conditions : Conditions .none s := conditions_of_laws inv.table inv.keys inv.waits inv.diverted inv.storms
  have table : TableLaw t := inv.table.of_rt rt
  have clearedT : (t.record i).state = .cleared := by rw [record, cleared]
  have keys (k : PointKey) : t.key k = s.key k := key_of_core core k
  have groups (k : PointKey) : t.groupOf k = s.groupOf k := groupOf_of_core core k
  have shelves (k : PointKey) : (t.point k.point).shelve = (s.point k.point).shelve := congrFun (congrArg Core.shelves core) k.point
  have run := exec_acknowledge hs ((serveAcknowledge_of_index rfl index tag (byWhom o) t).trans (acknowledgeIndex_of_cleared _ tag clearedT))
  have kept : Kept t (acknowledgeRecord i (byWhom o) tag t) := (Kept.refl t).acknowledgeRecord
  have left {l : List RecordIx} {state : RecordState} (holds : ∀ j, j ∈ l ↔ (t.record j).state = state) (other : state ≠ .cleared) :
      l.erase i = l := List.erase_of_not_mem fun m => other (((holds i).1 m).symm.trans clearedT)
  have standing := left table.lists.standing nofun
  have acknowledged := left table.lists.acknowledged nofun
  let acked := (t.record i).acked (byWhom o) tag t.tb.hutTime
  let u := putRecord i acked t
  have recordU : u.record i = acked := (record_putRecord i i acked t).trans (if_pos rfl)
  refine ⟨acknowledgeRecord i (byWhom o) tag t, run, kept.outside, sg_acknowledgeRecord _ _ _ _, kept.points, fun g storm => ?_, fun k point => ?_⟩
  · rw [← record] at storm
    obtain ⟨e, tally, eq⟩ := acknowledgeRecord_eq clearedT storm (byWhom o) tag
    let z := countEvent e u
    have recordZ : z.record i = acked := recordU
    have notPool : isPool i = false := by rw [eq_stormIx_of_storm table storm, stormIx_not_pool]
    have live : (z.record i).state.live = true := by rw [recordZ]; exact congrArg RecordState.live clearedT
    have keyZ : (z.record i).key = some (.storm g) := by rw [recordZ]; exact storm
    obtain ⟨nu, tb, counts⟩ := retire_storm_leaves live keyZ notPool
    have first : counted [e.tally] u z := counted_countEvent e u
    rw [tally, record] at first
    rw [recordZ, show liveDuration acked z = liveDuration (s.record i) t by rw [← record]; rfl,
      show acked.severity = (s.record i).severity by rw [← record]; rfl] at counts
    rw [eq]
    refine ⟨?_, fun k => (key_retire_of_storm live keyZ notPool k).trans (keys k), nu, tb, counted_congr (counted_append first counts) rfl rfl⟩
    rw [rt_retire_of_storm live keyZ notPool, recordZ, show z.rt = { t.rt with records := vset t.rt.records i acked } from rfl]
    simp only [vset_vset_self, standing, acknowledged]
    rfl
  · rw [← record] at point
    obtain ⟨e, tally, eq⟩ := acknowledgeRecord_eq clearedT point (byWhom o) tag
    let z := countEvent e u
    have recordZ : z.record i = acked := recordU
    have pool := isPool_of_point table point
    have tableE : TableLaw (countEvent e t) := table.of_rt rfl
    have lists : ListLaw z := tableE.lists.putRecord (i := i) (r := acked) rfl
    have live : (z.record i).state.live = true := by rw [recordZ]; exact congrArg RecordState.live clearedT
    have keyZ : (z.record i).key = some (.point k) := by rw [recordZ]; exact point
    have holds : (s.record i).holds k := by rw [Record.holds, ← record]; exact point
    have stateK : (s.key k).state = .cleared := ((conditions.keys k).linked i ((conditions.linked_iff k i).1 holds)).2.1.2 cleared
    have notWaiting : k ∉ s.rt.poolWait := fun waits => by
      have waiting := (conditions.keys k).waiting.1 waits
      cases stateK.symm.trans waiting
    obtain ⟨-, -, -, quiet, empty, waits⟩ := retired_retire lists pool live keyZ (show k ∉ t.rt.poolWait by rw [rt]; exact notWaiting)
    have first : counted [e.tally] u z := counted_countEvent e u
    rw [tally, record, show t.keyGroup (.point k) = s.groupOf k from groups k] at first
    have retired : ((z.groupOf k, EventKind.retired, some (z.record i).severity, liveDuration (z.record i) z) : Tally) =
        (s.groupOf k, .retired, some (s.record i).severity, liveDuration (s.record i) t) := by
      rw [recordZ, ← record, ← groups k]
      rfl
    rw [retired] at empty waits
    rw [eq]
    refine ⟨quiet, fun none => ?_, fun w rest v waiting pending => ?_⟩
    · obtain ⟨after, others, nu, tb, events⟩ := empty ((congrArg RecordTable.poolWait rt).trans none)
      refine ⟨?_, fun k' other => (others k' other).trans (keys k'), nu, tb, ?_⟩
      · rw [after, recordZ, show z.rt = { t.rt with records := vset t.rt.records i acked } from rfl]
        simp only [vset_vset_self, standing, acknowledged]
        rfl
      · exact counted_congr (counted_append first events) rfl rfl
    · have value : v.value.isSome = w.kind.hasValue := by
        have state : (s.key w).state = .waiting := (conditions.keys w).waiting.1 (by rw [waiting]; exact List.mem_cons_self)
        rw [← pendingOf_of_pending pending]
        exact ((conditions.keys w).carries (.inr state)).value
      obtain ⟨after, raised, others, judges, events⟩ := waits w rest v ((congrArg RecordTable.poolWait rt).trans waiting)
        ((congrArg KeyEntry.pending (keys w)).trans pending) value
      refine ⟨?_, raised, fun k' notK notW => (others k' notK notW).trans (keys k'), ?_, ?_⟩
      · rw [after, show z.rt = { t.rt with records := vset t.rt.records i acked } from rfl]
        simp only [vset_vset_self, toTail, standing, acknowledged]
        rfl
      · rw [judges, ← shelves w]
        exact judged_congr rfl rfl _
      · rw [← groups w]
        exact counted_congr (counted_append (first := [_]) first events) rfl rfl

end Sys2Proof.Machine
end

