-- ==== Sys2Proof/Proofs/TickFolds.lean ====
section
/-! PROOF. What each owner of countdowns leaves at a second tick, point by point and group by group (R64, R66, R102, R120, R176). -/

namespace Sys2Proof.Machine

section Folds

variable {α : Type} {f lower : State → α → State} {P : State → Prop} {s t : State}

theorem Kept.foldl_both (congr : ∀ {s t} a, P s → Kept s t → Kept (lower s a) (lower t a)) (lowers : ∀ {s} a, P s → P (lower s a))
    (l : List α) (start : P s) (kept : Kept s t) : Kept (l.foldl lower s) (l.foldl lower t) := by
  induction l generalizing s t with
  | nil => exact kept
  | cons a l ih => exact ih (lowers a start) (congr a start kept)

/-- Steps that keep what a lowering leaves keep, one after the other, what the lowerings one after the other leave. -/
theorem Kept.foldl_of (step : ∀ {s} a, P s → Kept (lower s a) (f s a)) (congr : ∀ {s t} a, P s → Kept s t → Kept (lower s a) (lower t a))
    (lowers : ∀ {s} a, P s → P (lower s a)) (keeps : ∀ {s t}, Kept s t → P s → P t) (l : List α) (start : P s) :
    Kept (l.foldl lower s) (l.foldl f s) := by
  induction l generalizing s with
  | nil => exact Kept.refl s
  | cons a l ih =>
    exact (Kept.foldl_both congr lowers l (lowers a start) (step a start)).trans (ih (keeps (step a start) (lowers a start)))

end Folds

section Entries

variable {s t : State} {p : PointId} {e e' : PointEntry}

/-- Two entries that differ as those of a kept point may. -/
def entryKept (s t : State) (e e' : PointEntry) : Prop :=
  e'.defn = e.defn ∧ e'.lowBucket = e.lowBucket ∧ e'.highBucket = e.highBucket ∧ e'.shelve = e.shelve ∧
    e'.stale = if s.tb.mode = .settling ∧ t.tb.mode = .watch then e.reloadStale.stale else e.stale

/-- Entries that are written in both of two states. -/
theorem Kept.putPoint_both (h : Kept s t) (entries : entryKept s t e e') : Kept (putPoint p e s) (putPoint p e' t) where
  outside := h.outside
  mode := h.mode
  flags := h.flags
  full := h.full
  counters := h.counters
  points q := by
    rw [point_putPoint, point_putPoint]
    split
    · exact entries
    · exact h.points q

theorem Kept.setNotice_both (h : Kept s t) (n : Notice) : Kept (Machine.setNotice n s) (Machine.setNotice n t) where
  outside := h.outside
  mode := h.mode
  flags i set := by
    rw [flags_setNotice, BitVec.getLsbD_or, Bool.or_eq_true] at set ⊢
    exact set.imp_left (h.flags i)
  full waits := (h.full waits).imp_right fun set => by rw [flags_setNotice, BitVec.getLsbD_or, set, Bool.true_or]
  counters := h.counters
  points := h.points

end Entries

/-! ## The shelve countdowns (R120) -/

section Shelve

variable {s t : State} {p : PointId}

/-- A shelve countdown lowered, with the notice of its end, and no offers made. -/
def shelveLowered (s : State) (p : PointId) : State :=
  let u := putPoint p { s.point p with shelve := (s.point p).shelve - 1 } s
  if (s.point p).shelve = 1 then setNotice .shelveExpired u else u

theorem putPoint_self (p : PointId) (s : State) : putPoint p (s.point p) s = s := by
  rw [putPoint, State.point, vset_vget_self]

theorem kept_lowerShelve (p : PointId) (s : State) : Kept (shelveLowered s p) (lowerShelve p s) := by
  unfold shelveLowered lowerShelve
  cases shelve : (s.point p).shelve with
  | zero =>
    have same : { s.point p with shelve := 0 - 1 } = s.point p := by
      generalize s.point p = e at shelve
      cases e
      cases shelve
      rfl
    dsimp only
    rw [if_neg (by decide), same, putPoint_self]
    exact Kept.refl s
  | succ n =>
    cases n with
    | zero => exact (Kept.refl _).unshelveOffers
    | succ n => exact Kept.refl _

theorem Kept.shelveLowered (h : Kept s t) (p : PointId) : Kept (shelveLowered s p) (shelveLowered t p) := by
  obtain ⟨defn, low, high, shelve, stale⟩ := h.points p
  have written : Kept (Machine.putPoint p { s.point p with shelve := (s.point p).shelve - 1 } s)
      (Machine.putPoint p { t.point p with shelve := (t.point p).shelve - 1 } t) :=
    h.putPoint_both ⟨defn, low, high, congrArg (· - 1) shelve, stale.trans (by
      rw [reloadStale_stale_congr (e := s.point p) (e' := { s.point p with shelve := (s.point p).shelve - 1 }) rfl rfl])⟩
  unfold Machine.shelveLowered
  dsimp only
  rw [shelve] at written ⊢
  split
  · exact written.setNotice_both _
  · exact written

theorem shelveLowered_leaves (p : PointId) (s : State) :
    (shelveLowered s p).tb = s.tb ∧ (shelveLowered s p).sg = s.sg ∧ (shelveLowered s p).outside = s.outside ∧
      (∀ q, (shelveLowered s p).point q = if p = q then { s.point p with shelve := (s.point p).shelve - 1 } else s.point q) ∧
      (∀ n, s.nu.flags.getLsbD n = true → (shelveLowered s p).nu.flags.getLsbD n = true) ∧
      ((s.point p).shelve = 1 → (shelveLowered s p).nu.flags.getLsbD 5 = true) := by
  unfold shelveLowered
  dsimp only
  split
  · next one =>
    refine ⟨rfl, rfl, rfl, fun q => point_putPoint _ _ _ _, fun n set => ?_, fun _ => ?_⟩
    · exact (Follows.refl (putPoint p { s.point p with shelve := (s.point p).shelve - 1 } s)).setNotice.flags n set
    · rw [flags_setNotice, BitVec.getLsbD_or, show Notice.shelveExpired.mask.getLsbD 5 = true from rfl, Bool.or_true]
  · next other => exact ⟨rfl, rfl, rfl, fun q => point_putPoint _ _ _ _, fun _ set => set, fun one => absurd one other⟩

/-- All the shelve countdowns of a list of points, each once. -/
theorem foldl_shelveLowered {l : List PointId} (once : l.Nodup) (s : State) :
    (l.foldl shelveLowered s).tb = s.tb ∧ (l.foldl shelveLowered s).sg = s.sg ∧ (l.foldl shelveLowered s).outside = s.outside ∧
      (∀ q, (l.foldl shelveLowered s).point q = if q ∈ l then { s.point q with shelve := (s.point q).shelve - 1 } else s.point q) ∧
      (∀ n, s.nu.flags.getLsbD n = true → (l.foldl shelveLowered s).nu.flags.getLsbD n = true) ∧
      (∀ q ∈ l, (s.point q).shelve = 1 → (l.foldl shelveLowered s).nu.flags.getLsbD 5 = true) := by
  induction l generalizing s with
  | nil => exact ⟨rfl, rfl, rfl, fun q => rfl, fun _ set => set, fun q m => absurd m List.not_mem_nil⟩
  | cons p l ih =>
    obtain ⟨notIn, once⟩ := List.nodup_cons.1 once
    obtain ⟨tb, sg, outside, points, flags, ends⟩ := shelveLowered_leaves p s
    obtain ⟨tb', sg', outside', points', flags', ends'⟩ := ih once (shelveLowered s p)
    rw [List.foldl_cons]
    refine ⟨tb'.trans tb, sg'.trans sg, outside'.trans outside, fun q => ?_, fun n set => flags' n (flags n set), fun q m one => ?_⟩
    · rw [points', points]
      by_cases same : p = q
      · subst same
        rw [if_neg notIn, if_pos rfl, if_pos List.mem_cons_self]
      · simp only [if_neg same, List.mem_cons, Ne.symm same, false_or]
    · rcases List.mem_cons.1 m with rfl | later
      · exact flags' 5 (ends one)
      · refine ends' q later ?_
        rw [points, if_neg fun same : p = q => notIn (same ▸ later)]
        exact one

theorem sg_lowerShelve (p : PointId) (s : State) : (lowerShelve p s).sg = s.sg := by
  have offers (u : State) : (unshelveOffers p u).sg = u.sg := congrArg Core.sg (core_unshelveOffers p u)
  unfold lowerShelve
  split
  · rfl
  · exact offers _
  · rfl

theorem sg_shelveTick (s : State) : (shelveTick s).sg = s.sg := by
  unfold shelveTick
  induction allPoints generalizing s with
  | nil => rfl
  | cons p l ih => rw [List.foldl_cons, ih, sg_lowerShelve]

/-- Every shelve countdown is lowered, and one that ends sets its notice. -/
theorem shelveTick_leaves (s : State) :
    (∀ p, entryKept s (shelveTick s) { s.point p with shelve := (s.point p).shelve - 1 } ((shelveTick s).point p)) ∧
      ∀ p, (s.point p).shelve = 1 → (shelveTick s).nu.flags.getLsbD 5 = true := by
  have kept : Kept (allPoints.foldl shelveLowered s) (shelveTick s) :=
    Kept.foldl_of (P := fun _ => True) (fun p _ => kept_lowerShelve p _) (fun p _ h => h.shelveLowered p) (fun _ _ => trivial)
      (fun _ _ => trivial) allPoints trivial
  obtain ⟨tb, -, -, points, -, ends⟩ := foldl_shelveLowered allPoints_nodup s
  refine ⟨fun p => ?_, fun p one => kept.flags 5 (ends p (mem_allPoints p) one)⟩
  have entry := kept.points p
  rw [points p, if_pos (mem_allPoints p), tb] at entry
  exact entry

end Shelve

/-! ## The stale countdowns (R64) -/

section Stale

variable {s t : State} {p : PointId}

/-- The entry of a point whose stale countdown is lowered; that of a Vacant point does not expire. -/
def PointEntry.staleLowered (e : PointEntry) : PointEntry :=
  match e.stale, e.defn with
  | some (n + 2), _ => { e with stale := some (n + 1) }
  | some 1, some _ => { e with stale := some 0 }
  | _, _ => e

theorem staleLowered_rest (e : PointEntry) :
    e.staleLowered.defn = e.defn ∧ e.staleLowered.lowBucket = e.lowBucket ∧ e.staleLowered.highBucket = e.highBucket ∧
      e.staleLowered.shelve = e.shelve := by
  unfold PointEntry.staleLowered
  split <;> exact ⟨rfl, rfl, rfl, rfl⟩

theorem stale_staleLowered_congr {e e' : PointEntry} (defn : e'.defn = e.defn) (stale : e'.stale = e.stale) :
    e'.staleLowered.stale = e.staleLowered.stale := by
  rcases e with ⟨d, ks, lo, hi, st, sh⟩
  rcases e' with ⟨d', ks', lo', hi', st', sh'⟩
  obtain rfl : d' = d := defn
  obtain rfl : st' = st := stale
  unfold PointEntry.staleLowered
  dsimp only
  split <;> rfl

theorem stale_staleLowered {e : PointEntry} (inService : e.defn ≠ none) : e.staleLowered.stale = e.stale.map (· - 1) := by
  obtain ⟨d, defn⟩ := Option.ne_none_iff_exists'.1 inService
  rcases stale : e.stale with _ | _ | _ | n <;> simp only [PointEntry.staleLowered, stale, defn] <;> rfl

/-- A stale countdown lowered, with nothing of its expiry but the countdown at 0. -/
def staleLowered (s : State) (p : PointId) : State := putPoint p (s.point p).staleLowered s

theorem kept_lowerStale (p : PointId) (s : State) : Kept (staleLowered s p) (lowerStale p s) := by
  have still (same : (s.point p).staleLowered = s.point p) (rests : lowerStale p s = s) : Kept (staleLowered s p) (lowerStale p s) := by
    rw [staleLowered, same, rests, putPoint_self]
    exact Kept.refl s
  rcases stale : (s.point p).stale with _ | _ | _ | n
  · exact still (by simp only [PointEntry.staleLowered, stale]) (by simp only [lowerStale, stale])
  · exact still (by simp only [PointEntry.staleLowered, stale]) (by simp only [lowerStale, stale])
  · cases defn : (s.point p).defn with
    | none => exact still (by simp only [PointEntry.staleLowered, stale, defn]) (by simp only [lowerStale, staleExpire, stale, defn])
    | some d =>
      have expires : lowerStale p s = beginCondition { point := p, kind := .stale } d none (staleLowered s p) := by
        simp only [lowerStale, staleExpire, stale, defn, staleLowered, PointEntry.staleLowered]
      rw [expires]
      exact (Kept.refl _).beginCondition
  · have lowers : lowerStale p s = staleLowered s p := by simp only [lowerStale, stale, staleLowered, PointEntry.staleLowered]
    rw [lowers]
    exact Kept.refl _

theorem Kept.staleLowered (watch : s.tb.mode = .watch) (h : Kept s t) (p : PointId) : Kept (staleLowered s p) (staleLowered t p) := by
  obtain ⟨defn, low, high, shelve, stale⟩ := h.point watch p
  obtain ⟨d, l, hi, sh⟩ := staleLowered_rest (s.point p)
  obtain ⟨d', l', hi', sh'⟩ := staleLowered_rest (t.point p)
  refine h.putPoint_both ⟨by rw [d', d, defn], by rw [l', l, low], by rw [hi', hi, high], by rw [sh', sh, shelve], ?_⟩
  rw [if_neg (by rw [watch]; exact fun both => nomatch both.1)]
  exact stale_staleLowered_congr defn stale

theorem foldl_staleLowered {l : List PointId} (once : l.Nodup) (s : State) :
    (l.foldl staleLowered s).tb = s.tb ∧
      ∀ q, (l.foldl staleLowered s).point q = if q ∈ l then (s.point q).staleLowered else s.point q := by
  induction l generalizing s with
  | nil => exact ⟨rfl, fun q => rfl⟩
  | cons p l ih =>
    obtain ⟨notIn, once⟩ := List.nodup_cons.1 once
    have ⟨tb, points⟩ := ih once (staleLowered s p)
    refine ⟨tb, fun q => ?_⟩
    rw [List.foldl_cons, points, staleLowered, point_putPoint]
    by_cases same : p = q
    · subst same
      rw [if_neg notIn, if_pos rfl, if_pos List.mem_cons_self]
    · simp only [if_neg same, List.mem_cons, Ne.symm same, false_or]

/-- In Watch every stale countdown is lowered; in another mode none. -/
theorem staleTick_of_watch (watch : s.tb.mode = .watch) (p : PointId) :
    entryKept s (staleTick s) (s.point p).staleLowered ((staleTick s).point p) := by
  have ticks : staleTick s = allPoints.foldl (fun s p => lowerStale p s) s := by simp only [staleTick, watch]
  have kept : Kept (allPoints.foldl staleLowered s) (staleTick s) := by
    rw [ticks]
    exact Kept.foldl_of (P := fun s => s.tb.mode = .watch) (fun p _ => kept_lowerStale p _) (fun p watch h => h.staleLowered watch p)
      (fun _ watch => watch) (fun kept watch => kept.mode.watch watch) allPoints watch
  obtain ⟨tb, points⟩ := foldl_staleLowered allPoints_nodup s
  have entry := kept.points p
  rw [points p, if_pos (mem_allPoints p), tb] at entry
  exact entry

theorem staleTick_of_other (other : s.tb.mode ≠ .watch) : staleTick s = s := by
  unfold staleTick
  split
  · next watch => exact absurd watch other
  all_goals rfl

end Stale

/-! ## The refill countdowns (R102) -/

section Refill

variable {s t u : State}

/-- The governors keep their definitions and their refill countdowns. -/
def RefillsKept (s t : State) : Prop := ∀ g, (t.governor g).defn = (s.governor g).defn ∧ (t.governor g).refill = (s.governor g).refill

theorem RefillsKept.refl (s : State) : RefillsKept s s := fun _ => ⟨rfl, rfl⟩

theorem RefillsKept.trans (h : RefillsKept s t) (k : RefillsKept t u) : RefillsKept s u := fun g =>
  ⟨(k g).1.trans (h g).1, (k g).2.trans (h g).2⟩

theorem RefillsKept.of_sg (sg : t.sg = s.sg) : RefillsKept s t := fun g => by
  rw [State.governor, sg]
  exact ⟨rfl, rfl⟩

theorem RefillsKept.write {g : GroupId} {x : Governor} (sg : t.sg = vset s.sg g x) (defn : x.defn = (s.governor g).defn)
    (refill : x.refill = (s.governor g).refill) : RefillsKept s t := fun h => by
  rw [State.governor, sg, vget_vset]
  split
  · next same => exact same ▸ ⟨defn, refill⟩
  · exact ⟨rfl, rfl⟩

theorem refillsKept_divert (k : PointKey) (v : Pending) (s : State) : RefillsKept s (divert k v s) := by
  unfold divert
  split
  · exact .write (sg_holdKey k v s) rfl rfl
  · exact .write (sg_foldKey k v.severity s) rfl rfl

theorem refillsKept_governAttempt (k : PointKey) (v : Pending) (s : State) : RefillsKept s (governAttempt k v s) := by
  unfold governAttempt
  dsimp only
  split
  · exact .write (sg_holdKey k v s) rfl rfl
  · split
    · split
      · exact RefillsKept.write (g := s.groupOf k) (x := { s.governor (s.groupOf k) with tokens := (s.governor (s.groupOf k)).tokens - 1 })
          (sg_allocateOrWait k v _) rfl rfl
      · exact RefillsKept.trans (.write (sg_closeGovernor _ s) rfl rfl) (refillsKept_divert k v _)
    · exact refillsKept_divert k v s

theorem refillsKept_beginCondition (k : PointKey) (d : Definition) (v : Option Half) (s : State) :
    RefillsKept s (beginCondition k d v s) := by
  unfold beginCondition
  dsimp only
  split
  · unfold raiseAttempt
    split
    · exact .of_sg (sg_allocateOrWait k _ s)
    · exact refillsKept_governAttempt k _ s
  · split
    · exact .of_sg (sg_reRaise _ s)
    · exact .refl s
  all_goals exact .refl s

theorem refillsKept_lowerStale (p : PointId) (s : State) : RefillsKept s (lowerStale p s) := by
  unfold lowerStale
  dsimp only
  split
  · unfold staleExpire
    dsimp only
    split
    · exact RefillsKept.trans (.of_sg rfl) (refillsKept_beginCondition _ _ _ _)
    · exact .refl s
  · exact .of_sg rfl
  · exact .refl s

theorem refillsKept_staleTick (s : State) : RefillsKept s (staleTick s) := by
  by_cases watch : s.tb.mode = .watch
  · have ticks : staleTick s = allPoints.foldl (fun s p => lowerStale p s) s := by simp only [staleTick, watch]
    rw [ticks]
    clear ticks watch
    induction allPoints generalizing s with
    | nil => exact .refl s
    | cons p l ih => exact (refillsKept_lowerStale p s).trans (ih _)
  · rw [staleTick_of_other watch]
    exact .refl s

/-- The refill countdown of a governor after a second tick. -/
def Governor.refillLowered (x : Governor) : Nat := if x.refill ≤ 1 then 2 ^ x.defn.refillExponent else x.refill - 1

theorem refillsKept_reopen (g : GroupId) (s : State) : RefillsKept s (reopen g s) := by
  unfold reopen
  dsimp only
  split
  · split
    · exact .write (sg_clearLatched _ _) rfl rfl
    · exact .write (g := g) rfl rfl rfl
  · exact .refl s

theorem refillsKept_releaseIfOpen (g : GroupId) (s : State) : RefillsKept s (releaseIfOpen g s) := by
  unfold releaseIfOpen
  dsimp only
  split
  · intro h
    rw [releaseStep, governor_releaseLoop]
    split
    · next same => exact same ▸ ⟨rfl, rfl⟩
    · exact ⟨rfl, rfl⟩
  · exact .refl s

theorem lowerRefill_leaves (g : GroupId) (s : State) (h : GroupId) :
    ((lowerRefill g s).governor h).defn = (s.governor h).defn ∧
      ((lowerRefill g s).governor h).refill = if g = h then (s.governor g).refillLowered else (s.governor h).refill := by
  unfold lowerRefill
  dsimp only
  split
  · next last =>
    let u := putGovernor g (s.governor g).refilled s
    obtain ⟨defn, refill⟩ := ((refillsKept_reopen g u).trans (refillsKept_releaseIfOpen g _)) h
    rw [refillGovernor, defn, refill, governor_putGovernor]
    split
    · next same => exact ⟨congrArg (fun g => (s.governor g).defn) same, (if_pos last).symm⟩
    · exact ⟨rfl, rfl⟩
  · next more =>
    rw [governor_putGovernor]
    split
    · next same => exact ⟨congrArg (fun g => (s.governor g).defn) same, (if_neg more).symm⟩
    · exact ⟨rfl, rfl⟩

theorem foldl_lowerRefill {l : List GroupId} (once : l.Nodup) (s : State) (h : GroupId) :
    ((l.foldl (fun s g => lowerRefill g s) s).governor h).defn = (s.governor h).defn ∧
      ((l.foldl (fun s g => lowerRefill g s) s).governor h).refill =
        if h ∈ l then (s.governor h).refillLowered else (s.governor h).refill := by
  induction l generalizing s with
  | nil => exact ⟨rfl, rfl⟩
  | cons g l ih =>
    obtain ⟨notIn, once⟩ := List.nodup_cons.1 once
    obtain ⟨defn, refill⟩ := lowerRefill_leaves g s h
    obtain ⟨defn', refill'⟩ := ih once (lowerRefill g s)
    refine ⟨defn'.trans defn, refill'.trans ?_⟩
    by_cases same : g = h
    · subst same
      rw [if_neg notIn, refill, if_pos rfl, if_pos List.mem_cons_self]
    · rw [if_neg same] at refill
      simp only [Governor.refillLowered, refill, defn, List.mem_cons, Ne.symm same, false_or]

/-- Every refill countdown is lowered, or reloaded at its expiry. -/
theorem refillTick_leaves (s : State) (h : GroupId) :
    ((refillTick s).governor h).defn = (s.governor h).defn ∧ ((refillTick s).governor h).refill = (s.governor h).refillLowered := by
  obtain ⟨defn, refill⟩ := foldl_lowerRefill allGroups_nodup s h
  exact ⟨defn, refill.trans (if_pos (mem_allGroups h))⟩

theorem kept_refillTick (s : State) : Kept s (refillTick s) :=
  Kept.foldl (fun u _ => (Kept.refl u).lowerRefill) allGroups (.refl s)

end Refill

end Sys2Proof.Machine
end

