-- ==== Sys2Proof/Proofs/SecondTick.lean ====
section
/-! PROOF. A second tick, its owners in any order (R64, R66, R102, R120, R121, R171, R172, R176, R181). -/

namespace Sys2Proof.Machine

/-! ## What has happened once some of the owners have acted -/

section Ticked

variable {l l' : List TickOwner} {s u v : State}

/-- The modes, the settle countdown and the stale countdowns, by the mode at the tick (R64, R66, R176, R178). -/
inductive TickedModes (l : List TickOwner) (s u : State) : Prop
  | watch (before : s.tb.mode = .watch) (after : u.tb.mode = .watch)
    (stale : ∀ p, (u.point p).stale = if .stale ∈ l then (s.point p).staleLowered.stale else (s.point p).stale)
  | asleep (before : s.tb.mode = .dormant ∨ s.tb.mode = .waking) (after : u.tb.mode = .dormant ∨ u.tb.mode = .waking)
    (stale : ∀ p, (u.point p).stale = (s.point p).stale)
  | settling (before : s.tb.mode = .settling) (after : u.tb.mode = .settling) (stale : ∀ p, (u.point p).stale = (s.point p).stale)
    (settle : u.tb.settle = if .settle ∈ l then s.tb.settle.map (· - 1) else s.tb.settle)
    (runs : .settle ∈ l → ∀ n, s.tb.settle = some n → 1 < n)
  | settled (before : s.tb.mode = .settling) (after : u.tb.mode = .dormant ∨ u.tb.mode = .waking)
    (stale : ∀ p, (u.point p).stale = (s.point p).stale) (ends : ∃ n, s.tb.settle = some n ∧ n ≤ 1) (acted : .settle ∈ l)
    (settle : u.tb.settle = none)
  | woken (before : s.tb.mode = .settling) (after : u.tb.mode = .watch) (settle : u.tb.settle = none)
    (stale : (∀ p, (u.point p).stale = (s.point p).reloadStale.stale) ∨
      (.stale ∈ l ∧ ∀ p, (u.point p).stale = (s.point p).reloadStale.staleLowered.stale))

/-- The state once the owners of a list have acted. -/
structure Ticked (l : List TickOwner) (s u : State) : Prop where
  outside : u.outside = s.outside
  defn : ∀ p, (u.point p).defn = (s.point p).defn
  low : ∀ p, (u.point p).lowBucket = (s.point p).lowBucket
  high : ∀ p, (u.point p).highBucket = (s.point p).highBucket
  shelve : ∀ p, (u.point p).shelve = if .shelve ∈ l then (s.point p).shelve - 1 else (s.point p).shelve
  ends : .shelve ∈ l → ∀ p, (s.point p).shelve = 1 → u.nu.flags.getLsbD 5 = true
  refills : ∀ g, (u.governor g).defn = (s.governor g).defn ∧
    (u.governor g).refill = if .refill ∈ l then (s.governor g).refillLowered else (s.governor g).refill
  modes : TickedModes l s u

theorem TickedModes.refl (s : State) : TickedModes [] s s := by
  cases mode : s.tb.mode with
  | watch => exact .watch mode mode fun _ => rfl
  | dormant => exact .asleep (.inl mode) (.inl mode) fun _ => rfl
  | waking => exact .asleep (.inr mode) (.inr mode) fun _ => rfl
  | settling => exact .settling mode mode (fun _ => rfl) rfl fun m => nomatch m

theorem Ticked.refl (s : State) : Ticked [] s s :=
  ⟨rfl, fun _ => rfl, fun _ => rfl, fun _ => rfl, fun _ => rfl, fun m => absurd m List.not_mem_nil,
    fun _ => ⟨rfl, rfl⟩, .refl s⟩

/-- An owner that follows as the mechanisms of the table do leaves the modes as a wake cause does. -/
theorem TickedModes.follow (h : TickedModes l s u) (defn : ∀ p, (u.point p).defn = (s.point p).defn) (mode : ModeFollows u v)
    (stale : ∀ p, (v.point p).stale =
      if u.tb.mode = .settling ∧ v.tb.mode = .watch then (u.point p).reloadStale.stale else (u.point p).stale)
    (stales : .stale ∈ l' ↔ .stale ∈ l) (settles : .settle ∈ l' ↔ .settle ∈ l) : TickedModes l' s v := by
  have same (notWoken : ¬ (u.tb.mode = .settling ∧ v.tb.mode = .watch)) (p : PointId) : (v.point p).stale = (u.point p).stale :=
    (stale p).trans (if_neg notWoken)
  have asleep (after : u.tb.mode = .dormant ∨ u.tb.mode = .waking) :
      (v.tb.mode = .dormant ∨ v.tb.mode = .waking) ∧ v.tb.settle = u.tb.settle ∧ ∀ p, (v.point p).stale = (u.point p).stale := by
    have still := same fun both => by rcases after with e | e <;> cases e.symm.trans both.1
    rcases mode with ⟨mode, settle⟩ | ⟨settling, -⟩ | ⟨-, waking, settle⟩
    · exact ⟨by rw [mode]; exact after, settle, still⟩
    · rcases after with e | e <;> cases e.symm.trans settling
    · exact ⟨.inr waking, settle, still⟩
  cases h with
  | watch before after held =>
    refine .watch before (mode.watch after) fun p => ?_
    rw [same (fun both => nomatch after.symm.trans both.1), held]
    simp only [stales]
  | asleep before after held => exact .asleep before (asleep after).1 fun p => ((asleep after).2.2 p).trans (held p)
  | settled before after held ends acted settle =>
    exact .settled before (asleep after).1 (fun p => ((asleep after).2.2 p).trans (held p)) ends (settles.2 acted)
      ((asleep after).2.1.trans settle)
  | settling before after held settle runs =>
    rcases mode with ⟨mode, sameSettle⟩ | ⟨-, watch, none⟩ | ⟨dormant, -⟩
    · refine .settling before (mode.trans after) (fun p => ?_) ?_ fun m => runs (settles.1 m)
      · rw [same (fun both => nomatch (mode.trans after).symm.trans both.2), held]
      · rw [sameSettle, settle]
        simp only [settles]
    · refine .woken before watch none (.inl fun p => ?_)
      rw [stale, if_pos ⟨after, watch⟩]
      exact reloadStale_stale_congr (defn p) (held p)
    · cases after.symm.trans dormant
  | woken before after settle held =>
    have still := same fun both => nomatch after.symm.trans both.1
    refine .woken before (mode.watch after) ?_ (held.imp (fun held p => (still p).trans (held p)) fun held =>
      ⟨stales.2 held.1, fun p => (still p).trans (held.2 p)⟩)
    rcases mode with ⟨-, same⟩ | ⟨settling, -⟩ | ⟨dormant, -⟩
    · exact same.trans settle
    · cases after.symm.trans settling
    · cases after.symm.trans dormant

/-! ## Each owner in its turn -/

theorem staleTick_leaves (p : PointId) :
    ((staleTick u).point p).defn = (u.point p).defn ∧ ((staleTick u).point p).lowBucket = (u.point p).lowBucket ∧
      ((staleTick u).point p).highBucket = (u.point p).highBucket ∧ ((staleTick u).point p).shelve = (u.point p).shelve ∧
      ((staleTick u).point p).stale = if u.tb.mode = .watch then (u.point p).staleLowered.stale else (u.point p).stale := by
  by_cases watch : u.tb.mode = .watch
  · obtain ⟨defn, low, high, shelve, stale⟩ := staleTick_of_watch watch p
    obtain ⟨defn', low', high', shelve'⟩ := staleLowered_rest (u.point p)
    refine ⟨defn.trans defn', low.trans low', high.trans high', shelve.trans shelve', ?_⟩
    have notBoth : ¬ (u.tb.mode = .settling ∧ (staleTick u).tb.mode = .watch) := fun both => nomatch watch.symm.trans both.1
    rw [stale, if_neg notBoth, if_pos watch]
  · rw [staleTick_of_other watch, if_neg watch]
    exact ⟨rfl, rfl, rfl, rfl, rfl⟩

theorem TickedModes.staleTick (h : TickedModes l s u) (defn : ∀ p, (u.point p).defn = (s.point p).defn) (first : .stale ∉ l) :
    TickedModes (.stale :: l) s (staleTick u) := by
  have follows : Follows u (Machine.staleTick u) := follows_ownerTick u .stale nofun
  have inWatch (watch : u.tb.mode = .watch) (p : PointId) : ((Machine.staleTick u).point p).stale = (u.point p).staleLowered.stale := by
    rw [(staleTick_leaves p).2.2.2.2, if_pos watch]
  have settles : .settle ∈ (.stale :: l) ↔ .settle ∈ l := by simp
  cases h with
  | watch before after held =>
    refine .watch before (follows.mode.watch after) fun p => ?_
    rw [inWatch after, if_pos List.mem_cons_self]
    exact stale_staleLowered_congr (defn p) ((held p).trans (if_neg first))
  | asleep before after held =>
    rw [staleTick_of_other (by rcases after with e | e <;> rw [e] <;> nofun)]
    exact .asleep before after held
  | settling before after held settle runs =>
    rw [staleTick_of_other (by rw [after]; nofun)]
    exact .settling before after held (settle.trans (by simp only [settles])) fun m => runs (settles.1 m)
  | settled before after held ends acted settle =>
    rw [staleTick_of_other (by rcases after with e | e <;> rw [e] <;> nofun)]
    exact .settled before after held ends (settles.2 acted) settle
  | woken before after settle held =>
    have held := held.resolve_right fun acted => first acted.1
    refine .woken before (follows.mode.watch after) ?_ (.inr ⟨List.mem_cons_self, fun p => ?_⟩)
    · rcases follows.mode with ⟨-, same⟩ | ⟨settling, -⟩ | ⟨dormant, -⟩
      · exact same.trans settle
      · cases after.symm.trans settling
      · cases after.symm.trans dormant
    · rw [inWatch after]
      exact stale_staleLowered_congr ((defn p).trans (defn_reloadStale _).symm) (held p)

theorem settleTick_leaves : (settleTick u).pt = u.pt ∧ (settleTick u).sg = u.sg ∧ (settleTick u).nu = u.nu := by
  unfold settleTick
  split
  · exact ⟨rfl, rfl, rfl⟩
  · unfold settleExpire
    split <;> exact ⟨rfl, rfl, rfl⟩
  · exact ⟨rfl, rfl, rfl⟩

/-- Outside Settling the settle owner leaves the mode. -/
theorem mode_settleTick_of_other (other : u.tb.mode ≠ .settling) : (settleTick u).tb.mode = u.tb.mode := by
  unfold settleTick
  split
  · rfl
  · unfold settleExpire
    split
    · next settling => exact absurd settling other
    all_goals rfl
  · rfl

theorem TickedModes.settleTick (h : TickedModes l s u) (first : .settle ∉ l) : TickedModes (.settle :: l) s (settleTick u) := by
  have stale (p : PointId) : ((Machine.settleTick u).point p).stale = (u.point p).stale := by
    rw [State.point, settleTick_leaves.1]
    rfl
  have stales : .stale ∈ (.settle :: l) ↔ .stale ∈ l := by simp
  cases h with
  | watch before after held =>
    refine .watch before ((mode_settleTick_of_other (by rw [after]; nofun)).trans after) fun p => ?_
    rw [stale, held]
    simp only [stales]
  | asleep before after held =>
    refine .asleep before ?_ fun p => (stale p).trans (held p)
    rwa [mode_settleTick_of_other (by rcases after with e | e <;> rw [e] <;> nofun)]
  | settling before after held settle runs =>
    rw [if_neg first] at settle
    have held' (p : PointId) := (stale p).trans (held p)
    have ends (n : Nat) (found : u.tb.settle = some n) (last : n ≤ 1) : TickedModes (.settle :: l) s (Machine.settleTick u) := by
      have expires : Machine.settleTick u = { u with tb := { u.tb with mode := .dormant, settle := none } } := by
        unfold Machine.settleTick
        split
        · next m more =>
          obtain rfl := Option.some.inj (found.symm.trans more)
          omega
        · simp only [settleExpire, after]
        · next none => cases found.symm.trans none
      rw [expires] at held' ⊢
      exact .settled before (.inl rfl) held' ⟨n, settle.symm.trans found, last⟩ List.mem_cons_self rfl
    rcases found : u.tb.settle with _ | _ | _ | n
    · have still : Machine.settleTick u = u := by simp only [Machine.settleTick, found]
      rw [still]
      refine .settling before after held ?_ fun _ n runs => nomatch (settle.symm.trans found).symm.trans runs
      rw [found, if_pos List.mem_cons_self, ← settle, found]
      rfl
    · exact ends 0 found (by decide)
    · exact ends 1 found (by decide)
    · have lowers : Machine.settleTick u = { u with tb := { u.tb with settle := some (n + 1) } } := by
        simp only [Machine.settleTick, found]
      rw [lowers] at held' ⊢
      refine .settling before after held' ?_ fun _ m runs => ?_
      · rw [if_pos List.mem_cons_self, ← settle, found]
        rfl
      · obtain rfl := Option.some.inj ((settle.symm.trans found).symm.trans runs)
        omega
  | settled before after held ends acted settle => exact absurd acted first
  | woken before after settle held =>
    have still : Machine.settleTick u = u := by simp only [Machine.settleTick, settle]
    rw [still]
    exact .woken before after settle (held.imp_right fun held => ⟨stales.2 held.1, held.2⟩)

/-- The owner of the shelve countdowns. -/
theorem Ticked.shelved (h : Ticked l s u) (first : .shelve ∉ l) (outside : v.outside = s.outside) (mode : ModeFollows u v) (sg : v.sg = u.sg)
    (entries : ∀ p, entryKept u v { u.point p with shelve := (u.point p).shelve - 1 } (v.point p))
    (ends : ∀ p, (u.point p).shelve = 1 → v.nu.flags.getLsbD 5 = true) : Ticked (.shelve :: l) s v := by
  have before (p : PointId) : (u.point p).shelve = (s.point p).shelve := (h.shelve p).trans (if_neg first)
  have governor (g : GroupId) : v.governor g = u.governor g := by
    rw [State.governor, sg]
    rfl
  refine ⟨outside, fun p => (entries p).1.trans (h.defn p), fun p => (entries p).2.1.trans (h.low p),
    fun p => (entries p).2.2.1.trans (h.high p), fun p => (entries p).2.2.2.1.trans ?_, fun _ p one => ends p ((before p).trans one),
    fun g => ?_, h.modes.follow h.defn mode (fun p => (entries p).2.2.2.2.trans ?_) (by simp) (by simp)⟩
  · rw [if_pos List.mem_cons_self]
    exact congrArg (· - 1) (before p)
  · rw [governor]
    simpa using h.refills g
  · rw [reloadStale_stale_congr (e := u.point p) (e' := { u.point p with shelve := (u.point p).shelve - 1 }) rfl rfl]

/-- Each owner that has not acted yet acts as the word says. -/
theorem Ticked.step (h : Ticked l s u) {o : TickOwner} (first : o ∉ l) : Ticked (o :: l) s (ownerTick u o) := by
  have outside : (ownerTick u o).outside = s.outside := (outside_ownerTick u o).trans h.outside
  cases o with
  | stale =>
    have follows : Follows u (ownerTick u .stale) := follows_ownerTick u .stale nofun
    have leaves (p : PointId) := staleTick_leaves (u := u) p
    have refills := refillsKept_staleTick u
    refine ⟨outside, fun p => (leaves p).1.trans (h.defn p), fun p => (leaves p).2.1.trans (h.low p),
      fun p => (leaves p).2.2.1.trans (h.high p), fun p => (leaves p).2.2.2.1.trans ?_, fun acted p one => follows.flags 5 (h.ends ?_ p one),
      fun g => ⟨(refills g).1.trans (h.refills g).1, (refills g).2.trans ?_⟩, h.modes.staleTick h.defn first⟩
    · simpa using h.shelve p
    · simpa using acted
    · simpa using (h.refills g).2
  | shelve =>
    have follows : Follows u (ownerTick u .shelve) := follows_ownerTick u .shelve nofun
    obtain ⟨entries, ends⟩ := shelveTick_leaves u
    have ticks : ownerTick u .shelve = shelveTick u := rfl
    rw [ticks] at outside follows ⊢
    exact h.shelved first outside follows.mode (sg_shelveTick u) entries ends
  | refill =>
    have kept : Kept u (ownerTick u .refill) := kept_refillTick u
    have points := kept.points
    have before (g : GroupId) : (u.governor g).refillLowered = (s.governor g).refillLowered := by
      obtain ⟨defn, refill⟩ := h.refills g
      rw [if_neg first] at refill
      simp only [Governor.refillLowered, defn, refill]
    refine ⟨outside, fun p => (points p).1.trans (h.defn p), fun p => (points p).2.1.trans (h.low p),
      fun p => (points p).2.2.1.trans (h.high p), fun p => (points p).2.2.2.1.trans ?_, fun acted p one => kept.flags 5 (h.ends ?_ p one),
      fun g => ⟨(refillTick_leaves u g).1.trans (h.refills g).1, (refillTick_leaves u g).2.trans ?_⟩,
      h.modes.follow h.defn kept.mode (fun p => (points p).2.2.2.2) (by simp) (by simp)⟩
    · simpa using h.shelve p
    · simpa using acted
    · rw [if_pos List.mem_cons_self, before]
  | settle =>
    obtain ⟨pt, sg, nu⟩ := settleTick_leaves (u := u)
    have point (p : PointId) : (ownerTick u .settle).point p = u.point p := by
      rw [State.point, show (ownerTick u .settle).pt = u.pt from pt]
      rfl
    have governor (g : GroupId) : (ownerTick u .settle).governor g = u.governor g := by
      rw [State.governor, show (ownerTick u .settle).sg = u.sg from sg]
      rfl
    refine ⟨outside, fun p => by rw [point, h.defn], fun p => by rw [point, h.low], fun p => by rw [point, h.high], fun p => ?_,
      fun acted p one => ?_, fun g => ?_, h.modes.settleTick first⟩
    · rw [point]
      simpa using h.shelve p
    · rw [show (ownerTick u .settle).nu = u.nu from nu]
      exact h.ends (by simpa using acted) p one
    · rw [governor]
      simpa using h.refills g

/-! ## What the modes say when all have acted -/

theorem TickedModes.stale_of_watch (h : TickedModes l s u) (watch : s.tb.mode = .watch) (acted : .stale ∈ l) (p : PointId) :
    (u.point p).stale = (s.point p).staleLowered.stale := by
  cases h with
  | watch before after stale => exact (stale p).trans (if_pos acted)
  | asleep before => rcases before with e | e <;> cases watch.symm.trans e
  | settling before => cases watch.symm.trans before
  | settled before => cases watch.symm.trans before
  | woken before => cases watch.symm.trans before

theorem TickedModes.stale_of_asleep (h : TickedModes l s u) (asleep : s.tb.mode = .dormant ∨ s.tb.mode = .waking) (p : PointId) :
    (u.point p).stale = (s.point p).stale := by
  cases h with
  | watch before => rcases asleep with e | e <;> cases e.symm.trans before
  | asleep before after stale => exact stale p
  | settling before after stale => exact stale p
  | settled before after stale => exact stale p
  | woken before => rcases asleep with e | e <;> cases e.symm.trans before

theorem TickedModes.stale_of_settling (h : TickedModes l s u) (settling : s.tb.mode = .settling) (notWatch : u.tb.mode ≠ .watch) (p : PointId) :
    (u.point p).stale = (s.point p).stale := by
  cases h with
  | watch before => cases settling.symm.trans before
  | asleep before after stale => exact stale p
  | settling before after stale => exact stale p
  | settled before after stale => exact stale p
  | woken before after => exact absurd after notWatch

theorem TickedModes.stale_of_woken (h : TickedModes l s u) (settling : s.tb.mode = .settling) (watch : u.tb.mode = .watch) :
    (∀ p, (u.point p).stale = (s.point p).reloadStale.stale) ∨ ∀ p, (u.point p).stale = (s.point p).reloadStale.staleLowered.stale := by
  cases h with
  | watch before => cases settling.symm.trans before
  | asleep before => rcases before with e | e <;> cases settling.symm.trans e
  | settling before after => cases watch.symm.trans after
  | settled before after => rcases after with e | e <;> cases watch.symm.trans e
  | woken before after settle stale => exact stale.imp_right And.right

theorem TickedModes.settle_of_settling (h : TickedModes l s u) (settling : s.tb.mode = .settling) (acted : .settle ∈ l) :
    (u.tb.mode = .settling ∧ u.tb.settle = s.tb.settle.map (· - 1) ∧ ∀ n, s.tb.settle = some n → 1 < n) ∨
      ((u.tb.mode = .dormant ∨ u.tb.mode = .waking) ∧ u.tb.settle = none ∧ ∃ n, s.tb.settle = some n ∧ n ≤ 1) ∨
      (u.tb.mode = .watch ∧ u.tb.settle = none) := by
  cases h with
  | watch before => cases settling.symm.trans before
  | asleep before => rcases before with e | e <;> cases settling.symm.trans e
  | settling before after stale settle runs => exact .inl ⟨after, settle.trans (if_pos acted), runs acted⟩
  | settled before after stale ends acted' settle => exact .inr (.inl ⟨after, settle, ends⟩)
  | woken before after settle => exact .inr (.inr ⟨after, settle⟩)

theorem Ticked.foldl {owners : List TickOwner} (h : Ticked l s u) (once : owners.Nodup) (apart : ∀ o ∈ owners, o ∉ l) :
    Ticked (owners.reverse ++ l) s (owners.foldl ownerTick u) := by
  induction owners generalizing l u with
  | nil => exact h
  | cons o owners ih =>
    obtain ⟨notIn, once⟩ := List.nodup_cons.1 once
    rw [List.reverse_cons, List.append_assoc]
    refine ih (h.step (apart o List.mem_cons_self)) once fun o' m => ?_
    rw [List.singleton_append, List.mem_cons, not_or]
    exact ⟨fun same => notIn (same ▸ m), apart o' (List.mem_cons_of_mem o m)⟩

end Ticked

/-! ## The owners, and their actions as commands -/

section Owners

variable {s : State}

theorem nodup_eraseDups (l : List TickOwner) : l.eraseDups.Nodup := by
  cases l with
  | nil => exact List.nodup_nil
  | cons o l =>
    rw [List.eraseDups_cons]
    refine List.nodup_cons.2 ⟨fun m => ?_, nodup_eraseDups _⟩
    have other := (List.mem_filter.1 (List.mem_eraseDups.1 m)).2
    simp at other
termination_by l.length
decreasing_by exact Nat.lt_succ_of_le (List.length_filter_le _ _)

theorem tickOrder_nodup (order : List TickOwner) : (tickOrder order).Nodup := by
  have all : allOwners.Nodup := by decide
  refine List.nodup_append.2 ⟨nodup_eraseDups order, all.filter _, fun o m o' m' same => ?_⟩
  subst same
  have listed : o ∈ order := List.mem_eraseDups.1 m
  have notListed := (List.mem_filter.1 m').2
  simp [listed] at notListed

theorem mem_tickOrder (order : List TickOwner) (o : TickOwner) : o ∈ tickOrder order := by
  rw [tickOrder, List.mem_append, List.mem_eraseDups, List.mem_filter]
  by_cases listed : o ∈ order
  · exact .inl listed
  · exact .inr ⟨by cases o <;> decide, by simp [listed]⟩

/-- Two folds agree while their steps do, in states that keep what the steps need. -/
theorem foldl_congr_of_inv {α : Type} {f g : State → α → State} {P : State → Prop} (same : ∀ {u} a, P u → f u a = g u a)
    (keeps : ∀ {u} a, P u → P (f u a)) (l : List α) {u : State} (start : P u) : l.foldl f u = l.foldl g u := by
  induction l generalizing u with
  | nil => rfl
  | cons a l ih => rw [List.foldl_cons, List.foldl_cons, ← same a start, ih (keeps a start)]

theorem ran_of_next {i : Instr} {t : State} (done : exec i s = .next t) : ran i s = t := by rw [ran, done]

/-- What an owner does is what the rows of its expiries do. -/
theorem ownerTick_eq_ticked (outOfHold : s.inHold = false) (o : TickOwner) : ownerTick s o = ticked s o := by
  have out {u : State} (outside : u.outside = s.outside) : u.inHold = false := (inHold_of_outside outside).trans outOfHold
  cases o with
  | stale =>
    simp only [ownerTick, ticked]
    split
    · next watch =>
      have ticks : staleTick s = allPoints.foldl (fun s p => lowerStale p s) s := by simp only [staleTick, watch]
      rw [ticks, allPoints_eq_finRange]
      refine foldl_congr_of_inv (P := fun u => u.outside = s.outside ∧ u.tb.mode = .watch) ?_ ?_ _ ⟨rfl, watch⟩
      · rintro u p ⟨outside, watch⟩
        rcases running : (u.point p).stale with _ | _ | _ | n
        · simp only [lowerStale, running]
        · simp only [lowerStale, running]
        · have runs : (!u.inHold && decide (u.tb.mode = .watch) && decide (0 < (u.point p).stale.getD 0)) = true := by
            simp [out outside, watch, running]
          have expires : ran (.staleCountdownExpiry p) u = staleExpire p u := ran_of_next (congrArg Host.Outcome.next (if_pos runs))
          simp only [lowerStale, running, expires]
        · simp only [lowerStale, running]
          rfl
      · rintro u p ⟨outside, watch⟩
        exact ⟨(outside_lowerStale p u).trans outside, (follows_lowerStale p u).mode.watch watch⟩
    · next other => exact staleTick_of_other other
  | shelve =>
    simp only [ownerTick, ticked, shelveTick, allPoints_eq_finRange]
    refine foldl_congr_of_inv (P := fun u => u.outside = s.outside) ?_ (fun p outside => (outside_lowerShelve p _).trans outside) _ rfl
    intro u p outside
    rcases running : (u.point p).shelve with _ | _ | n
    · simp only [lowerShelve, running]
    · have runs : (!u.inHold && u.shelved p) = true := by simp [out outside, State.shelved, running]
      have expires : ran (.shelveExpiry p) u = shelveExpire p u := ran_of_next (congrArg Host.Outcome.next (if_pos runs))
      simp only [lowerShelve, running, expires]
    · simp only [lowerShelve, running]
      rfl
  | refill =>
    have groups : allGroups = List.finRange 8 := by decide
    simp only [ownerTick, ticked, refillTick, groups]
    refine foldl_congr_of_inv (P := fun u => u.outside = s.outside) ?_ (fun p outside => (outside_lowerRefill p _).trans outside) _ rfl
    intro u g outside
    have expires : ran (.refill g) u = refillGovernor g u :=
      ran_of_next (congrArg Host.Outcome.next (if_neg fun held : u.inHold = true => Bool.false_ne_true ((out outside).symm.trans held)))
    rw [expires]
    rfl
  | settle =>
    have expires : ran .settleExpiry s = settleExpire s :=
      ran_of_next (congrArg Host.Outcome.next (if_neg fun held : s.inHold = true => Bool.false_ne_true (outOfHold.symm.trans held)))
    simp only [ownerTick, ticked, expires]
    rfl

theorem foldl_ownerTick_eq_ticked (outOfHold : s.inHold = false) (owners : List TickOwner) :
    owners.foldl ownerTick s = owners.foldl ticked s :=
  foldl_congr_of_inv (P := fun u => u.inHold = false) (fun o free => ownerTick_eq_ticked free o)
    (fun o free => (inHold_of_outside (outside_ownerTick _ o)).trans free) owners outOfHold

end Owners

theorem and_eq_of_getLsbD_five {flags : Byte} (set : flags.getLsbD 5 = true) : flags &&& 0x20#8 = 0x20#8 := by
  apply BitVec.eq_of_getLsbD_eq
  intro i small
  rw [BitVec.getLsbD_and]
  interval_cases i <;> simp [set]

/-- Settles O44: the owners act one after the other, each on what the others have left of its countdowns. -/
theorem secondTickLowersTheCountdowns : Obligations.SecondTickLowersTheCountdowns := by
  unfold Obligations.SecondTickLowersTheCountdowns
  intro order s
  refine ⟨fun power => ?_, fun power reset => ?_, fun outOfHold => ?_⟩
  · exact congrArg Host.Outcome.next (if_pos power)
  · have notPower : ¬ s.powerHold = true := by rw [power]; exact Bool.false_ne_true
    exact congrArg Host.Outcome.next ((if_neg notPower).trans (if_pos reset))
  · let now := advanceTime s
    have ⟨power, reset⟩ : s.powerHold = false ∧ s.resetLow = false := by simpa [State.inHold] using outOfHold
    have ticks : second order s = (tickOrder order).foldl ownerTick now := by
      rw [second, if_neg (by rw [power]; exact Bool.false_ne_true), if_neg (by rw [reset]; exact Bool.false_ne_true)]
    have all (o : TickOwner) : o ∈ (tickOrder order).reverse ++ [] := by
      rw [List.append_nil, List.mem_reverse]
      exact mem_tickOrder order o
    have ticked := (Ticked.refl now).foldl (tickOrder_nodup order) fun _ _ => List.not_mem_nil
    refine ⟨tickOrder order, second order s, rfl, ?_, tickOrder_nodup order, mem_tickOrder order, List.prefix_append _ _, ?_⟩
    · rw [ticks]
      exact foldl_ownerTick_eq_ticked (s := now) outOfHold _
    · rw [ticks]
      generalize (tickOrder order).foldl ownerTick now = t at ticked ⊢
      have modes := ticked.modes
      refine ⟨ticked.outside, fun p => ⟨(ticked.shelve p).trans (if_pos (all _)), ticked.defn p, ticked.low p, ticked.high p⟩,
        fun p one => and_eq_of_getLsbD_five (ticked.ends (all _) p one),
        fun g => ⟨(ticked.refills g).1, (ticked.refills g).2.trans (if_pos (all _))⟩,
        fun watch p inService => (modes.stale_of_watch watch (all _) p).trans (stale_staleLowered inService),
        modes.stale_of_asleep, modes.stale_of_settling, fun settling watch => (modes.stale_of_woken settling watch).imp_right
          fun lowered p inService => (lowered p).trans (stale_staleLowered (by rw [defn_reloadStale]; exact inService)),
        fun settling two => ?_, fun settling one => ?_⟩
      · rcases modes.settle_of_settling settling (all _) with ⟨mode, settle, -⟩ | ⟨-, -, n, found, last⟩ | woken
        · exact .inl ⟨mode, settle.trans (congrArg (Option.map (· - 1)) two)⟩
        · obtain rfl := Option.some.inj (found.symm.trans two)
          exact absurd last (by decide)
        · exact .inr woken
      · rcases modes.settle_of_settling settling (all _) with ⟨-, -, runs⟩ | ⟨mode, settle, -⟩ | ⟨mode, settle⟩
        · exact absurd (runs 1 one) (by decide)
        · exact ⟨by rcases mode with e | e <;> rw [e] <;> nofun, settle⟩
        · exact ⟨by rw [mode]; nofun, settle⟩

end Sys2Proof.Machine
end

