-- ==== Sys2Proof/Proofs/WithdrawRetires.lean ====
section
/-! PROOF. The records of a point retired one after the other, as a withdrawal does (R17, R41, R76): where each of them goes. -/

namespace Sys2Proof.Machine

section Retires

variable {p : PointId} {g : GroupId} {i : RecordIx} {l : List RecordIx} {s t x : State} {k w : PointKey} {wait : List PointKey}

/-- Records retired one after the other. -/
def retireEach (l : List RecordIx) (s : State) : State := l.foldl (fun s i => retire i s) s

/-- The events of retirements with some keys waiting: Retired of each record, Released and Raised of each hand-over. -/
def handTallies (g : GroupId) (s : State) : List PointKey → List RecordIx → List Tally
  | _, [] => []
  | [], i :: l => (g, .retired, some (s.record i).severity, liveDuration (s.record i) s) :: handTallies g s [] l
  | w :: wait, i :: l =>
    (g, .retired, some (s.record i).severity, liveDuration (s.record i) s) :: (s.groupOf w, .released, some (s.pendingOf w).severity, 0) ::
      (s.groupOf w, .raised, some (s.pendingOf w).severity, 0) :: handTallies g s wait l

/-- Whether a key that is given a record sets Raised (R78). -/
def noticed (s : State) (w : PointKey) : Bool :=
  decide (s.nu.level.level ≤ (s.pendingOf w).severity.level ∧ (s.point w.point).shelve = 0)

/-- Records of a point that may be retired one after the other: the point is being withdrawn, none of its keys waits any more. -/
structure Retiring (p : PointId) (l : List RecordIx) (s : State) : Prop where
  conditions : Conditions (.withdrawing p) s
  settled : ∀ kind, ¬ (s.key { point := p, kind }).state.pends
  watch : s.tb.mode = .watch
  once : l.Nodup
  keys : ∀ i ∈ l, ∃ kind, (s.record i).holds { point := p, kind }

/-- What retirements one after the other leave. -/
structure RetiredEach (g : GroupId) (l : List RecordIx) (s x : State) : Prop where
  outside : x.outside = s.outside
  tb : x.tb = s.tb
  sg : x.sg = s.sg
  points : ∀ q, (x.point q).defn = (s.point q).defn ∧ (x.point q).lowBucket = (s.point q).lowBucket ∧
    (x.point q).highBucket = (s.point q).highBucket ∧ (x.point q).shelve = (s.point q).shelve ∧ (x.point q).stale = (s.point q).stale
  others : ∀ i, i ∉ l → x.record i = s.record i
  handed : ∀ (j : Nat) i w v, l[j]? = some i → s.rt.poolWait[j]? = some w → (s.key w).pending = some v →
    x.key w = { state := .raised, link := some i, pending := none } ∧ x.record i = begun (.point w) v.severity v.value s
  freed : ∀ (j : Nat) i, l[j]? = some i → s.rt.poolWait[j]? = none → x.record i = ended .free (s.record i)
  otherKeys : ∀ k, k ∉ s.rt.poolWait.take l.length → (∀ i ∈ l, ¬ (s.record i).holds k) → x.key k = s.key k
  poolWait : x.rt.poolWait = s.rt.poolWait.drop l.length
  free : x.rt.free = s.rt.free ++ l.drop s.rt.poolWait.length
  standing : x.rt.standing = s.rt.standing.filter (fun i => !l.contains i) ++ l.take s.rt.poolWait.length
  acknowledged : x.rt.acknowledged = s.rt.acknowledged.filter fun i => !l.contains i
  cleared : x.rt.cleared = s.rt.cleared.filter fun i => !l.contains i
  changeCount : x.rt.changeCount = s.rt.changeCount + BitVec.ofNat 16 (l.length + 2 * min l.length s.rt.poolWait.length)
  nu : x.nu = if (s.rt.poolWait.take l.length).any (noticed s) then { s.nu with flags := s.nu.flags ||| 0x02#8 } else s.nu
  events : counted (handTallies g s s.rt.poolWait l) s x

/-! ## The next retirement -/

/-- Where the record of the next retirement goes: to the Free tail, with no key waiting. -/
structure NextFreed (g : GroupId) (i : RecordIx) (s t : State) : Prop where
  waits : s.rt.poolWait = []
  waits' : t.rt.poolWait = []
  record : t.record i = ended .free (s.record i)
  free : t.rt.free = s.rt.free ++ [i]
  standing : t.rt.standing = s.rt.standing.erase i
  changeCount : t.rt.changeCount = s.rt.changeCount + 1#16
  nu : t.nu = s.nu
  events : counted [(g, .retired, some (s.record i).severity, liveDuration (s.record i) s)] s t

/-- Where the record of the next retirement goes: to the key that waits first. -/
structure NextHanded (g : GroupId) (p : PointId) (i : RecordIx) (w : PointKey) (wait : List PointKey) (s t : State) : Prop where
  waits : s.rt.poolWait = w :: wait
  waits' : t.rt.poolWait = wait
  apart : w.point ≠ p
  pending : (s.key w).pending = some (s.pendingOf w)
  key : t.key w = { state := .raised, link := some i, pending := none }
  record : t.record i = begun (.point w) (s.pendingOf w).severity (s.pendingOf w).value s
  free : t.rt.free = s.rt.free
  standing : t.rt.standing = s.rt.standing.erase i ++ [i]
  changeCount : t.rt.changeCount = s.rt.changeCount + 3#16
  nu : t.nu = if noticed s w then { s.nu with flags := s.nu.flags ||| 0x02#8 } else s.nu
  events : counted [(g, .retired, some (s.record i).severity, liveDuration (s.record i) s),
    (s.groupOf w, .released, some (s.pendingOf w).severity, 0), (s.groupOf w, .raised, some (s.pendingOf w).severity, 0)] s t

/-- What the next retirement changes and leaves, wherever the record goes. -/
structure NextRetired (p : PointId) (i : RecordIx) (s t : State) : Prop where
  outside : t.outside = s.outside
  tb : t.tb = s.tb
  sg : t.sg = s.sg
  points : ∀ q, (t.point q).defn = (s.point q).defn ∧ (t.point q).lowBucket = (s.point q).lowBucket ∧
    (t.point q).highBucket = (s.point q).highBucket ∧ (t.point q).shelve = (s.point q).shelve ∧ (t.point q).stale = (s.point q).stale
  others : ∀ j, j ≠ i → t.record j = s.record j
  otherKeys : ∀ k, ¬ (s.record i).holds k → s.rt.poolWait.head? ≠ some k → t.key k = s.key k
  acknowledged : t.rt.acknowledged = s.rt.acknowledged.erase i
  cleared : t.rt.cleared = s.rt.cleared.erase i
  goes : NextFreed (s.groupOf { point := p, kind := .low }) i s t ∨
    ∃ w wait, NextHanded (s.groupOf { point := p, kind := .low }) p i w wait s t

/-- In Watch a raise is judged for its notice alone. -/
theorem judged_of_watch (watch : s.tb.mode = .watch) {sev : Severity} {shelved : Bool} {nu : NoticeUnit} {tb : TimeBase}
    (judges : (nu, tb) = judged i sev shelved s) :
    nu = (if s.nu.level.level ≤ sev.level ∧ shelved = false then { s.nu with flags := s.nu.flags ||| 0x02#8 } else s.nu) ∧ tb = s.tb := by
  have notice : judged i sev shelved s =
      ({ s.nu with flags := if s.nu.level.level ≤ sev.level ∧ shelved = false then s.nu.flags ||| 0x02#8 else s.nu.flags }, s.tb) := by
    unfold judged
    rw [if_neg (by rw [watch]; exact fun all => nomatch all.2.2), if_neg (by rw [watch]; exact fun all => nomatch all.2.2)]
  obtain ⟨nuIs, tbIs⟩ := Prod.mk.inj (judges.trans notice)
  refine ⟨nuIs.trans ?_, tbIs⟩
  split <;> rfl

theorem Retiring.next (h : Retiring p (i :: l) s) : NextRetired p i s (retire i s) := by
  obtain ⟨kind, holds⟩ := h.keys i List.mem_cons_self
  have live := h.conditions.live_of_holds holds
  have pool := isPool_of_point h.conditions.table holds
  have notWaiting := h.conditions.not_waits (h.settled kind)
  have kept : Kept s (retire i s) := (Kept.refl s).retire
  obtain ⟨outside, sg, -, -, empty, waits⟩ := retired_retire h.conditions.table.lists pool live holds notWaiting
  generalize retire i s = t at kept outside sg empty waits ⊢
  have own (k : PointKey) (not : ¬ (s.record i).holds k) : k ≠ { point := p, kind } := fun same => not (same ▸ holds)
  cases waiting : s.rt.poolWait with
  | nil =>
    obtain ⟨rt, keys, nu, tb, events⟩ := empty waiting
    refine ⟨outside, tb, sg, kept.point h.watch, fun j other => ?_, fun k not _ => keys k (own k not), by rw [rt], by rw [rt],
      .inl ⟨waiting, by rw [rt, waiting], ?_, by rw [rt], by rw [rt], by rw [rt], nu, events⟩⟩
    · rw [State.record, rt, vget_vset, if_neg other.symm]
      rfl
    · rw [State.record, rt, vget_vset, if_pos rfl]
  | cons w wait =>
    have state : (s.key w).state = .waiting := (h.conditions.keys w).waiting.1 (by rw [waiting]; exact List.mem_cons_self)
    have pending : (s.key w).pending = some (s.pendingOf w) := by
      have some' := (h.conditions.keys w).pendingByState
      rw [decide_eq_true (.inr state)] at some'
      obtain ⟨v, found⟩ := Option.isSome_iff_exists.1 some'
      rw [found, pendingOf_of_pending found]
    obtain ⟨rt, key, keys, judges, events⟩ := waits w wait _ waiting pending ((h.conditions.keys w).carries (.inr state)).value
    obtain ⟨nu, tb⟩ := judged_of_watch h.watch judges
    have apart : w.point ≠ p := fun same => h.settled w.kind (by
      rw [show ({ point := p, kind := w.kind } : PointKey) = w by rw [← same]]
      exact .inr (.inl state))
    refine ⟨outside, tb, sg, kept.point h.watch, fun j other => ?_, fun k not first => keys k (own k not) fun same => first (by rw [waiting, same]; rfl),
      by rw [rt], by rw [rt], .inr ⟨w, wait, waiting, by rw [rt], apart, pending, key, ?_, by rw [rt], by rw [rt]; rfl, by rw [rt], ?_, events⟩⟩
    · rw [State.record, rt, vget_vset, if_neg other.symm]
      rfl
    · rw [State.record, rt, vget_vset, if_pos rfl]
    · rw [nu]
      simp [noticed]

theorem Retiring.step (h : Retiring p (i :: l) s) : Retiring p l (retire i s) := by
  obtain ⟨notIn, once⟩ := List.nodup_cons.1 h.once
  obtain ⟨kind, holds⟩ := h.keys i List.mem_cons_self
  have next := h.next
  have key (kind' : Kind) := key_retire_of_holds h.conditions holds { point := p, kind := kind' } (h.conditions.not_waits (h.settled kind'))
  refine ⟨h.conditions.retire holds fun _ asked => absurd rfl asked, fun kind' => ?_, (Kept.refl s).retire.mode.watch h.watch, once, fun i' m => ?_⟩
  · rw [key]
    split
    · simp [KeyState.pends, KeyEntry.quiet]
    · exact h.settled kind'
  · obtain ⟨kind', holds'⟩ := h.keys i' (List.mem_cons_of_mem i m)
    rw [next.others i' fun same => notIn (same ▸ m)]
    exact ⟨kind', holds'⟩

/-- No record that is to be retired is that of a key that waits. -/
theorem Retiring.not_holds (h : Retiring p l s) (waits : w ∈ s.rt.poolWait) (m : i ∈ l) : ¬ (s.record i).holds w := fun holds => by
  obtain ⟨kind, own⟩ := h.keys i m
  have same : ({ point := p, kind } : PointKey) = w := Key.point.inj (Option.some.inj (own.symm.trans holds))
  exact h.conditions.not_waits (h.settled kind) (same ▸ waits)

/-! ## One retirement before the others -/

theorem filter_erase {once : List RecordIx} (nodup : once.Nodup) (i : RecordIx) (l : List RecordIx) :
    (once.erase i).filter (fun j => !l.contains j) = once.filter fun j => !(i :: l).contains j := by
  rw [nodup.erase_eq_filter, List.filter_filter]
  refine List.filter_congr fun j _ => ?_
  by_cases same : j = i <;> simp [same]

theorem handTallies_congr (records : ∀ i ∈ l, t.record i = s.record i) (time : t.tb.hutTime = s.tb.hutTime)
    (keys : ∀ w ∈ wait, t.pendingOf w = s.pendingOf w) (groups : ∀ w, t.groupOf w = s.groupOf w) :
    handTallies g t wait l = handTallies g s wait l := by
  induction l generalizing wait with
  | nil => cases wait <;> rfl
  | cons i l ih =>
    have own : liveDuration (t.record i) t = liveDuration (s.record i) s := by
      rw [liveDuration, liveDuration, time, records i List.mem_cons_self]
    have rest (wait : List PointKey) (keys : ∀ w ∈ wait, t.pendingOf w = s.pendingOf w) :=
      ih (fun j m => records j (List.mem_cons_of_mem i m)) keys
    cases wait with
    | nil => rw [handTallies, handTallies, own, records i List.mem_cons_self, rest [] nofun]
    | cons w wait =>
      rw [handTallies, handTallies, own, records i List.mem_cons_self, rest wait fun w' m => keys w' (List.mem_cons_of_mem w m), groups,
        keys w List.mem_cons_self]

theorem steps_add (c : Half) (m n : Nat) : c + BitVec.ofNat 16 m + BitVec.ofNat 16 n = c + BitVec.ofNat 16 (m + n) := by
  rw [BitVec.add_assoc, ← BitVec.ofNat_add]

theorem RetiredEach.refl (g : GroupId) (s : State) : RetiredEach g [] s s where
  outside := rfl
  tb := rfl
  sg := rfl
  points _ := ⟨rfl, rfl, rfl, rfl, rfl⟩
  others _ _ := rfl
  handed j i w v m := nomatch m
  freed j i m := nomatch m
  otherKeys _ _ _ := rfl
  poolWait := rfl
  free := by simp
  standing := by simp
  acknowledged := by simp
  cleared := by simp
  changeCount := by simp
  nu := rfl
  events := by
    cases waits : s.rt.poolWait <;> exact counted_refl s

/-- What is left by one retirement, with no key waiting, and then by the others. -/
theorem NextFreed.then {g : GroupId} (f : NextFreed g i s t) (n : NextRetired p i s t) (r : Retiring p (i :: l) s) (h : RetiredEach g l t x) :
    RetiredEach g (i :: l) s x := by
  obtain ⟨notIn, once⟩ := List.nodup_cons.1 r.once
  have lists := r.conditions.table.lists
  have records (j : RecordIx) (m : j ∈ l) : t.record j = s.record j := n.others j fun same => notIn (same ▸ m)
  have waits := f.waits
  have groups (w : PointKey) : t.groupOf w = s.groupOf w := by rw [State.groupOf, State.groupOf, (n.points w.point).1]
  refine ⟨h.outside.trans n.outside, h.tb.trans n.tb, h.sg.trans n.sg, fun q => ?_, fun j out => ?_, fun j j' w v _ found => ?_, fun j j' found _ => ?_,
    fun k _ not => ?_, ?_, ?_, ?_, ?_, ?_, ?_, ?_, ?_⟩
  · obtain ⟨a, b, c, d, e⟩ := h.points q
    obtain ⟨a', b', c', d', e'⟩ := n.points q
    exact ⟨a.trans a', b.trans b', c.trans c', d.trans d', e.trans e'⟩
  · exact (h.others j (List.not_mem_of_not_mem_cons out)).trans (n.others j (List.ne_of_not_mem_cons out))
  · rw [waits] at found
    cases found
  · cases j with
    | zero =>
      obtain rfl := Option.some.inj found
      exact (h.others i notIn).trans f.record
    | succ j =>
      have found : l[j]? = some j' := found
      rw [h.freed j j' found (by rw [f.waits']; rfl), records j' (List.mem_of_getElem? found)]
  · refine (h.otherKeys k (by rw [f.waits']; simp) fun j m holds => not j (List.mem_cons_of_mem i m) ?_).trans
      (n.otherKeys k (not i List.mem_cons_self) (by rw [waits]; exact fun same => nomatch same))
    rwa [records j m] at holds
  · rw [h.poolWait, f.waits', waits]
    simp
  · rw [h.free, f.free, f.waits', waits]
    simp
  · rw [h.standing, f.standing, f.waits', waits, filter_erase lists.standingOnce]
    simp
  · rw [h.acknowledged, n.acknowledged, filter_erase lists.acknowledgedOnce]
  · rw [h.cleared, n.cleared, filter_erase lists.clearedOnce]
  · rw [h.changeCount, f.changeCount, f.waits', waits, steps_add]
    simp [Nat.add_comm]
  · rw [h.nu, f.nu, f.waits', waits]
    simp
  · have events := h.events
    rw [f.waits', handTallies_congr records (by rw [n.tb]) (fun _ m => absurd m List.not_mem_nil) groups] at events
    rw [waits]
    exact counted_append (first := [_]) f.events events

/-- What is left by one retirement, its record handed to the key that waits first, and then by the others. -/
theorem NextHanded.then {g : GroupId} (f : NextHanded g p i w wait s t) (n : NextRetired p i s t) (r : Retiring p (i :: l) s)
    (h : RetiredEach g l t x) : RetiredEach g (i :: l) s x := by
  obtain ⟨notIn, once⟩ := List.nodup_cons.1 r.once
  have lists := r.conditions.table.lists
  have waits := f.waits
  have waitOnce := r.conditions.lists.waitOnce
  rw [waits] at waitOnce
  obtain ⟨notW, waitOnce⟩ := List.nodup_cons.1 waitOnce
  have records (j : RecordIx) (m : j ∈ l) : t.record j = s.record j := n.others j fun same => notIn (same ▸ m)
  have groups (w : PointKey) : t.groupOf w = s.groupOf w := by rw [State.groupOf, State.groupOf, (n.points w.point).1]
  have keys (w' : PointKey) (m : w' ∈ wait) : t.key w' = s.key w' := by
    refine n.otherKeys w' (r.not_holds (by rw [waits]; exact List.mem_cons_of_mem w m) List.mem_cons_self) ?_
    rw [waits]
    exact fun same => notW (Option.some.inj same ▸ m)
  have pendings (w' : PointKey) (m : w' ∈ wait) : t.pendingOf w' = s.pendingOf w' := pendingOf_congr (keys w' m)
  have notices (w' : PointKey) (m : w' ∈ wait) : noticed t w' = noticed s w' := by
    rw [noticed, noticed, pendings w' m, (n.points w'.point).2.2.2.1, show t.nu.level = s.nu.level from congrArg Outside.level n.outside]
  have any : (wait.take l.length).any (noticed t) = (wait.take l.length).any (noticed s) := by
    rw [Bool.eq_iff_iff, List.any_eq_true, List.any_eq_true]
    exact exists_congr fun w' => and_congr_right fun m => by rw [notices w' (List.mem_of_mem_take m)]
  refine ⟨h.outside.trans n.outside, h.tb.trans n.tb, h.sg.trans n.sg, fun q => ?_, fun j out => ?_, fun j j' w' v place found pending => ?_,
    fun j j' place found => ?_, fun k outside not => ?_, ?_, ?_, ?_, ?_, ?_, ?_, ?_, ?_⟩
  · obtain ⟨a, b, c, d, e⟩ := h.points q
    obtain ⟨a', b', c', d', e'⟩ := n.points q
    exact ⟨a.trans a', b.trans b', c.trans c', d.trans d', e.trans e'⟩
  · exact (h.others j (List.not_mem_of_not_mem_cons out)).trans (n.others j (List.ne_of_not_mem_cons out))
  · rw [waits] at found
    cases j with
    | zero =>
      obtain rfl := Option.some.inj place
      obtain rfl := Option.some.inj found
      have carried : s.pendingOf w = v := pendingOf_of_pending pending
      refine ⟨(h.otherKeys w ?_ ?_).trans f.key, (h.others i notIn).trans (carried ▸ f.record)⟩
      · rw [f.waits']
        exact fun m => notW (List.mem_of_mem_take m)
      · intro j m
        rw [records j m]
        exact r.not_holds (by rw [waits]; exact List.mem_cons_self) (List.mem_cons_of_mem i m)
    | succ j =>
      have place : l[j]? = some j' := place
      have found : wait[j]? = some w' := found
      have m := List.mem_of_getElem? found
      obtain ⟨key, record⟩ := h.handed j j' w' v place (by rw [f.waits']; exact found) (by rw [keys w' m]; exact pending)
      refine ⟨key, record.trans ?_⟩
      rw [begun, begun, n.tb]
  · rw [waits] at found
    cases j with
    | zero => cases found
    | succ j =>
      have place : l[j]? = some j' := place
      have found : wait[j]? = none := found
      rw [h.freed j j' place (by rw [f.waits']; exact found), records j' (List.mem_of_getElem? place)]
  · rw [waits, List.length_cons, List.take_succ_cons] at outside
    refine (h.otherKeys k (by rw [f.waits']; exact List.not_mem_of_not_mem_cons outside) fun j m holds => not j (List.mem_cons_of_mem i m) ?_).trans
      (n.otherKeys k (not i List.mem_cons_self) (by
        rw [waits]
        exact fun same => List.ne_of_not_mem_cons outside (Option.some.inj same).symm))
    rwa [records j m] at holds
  · rw [h.poolWait, f.waits', waits]
    rfl
  · rw [h.free, f.free, f.waits', waits]
    rfl
  · rw [h.standing, f.standing, f.waits', waits, List.filter_append, filter_erase lists.standingOnce]
    simp [notIn]
  · rw [h.acknowledged, n.acknowledged, filter_erase lists.acknowledgedOnce]
  · rw [h.cleared, n.cleared, filter_erase lists.clearedOnce]
  · rw [h.changeCount, f.changeCount, f.waits', waits, steps_add, List.length_cons, List.length_cons, Nat.succ_min_succ]
    congr 2
    omega
  · rw [h.nu, f.waits', waits, List.length_cons, List.take_succ_cons, List.any_cons, any, f.nu]
    have again : s.nu.flags ||| 0x02#8 ||| 0x02#8 = s.nu.flags ||| 0x02#8 := by rw [BitVec.or_assoc, BitVec.or_self]
    cases noticed s w <;> cases (wait.take l.length).any (noticed s) <;> simp [again]
  · have events := h.events
    rw [f.waits', handTallies_congr records (by rw [n.tb]) pendings groups] at events
    rw [waits]
    exact counted_append (first := [_, _, _]) f.events events

/-- Records of a point that is being withdrawn, retired one after the other. -/
theorem Retiring.each (h : Retiring p l s) : RetiredEach (s.groupOf { point := p, kind := .low }) l s (retireEach l s) := by
  induction l generalizing s with
  | nil => exact .refl _ s
  | cons i l ih =>
    have next := h.next
    have rest := ih h.step
    have group : (retire i s).groupOf { point := p, kind := .low } = s.groupOf { point := p, kind := .low } := by
      rw [State.groupOf, State.groupOf, (next.points p).1]
    rw [group] at rest
    rcases next.goes with freed | ⟨w, wait, handed⟩
    · exact freed.then next h rest
    · exact handed.then next h rest

end Retires

end Sys2Proof.Machine
end

