-- ==== Sys2Proof/Proofs/WithdrawDrops.lean ====
section
/-! PROOF. What waits of a point dropped key by key, as a withdrawal does (R40): the lists, the sets, and the storm record. -/

namespace Sys2Proof.Machine

section Drops

variable {p : PointId} {kind : Kind} {g : GroupId} {s t : State}

/-- The record table after the storm record of a group has cleared, but for the change count (R15, R17). -/
def stormTable (g : GroupId) (s : State) : RecordTable :=
  if (s.record (stormIx g)).state = .standing then
    { s.rt with
      records := vset s.rt.records (stormIx g) { s.record (stormIx g) with state := .cleared, clearTime := some s.tb.hutTime }
      standing := s.rt.standing.erase (stormIx g)
      cleared := toTail (stormIx g) s.rt.cleared }
  else
    { s.rt with
      records := vset s.rt.records (stormIx g) (ended .idle (s.record (stormIx g)))
      acknowledged := s.rt.acknowledged.erase (stormIx g) }

/-- The events of a storm record that clears. -/
def stormTallies (g : GroupId) (s : State) : List Tally :=
  (g, .cleared, some (s.record (stormIx g)).severity, liveDuration (s.record (stormIx g)) s) ::
    if (s.record (stormIx g)).state = .standing then []
    else [(g, .retired, some (s.record (stormIx g)).severity, liveDuration (s.record (stormIx g)) s)]

/-- The drop of a key of a point lets the storm record of its group clear. -/
abbrev Settles (p : PointId) (kind : Kind) (g : GroupId) (s : State) : Prop :=
  (s.key { point := p, kind }).state = .folded ∧ (s.governor g).gate = .opened ∧ (s.governor g).folded.erase { point := p, kind } = []

/-- How far the drop of a key advances the change count by itself. -/
def dropSteps (x : KeyState) : Nat := if x = .held ∨ x = .waiting then 1 else 0

/-- What is left when one key of a point has been dropped from whatever list or set it waited on. -/
structure OneDropped (p : PointId) (kind : Kind) (g : GroupId) (s t : State) : Prop where
  kept : Kept s t
  tb : t.tb = s.tb
  nu : t.nu = s.nu
  keys : ∀ k, { point := p, kind } ≠ k → t.key k = s.key k
  links : ∀ k, (t.key k).link = (s.key k).link
  governors : ∀ h, t.governor h = { s.governor h with
    held := (s.governor h).held.erase { point := p, kind }, folded := (s.governor h).folded.erase { point := p, kind } }
  rt : t.rt = { (if Settles p kind g s then stormTable g s else s.rt) with
    poolWait := s.rt.poolWait.erase { point := p, kind }
    changeCount := s.rt.changeCount +
      BitVec.ofNat 16 (dropSteps (s.key { point := p, kind }).state + if Settles p kind g s then 1 else 0) }
  events : counted (if Settles p kind g s then stormTallies g s else []) s t

theorem rt_of_stormCleared (live : (s.record (stormIx g)).state = .standing ∨ (s.record (stormIx g)).state = .acknowledged)
    (h : StormCleared [] g s t) : t.rt = { stormTable g s with changeCount := s.rt.changeCount + 1#16 } ∧ counted (stormTallies g s) s t := by
  obtain ⟨-, -, -, standing, acknowledged⟩ := h
  rcases live with state | state
  · obtain ⟨rt, events⟩ := standing state
    simp only [stormTable, stormTallies, state, if_true]
    exact ⟨rt, events⟩
  · obtain ⟨rt, events⟩ := acknowledged state
    simp only [stormTable, stormTallies, state]
    exact ⟨rt, events⟩

/-- The storm record of a group that has folded keys is Standing or Acknowledged. -/
theorem Conditions.storm_of_folded (h : Conditions (.withdrawing p) s) (folded : (s.governor g).folded ≠ []) :
    (s.record (stormIx g)).state = .standing ∨ (s.record (stormIx g)).state = .acknowledged :=
  ((h.storms g).folded folded).2.resolve_left id

theorem links_dropPending (h : Conditions (.withdrawing p) s) (kind : Kind) (k : PointKey) : ((dropPending p s kind).key k).link = (s.key k).link := by
  obtain ⟨dropped, kept⟩ := key_dropPending h.table p kind k
  by_cases own : (s.key { point := p, kind }).state.pends ∧ { point := p, kind } = k
  · rw [dropped own.1 own.2, ← own.2, h.link_of_waits own.1]
    rfl
  · rw [kept (not_and_or.1 own)]

theorem oneDropped_of_waiting (h : Conditions (.withdrawing p) s) (waiting : (s.key { point := p, kind }).state = .waiting) :
    OneDropped p kind g s (dropPending p s kind) := by
  have drops : dropPending p s kind = advance 1 (putKey { point := p, kind } .quiet
      { s with rt := { s.rt with poolWait := s.rt.poolWait.erase { point := p, kind } } }) := by
    simp only [dropPending, waiting]
  have kept : Kept s (dropPending p s kind) := (Kept.refl s).dropPending
  have links := links_dropPending h kind
  have unsettled : ¬ Settles p kind g s := fun all => nomatch waiting.symm.trans all.1
  rw [drops] at kept links ⊢
  refine ⟨kept, rfl, rfl, fun k other => ?_, links, fun i => ?_, ?_, ?_⟩
  · exact (key_putKey _ _ _ _).trans (if_neg other)
  · rw [h.erase_folded i (.inl (by rw [waiting]; nofun)), h.erase_held i (.inl (by rw [waiting]; nofun))]
    rfl
  · rw [if_neg unsettled, if_neg unsettled, waiting]
    rfl
  · rw [if_neg unsettled]
    exact counted_refl s

section One

variable (h : Conditions (.withdrawing p) s) (group : s.groupOf { point := p, kind } = g)

include h group

/-- The governors, when one of them is written as a drop writes it. -/
theorem governors_of_erase {x : Governor} (sg : t.sg = vset s.sg g x)
    (own : x = { s.governor g with
      held := (s.governor g).held.erase { point := p, kind }, folded := (s.governor g).folded.erase { point := p, kind } })
    (i : GroupId) : t.governor i = { s.governor i with
      held := (s.governor i).held.erase { point := p, kind }, folded := (s.governor i).folded.erase { point := p, kind } } := by
  rw [State.governor, sg, vget_vset]
  split
  · next same => rw [own, same]
  · next other => rw [h.erase_held i (.inr (by rw [group]; exact other)), h.erase_folded i (.inr (by rw [group]; exact other))]; rfl

theorem oneDropped_of_held (held : (s.key { point := p, kind }).state = .held) : OneDropped p kind g s (dropPending p s kind) := by
  have drops : dropPending p s kind = advance 1 (putKey { point := p, kind } .quiet (putGovernor g
      { s.governor g with held := (s.governor g).held.erase { point := p, kind } } s)) := by
    simp only [dropPending, held, group]
  have links := links_dropPending h kind
  have unsettled : ¬ Settles p kind g s := fun all => nomatch held.symm.trans all.1
  rw [drops] at links ⊢
  refine ⟨(Kept.refl s).putGovernor.putKey.advance, rfl, rfl, fun k other => ?_, links, governors_of_erase h group rfl ?_, ?_, ?_⟩
  · exact (key_putKey _ _ _ _).trans (if_neg other)
  · rw [h.erase_folded g (.inl (by rw [held]; nofun))]
  · rw [if_neg unsettled, if_neg unsettled, h.erase_poolWait (by rw [held]; nofun), held]
    rfl
  · rw [if_neg unsettled]
    exact counted_refl s

theorem oneDropped_of_folded (folded : (s.key { point := p, kind }).state = .folded) : OneDropped p kind g s (dropPending p s kind) := by
  let x : Governor := { s.governor g with folded := (s.governor g).folded.erase { point := p, kind } }
  let u := putKey { point := p, kind } .quiet (putGovernor g x s)
  have drops : dropPending p s kind = stormClearIfDue g u := by simp only [dropPending, folded, group]; rfl
  have kept : Kept s (dropPending p s kind) := (Kept.refl s).dropPending
  have links := links_dropPending h kind
  have tableU : TableLaw u := h.table.of_rt rfl
  have governorU : u.governor g = x := (governor_putGovernor g g x s).trans (if_pos rfl)
  have keysU (k : PointKey) (other : { point := p, kind } ≠ k) : u.key k = s.key k := (key_putKey _ _ _ _).trans (if_neg other)
  have sg : (stormClearIfDue g u).sg = vset s.sg g x := sg_stormClearIfDue g u
  have member : { point := p, kind } ∈ (s.governor g).folded := ((h.keys _).folded g).2 ⟨folded, group⟩
  have own : x = { s.governor g with
      held := (s.governor g).held.erase { point := p, kind }, folded := (s.governor g).folded.erase { point := p, kind } } := by
    rw [h.erase_held g (.inl (by rw [folded]; nofun))]
  have poolWait := h.erase_poolWait (k := { point := p, kind }) (by rw [folded]; nofun)
  rw [drops] at kept links ⊢
  by_cases settles : Settles p kind g s
  · have asked : stormClearIfDue g u = clearLatched (stormIx g) u := by
      unfold stormClearIfDue
      dsimp only
      rw [governorU]
      exact if_pos settles.2
    have cleared : StormCleared [] g s (clearLatched (stormIx g) u) :=
      StormCleared.after (u := u) rfl rfl rfl (counted_refl s) (stormCleared_clearLatched tableU g)
    rw [asked] at kept links sg ⊢
    obtain ⟨rt, events⟩ := rt_of_stormCleared (h.storm_of_folded (List.ne_nil_of_mem member)) cleared
    refine ⟨kept, cleared.2.1, cleared.1, fun k other => ?_, links, governors_of_erase h group sg own, ?_, ?_⟩
    · rw [key_clearLatched_storm tableU, keysU k other]
    · rw [rt, if_pos settles, if_pos settles, poolWait, folded]
      unfold stormTable
      split <;> rfl
    · rw [if_pos settles]
      exact events
  · have still : stormClearIfDue g u = u := by
      unfold stormClearIfDue
      dsimp only
      rw [governorU]
      exact if_neg fun due => settles ⟨folded, due⟩
    rw [still] at kept links sg ⊢
    refine ⟨kept, rfl, rfl, keysU, links, governors_of_erase h group sg own, ?_, ?_⟩
    · rw [if_neg settles, if_neg settles, poolWait, folded]
      exact (congrArg (fun c => { s.rt with changeCount := c }) (BitVec.add_zero s.rt.changeCount)).symm
    · rw [if_neg settles]
      exact counted_refl s

theorem oneDropped_dropPending : OneDropped p kind g s (dropPending p s kind) := by
  by_cases pends : (s.key { point := p, kind }).state.pends
  · rcases pends with held | waiting | folded
    · exact oneDropped_of_held h group held
    · exact oneDropped_of_waiting h waiting
    · exact oneDropped_of_folded h group folded
  · obtain ⟨held, rest⟩ := not_or.1 pends
    obtain ⟨waiting, folded⟩ := not_or.1 rest
    have unsettled : ¬ Settles p kind g s := fun all => folded all.1
    rw [dropPending_of_other pends]
    refine ⟨Kept.refl s, rfl, rfl, fun _ _ => rfl, fun _ => rfl, fun i => ?_, ?_, ?_⟩
    · rw [h.erase_folded i (.inl folded), h.erase_held i (.inl held)]
    · rw [if_neg unsettled, if_neg unsettled, h.erase_poolWait waiting, dropSteps, if_neg (not_or.2 ⟨held, waiting⟩)]
      exact (congrArg (fun c => { s.rt with changeCount := c }) (BitVec.add_zero s.rt.changeCount)).symm
    · rw [if_neg unsettled]
      exact counted_refl s

end One

/-! ## The keys of a point, one after the other -/

/-- Whether a key is left by the drops of some kinds of a point. -/
def stays (p : PointId) (ks : List Kind) (k : PointKey) : Bool := decide (¬ (k.point = p ∧ k.kind ∈ ks))

/-- The drops of some kinds of a point let the storm record of its group clear: the last Folded key is among them, with the governor
Open. -/
abbrev StormEnds (p : PointId) (ks : List Kind) (g : GroupId) (s : State) : Prop :=
  (s.governor g).gate = .opened ∧ (s.governor g).folded ≠ [] ∧ ∀ k ∈ (s.governor g).folded, k.point = p ∧ k.kind ∈ ks

/-- How far the drops of some kinds advance the change count by themselves. -/
def dropCount (p : PointId) (ks : List Kind) (s : State) : Nat := (ks.map fun kind => dropSteps (s.key { point := p, kind }).state).sum

/-- What is left when some kinds of a point have been dropped from whatever they waited on. -/
structure DroppedAll (p : PointId) (ks : List Kind) (g : GroupId) (s t : State) : Prop where
  kept : Kept s t
  tb : t.tb = s.tb
  nu : t.nu = s.nu
  keys : ∀ k, k.point ≠ p ∨ k.kind ∉ ks → t.key k = s.key k
  links : ∀ k, (t.key k).link = (s.key k).link
  governors : ∀ h, t.governor h = { s.governor h with
    held := (s.governor h).held.filter (stays p ks), folded := (s.governor h).folded.filter (stays p ks) }
  rt : t.rt = { (if StormEnds p ks g s then stormTable g s else s.rt) with
    poolWait := s.rt.poolWait.filter (stays p ks)
    changeCount := s.rt.changeCount + BitVec.ofNat 16 (dropCount p ks s + if StormEnds p ks g s then 1 else 0) }
  events : counted (if StormEnds p ks g s then stormTallies g s else []) s t

theorem filter_stays_erase {l : List PointKey} (once : l.Nodup) (p : PointId) (ks : List Kind) (kind : Kind) :
    (l.filter (stays p ks)).erase { point := p, kind } = l.filter (stays p (ks ++ [kind])) := by
  rw [(once.filter _).erase_eq_filter, List.filter_filter]
  refine List.filter_congr fun k _ => ?_
  obtain ⟨q, kind'⟩ := k
  rw [Bool.eq_iff_iff]
  simp only [stays, Bool.and_eq_true, bne_iff_ne, ne_eq, PointKey.mk.injEq, decide_eq_true_eq, List.mem_append, List.mem_singleton]
  tauto

theorem stormTable_congr {pool : List PointKey} {count : Half} (rt : t.rt = { s.rt with poolWait := pool, changeCount := count })
    (tb : t.tb = s.tb) : stormTable g t = { stormTable g s with poolWait := pool, changeCount := count } := by
  have record : t.record (stormIx g) = s.record (stormIx g) := by rw [State.record, rt]; rfl
  unfold stormTable
  rw [record, tb, rt]
  split <;> rfl

theorem stormTallies_congr (record : t.record (stormIx g) = s.record (stormIx g)) (tb : t.tb = s.tb) : stormTallies g t = stormTallies g s := by
  have duration : liveDuration (t.record (stormIx g)) t = liveDuration (s.record (stormIx g)) s := by
    rw [liveDuration, liveDuration, record, tb]
  rw [stormTallies, stormTallies, duration, record]

theorem DroppedAll.nil (s : State) : DroppedAll p [] g s s := by
  have all (l : List PointKey) : l.filter (stays p []) = l := List.filter_eq_self.2 fun k _ => by simp [stays]
  have not : ¬ StormEnds p [] g s := fun ends => by
    obtain ⟨k, m⟩ := List.exists_mem_of_ne_nil _ ends.2.1
    exact List.not_mem_nil (ends.2.2 k m).2
  refine ⟨Kept.refl s, rfl, rfl, fun _ _ => rfl, fun _ => rfl, fun h => by rw [all, all], ?_, ?_⟩
  · rw [if_neg not, if_neg not, all]
    exact (congrArg (fun c => { s.rt with changeCount := c }) (BitVec.add_zero s.rt.changeCount)).symm
  · rw [if_neg not]
    exact counted_refl s

theorem dropCount_snoc (p : PointId) (ks : List Kind) (kind : Kind) (s : State) :
    dropCount p (ks ++ [kind]) s = dropCount p ks s + dropSteps (s.key { point := p, kind }).state := by
  simp [dropCount]

section Snoc

variable {ks : List Kind} {u : State} (h : Conditions (.withdrawing p) s) (group : s.groupOf { point := p, kind } = g)
  (d : DroppedAll p ks g s t) (later : kind ∉ ks)

include h group d later

/-- The drop of a later key is the one that lets the storm record clear, or it makes no difference to that. -/
theorem DroppedAll.settles :
    (Settles p kind g t ∧ ¬ StormEnds p ks g s ∧ StormEnds p (ks ++ [kind]) g s) ∨
      (¬ Settles p kind g t ∧ (StormEnds p (ks ++ [kind]) g s ↔ StormEnds p ks g s)) := by
  have own : t.key { point := p, kind } = s.key { point := p, kind } := d.keys _ (.inr later)
  have gate : (t.governor g).gate = (s.governor g).gate := by rw [d.governors]
  have folded : (t.governor g).folded.erase { point := p, kind } = (s.governor g).folded.filter (stays p (ks ++ [kind])) := by
    rw [d.governors]
    exact filter_stays_erase (h.lists.foldedOnce g) p ks kind
  have member : { point := p, kind } ∈ (s.governor g).folded ↔ (s.key { point := p, kind }).state = .folded :=
    ((h.keys _).folded g).trans (and_iff_left group)
  have gone : (s.governor g).folded.filter (stays p (ks ++ [kind])) = [] ↔
      ∀ k ∈ (s.governor g).folded, k.point = p ∧ k.kind ∈ ks ++ [kind] := by
    rw [List.filter_eq_nil_iff]
    simp only [stays, decide_eq_true_eq, not_not]
  by_cases settles : Settles p kind g t
  · obtain ⟨state, opened, none⟩ := settles
    have m := member.2 (own ▸ state)
    refine .inl ⟨⟨state, opened, none⟩, fun ends => later (ends.2.2 _ m).2, gate ▸ opened, List.ne_nil_of_mem m, ?_⟩
    exact gone.1 (folded ▸ none)
  · refine .inr ⟨settles, fun ends => ⟨ends.1, ends.2.1, fun k m => ?_⟩, fun ends => ⟨ends.1, ends.2.1, fun k m => ?_⟩⟩
    · obtain ⟨point, listed⟩ := ends.2.2 k m
      refine ⟨point, (List.mem_append.1 listed).resolve_right fun last => settles ?_⟩
      have same : k = { point := p, kind } := by rw [← point, ← List.mem_singleton.1 last]
      rw [same] at m
      exact ⟨by rw [own]; exact member.1 m, gate.trans ends.1, folded.trans (gone.2 ends.2.2)⟩
    · exact ⟨(ends.2.2 k m).1, List.mem_append_left _ (ends.2.2 k m).2⟩

theorem DroppedAll.snoc (o : OneDropped p kind g t u) : DroppedAll p (ks ++ [kind]) g s u := by
  have own : t.key { point := p, kind } = s.key { point := p, kind } := d.keys _ (.inr later)
  have waits : t.rt.poolWait.erase { point := p, kind } = s.rt.poolWait.filter (stays p (ks ++ [kind])) := by
    rw [d.rt]
    exact filter_stays_erase h.lists.waitOnce p ks kind
  have count : t.rt.changeCount = s.rt.changeCount + BitVec.ofNat 16 (dropCount p ks s + if StormEnds p ks g s then 1 else 0) := by rw [d.rt]
  have counts := dropCount_snoc p ks kind s
  refine ⟨d.kept.trans o.kept, o.tb.trans d.tb, o.nu.trans d.nu, fun k out => ?_, fun k => (o.links k).trans (d.links k), fun i => ?_, ?_, ?_⟩
  · have other : { point := p, kind } ≠ k := by
      rintro rfl
      exact out.elim (fun ne => ne rfl) fun ne => ne (List.mem_append_right _ (List.mem_singleton_self _))
    exact (o.keys k other).trans (d.keys k (out.imp_right fun ne m => ne (List.mem_append_left _ m)))
  · rw [o.governors, d.governors, filter_stays_erase (h.lists.heldOnce i), filter_stays_erase (h.lists.foldedOnce i)]
  · rcases d.settles h group later with ⟨settles, notYet, ends⟩ | ⟨not, same⟩
    · have rt := d.rt
      rw [if_neg notYet] at rt
      rw [o.rt, if_pos settles, if_pos settles, if_pos ends, if_pos ends, waits, count, if_neg notYet, own, steps_add, counts,
        stormTable_congr rt d.tb, Nat.add_zero, Nat.add_assoc]
    · have regroup (a b c : Nat) : a + b + (c + 0) = a + c + b := by omega
      simp only [o.rt, if_neg not, waits, count, own, steps_add, counts, same, regroup]
      rw [d.rt]
  · rcases d.settles h group later with ⟨settles, notYet, ends⟩ | ⟨not, same⟩
    · have first := d.events
      have second := o.events
      rw [if_neg notYet] at first
      have record : t.record (stormIx g) = s.record (stormIx g) := by
        rw [State.record, d.rt, if_neg notYet]
        rfl
      rw [if_pos settles, stormTallies_congr record d.tb] at second
      rw [if_pos ends]
      exact counted_append first second
    · have first := d.events
      have second := o.events
      rw [if_neg not] at second
      simp only [same]
      have both := counted_append first second
      rwa [List.append_nil] at both

end Snoc

/-- The first stage of a withdrawal. -/
theorem droppedAll (h : Conditions (.withdrawing p) s) (group : s.groupOf { point := p, kind := .low } = g) :
    DroppedAll p allKinds g s (allKinds.foldl (dropPending p) s) := by
  have dropped (ks : List Kind) (once : ks.Nodup) :
      Conditions (.withdrawing p) (ks.foldl (dropPending p) s) ∧ DroppedAll p ks g s (ks.foldl (dropPending p) s) := by
    induction ks using List.reverseRecOn with
    | nil => exact ⟨h, .nil s⟩
    | append_singleton ks kind ih =>
      obtain ⟨onceKs, -, apart⟩ := List.nodup_append.1 once
      obtain ⟨conditions, before⟩ := ih onceKs
      have later : kind ∉ ks := fun m => apart kind m kind (List.mem_singleton_self kind) rfl
      have groupT : (ks.foldl (dropPending p) s).groupOf { point := p, kind } = g := by
        rw [← group, State.groupOf, State.groupOf, (before.kept.points p).1]
      rw [List.foldl_append, List.foldl_cons, List.foldl_nil]
      exact ⟨conditions.dropPending p kind rfl, before.snoc h group later (oneDropped_dropPending conditions groupT)⟩
  exact (dropped allKinds (by decide)).2

end Drops

end Sys2Proof.Machine
end

