-- ==== Sys2Proof/Proofs/WithdrawStages.lean ====
section
/-! PROOF. The stages of a withdrawal as the statement words them, and what they leave together (R40 to R42). -/

namespace Sys2Proof.Machine

/-! ## The stages (R40, R41) -/

section Words

variable {p : PointId} {s : State} {kind : Kind}

theorem quieted_eq (k : PointKey) (s : State) : quieted k s = putKey k .quiet s := rfl

theorem dropped_eq (p : PointId) (s : State) (kind : Kind) : dropped p s kind = dropPending p s kind := by
  have governor (x : Governor) : (putKey { point := p, kind } .quiet (putGovernor (s.groupOf { point := p, kind }) x s)).governor
      (s.groupOf { point := p, kind }) = x := (governor_putGovernor _ _ x s).trans (if_pos rfl)
  unfold dropped dropPending stormClearIfDue
  dsimp only
  cases state : (s.key { point := p, kind }).state with
  | folded =>
    simp only [governor]
    rfl
  | held => rfl
  | waiting => rfl
  | quiet => rfl
  | raised => rfl
  | cleared => rfl

theorem retireLinked_fst (p : PointId) (acc : State × Nat) (kind : Kind) : (retireLinked p acc kind).1 = unlinked p acc.1 kind := by
  unfold unlinked
  dsimp only
  split
  · next live =>
    cases link : (acc.1.key { point := p, kind }).link with
    | some i => rw [retireLinked_of_link live link]
    | none => rcases live with state | state <;> simp only [retireLinked, state, link]
  · next other => rw [retireLinked_of_other (fun e => other (.inl e)) fun e => other (.inr e)]

theorem foldl_unlinked (p : PointId) (ks : List Kind) (s : State) (n : Nat) :
    ks.foldl (unlinked p) s = (ks.foldl (retireLinked p) (s, n)).1 := by
  have general (acc : State × Nat) : ks.foldl (unlinked p) acc.1 = (ks.foldl (retireLinked p) acc).1 := by
    induction ks generalizing acc with
    | nil => rfl
    | cons kind ks ih => rw [List.foldl_cons, List.foldl_cons, ← ih, retireLinked_fst]
  exact general (s, n)

/-- The state after the two stages and the removal of the entry. -/
theorem withdraw_eq_words (p : PointId) (s : State) :
    (withdraw p s).1 = putPoint p .vacant (allKinds.foldl (unlinked p) (allKinds.foldl (dropped p) s)) := by
  have drops : dropped p = dropPending p := funext fun s => funext fun kind => dropped_eq p s kind
  rw [drops, foldl_unlinked p allKinds _ 0]
  rfl

end Words

/-! ## The second stage, record by record -/

section Links

variable {p : PointId} {s : State}

/-- The records linked to some kinds of a point. -/
def linksOf (p : PointId) (ks : List Kind) (s : State) : List RecordIx := ks.filterMap fun kind => (s.key { point := p, kind }).link

theorem linkedOf_eq (p : PointId) (s : State) : linkedOf p s = linksOf p allKinds s := rfl

/-- The second stage retires the records linked to the point, one after the other, and counts them. -/
theorem foldl_retireLinked (h : Conditions (.withdrawing p) s) (settled : ∀ kind, ¬ (s.key { point := p, kind }).state.pends)
    {ks : List Kind} (once : ks.Nodup) (n : Nat) :
    ks.foldl (retireLinked p) (s, n) = (retireEach (linksOf p ks s) s, n + (linksOf p ks s).length) := by
  induction ks generalizing s n with
  | nil => rfl
  | cons kind ks ih =>
    obtain ⟨later, once⟩ := List.nodup_cons.1 once
    have own := h.keys { point := p, kind }
    cases link : (s.key { point := p, kind }).link with
    | none =>
      have byState := own.linkByState
      rw [link] at byState
      have unlinked := of_decide_eq_false byState.symm
      obtain ⟨raised, cleared⟩ := not_or.1 unlinked
      rw [List.foldl_cons, retireLinked_of_other (acc := (s, n)) raised cleared, ih h settled once]
      simp [linksOf, link]
    | some i =>
      have byState := own.linkByState
      rw [link] at byState
      have linked := of_decide_eq_true byState.symm
      have step : retireLinked p (s, n) kind = (retire i s, n + 1) := retireLinked_of_link linked link
      obtain ⟨conditions, keys⟩ := h.retireLinked (acc := (s, n)) (kind := kind) rfl settled
      rw [step] at conditions keys
      have settled' (kind' : Kind) : ¬ ((retire i s).key { point := p, kind := kind' }).state.pends := by
        rw [show (retire i s).key { point := p, kind := kind' } = _ from keys kind']
        split
        · simp [KeyState.pends, KeyEntry.quiet]
        · exact settled kind'
      have same : linksOf p ks (retire i s) = linksOf p ks s := by
        refine List.filterMap_congr fun kind' m => ?_
        rw [show (retire i s).key { point := p, kind := kind' } = _ from keys kind', if_neg fun same : kind = kind' => later (same ▸ m)]
      have links : linksOf p (kind :: ks) s = i :: linksOf p ks s := by simp [linksOf, link]
      rw [List.foldl_cons, step, ih conditions settled' once, same, links, List.length_cons, Nat.add_assoc, Nat.add_comm 1]
      rfl

/-- The records linked to the kinds of a point are different ones. -/
theorem nodup_linksOf (h : Conditions (.withdrawing p) s) {ks : List Kind} (once : ks.Nodup) : (linksOf p ks s).Nodup := by
  refine once.filterMap fun kind kind' i own own' => ?_
  have holds := (h.linked_iff { point := p, kind } i).2 own
  have holds' := (h.linked_iff { point := p, kind := kind' } i).2 own'
  exact (PointKey.mk.inj (Key.point.inj (Option.some.inj (holds.symm.trans holds')))).2

theorem retiring_linksOf (h : Conditions (.withdrawing p) s) (settled : ∀ kind, ¬ (s.key { point := p, kind }).state.pends)
    (watch : s.tb.mode = .watch) : Retiring p (linksOf p allKinds s) s where
  conditions := h
  settled := settled
  watch := watch
  once := nodup_linksOf h (by decide)
  keys i m := by
    obtain ⟨kind, -, link⟩ := List.mem_filterMap.1 m
    exact ⟨kind, (h.linked_iff _ i).2 link⟩

end Links

end Sys2Proof.Machine
end

