-- ==== Sys2Proof/Proofs/Withdraw.lean ====
section
/-! PROOF. A withdrawal whole (R40 to R42): what its two stages leave together, field by field. -/

namespace Sys2Proof.Machine

/-- A withdrawal under way: the state `u` after the first stage, the state `x` after the second. -/
structure Withdrawing (p : PointId) (g : GroupId) (t u x : State) : Prop where
  start : Conditions (.withdrawing p) t
  watch : t.tb.mode = .watch
  drops : DroppedAll p allKinds g t u
  retiring : Retiring p (linkedOf p t) u
  retires : RetiredEach g (linkedOf p t) u x

section Stages

variable {p : PointId} {g : GroupId} {t u x : State}

theorem stays_allKinds : stays p allKinds = fun k => decide (k.point ≠ p) := by
  funext k
  have all : k.kind ∈ allKinds := by cases k.kind <;> decide
  simp [stays, all]

theorem filter_not_storm {i : RecordIx} {l : List RecordIx} (once : l.Nodup) (ends : Prop) [Decidable ends] :
    l.filter (fun j => !decide (ends ∧ j = i)) = if ends then l.erase i else l := by
  split
  · next ends =>
    rw [once.erase_eq_filter]
    refine List.filter_congr fun j _ => ?_
    by_cases same : j = i <;> simp [ends, same]
  · next not => exact List.filter_eq_self.2 fun j _ => by simp [not]

theorem withdrawing (h : Conditions (.withdrawing p) t) (watch : t.tb.mode = .watch) (group : t.groupOf { point := p, kind := .low } = g) :
    ∃ u x, Withdrawing p g t u x ∧ withdraw p t = (putPoint p .vacant x, (linkedOf p t).length) := by
  have drops := droppedAll h group
  obtain ⟨middle, settled⟩ := h.dropAll
  generalize dropped : allKinds.foldl (dropPending p) t = u at drops middle settled
  have links : linksOf p allKinds u = linkedOf p t := List.filterMap_congr fun kind _ => drops.links _
  have retiring := retiring_linksOf middle settled (drops.kept.mode.watch watch)
  have retires := retiring.each
  have ran : withdraw p t = (putPoint p .vacant (retireEach (linksOf p allKinds u) u), 0 + (linksOf p allKinds u).length) := by
    rw [withdraw, dropped, foldl_retireLinked middle settled (by decide) 0]
  have groupU : u.groupOf { point := p, kind := .low } = g := by rw [← group, State.groupOf, State.groupOf, (drops.kept.points p).1]
  rw [links] at retiring retires ran
  rw [groupU] at retires
  rw [Nat.zero_add] at ran
  exact ⟨u, _, ⟨h, watch, drops, retiring, retires⟩, ran⟩

namespace Withdrawing

variable (w : Withdrawing p g t u x)

include w

theorem poolWait_eq : u.rt.poolWait = waitingBut p t := by
  rw [w.drops.rt, stays_allKinds]
  rfl

theorem point_eq (q : PointId) : (x.point q).defn = (t.point q).defn ∧ (x.point q).lowBucket = (t.point q).lowBucket ∧
    (x.point q).highBucket = (t.point q).highBucket ∧ (x.point q).stale = (t.point q).stale ∧ (x.point q).shelve = (t.point q).shelve := by
  obtain ⟨a, b, c, d, e⟩ := w.retires.points q
  obtain ⟨a', b', c', d', e'⟩ := w.drops.kept.point w.watch q
  exact ⟨a.trans a', b.trans b', c.trans c', e.trans e', d.trans d'⟩

/-- The first stage leaves every record but that of a storm that clears. -/
theorem record_drops (i : RecordIx) (other : i ≠ stormIx g ∨ ¬ StormEnds p allKinds g t) : u.record i = t.record i := by
  rw [State.record, w.drops.rt]
  by_cases ends : StormEnds p allKinds g t
  · have ne := other.resolve_right (not_not_intro ends)
    rw [if_pos ends, stormTable]
    split <;> exact (vget_vset _ _ _ _).trans (if_neg ne.symm)
  · rw [if_neg ends]
    rfl

theorem ne_storm {i : RecordIx} (m : i ∈ linkedOf p t) : i ≠ stormIx g := by
  obtain ⟨kind, holds⟩ := w.retiring.keys i m
  rintro rfl
  have pool := isPool_of_point w.retiring.conditions.table holds
  rw [stormIx_not_pool] at pool
  cases pool

theorem record_gone {i : RecordIx} (m : i ∈ linkedOf p t) : u.record i = t.record i := w.record_drops i (.inl (w.ne_storm m))

theorem hutTime_eq : u.tb.hutTime = t.tb.hutTime := by rw [w.drops.tb]

/-- A key that waits and is of another point. -/
theorem key_waiting {k : PointKey} (m : k ∈ waitingBut p t) : k.point ≠ p ∧ u.key k = t.key k := by
  have other := of_decide_eq_true (List.mem_filter.1 m).2
  exact ⟨other, w.drops.keys k (.inl other)⟩

theorem otherKeys {k : PointKey} (other : k.point ≠ p) (notServed : k ∉ (waitingBut p t).take (linkedOf p t).length) : x.key k = t.key k := by
  refine (w.retires.otherKeys k (by rw [w.poolWait_eq]; exact notServed) fun i m holds => ?_).trans (w.drops.keys k (.inl other))
  obtain ⟨kind, own⟩ := w.retiring.keys i m
  have same : ({ point := p, kind } : PointKey) = k := Key.point.inj (Option.some.inj (own.symm.trans holds))
  exact other (same ▸ rfl)

theorem handed (j : Nat) (i : RecordIx) (k : PointKey) (v : Pending) (place : (linkedOf p t)[j]? = some i)
    (waits : (waitingBut p t)[j]? = some k) (pending : (t.key k).pending = some v) :
    x.key k = { state := .raised, link := some i, pending := none } ∧ x.record i = begun (.point k) v.severity v.value t := by
  obtain ⟨-, same⟩ := w.key_waiting (List.mem_of_getElem? waits)
  obtain ⟨key, record⟩ := w.retires.handed j i k v place (by rw [w.poolWait_eq]; exact waits) (by rw [same]; exact pending)
  refine ⟨key, record.trans ?_⟩
  rw [begun, begun, w.hutTime_eq]

theorem freed (j : Nat) (i : RecordIx) (place : (linkedOf p t)[j]? = some i) (none : (waitingBut p t)[j]? = none) :
    x.record i = ended .free (t.record i) := by
  rw [w.retires.freed j i place (by rw [w.poolWait_eq]; exact none), w.record_gone (List.mem_of_getElem? place)]

theorem otherRecords (i : RecordIx) (kept : i ∉ linkedOf p t) (other : i ≠ stormIx g ∨ ¬ StormEnds p allKinds g t) : x.record i = t.record i :=
  (w.retires.others i kept).trans (w.record_drops i other)

theorem stormRecord (ends : StormEnds p allKinds g t) : x.record (stormIx g) =
    if (t.record (stormIx g)).state = .standing then
      { t.record (stormIx g) with state := .cleared, clearTime := some t.tb.hutTime }
    else ended .idle (t.record (stormIx g)) := by
  rw [w.retires.others _ fun m => w.ne_storm m rfl, State.record, w.drops.rt, if_pos ends, stormTable]
  split <;> exact (vget_vset _ _ _ _).trans (if_pos rfl)

theorem governor_eq (h : GroupId) : x.governor h = { t.governor h with
    held := (t.governor h).held.filter fun k => decide (k.point ≠ p), folded := (t.governor h).folded.filter fun k => decide (k.point ≠ p) } := by
  rw [State.governor, w.retires.sg, ← stays_allKinds]
  exact w.drops.governors h

theorem free_eq : x.rt.free = t.rt.free ++ (linkedOf p t).drop (waitingBut p t).length := by
  have same : u.rt.free = t.rt.free := by
    rw [w.drops.rt]
    dsimp only
    split
    · unfold stormTable
      split <;> rfl
    · rfl
  rw [w.retires.free, w.poolWait_eq, same]

/-! ### The lists -/

theorem standing_drops : u.rt.standing = t.rt.standing.filter fun i => !decide (StormEnds p allKinds g t ∧ i = stormIx g) := by
  have lists := w.start.table.lists
  rw [filter_not_storm lists.standingOnce, w.drops.rt]
  split
  · unfold stormTable
    split
    · rfl
    · next other => exact (List.erase_of_not_mem fun m => other ((lists.standing _).1 m)).symm
  · rfl

theorem acknowledged_drops : u.rt.acknowledged = t.rt.acknowledged.filter fun i => !decide (StormEnds p allKinds g t ∧ i = stormIx g) := by
  have lists := w.start.table.lists
  rw [filter_not_storm lists.acknowledgedOnce, w.drops.rt]
  split
  · unfold stormTable
    split
    · next standing => exact (List.erase_of_not_mem fun m => nomatch standing.symm.trans ((lists.acknowledged _).1 m)).symm
    · rfl
  · rfl

theorem cleared_drops : u.rt.cleared =
    t.rt.cleared ++ if StormEnds p allKinds g t ∧ (t.record (stormIx g)).state = .standing then [stormIx g] else [] := by
  have lists := w.start.table.lists
  rw [w.drops.rt]
  by_cases ends : StormEnds p allKinds g t
  · by_cases standing : (t.record (stormIx g)).state = .standing
    · have notIn : stormIx g ∉ t.rt.cleared := fun m => nomatch standing.symm.trans ((lists.cleared _).1 m)
      have both : StormEnds p allKinds g t ∧ (t.record (stormIx g)).state = .standing := ⟨ends, standing⟩
      rw [if_pos both, if_pos ends, stormTable, if_pos standing]
      exact congrArg (· ++ [stormIx g]) (List.erase_of_not_mem notIn)
    · have not : ¬ (StormEnds p allKinds g t ∧ (t.record (stormIx g)).state = .standing) := fun both => standing both.2
      rw [if_neg not, if_pos ends, stormTable, if_neg standing, List.append_nil]
  · have not : ¬ (StormEnds p allKinds g t ∧ (t.record (stormIx g)).state = .standing) := fun both => ends both.1
    rw [if_neg not, if_neg ends, List.append_nil]

theorem standing_eq : x.rt.standing =
    t.rt.standing.filter (fun i => !(linkedOf p t).contains i && !decide (StormEnds p allKinds g t ∧ i = stormIx g)) ++
      (linkedOf p t).take (waitingBut p t).length := by
  rw [w.retires.standing, w.standing_drops, w.poolWait_eq, List.filter_filter]

theorem acknowledged_eq : x.rt.acknowledged =
    t.rt.acknowledged.filter fun i => !(linkedOf p t).contains i && !decide (StormEnds p allKinds g t ∧ i = stormIx g) := by
  rw [w.retires.acknowledged, w.acknowledged_drops, List.filter_filter]

theorem cleared_eq : x.rt.cleared = t.rt.cleared.filter (fun i => !(linkedOf p t).contains i) ++
    if StormEnds p allKinds g t ∧ (t.record (stormIx g)).state = .standing then [stormIx g] else [] := by
  have notGone : stormIx g ∉ linkedOf p t := fun m => w.ne_storm m rfl
  rw [w.retires.cleared, w.cleared_drops, List.filter_append]
  split
  · simp [notGone]
  · rfl

/-! ### The change count, the notices and the events -/

theorem tb_eq : x.tb = t.tb := w.retires.tb.trans w.drops.tb

theorem outside_eq : x.outside = t.outside := w.retires.outside.trans w.drops.kept.outside

theorem waits_eq : x.rt.poolWait = (waitingBut p t).drop (linkedOf p t).length := by
  rw [w.retires.poolWait, w.poolWait_eq]

theorem changeCount_eq : x.rt.changeCount = t.rt.changeCount + BitVec.ofNat 16
    (dropCount p allKinds t + (linkedOf p t).length + 2 * min (linkedOf p t).length (waitingBut p t).length +
      if StormEnds p allKinds g t then 1 else 0) := by
  have count : u.rt.changeCount =
      t.rt.changeCount + BitVec.ofNat 16 (dropCount p allKinds t + if StormEnds p allKinds g t then 1 else 0) := by rw [w.drops.rt]
  have regroup (a b c d : Nat) : a + d + (b + c) = a + b + c + d := by omega
  rw [w.retires.changeCount, count, steps_add, w.poolWait_eq, regroup]

theorem noticed_eq {k : PointKey} (m : k ∈ waitingBut p t) : noticed u k =
    decide (t.nu.level.level ≤ (t.pendingOf k).severity.level ∧ (t.point k.point).shelve = 0) := by
  obtain ⟨-, same⟩ := w.key_waiting m
  rw [noticed, w.drops.nu, pendingOf_congr same, (w.drops.kept.points k.point).2.2.2.1]

theorem nu_eq : x.nu =
    if ((waitingBut p t).take (linkedOf p t).length).any fun k =>
      decide (t.nu.level.level ≤ (t.pendingOf k).severity.level ∧ (t.point k.point).shelve = 0)
    then { t.nu with flags := t.nu.flags ||| 0x02#8 } else t.nu := by
  rw [w.retires.nu, w.poolWait_eq, w.drops.nu]
  refine if_congr ?_ rfl rfl
  rw [List.any_eq_true, List.any_eq_true]
  exact exists_congr fun k => and_congr_right fun m => by rw [w.noticed_eq (List.mem_of_mem_take m)]

theorem events_eq : counted ((if StormEnds p allKinds g t then stormTallies g t else []) ++ handTallies g t (waitingBut p t) (linkedOf p t))
    t x := by
  have second := w.retires.events
  rw [w.poolWait_eq, handTallies_congr (fun i m => w.record_gone m) w.hutTime_eq
    (fun k m => pendingOf_congr (w.key_waiting m).2)
    fun k => by rw [State.groupOf, State.groupOf, (w.drops.kept.points k.point).1]] at second
  exact counted_append w.drops.events second

end Withdrawing

end Stages

/-! ## The counts of the statement -/

section Counts

variable {p : PointId} {g : GroupId} {s : State}

theorem dropCount_allKinds (p : PointId) (s : State) : dropCount p allKinds s = keysIn p .held s + keysIn p .waiting s := by
  have general (ks : List Kind) : dropCount p ks s =
      (ks.countP fun kind => decide ((s.key { point := p, kind }).state = .held)) +
        ks.countP fun kind => decide ((s.key { point := p, kind }).state = .waiting) := by
    induction ks with
    | nil => rfl
    | cons kind ks ih =>
      have first : dropCount p (kind :: ks) s = dropSteps (s.key { point := p, kind }).state + dropCount p ks s := rfl
      rw [first, ih, List.countP_cons, List.countP_cons]
      cases (s.key { point := p, kind }).state <;> simp [dropSteps] <;> omega
  exact general allKinds

theorem length_linkedOf (h : Conditions (.withdrawing p) s) : (linkedOf p s).length = keysIn p .raised s + keysIn p .cleared s := by
  have general (ks : List Kind) : (linksOf p ks s).length =
      (ks.countP fun kind => decide ((s.key { point := p, kind }).state = .raised)) +
        ks.countP fun kind => decide ((s.key { point := p, kind }).state = .cleared) := by
    induction ks with
    | nil => rfl
    | cons kind ks ih =>
      have byState := (h.keys { point := p, kind }).linkByState
      rw [linksOf, List.filterMap_cons, List.countP_cons, List.countP_cons]
      cases state : (s.key { point := p, kind }).state <;> cases link : (s.key { point := p, kind }).link <;> rw [state, link] at byState <;>
        simp_all [linksOf] <;> omega
  exact general allKinds

/-- The last Folded key of the group goes, as the statement words it. -/
theorem stormEnds_iff (h : Conditions (.withdrawing p) s) (group : ∀ kind, s.groupOf { point := p, kind } = g) :
    (0 < keysIn p .folded s ∧ (s.governor g).gate = .opened ∧ ∀ k ∈ (s.governor g).folded, k.point = p) ↔ StormEnds p allKinds g s := by
  have all (kind : Kind) : kind ∈ allKinds := by cases kind <;> decide
  constructor
  · rintro ⟨some, opened, own⟩
    obtain ⟨kind, -, folded⟩ := List.countP_pos_iff.1 some
    have m : { point := p, kind } ∈ (s.governor g).folded := ((h.keys _).folded g).2 ⟨of_decide_eq_true folded, group kind⟩
    exact ⟨opened, List.ne_nil_of_mem m, fun k m => ⟨own k m, all k.kind⟩⟩
  · rintro ⟨opened, some, own⟩
    obtain ⟨k, m⟩ := List.exists_mem_of_ne_nil _ some
    have point := (own k m).1
    have folded := (((h.keys k).folded g).1 m).1
    refine ⟨List.countP_pos_iff.2 ⟨k.kind, all k.kind, ?_⟩, opened, fun k m => (own k m).1⟩
    rw [decide_eq_true_eq, ← point]
    exact folded

/-- The events of a hand-over, if a key waits. -/
def handOverTallies (s : State) : Option PointKey → List Tally
  | some w => [(s.groupOf w, .released, some (s.pendingOf w).severity, 0), (s.groupOf w, .raised, some (s.pendingOf w).severity, 0)]
  | none => []

/-- The events of the retirements, as the statement words them: each record with the key of its own place on the wait list. -/
theorem handTallies_eq (g : GroupId) (s : State) (wait : List PointKey) (l : List RecordIx) (n : Nat) :
    handTallies g s (wait.drop n) l = (l.zipIdx n).flatMap fun c =>
      (g, .retired, some (s.record c.1).severity, liveDuration (s.record c.1) s) :: handOverTallies s wait[c.2]? := by
  induction l generalizing n with
  | nil => cases wait.drop n <;> rfl
  | cons i l ih =>
    rw [List.zipIdx_cons, List.flatMap_cons, ← ih]
    cases rest : wait.drop n with
    | nil =>
      have short : wait.length ≤ n := List.drop_eq_nil_iff.1 rest
      rw [List.getElem?_eq_none short, List.drop_eq_nil_of_le (Nat.le_succ_of_le short)]
      rfl
    | cons w tail =>
      have here : wait[n]? = some w := by rw [← List.head?_drop, rest]; rfl
      have later : wait.drop (n + 1) = tail := by rw [← List.tail_drop, rest]; rfl
      rw [here, later]
      rfl

end Counts

/-! ## The withdrawn point -/

/-- Nothing names a key that is Quiet. -/
theorem Conditions.traceless {s : State} (h : Conditions .none s) {k : PointKey} (quiet : s.key k = .quiet) :
    (∀ i, (s.record i).key ≠ some (.point k)) ∧ k ∉ s.rt.poolWait ∧ ∀ g, k ∉ (s.governor g).held ∧ k ∉ (s.governor g).folded := by
  refine ⟨fun i holds => ?_, fun m => ?_, fun g => ⟨fun m => ?_, fun m => ?_⟩⟩
  · have link := (h.linked_iff k i).1 holds
    rw [quiet] at link
    cases link
  · have state := (h.keys k).waiting.1 m
    rw [quiet] at state
    cases state
  · have state := (((h.keys k).held g).1 m).1
    rw [quiet] at state
    cases state
  · have state := (((h.keys k).folded g).1 m).1
    rw [quiet] at state
    cases state

theorem key_vacated {k : PointKey} (own : k.point = p) (s : State) : (putPoint p .vacant s).key k = .quiet := by
  rw [key_putPoint, if_pos own.symm]
  cases k.kind <;> rfl

theorem key_of_vacated {k : PointKey} (other : k.point ≠ p) (s : State) : (putPoint p .vacant s).key k = s.key k := by
  rw [key_putPoint, if_neg other.symm]

/-! ## The row -/

section Row

variable {b : Byte} {p : PointId} {s : State}

theorem serveWithdrawPoint_of_badField (bad : 63 < b.toNat) (s : State) : serveWithdrawPoint b s = refusing .badField s := by
  simp only [serveWithdrawPoint, pointNumber_eq_none bad]
  rfl

theorem serveWithdrawPoint_of_vacant (point : p.val = b.toNat) (vacant : (s.point p).defn = none) :
    serveWithdrawPoint b s = refusing .pointVacant s := by
  simp only [serveWithdrawPoint, pointNumber_eq_some_iff.2 point, if_neg fun h => inService_iff.1 h vacant]
  rfl

theorem serveWithdrawPoint_of_inService (point : p.val = b.toNat) (inService : (s.point p).defn ≠ none) :
    serveWithdrawPoint b s = ((withdraw p s).1, { status := .done, body := [sent1 (withdraw p s).2] }) := by
  simp only [serveWithdrawPoint, pointNumber_eq_some_iff.2 point, if_pos (inService_iff.2 inService)]
  rfl

theorem exec_withdrawPoint_of_served {x : State} {reply : Reply} (hs : served .localPort s)
    (h : serveWithdrawPoint b (atService .localPort (.withdrawPoint b) s) = (x, reply)) :
    exec (.withdrawPoint .localPort b) s = .next (withReply .localPort (.withdrawPoint b) reply x) := by
  rw [exec_request _ _ _ rfl]
  exact congrArg _ ((takeLocal_of_served hs _).trans (answered_eq_withReply h))

/-- At the point of a withdrawal, under the laws. -/
theorem conditions_atService (inv : Machine.Inv s) {t : State} (core : t.core = s.core) : Conditions .none t :=
  (conditions_of_laws inv.table inv.keys inv.waits inv.diverted inv.storms).congr
    (fun q => ⟨defn_of_core core q, bucket_of_core core q⟩) (rt_of_core core) (key_of_core core) (sg_of_core core)

theorem linkedOf_of_core {t : State} (core : t.core = s.core) (p : PointId) : linkedOf p s = linkedOf p t := by
  simp only [linkedOf, key_of_core core]

theorem waitingBut_of_core {t : State} (core : t.core = s.core) (p : PointId) : waitingBut p s = waitingBut p t := by
  simp only [waitingBut, rt_of_core core]

theorem keysIn_of_core {t : State} (core : t.core = s.core) (p : PointId) (state : KeyState) : keysIn p state s = keysIn p state t := by
  simp only [keysIn, key_of_core core]

end Row

/-- Settles O19: a withdrawal is its two stages and the removal of the entry; under the laws what they leave is known field by field. -/
theorem withdrawPointRemovesEveryTrace : Obligations.WithdrawPointRemovesEveryTrace := by
  unfold Obligations.WithdrawPointRemovesEveryTrace
  refine ⟨fun b s hs => ?_, fun i k s table live key notWaiting =>
    retired_retire table.lists (isPool_of_point table key) live key notWaiting⟩
  intro t ends
  have core : t.core = s.core := core_atService .localPort (.withdrawPoint b) s
  have watch : t.tb.mode = .watch := mode_atService_localPort hs _
  have notices : t.nu = s.nu := nu_atService_localPort _ s
  have row {x : State} {reply : Reply} (h : serveWithdrawPoint b t = (x, reply)) : ends x reply := exec_withdrawPoint_of_served hs h
  refine ⟨fun bad => row (serveWithdrawPoint_of_badField bad t), fun p point => ?_⟩
  have defn := defn_of_core core p
  refine ⟨fun vacant => row (serveWithdrawPoint_of_vacant point (defn.trans vacant)), fun d defined => ?_⟩
  have inService : (t.point p).defn ≠ none := by rw [defn, defined]; exact Option.some_ne_none d
  intro kinds gone wait storm y vacant x stormEnds
  have after : (withdraw p t).1 = x := withdraw_eq_words p t
  refine ⟨(withdraw p t).2, row (by rw [serveWithdrawPoint_of_inService point inService, after]), fun inv => ?_⟩
  have conditions := conditions_atService inv core
  have start : Conditions (.withdrawing p) t := conditions.mono (fun _ => False.elim) (fun _ => id) fun _ => id
  have group (kind : Kind) : t.groupOf { point := p, kind } = d.group := by simp [State.groupOf, defn, defined]
  obtain ⟨u, z, w, ran⟩ := withdrawing start watch (group .low)
  have left : x = putPoint p .vacant z := after.symm.trans (congrArg Prod.fst ran)
  have count : (withdraw p t).2 = (linkedOf p t).length := congrArg Prod.snd ran
  have settles : stormEnds ↔ StormEnds p allKinds d.group t := by
    rw [← stormEnds_iff start group, ← keysIn_of_core core, governor_of_core core]
  have shelves (q : PointId) : (s.point q).shelve = (t.point q).shelve := (shelve_of_core core q).symm
  have gones : gone = linkedOf p t := linkedOf_of_core core p
  have waits : wait = waitingBut p t := waitingBut_of_core core p
  clear_value x gone wait
  subst left gones waits
  simp only [settles, keysIn_of_core core, ← rt_of_core core, ← record_of_core core, ← key_of_core core, ← governor_of_core core,
    ← groupOf_of_core core, ← pendingOf_of_core core, shelves, ← notices, count]
  refine ⟨length_linkedOf start, length_linkedOf start, w.outside_eq, w.tb_eq, ?_, fun q other => ?_, fun k other notServed => ?_,
    fun j i k v place waits pending => ?_, w.freed, w.otherRecords, w.stormRecord, w.waits_eq, w.free_eq, w.governor_eq, w.standing_eq,
    w.acknowledged_eq, w.cleared_eq, ?_, w.nu_eq, ?_⟩
  · have ended := conditions.withdraw p
    rw [ran] at ended
    exact fun k own => ended.traceless (key_vacated own z)
  · rw [point_putPoint, if_neg other.symm]
    exact w.point_eq q
  · exact (key_of_vacated other z).trans (w.otherKeys other notServed)
  · have other := (w.key_waiting (List.mem_of_getElem? waits)).1
    rw [key_of_vacated other z]
    exact w.handed j i k v place waits pending
  · rw [← dropCount_allKinds]
    exact w.changeCount_eq
  · have hands := handTallies_eq d.group t (waitingBut p t) (linkedOf p t) 0
    have events := w.events_eq
    rw [List.drop_zero] at hands
    rw [hands] at events
    exact counted_congr events rfl rfl

end Sys2Proof.Machine
end
